-- ==== Sys2Proof/Word.lean ====
section
/-! DEFINITION. The words of the machine: 32-bit registers and packet words, bytes of a buffer, 64-bit bus
addresses, packets. Bit 0 is the least significant bit (00_scope.md R9); all quantities are unsigned. -/

namespace Sys2Proof

/-- A 32-bit register or packet word (R9, R71, R100). -/
abbrev Word := BitVec 32

/-- A byte of a channel's buffer (R70). -/
abbrev Byte := BitVec 8

/-- A 64-bit bus address (R57, R84). -/
abbrev BusAddr := BitVec 64

/-- A command or response packet: the words W0, W1, ... delivered whole (R100, R110). -/
abbrev Packet := List Word

end Sys2Proof
end

