-- ==== Sys2Proof/Config.lean ====
section
/-! DEFINITION. The configuration layer: the parameters the spec fixes (00_scope.md R6), the numeric choices it
keeps in one table so that an audit changes the table and no rule (R7; 92_eei_decisions.md D4 to D10), the
parameters it leaves open (R8) and the free values. UNVERIFIED against silicon: notes/assumptions/22.md. -/

namespace Sys2Proof.Config

/-! ## R6: fixed parameters -/

/-- Number of channels. -/
abbrev nCh : Nat := 8
/-- Number of legal peripheral slave ids. -/
abbrev nSlave : Nat := 32
/-- Bytes from one channel block to the next. -/
abbrev chStride : Nat := 0x40
/-- Byte offset of channel 0's block. -/
abbrev chTableOff : Nat := 0x40
/-- Size in bytes of the whole register region (90_conflicts.md C1). -/
abbrev regionSize : Nat := 0x224
/-- Bits between two channels' completion bits in the status word. -/
abbrev statStride : Nat := 4
/-- Position of the global interrupt-enable bit of DMA_MASK. -/
abbrev gieBit : Nat := 31
/-- Required alignment of a buffer bus address. -/
abbrev addrAlign : Nat := 4
/-- Required granule of a transfer size. -/
abbrev sizeAlign : Nat := 4
/-- Least legal transfer size. -/
abbrev sizeMin : Nat := 4
/-- Alignment the core asks of the allocator. -/
abbrev bufAlign : Nat := 128
/-- Width of the peripheral-select field. -/
abbrev selW : Nat := 7
/-- Width of the timeout threshold field. -/
abbrev tmoW : Nat := 30

/-! ## R7: the table of decided constants -/

abbrev offCtl : Nat := 0x00
abbrev offChselL : Nat := 0x04
abbrev offStat : Nat := 0x08
abbrev offMask : Nat := 0x0C
abbrev offBind : Nat := 0x20
abbrev offCap : Nat := 0x24
abbrev offChselH : Nat := 0x28

abbrev choAddrUp : Nat := 0x00
abbrev choAddrLo : Nat := 0x04
abbrev choDevAddr : Nat := 0x08
abbrev choXferSize : Nat := 0x0C
abbrev choCurUp : Nat := 0x10
abbrev choCurLo : Nat := 0x14
abbrev choCtl : Nat := 0x18
abbrev choSts : Nat := 0x1C
abbrev choTmo : Nat := 0x20

abbrev ctlEnBit : Nat := 0
abbrev ctlSrstBit : Nat := 1
abbrev chEnBit : Nat := 0
abbrev chSrstBit : Nat := 1
abbrev chDirBit : Nat := 2
/-- DIR_M2D: memory to device. -/
abbrev dirM2D : Bool := false
/-- DIR_D2M: device to memory. -/
abbrev dirD2M : Bool := true
/-- Position of the select-enable flag inside a channel's 8-bit select field. -/
abbrev selenBit : Nat := 7
/-- Position of the select inside a channel's 8-bit select field: the bits `selenBit` leaves (R32, D7). -/
abbrev selPos : Nat := 0
/-- CHM_POLARITY: the value of a mask bit that masks its channel. -/
abbrev chmMasked : Bool := true
/-- GIE_POLARITY: the value of bit 31 of DMA_MASK that enables the line. -/
abbrev gieEnabled : Bool := true
abbrev stsEmptyBit : Nat := 0
abbrev stsFullBit : Nat := 1
abbrev tmoEnBit : Nat := 31

/-- MASK_ALL, "all channels masked" with the global enable off (R35, R125). -/
abbrev maskAll : Word := 0x000000FF#32
/-- STAT_CLEAR_ALL, the all-ones word HANDLE_IRQ writes (R124). -/
abbrev statClearAll : Word := 0xFFFFFFFF#32

/-! ## R8: BASE -/

/-- The constraints on the caller-supplied base address (R8, D30): not null, 4-aligned, the region does not wrap. -/
def BaseOk (base : BusAddr) : Prop :=
  base ≠ 0 ∧ base.toNat % 4 = 0 ∧ base.toNat + regionSize ≤ 2 ^ 64

/-- The absolute address of a register offset (R71). No rule's result depends on it. -/
def absAddr (base : BusAddr) (off : Nat) : BusAddr := base + BitVec.ofNat 64 off

/-! ## Free values and implementation constants (opaque: nothing in Lean can evaluate them) -/

/-- `CAP_VALUE`, the constant read from DMA_CAP (R8, R37). notes/assumptions/8.md. -/
opaque capValue : Word

/-- `draw(32 bits)`: the n-th free value the machine takes (R10). A narrower draw is its low bits.
notes/assumptions/6.md. -/
opaque draw : Nat → Word

/-- The allocator's answer to a request for which the HOST has none ready: `none` is FAIL, `some ba` is OK(ba)
(R84: the answer is a draw). notes/assumptions/7.md. -/
opaque allocDraw : Nat → Option BusAddr

end Sys2Proof.Config
end

