-- ==== Sys2Proof/Syntax.lean ====
section
/-! DEFINITION. The syntax of commands and responses: the field identifiers of 30_encoding.md R108, the sixteen
commands of R104 as one inductive type `Instr`, the responses of R110, the pseudo-instructions of R113. -/

namespace Sys2Proof

/-- The field identifiers (FID), in the order of the table of R108. -/
inductive Fld where
  | ctlAll | ctlEn | ctlSrst
  | chselSel | chselSelen | chselLAll | chselHAll
  | statAll | statDone
  | maskAll | maskChm | maskGie
  | bindAll | bindBound
  | capAll
  | addrUp | addrLo | devAddr | xferSize | curUp | curLo
  | chctlAll | chctlEn | chctlSrst | chctlDir
  | chstsAll | chstsEmpty | chstsFull
  | tmoAll | tmoThresh | tmoEn
  deriving DecidableEq, Repr

/-- Every field identifier, once. -/
def Fld.all : List Fld :=
  [.ctlAll, .ctlEn, .ctlSrst, .chselSel, .chselSelen, .chselLAll, .chselHAll, .statAll, .statDone,
   .maskAll, .maskChm, .maskGie, .bindAll, .bindBound, .capAll, .addrUp, .addrLo, .devAddr, .xferSize,
   .curUp, .curLo, .chctlAll, .chctlEn, .chctlSrst, .chctlDir, .chstsAll, .chstsEmpty, .chstsFull,
   .tmoAll, .tmoThresh, .tmoEn]

/-- The sixteen commands (R104) with their operands (R22, R102). An operand is as wide as its packet field, so
that the illegal values the spec lets a caller send can be sent. -/
inductive Instr where
  /-- FLD_RD field[, ch] (R142) -/
  | fldRd (f : Fld) (idx : BitVec 8)
  /-- FLD_WR field[, ch], value (R143) -/
  | fldWr (f : Fld) (idx : BitVec 8) (value : Word)
  /-- FLD_MOD field[, ch], value (R144) -/
  | fldMod (f : Fld) (idx : BitVec 8) (value : Word)
  /-- CTRL_RESET (R190) -/
  | ctrlReset
  /-- CTRL_ENABLE (R191) -/
  | ctrlEnable
  /-- CTRL_DISABLE (R192) -/
  | ctrlDisable
  /-- NEW_CHANNEL (R193) with the ChannelConfig record of R107 -/
  | newChannel (idx slave : BitVec 8) (dir irq : Bool) (size dev : Word) (tmo : BitVec 30)
  /-- IS_COMPLETE ch (R194) -/
  | isComplete (idx : BitVec 8)
  /-- CLR_COMPLETE ch (R195) -/
  | clrComplete (idx : BitVec 8)
  /-- SET_MASK ch, masked (R196) -/
  | setMask (idx : BitVec 8) (masked : Bool)
  /-- CH_ACTIVATE ch (R163) -/
  | chActivate (idx : BitVec 8)
  /-- CH_DEACTIVATE ch (R164) -/
  | chDeactivate (idx : BitVec 8)
  /-- CH_IS_RUNNING ch (R165) -/
  | chIsRunning (idx : BitVec 8)
  /-- BUF_WR ch, off, bytes (R166) -/
  | bufWr (idx : BitVec 8) (off : Word) (data : List Byte)
  /-- BUF_RD ch, off, n (R167) -/
  | bufRd (idx : BitVec 8) (off : Word) (n : BitVec 16)
  /-- HANDLE_IRQ (R221) -/
  | handleIrq
  deriving DecidableEq, Repr

/-- How a command that responds ends (R110, R250). -/
inductive Resp where
  /-- RC 0 with the value words of R111 -/
  | ok (vals : List Word)
  /-- RC 1: NEW_CHANNEL constructed no channel (R251) -/
  | none
  /-- RC 2: ContractViolation (R252) -/
  | contract
  /-- RC 3: IllegalCommand (R253) -/
  | illegal
  deriving DecidableEq, Repr

/-- The pseudo-instructions (R113) that stand for a fixed list of commands. `WAITC` is a loop of the HOST and
stands in Machine/Host.lean. -/
inductive Pseudo where
  | mask (idx : BitVec 8)
  | unmask (idx : BitVec 8)
  | gieOn
  | gieOff
  | debugStatus
  deriving DecidableEq, Repr

end Sys2Proof
end

