-- ==== Sys2Proof/WellFormed.lean ====
section
/-! DEFINITION. Which commands have an encoding: a field of the global block is sent with IDX = 0 (30_encoding.md
R101, R109), and BUF_WR carries at most 65535 bytes, the largest count its 16-bit N can say (R101, R102). Every
other operand fits its packet field by its type. A channel index of 8 or more is no encoding error (R109). -/

namespace Sys2Proof

/-- "ch" in the kind column of R108: the field belongs to channel `idx`. -/
def Fld.isCh : Fld → Bool
  | .ctlAll | .ctlEn | .ctlSrst | .chselLAll | .chselHAll | .statAll | .maskAll | .maskGie | .bindAll
  | .capAll => false
  | .chselSel | .chselSelen | .statDone | .maskChm | .bindBound | .addrUp | .addrLo | .devAddr | .xferSize
  | .curUp | .curLo | .chctlAll | .chctlEn | .chctlSrst | .chctlDir | .chstsAll | .chstsEmpty | .chstsFull
  | .tmoAll | .tmoThresh | .tmoEn => true

/-- A global field is sent with IDX = 0 (R108, R109). -/
def fieldIdxOk (f : Fld) (idx : BitVec 8) : Bool := f.isCh || idx == 0

/-- The byte count of BUF_WR fits its 16-bit field (R101). -/
def dataLenOk (data : List Byte) : Bool := decide (data.length < 2 ^ 16)

/-- The command has an encoding (R109). -/
def Instr.wf : Instr → Bool
  | .fldRd f idx => fieldIdxOk f idx
  | .fldWr f idx _ => fieldIdxOk f idx
  | .fldMod f idx _ => fieldIdxOk f idx
  | .ctrlReset => true
  | .ctrlEnable => true
  | .ctrlDisable => true
  | .newChannel _ _ _ _ _ _ _ => true
  | .isComplete _ => true
  | .clrComplete _ => true
  | .setMask _ _ => true
  | .chActivate _ => true
  | .chDeactivate _ => true
  | .chIsRunning _ => true
  | .bufWr _ _ data => dataLenOk data
  | .bufRd _ _ _ => true
  | .handleIrq => true

end Sys2Proof
end

