-- ==== Sys2Proof/Decode.lean ====
section
/-! DEFINITION. The packet codec of 30_encoding.md Part A: the opcode map (R104), operand assembly (R102), packet
lengths (R103), illegal packets rejected by name (R109), the encoder, the response packets (R110, R111), and
`decodeTableWord`, the decoder read through the numbering of spec/opcode_table.json. -/

namespace Sys2Proof

/-! ## Bytes and words (R102: the byte with the lowest buffer offset goes to bits 7:0) -/

/-- Four bytes as one word, little-endian. -/
def wordOfBytes (a b c d : Byte) : Word := d ++ c ++ b ++ a

/-- Bytes packed into words, unused high bytes of the last word zero (R102, R111). -/
def packBytes : List Byte → List Word
  | a :: b :: c :: d :: rest => wordOfBytes a b c d :: packBytes rest
  | [a, b, c] => [wordOfBytes a b c 0]
  | [a, b] => [wordOfBytes a b 0 0]
  | [a] => [wordOfBytes a 0 0 0]
  | [] => []

/-- The four bytes of a word, lowest first. -/
def bytesOfWord (w : Word) : List Byte :=
  [w.extractLsb' 0 8, w.extractLsb' 8 8, w.extractLsb' 16 8, w.extractLsb' 24 8]

/-- The bytes of data words, lowest first. -/
def unpackBytes (ws : List Word) : List Byte := ws.flatMap bytesOfWord

/-- `ceil(n/4)`, the data words that hold `n` bytes (R103). -/
def wordsFor (n : Nat) : Nat := (n + 3) / 4

/-! ## The opcode map (R104) -/

/-- The rows of R104 by name. -/
inductive Op where
  | fldRd | fldWr | fldMod | ctrlReset | ctrlEnable | ctrlDisable | newChannel | isComplete | clrComplete
  | setMask | chActivate | chDeactivate | chIsRunning | bufWr | bufRd | handleIrq
  deriving DecidableEq, Repr

/-- One row: a header word `w` selects it iff `w & mask == pattern`. -/
structure OpRow where
  op : Op
  pattern : Word
  mask : Word
  deriving DecidableEq, Repr

/-- The opcode map, in the order of R104. -/
def opTable : List OpRow :=
  [⟨.fldRd, 0x01000000#32, 0xFF00FF00#32⟩,
   ⟨.fldWr, 0x02000000#32, 0xFF00FF00#32⟩,
   ⟨.fldMod, 0x03000000#32, 0xFF00FF00#32⟩,
   ⟨.ctrlReset, 0x10000000#32, 0xFFFFFFFF#32⟩,
   ⟨.ctrlEnable, 0x11000000#32, 0xFFFFFFFF#32⟩,
   ⟨.ctrlDisable, 0x12000000#32, 0xFFFFFFFF#32⟩,
   ⟨.newChannel, 0x13000000#32, 0xFF00FC00#32⟩,
   ⟨.isComplete, 0x14000000#32, 0xFF00FFFF#32⟩,
   ⟨.clrComplete, 0x15000000#32, 0xFF00FFFF#32⟩,
   ⟨.setMask, 0x16000000#32, 0xFF00FFFE#32⟩,
   ⟨.chActivate, 0x20000000#32, 0xFF00FFFF#32⟩,
   ⟨.chDeactivate, 0x21000000#32, 0xFF00FFFF#32⟩,
   ⟨.chIsRunning, 0x22000000#32, 0xFF00FFFF#32⟩,
   ⟨.bufWr, 0x24000000#32, 0xFF000000#32⟩,
   ⟨.bufRd, 0x25000000#32, 0xFF000000#32⟩,
   ⟨.handleIrq, 0x30000000#32, 0xFFFFFFFF#32⟩]

/-- The row a header word selects, if any. -/
def selectOp (w0 : Word) : Option Op :=
  (opTable.find? (fun r => (w0 &&& r.mask) == r.pattern)).map OpRow.op

/-! ## Operand fields of the header (R100, R102) -/

/-- IDX, bits 23:16. -/
def hdrIdx (w0 : Word) : BitVec 8 := w0.extractLsb' 16 8
/-- FID or SLAVE, bits 7:0. -/
def hdrLow (w0 : Word) : BitVec 8 := w0.extractLsb' 0 8
/-- N, bits 15:0. -/
def hdrN (w0 : Word) : BitVec 16 := w0.extractLsb' 0 16

/-- The number of words of a packet, a function of W0 alone (R103). -/
def packetWords (op : Op) (w0 : Word) : Nat :=
  match op with
  | .fldRd | .ctrlReset | .ctrlEnable | .ctrlDisable | .isComplete | .clrComplete | .setMask | .chActivate
  | .chDeactivate | .chIsRunning | .handleIrq => 1
  | .fldWr | .fldMod | .bufRd => 2
  | .newChannel => 4
  | .bufWr => 2 + wordsFor (hdrN w0).toNat

/-! ## Field identifiers (R108) -/

/-- The FID of a field. -/
def Fld.fid : Fld → BitVec 8
  | .ctlAll => 0x00 | .ctlEn => 0x01 | .ctlSrst => 0x02
  | .chselSel => 0x10 | .chselSelen => 0x11 | .chselLAll => 0x12 | .chselHAll => 0x13
  | .statAll => 0x20 | .statDone => 0x21
  | .maskAll => 0x30 | .maskChm => 0x31 | .maskGie => 0x32
  | .bindAll => 0x40 | .bindBound => 0x41
  | .capAll => 0x50
  | .addrUp => 0x80 | .addrLo => 0x81 | .devAddr => 0x82 | .xferSize => 0x83 | .curUp => 0x84
  | .curLo => 0x85
  | .chctlAll => 0x86 | .chctlEn => 0x87 | .chctlSrst => 0x88 | .chctlDir => 0x89
  | .chstsAll => 0x8A | .chstsEmpty => 0x8B | .chstsFull => 0x8C
  | .tmoAll => 0x8D | .tmoThresh => 0x8E | .tmoEn => 0x8F

/-- The field a FID names; every other value is undefined. -/
def fldOfFid (b : BitVec 8) : Option Fld := Fld.all.find? (fun f => f.fid == b)

/-! ## Decoding (R102, R103, R109) -/

/-- Why a packet is an IllegalCommand (R109). -/
inductive DecodeError where
  /-- a packet of no words -/
  | empty
  /-- W0 matches no row of R104 -/
  | unknownHeader
  /-- the length is not the one R103 gives -/
  | badLength
  /-- a FID that R108 does not list -/
  | unknownFid
  /-- a global field with IDX != 0 -/
  | globalIdx
  /-- NEW_CHANNEL with W3[31:30] != 0 -/
  | tmoReserved
  /-- BUF_WR with a non-zero unused byte in its last data word -/
  | unusedByte
  deriving DecidableEq, Repr

/-- The field operands of format F (R101, R108, R109). -/
def decodeField (w0 : Word) : Except DecodeError (Fld × BitVec 8) :=
  match fldOfFid (hdrLow w0) with
  | none => .error .unknownFid
  | some f => if fieldIdxOk f (hdrIdx w0) then .ok (f, hdrIdx w0) else .error .globalIdx

/-- The operands of a command whose header and length are already known to be legal. -/
def decodeOperands (op : Op) (w0 : Word) (ws : List Word) : Except DecodeError Instr :=
  match op, ws with
  | .fldRd, _ => (decodeField w0).map fun p => .fldRd p.1 p.2
  | .fldWr, v :: _ => (decodeField w0).map fun p => .fldWr p.1 p.2 v
  | .fldMod, v :: _ => (decodeField w0).map fun p => .fldMod p.1 p.2 v
  | .ctrlReset, _ => .ok .ctrlReset
  | .ctrlEnable, _ => .ok .ctrlEnable
  | .ctrlDisable, _ => .ok .ctrlDisable
  | .newChannel, size :: dev :: tmo :: _ =>
      if tmo.extractLsb' 30 2 = 0#2 then
        .ok (.newChannel (hdrIdx w0) (hdrLow w0) (w0.getLsbD 8) (w0.getLsbD 9) size dev (tmo.extractLsb' 0 30))
      else .error .tmoReserved
  | .isComplete, _ => .ok (.isComplete (hdrIdx w0))
  | .clrComplete, _ => .ok (.clrComplete (hdrIdx w0))
  | .setMask, _ => .ok (.setMask (hdrIdx w0) (w0.getLsbD 0))
  | .chActivate, _ => .ok (.chActivate (hdrIdx w0))
  | .chDeactivate, _ => .ok (.chDeactivate (hdrIdx w0))
  | .chIsRunning, _ => .ok (.chIsRunning (hdrIdx w0))
  | .bufWr, off :: dws =>
      let n := (hdrN w0).toNat
      let bytes := unpackBytes dws
      if (bytes.drop n).all (· == 0#8) then .ok (.bufWr (hdrIdx w0) off (bytes.take n))
      else .error .unusedByte
  | .bufRd, off :: _ => .ok (.bufRd (hdrIdx w0) off (hdrN w0))
  | .handleIrq, _ => .ok .handleIrq
  | .fldWr, [] => .error .badLength
  | .fldMod, [] => .error .badLength
  | .newChannel, _ => .error .badLength
  | .bufWr, [] => .error .badLength
  | .bufRd, [] => .error .badLength

/-- The command a packet on the command port stands for; total on every packet. Header first, then the length,
then the operands (R109, R257 (1)). -/
def decode : Packet → Except DecodeError Instr
  | [] => .error .empty
  | w0 :: ws =>
    match selectOp w0 with
    | none => .error .unknownHeader
    | some op => if ws.length + 1 = packetWords op w0 then decodeOperands op w0 ws else .error .badLength

/-! ## Encoding (R100 to R104) -/

/-- W0 from its three fields OPC, IDX, IMM16 (R100). -/
def header (opc idx : BitVec 8) (imm : BitVec 16) : Word := opc ++ idx ++ imm

/-- IMM16 of NEW_CHANNEL: SLAVE in bits 7:0, DIR bit 8, IRQ bit 9 (R101). -/
def newChannelImm (slave : BitVec 8) (dir irq : Bool) : BitVec 16 :=
  0#6 ++ BitVec.ofBool irq ++ BitVec.ofBool dir ++ slave

/-- The packet of a command, by the formats of R101. -/
def encode : Instr → Packet
  | .fldRd f idx => [header 0x01 idx (0#8 ++ f.fid)]
  | .fldWr f idx v => [header 0x02 idx (0#8 ++ f.fid), v]
  | .fldMod f idx v => [header 0x03 idx (0#8 ++ f.fid), v]
  | .ctrlReset => [header 0x10 0 0]
  | .ctrlEnable => [header 0x11 0 0]
  | .ctrlDisable => [header 0x12 0 0]
  | .newChannel idx slave dir irq size dev tmo =>
      [header 0x13 idx (newChannelImm slave dir irq), size, dev, 0#2 ++ tmo]
  | .isComplete idx => [header 0x14 idx 0]
  | .clrComplete idx => [header 0x15 idx 0]
  | .setMask idx masked => [header 0x16 idx (0#15 ++ BitVec.ofBool masked)]
  | .chActivate idx => [header 0x20 idx 0]
  | .chDeactivate idx => [header 0x21 idx 0]
  | .chIsRunning idx => [header 0x22 idx 0]
  | .bufWr idx off data => header 0x24 idx (BitVec.ofNat 16 data.length) :: off :: packBytes data
  | .bufRd idx off n => [header 0x25 idx n, off]
  | .handleIrq => [header 0x30 0 0]

/-- The response code RC (R110). -/
def Resp.rc : Resp → BitVec 4
  | .ok _ => 0
  | .none => 1
  | .contract => 2
  | .illegal => 3

/-- The response packet: Q0 holds RC in bits 31:28 and zero below, then the value words (R110, R111). -/
def Resp.packet (q : Resp) : Packet :=
  (q.rc ++ 0#28) :: match q with
    | .ok vals => vals
    | .none | .contract | .illegal => []

/-- The commands a pseudo-instruction stands for (R113). -/
def Pseudo.expand : Pseudo → List Instr
  | .mask idx => [.setMask idx true]
  | .unmask idx => [.setMask idx false]
  | .gieOn => [.fldMod .maskGie 0 1]
  | .gieOff => [.fldMod .maskGie 0 0]
  | .debugStatus =>
      [.fldRd .ctlAll 0, .fldRd .chselLAll 0, .fldRd .statAll 0, .fldRd .maskAll 0, .fldRd .bindAll 0,
       .fldRd .capAll 0, .fldRd .chselHAll 0]

/-! ## The table's numbering -/

/-- The low `n` 32-bit words of a number, the least significant first. -/
def wordsOfNat : Nat → Nat → Packet
  | 0, _ => []
  | n + 1, w => BitVec.ofNat 32 w :: wordsOfNat n (w / 2 ^ 32)

/-- The length R103 gives a packet with header `w0` (1 where no row matches). -/
def packetLenOf (w0 : Word) : Nat :=
  match selectOp w0 with
  | none => 1
  | some op => packetWords op w0

/-- The packet whose first `nbits` bits are those of `w`, bit 0 the least significant bit of W0, zeros above.
notes/assumptions/29.md. -/
def tablePacket (nbits w : Nat) : Packet :=
  let w := w % 2 ^ nbits
  wordsOfNat (max (packetLenOf (BitVec.ofNat 32 w)) ((nbits + 31) / 32)) w

/-- What the decoder reads from a word numbered as spec/opcode_table.json numbers it. -/
def decodeTableWord (nbits w : Nat) : Option Instr :=
  match decode (tablePacket nbits w) with
  | .ok i => some i
  | .error _ => none

end Sys2Proof
end

