-- ==== Sys2Proof/Machine/State.lean ====
section
/-! DEFINITION. The state of the machine: exactly the list of 10_state.md R21 (register file, hidden state of ENG,
descriptors and buffers, sequencer, fault flags, interrupt-service agents), the switches of 00_scope.md R8, and the
model's own fields (port queues, schedule, draw counter, access log). Reset is 10_state.md R62. -/

namespace Sys2Proof.Machine

/-! ## Memory of a buffer -/

/-- A buffer's bytes: (offset, byte) pairs, offsets strictly rising, no zero byte listed. An unlisted byte reads
zero: a buffer is zeroed at creation (R58). -/
abbrev Memory := List Host.Cell

/-! ## Registers -/

/-- The seven global registers without their reserved bits (R31 to R37; R50: the model stores no reserved bit).
DMA_CAP is the constant `Config.capValue`. -/
structure Globals where
  /-- DMA_CTL.EN (R31) -/
  en : Bool
  /-- DMA_CTL.SRST (R31) -/
  srst : Bool
  /-- CHSEL_L (R32) -/
  chselL : Word
  /-- CHSEL_H (R33) -/
  chselH : Word
  /-- DMA_STAT: bit i is DONE(i) (R34) -/
  done : BitVec 8
  /-- DMA_MASK: bit i is CHM(i) (R35) -/
  chm : BitVec 8
  /-- DMA_MASK.GIE (R35) -/
  gie : Bool
  /-- DMA_BIND: bit i is BOUND(i) (R36) -/
  bound : BitVec 8
  deriving DecidableEq, Repr

/-- The descriptor desc[i] with its buffer buf[i], which exists exactly while the descriptor does (R57, R58). -/
structure Desc where
  /-- the buffer's bus address -/
  ba : BusAddr
  /-- the buffer's size in bytes -/
  size : Word
  /-- the direction: `Config.dirM2D` or `Config.dirD2M` -/
  dir : Bool
  /-- the buffer's bytes -/
  buf : Memory
  /-- the channel has been activated since the descriptor was made (R236; notes/assumptions/14.md) -/
  streamed : Bool
  deriving DecidableEq, Repr

/-- One channel: its registers (R40 to R48), ENG's hidden bits (R55), its descriptor (R57). CUR_UP, CUR_LO and
CH_STS store nothing (R62). -/
structure Chan where
  /-- ADDR_UP(i) (R40) -/
  addrUp : Word
  /-- ADDR_LO(i) (R41) -/
  addrLo : Word
  /-- DEV_ADDR(i) (R42) -/
  devAddr : Word
  /-- XFER_SIZE(i) (R43) -/
  xferSize : Word
  /-- CH_CTL(i).EN, the live enable bit (R46) -/
  en : Bool
  /-- CH_CTL(i).SRST (R46) -/
  srst : Bool
  /-- CH_CTL(i).DIR (R46) -/
  dir : Bool
  /-- CH_TMO(i).THRESH (R48) -/
  thresh : BitVec 30
  /-- CH_TMO(i).TMO_EN (R48) -/
  tmoEn : Bool
  /-- `dis_pending[i]` (R55) -/
  disPending : Bool
  /-- `armed[i]` (R55) -/
  armed : Bool
  /-- `desc[i]` and `buf[i]` (R57, R58) -/
  desc : Option Desc
  deriving DecidableEq, Repr

/-! ## The sequencer -/

/-- The step labels of the pseudocode that make an access (R24). A pure line attaches to the next step (R10), so
SEQ never stands at it: notes/assumptions/17.md. `W k` and `V k` are the byte steps of BUF_WR and BUF_RD. -/
inductive Label where
  | F1 | F2
  | T1 | T2 | T3 | T4 | T5 | T6 | T7 | T8 | T9 | T10 | T11 | T12 | T13 | T14 | T15 | T16
  | E1 | E2
  | N1 | N2 | N3 | N5 | N6 | N7 | N8 | N9 | N10
  | C1 | C2 | C3 | C4 | C5 | C6 | C7 | C8
  | K1 | K2 | K3 | K4 | K5 | K6 | K7
  | P1 | L1 | S1 | S2
  | A1 | A2 | D1 | D2 | Q1
  | W (k : Nat) | V (k : Nat)
  | H1 | H2
  deriving DecidableEq, Repr

/-- What SEQ holds while BUSY (R23): the command, the position, the local variables, each 32 bits but `ba`. -/
structure SeqRun where
  /-- `seq.cmd` -/
  cmd : Instr
  /-- `seq.step`: the next micro-step -/
  step : Label
  /-- `t`, the last value read (and the status word `s` when SEQ runs HANDLE_IRQ) -/
  t : Word
  /-- `b`, the DMA_BIND value read by NEW_CHANNEL -/
  b : Word
  /-- `i`, the loop index of CTRL_RESET, 0 to 8 (`SeqRun.ok` of Safety.lean holds it there) -/
  i : Word
  /-- `ba`, the bus address the allocator returned -/
  ba : BusAddr
  /-- `cb`, the channel block offset -/
  cb : Word
  /-- `r`, the bytes BUF_RD has read so far (R167) -/
  r : List Byte
  deriving DecidableEq, Repr

/-- SEQ is IDLE or BUSY (R23). -/
inductive SeqState where
  | idle
  | busy (r : SeqRun)
  deriving DecidableEq, Repr

/-! ## The interrupt-service agents -/

/-- The position of a BUSY IRQH_k (R26). -/
inductive IrqPos where
  | H1 | H2
  deriving DecidableEq, Repr

/-- IRQH_k is IDLE or BUSY with a position and the status word it read (R26). -/
inductive IrqRun where
  | idle
  | busy (pos : IrqPos) (s : Word)
  deriving DecidableEq, Repr

/-- An interrupt-service port: its agent, the packets waiting on it, the responses it has sent (R105, R110). -/
structure IrqPort where
  run : IrqRun
  inbox : List Packet
  outbox : List Packet
  deriving DecidableEq, Repr

/-! ## Environment inputs -/

/-- The moves of ENG (R231, R233, R234). -/
inductive EngMove where
  | ackDisable (i : Fin 8)
  | selfDisable (i : Fin 8)
  | complete (i : Fin 8)
  deriving DecidableEq, Repr

/-- Who moves next (R20, R82): SEQ takes its next micro-step; ENG makes a move; IRQH_k takes its next step; or the
model's step ends here, with SEQ where it stands. notes/assumptions/1.md to 3.md. -/
inductive Turn where
  | seq
  | eng (m : EngMove)
  | irqh (k : Nat)
  | rest
  deriving DecidableEq, Repr

/-- The switches of the environment (R8). -/
structure EngSwitches where
  /-- ENG_SELF_DISABLE -/
  selfDisable : Bool
  /-- ENG_ONE_SHOT -/
  oneShot : Bool
  /-- ENG_NEEDS_CTL_EN -/
  needsCtlEn : Bool
  deriving DecidableEq, Repr

/-- The agents that access the register space (R20). ENG's moves are not accesses. -/
inductive Agent where
  | seq
  | irqh (k : Nat)
  deriving DecidableEq, Repr

/-- One transaction at the block's boundary (D1): a register read or write, an allocator request with its answer,
a buffer byte read or written. -/
inductive Access where
  | rd (ag : Agent) (off : Nat) (v : Word)
  | wr (ag : Agent) (off : Nat) (v : Word)
  | alloc (size : Word) (align : Nat) (dir : Bool) (answer : Option BusAddr)
  | memRd (i : Fin 8) (o : Nat) (b : Byte)
  | memWr (i : Fin 8) (o : Nat) (b : Byte)
  deriving DecidableEq, Repr

/-! ## The state -/

/-- The whole machine (R21). -/
structure State where
  /-- the global registers -/
  glb : Globals
  /-- the eight channels -/
  chans : Vector Chan 8
  /-- the command sequencer -/
  seq : SeqState
  /-- `flt.contract` (R25) -/
  fltContract : Bool
  /-- `flt.illegal` (R25) -/
  fltIllegal : Bool
  /-- the interrupt-service ports; N_IRQH is their number (R8, R26) -/
  irqh : List IrqPort
  /-- the switches of R8; no step changes them -/
  sw : EngSwitches
  /-- model's field: packets waiting on the command port -/
  cmdIn : List Packet
  /-- model's field: response packets sent on the command port, oldest first -/
  cmdOut : List Packet
  /-- model's field: allocator answers the HOST has ready (`none` is FAIL) -/
  allocs : List (Option BusAddr)
  /-- model's field: the schedule -/
  plan : List Turn
  /-- model's field: how many free values have been taken -/
  draws : Nat
  /-- model's field: every access made, oldest first -/
  bus : List Access
  deriving DecidableEq, Repr

/-! ## Stops -/

/-- Faults of the model. No run from reset reaches one: each is raised only in a state that breaks `State.Inv` of
Safety.lean, so each is safe. notes/assumptions/20.md. -/
inductive Fault where
  /-- SEQ stands at a label that its command does not have, or with an operand its checks exclude. Raised by the
  micro-steps of the families. Safe. -/
  | seqCorrupt
  /-- A buffer byte is accessed outside `o < desc[i].size` (R86, R87). Raised by the byte accesses. Safe. -/
  | bufferAccess
  deriving DecidableEq, Repr

/-- Refusals: the four situations in which the spec defines no behaviour and a model has no step (R258), and the
skeleton's own. All safe: the machine stops where hardware would do something the spec does not give. -/
inductive Refusal where
  /-- An instruction whose meaning is not written. Raised by `exec`'s refused arms only; there is none. Safe. -/
  | notModelled (mnemonic : String)
  /-- U1: a channel command on an index with no Channel (R169, R258 (1)). Raised by the five channel commands. Safe. -/
  | noChannel
  /-- U2: a CH_CTL write in case (a) or (b) of R79 (R258 (2)). Raised by the CH_CTL write. Safe. -/
  | chCtlUnspecified
  /-- U3: a global soft-reset event outside the quiesced condition (R78, R258 (3)). Raised by the DMA_CTL write. Safe. -/
  | ctlResetUnspecified
  /-- U7: an access outside the register region or misaligned (R73, R258 (4)). Raised by RD32 and WR32. Safe. -/
  | regAccess
  deriving DecidableEq, Repr

/-- The outcome of a step. -/
abbrev Out := Host.Outcome State Fault Refusal

/-! ## Reset (R62, R290) -/

/-- Every register zero, the test start state R294 offers; the spec leaves the values open:
notes/assumptions/4.md. -/
def Globals.reset : Globals :=
  { en := false, srst := false, chselL := 0, chselH := 0, done := 0, chm := 0, gie := false, bound := 0 }

/-- Registers zero (notes/assumptions/4.md), hidden bits zero (notes/assumptions/5.md), no descriptor (R292). -/
def Chan.reset : Chan :=
  { addrUp := 0, addrLo := 0, devAddr := 0, xferSize := 0, en := false, srst := false, dir := false,
    thresh := 0, tmoEn := false, disPending := false, armed := false, desc := none }

/-- An idle service port with nothing waiting (R26). -/
def IrqPort.reset : IrqPort := { run := .idle, inbox := [], outbox := [] }

/-- The machine right after the hardware reset event: SEQ and the one service port IDLE, fault flags clear, no
descriptor, the switches at their defaults (R8, R62, R290). -/
def State.reset : State :=
  { glb := Globals.reset
    chans := Vector.replicate 8 Chan.reset
    seq := .idle
    fltContract := false
    fltIllegal := false
    irqh := [IrqPort.reset]
    sw := { selfDisable := true, oneShot := true, needsCtlEn := true }
    cmdIn := []
    cmdOut := []
    allocs := []
    plan := []
    draws := 0
    bus := [] }

end Sys2Proof.Machine
end

