-- ==== Sys2Proof/Machine/Operands.lean ====
section
/-! DEFINITION. Operand forms: the register-field codec (30_encoding.md Part B, R120 to R126), the address
translator and the register-offset function (20_memory.md R74, R75), the register at an offset (10_state.md R30), and
the field descriptor function (30_encoding.md R127). All pure. -/

namespace Sys2Proof.Machine

open Sys2Proof.Config

/-! ## Bits -/

/-- One bit as a word. -/
def bitW (b : Bool) : Word := if b then 1#32 else 0#32

/-- The word of width `w` whose bit `j` is `f j` for every `j < n`, and 0 from `n` up. -/
def ofBits (w : Nat) (f : Nat → Bool) : Nat → BitVec w
  | 0 => 0#w
  | n + 1 => ofBits w f n ||| (if f n then 1#w <<< n else 0#w)

/-! ## Field insert and extract (R120, R121) -/

/-- `2^(hi-lo+1) - 1`, the unshifted mask of a field. -/
def fieldOnes (hi lo : Nat) : Word := BitVec.ofNat 32 (2 ^ (hi - lo + 1) - 1)

/-- `ins(w, hi, lo, v)`: the field `hi:lo` of `w` replaced by the low bits of `v` (R120). -/
def ins (w : Word) (hi lo : Nat) (v : Word) : Word :=
  let m := fieldOnes hi lo <<< lo
  (w &&& ~~~m) ||| ((v <<< lo) &&& m)

/-- `ext(w, hi, lo)`: the field `hi:lo` of `w` (R121), zero-extended to 32 bits. -/
def ext (w : Word) (hi lo : Nat) : Word := (w >>> lo) &&& fieldOnes hi lo

/-! ## Register codecs (R122 to R126) -/

/-- `enc_ctl` (R122). -/
def encCtl (en srst : Bool) : Word := bitW en <<< ctlEnBit ||| bitW srst <<< ctlSrstBit

/-- Bits `8*k+7 : 8*k` of a channel's 8-bit select field: the low bit (R123). -/
def selLo (i : Nat) : Nat := 8 * (i % 4)

/-- The high bit of a channel's 8-bit select field (R123). -/
def selHi (i : Nat) : Nat := selLo i + 7

/-- `(selen << 7) | (sel & 0x7F)`, the combined select field (R123). -/
def selField (sel : Word) (selen : Bool) : Word :=
  bitW selen <<< selenBit ||| (sel &&& fieldOnes (selW - 1) 0) <<< selPos

/-- `enc_chsel(i, sel, selen)` applied to `w` (R123). -/
def encChsel (i : Nat) (sel : Word) (selen : Bool) (w : Word) : Word :=
  ins w (selHi i) (selLo i) (selField sel selen)

/-- `dec_chsel(i, w)` (R123). -/
def decChsel (i : Nat) (w : Word) : Word × Bool :=
  (ext w (selLo i + selPos + (selW - 1)) (selLo i + selPos), w.getLsbD (selLo i + selenBit))

/-- `done_bit(i)` (R124). -/
def doneBit (i : Nat) : Nat := statStride * i

/-- `enc_stat_clear(i)` (R124). -/
def encStatClear (i : Nat) : Word := 1#32 <<< doneBit i

/-- The status word with DONE(i) at bit `4*i` and zeros elsewhere (R34, R76). -/
def statWord (done : BitVec 8) : Word :=
  ofBits 32 (fun j => j % statStride == 0 && done.getLsbD (j / statStride)) 32

/-- `decode_status(s)`, the completion bitmap: bit `i` is bit `4*i` of the status word (R220). -/
def decodeStatus (s : Word) : BitVec 8 := ofBits 8 (fun i => s.getLsbD (doneBit i)) 8

/-- The word of DMA_MASK (R35, R125). -/
def maskWord (chm : BitVec 8) (gie : Bool) : Word := chm.setWidth 32 ||| bitW gie <<< gieBit

/-- `enc_chctl` (R126). -/
def encChctl (en srst dir : Bool) : Word :=
  bitW en <<< chEnBit ||| bitW srst <<< chSrstBit ||| bitW dir <<< chDirBit

/-- The word of CH_STS (R47). -/
def encChsts (empty full : Bool) : Word := bitW empty <<< stsEmptyBit ||| bitW full <<< stsFullBit

/-- `dec_chsts` (R126). -/
def decChsts (w : Word) : Bool × Bool := (w.getLsbD stsEmptyBit, w.getLsbD stsFullBit)

/-- `enc_tmo` (R126). -/
def encTmo (thresh : BitVec 30) (en : Bool) : Word := thresh.setWidth 32 ||| bitW en <<< tmoEnBit

/-- `addr_up(ba)` (R126). -/
def addrUpOf (ba : BusAddr) : Word := ba.extractLsb' 32 32

/-- `addr_lo(ba)` (R126). -/
def addrLoOf (ba : BusAddr) : Word := ba.extractLsb' 0 32

/-! ## Channel indices and register offsets -/

/-- A legal channel index, or nothing: an index is never reduced and never clamped (R74, R252). -/
def chanIdx? (idx : BitVec 8) : Option (Fin 8) :=
  if h : idx.toNat < 8 then some ⟨idx.toNat, h⟩ else none

/-- The address translator `chan_base(i)` (R74). -/
def chanBase (i : Nat) : Nat := chTableOff + i * chStride

/-- `reg_off(CHSEL, i)` (R75). -/
def selOff (i : Nat) : Nat := if i / 4 = 0 then offChselL else offChselH

/-- The nine registers of a channel block (R30). -/
inductive ChReg where
  | addrUp | addrLo | devAddr | xferSize | curUp | curLo | ctl | sts | tmo
  deriving DecidableEq, Repr

/-- `CHO_NAME` (R75). -/
def ChReg.off : ChReg → Nat
  | .addrUp => choAddrUp
  | .addrLo => choAddrLo
  | .devAddr => choDevAddr
  | .xferSize => choXferSize
  | .curUp => choCurUp
  | .curLo => choCurLo
  | .ctl => choCtl
  | .sts => choSts
  | .tmo => choTmo

/-- `reg_off(NAME, i)` of a channel register (R75). -/
def chOff (i : Nat) (r : ChReg) : Nat := chanBase i + r.off

/-- The registers of the register file (R30); `reserved` is an offset that holds none (R38, R49). -/
inductive Reg where
  | dmaCtl | chselL | chselH | dmaStat | dmaMask | dmaBind | dmaCap
  | chan (i : Fin 8) (r : ChReg)
  | reserved
  deriving DecidableEq, Repr

/-- The register at an offset of the global block (R30). -/
def globalAt (off : Nat) : Reg :=
  if off = offCtl then .dmaCtl
  else if off = offChselL then .chselL
  else if off = offStat then .dmaStat
  else if off = offMask then .dmaMask
  else if off = offBind then .dmaBind
  else if off = offCap then .dmaCap
  else if off = offChselH then .chselH
  else .reserved

/-- The register at an offset inside a channel block (R30, R49). -/
def chRegAt (o : Nat) : Option ChReg :=
  if o = choAddrUp then some .addrUp
  else if o = choAddrLo then some .addrLo
  else if o = choDevAddr then some .devAddr
  else if o = choXferSize then some .xferSize
  else if o = choCurUp then some .curUp
  else if o = choCurLo then some .curLo
  else if o = choCtl then some .ctl
  else if o = choSts then some .sts
  else if o = choTmo then some .tmo
  else none

/-- The register at an offset of the region, or nothing where the offset is not a multiple of 4 or not below
`REGION_SIZE` (R30, R73). -/
def regAt (off : Nat) : Option Reg :=
  if off % 4 ≠ 0 ∨ regionSize ≤ off then none
  else if off < chTableOff then some (globalAt off)
  else
    match chRegAt ((off - chTableOff) % chStride) with
    | some r => some (.chan (Fin.ofNat 8 ((off - chTableOff) / chStride)) r)
    | none => some .reserved

/-! ## Field descriptors (R108, R127) -/

/-- What `fld(fid, idx)` returns: an offset and a bit range (R127). -/
structure FieldLoc where
  off : Nat
  hi : Nat
  lo : Nat
  deriving DecidableEq, Repr

/-- The place of a global field (R108). -/
def fldGlobal : Fld → Option FieldLoc
  | .ctlAll => some ⟨offCtl, 31, 0⟩
  | .ctlEn => some ⟨offCtl, ctlEnBit, ctlEnBit⟩
  | .ctlSrst => some ⟨offCtl, ctlSrstBit, ctlSrstBit⟩
  | .chselLAll => some ⟨offChselL, 31, 0⟩
  | .chselHAll => some ⟨offChselH, 31, 0⟩
  | .statAll => some ⟨offStat, 31, 0⟩
  | .maskAll => some ⟨offMask, 31, 0⟩
  | .maskGie => some ⟨offMask, gieBit, gieBit⟩
  | .bindAll => some ⟨offBind, 31, 0⟩
  | .capAll => some ⟨offCap, 31, 0⟩
  | .chselSel | .chselSelen | .statDone | .maskChm | .bindBound | .addrUp | .addrLo | .devAddr | .xferSize
  | .curUp | .curLo | .chctlAll | .chctlEn | .chctlSrst | .chctlDir | .chstsAll | .chstsEmpty | .chstsFull
  | .tmoAll | .tmoThresh | .tmoEn => none

/-- The place of a channel's field (R108). -/
def fldChan (i : Nat) : Fld → Option FieldLoc
  | .chselSel => some ⟨selOff i, selLo i + selPos + (selW - 1), selLo i + selPos⟩
  | .chselSelen => some ⟨selOff i, selLo i + selenBit, selLo i + selenBit⟩
  | .statDone => some ⟨offStat, doneBit i, doneBit i⟩
  | .maskChm => some ⟨offMask, i, i⟩
  | .bindBound => some ⟨offBind, i, i⟩
  | .addrUp => some ⟨chOff i .addrUp, 31, 0⟩
  | .addrLo => some ⟨chOff i .addrLo, 31, 0⟩
  | .devAddr => some ⟨chOff i .devAddr, 31, 0⟩
  | .xferSize => some ⟨chOff i .xferSize, 31, 0⟩
  | .curUp => some ⟨chOff i .curUp, 31, 0⟩
  | .curLo => some ⟨chOff i .curLo, 31, 0⟩
  | .chctlAll => some ⟨chOff i .ctl, 31, 0⟩
  | .chctlEn => some ⟨chOff i .ctl, chEnBit, chEnBit⟩
  | .chctlSrst => some ⟨chOff i .ctl, chSrstBit, chSrstBit⟩
  | .chctlDir => some ⟨chOff i .ctl, chDirBit, chDirBit⟩
  | .chstsAll => some ⟨chOff i .sts, 31, 0⟩
  | .chstsEmpty => some ⟨chOff i .sts, stsEmptyBit, stsEmptyBit⟩
  | .chstsFull => some ⟨chOff i .sts, stsFullBit, stsFullBit⟩
  | .tmoAll => some ⟨chOff i .tmo, 31, 0⟩
  | .tmoThresh => some ⟨chOff i .tmo, tmoW - 1, 0⟩
  | .tmoEn => some ⟨chOff i .tmo, tmoEnBit, tmoEnBit⟩
  | .ctlAll | .ctlEn | .ctlSrst | .chselLAll | .chselHAll | .statAll | .maskAll | .maskGie | .bindAll
  | .capAll => none

/-- `fld(fid, idx)` (R127): nothing exactly when the field is a channel's and `idx >= 8`, the ContractViolation of
R142 to R144. A global field ignores the index, which its encoding fixes at 0 (notes/assumptions/24.md). -/
def fldLoc (f : Fld) (idx : BitVec 8) : Option FieldLoc :=
  if f.isCh then
    match chanIdx? idx with
    | some i => fldChan i.val f
    | none => none
  else fldGlobal f

end Sys2Proof.Machine
end

