-- ==== Sys2Proof/Machine/Flags.lean ====
section
/-! DEFINITION. The one-bit results the machine computes: the interrupt line (60_exceptions.md R261), the abstract
channel state (10_state.md R59), the buffer validator (41_channel.md R160), the fault flags and their responses (R25,
R252, R253). The machine has no condition codes (R25). -/

namespace Sys2Proof.Machine

open Sys2Proof.Config

/-! ## Accessors -/

/-- Channel `i`. -/
def State.chan (s : State) (i : Fin 8) : Chan := s.chans[i]

/-- The state with channel `i` replaced. -/
def State.setChan (s : State) (i : Fin 8) (c : Chan) : State := { s with chans := s.chans.set i c }

/-- `desc[i]`. -/
def State.desc (s : State) (i : Fin 8) : Option Desc := (s.chan i).desc

/-- DMA_BIND.BOUND(i) (R36). -/
def State.boundBit (s : State) (i : Fin 8) : Bool := s.glb.bound.getLsbD i

/-- DMA_STAT.DONE(i) (R34). -/
def State.doneFlag (s : State) (i : Fin 8) : Bool := s.glb.done.getLsbD i

/-! ## The interrupt line -/

/-- Channel `i`'s completion reaches the line: flagged and not masked (R260, R261). -/
def State.irqSource (s : State) (i : Fin 8) : Bool :=
  s.doneFlag i && (s.glb.chm.getLsbD i != chmMasked)

/-- `irq_out`, a level: the global bit gates the unmasked flags; DMA_CTL.EN does not enter (R261). -/
def State.irqOut (s : State) : Bool :=
  (s.glb.gie == gieEnabled) && (List.finRange 8).any (fun i => s.irqSource i)

/-! ## The abstract channel state (R59) -/

/-- The source's channel states; Configured and Inactive are one (R59). -/
inductive ChanState where
  | unbound
  | ready
  | active
  deriving DecidableEq, Repr

/-- The abstract state of channel `i` (R59). -/
def State.chanState (s : State) (i : Fin 8) : ChanState :=
  if s.boundBit i then (if (s.chan i).en then .active else .ready) else .unbound

/-- An Unbound channel whose enable bit is still set, "stale state from a previous run" (R59, R168). -/
def State.stale (s : State) (i : Fin 8) : Bool := !s.boundBit i && (s.chan i).en

/-! ## The buffer validator (R160) -/

/-- `addr_ok(ba)`. -/
def addrOk (ba : BusAddr) : Bool := ba.toNat % addrAlign == 0

/-- `size_ok(size)`. -/
def sizeOk (size : Word) : Bool := size.toNat % sizeAlign == 0 && decide (sizeMin ≤ size.toNat)

/-- `valid(ba, size)`. -/
def valid (ba : BusAddr) (size : Word) : Bool := addrOk ba && sizeOk size

/-! ## Fault flags -/

/-- The two classes of fault (R252, R253). -/
inductive Violation where
  | contract
  | illegal
  deriving DecidableEq, Repr

/-- The response a fault ends with (R110). -/
def Violation.resp : Violation → Resp
  | .contract => .contract
  | .illegal => .illegal

/-- The sticky flag of a fault set (R25). -/
def State.setFault (s : State) : Violation → State
  | .contract => { s with fltContract := true }
  | .illegal => { s with fltIllegal := true }

end Sys2Proof.Machine
end

