-- ==== Sys2Proof/Machine/Memory.lean ====
section
/-! DEFINITION. The bytes of a buffer as a canonical list of cells (10_state.md R58, 20_memory.md R85 to R87): reading
one byte, writing one byte, the canonical form. -/

namespace Sys2Proof.Machine

/-- What a byte that no write has reached reads as: a buffer is zeroed at creation (R58, R84). -/
def Memory.unlisted : Byte := 0#8

/-- The byte at an offset. -/
def Memory.read : Memory → Nat → Byte
  | [], _ => Memory.unlisted
  | c :: m, a => if c.1 = a then c.2 else Memory.read m a

/-- A cell put in front, unless it would list what an unlisted byte reads as. -/
def Memory.put (a : Nat) (b : Byte) (m : Memory) : Memory :=
  if b = Memory.unlisted then m else (a, b) :: m

/-- The memory with one byte written, in canonical form. -/
def Memory.write : Memory → Nat → Byte → Memory
  | [], a, b => Memory.put a b []
  | c :: m, a, b =>
    if a < c.1 then Memory.put a b (c :: m)
    else if c.1 = a then Memory.put a b m
    else c :: Memory.write m a b

/-- Every listed offset is at least `lo`. -/
def Memory.above (lo : Nat) : Memory → Bool
  | [] => true
  | c :: m => decide (lo ≤ c.1) && Memory.above lo m

/-- The canonical form: offsets strictly rising, nothing listed that an unlisted byte reads as. -/
def Memory.wf : Memory → Bool
  | [] => true
  | c :: m => decide (c.2 ≠ Memory.unlisted) && Memory.above (c.1 + 1) m && Memory.wf m

/-- Every listed offset lies below the buffer's size (R85). -/
def Memory.within (size : Nat) : Memory → Bool
  | [] => true
  | c :: m => decide (c.1 < size) && Memory.within size m

end Sys2Proof.Machine
end

