-- ==== Sys2Proof/Machine/Ops.lean ====
section
/-! DEFINITION. The shared operations: free values, the access log, RD32 and WR32 with every register's read and write
rule (20_memory.md R76 to R80), the allocator port (R84), the buffer bytes (R86, R87), responding, and taking a fault
(60_exceptions.md R252, R253). The machine returns from nothing: R264. -/

namespace Sys2Proof.Machine

open Sys2Proof.Config

/-! ## Free values and the access log -/

/-- One free value taken (R10 `draw`). -/
def State.tick (s : State) (n : Nat) : State := { s with draws := s.draws + n }

/-- One access recorded. -/
def State.log (s : State) (a : Access) : State := { s with bus := s.bus ++ [a] }

/-! ## Reading a register (R76) -/

/-- What a read of a channel register returns, given the next free value (R76). -/
def Chan.readReg (c : Chan) (d : Word) : ChReg → Word
  | .addrUp => c.addrUp
  | .addrLo => c.addrLo
  | .devAddr => c.devAddr
  | .xferSize => c.xferSize
  | .curUp => d
  | .curLo => d
  | .ctl => encChctl c.en c.srst c.dir
  | .sts => encChsts (d.getLsbD 0) (d.getLsbD 1)
  | .tmo => encTmo c.thresh c.tmoEn

/-- The reads that take a free value (R44, R45, R47). -/
def ChReg.draws : ChReg → Bool
  | .curUp | .curLo | .sts => true
  | .addrUp | .addrLo | .devAddr | .xferSize | .ctl | .tmo => false

/-- What a read of the register returns (R76). -/
def State.readVal (s : State) : Reg → Word
  | .dmaCtl => encCtl s.glb.en s.glb.srst
  | .chselL => s.glb.chselL
  | .chselH => s.glb.chselH
  | .dmaStat => statWord s.glb.done
  | .dmaMask => maskWord s.glb.chm s.glb.gie
  | .dmaBind => s.glb.bound.setWidth 32
  | .dmaCap => capValue
  | .chan i r => (s.chan i).readReg (draw s.draws) r
  | .reserved => 0#32

/-- How many free values a read takes. -/
def Reg.readDraws : Reg → Nat
  | .chan _ r => if r.draws then 1 else 0
  | .dmaCtl | .chselL | .chselH | .dmaStat | .dmaMask | .dmaBind | .dmaCap | .reserved => 0

/-- `RD32(off)`, one access of an agent (R76): no register changes. Refused outside the region (R73). -/
def rd32 (ag : Agent) (off : Nat) (s : State) : Except Refusal (Word × State) :=
  match regAt off with
  | none => .error .regAccess
  | some r => .ok (s.readVal r, (s.tick r.readDraws).log (.rd ag off (s.readVal r)))

/-! ## Writing a register (R77 to R80) -/

/-- A write of `v` to DMA_CTL is a global soft-reset event (R78). -/
def Globals.ctlEvent (g : Globals) (v : Word) : Bool := !g.srst && v.getLsbD ctlSrstBit

/-- The quiesced condition for a write of `v` (R78). -/
def Globals.quiesced (g : Globals) (v : Word) : Bool :=
  !g.en && !v.getLsbD ctlEnBit && g.bound == 0 && g.chselL == 0 && g.chselH == 0

/-- `WR32(OFF_CTL, v)` (R78): outside the quiesced condition the event has no meaning. -/
def Globals.writeCtl (g : Globals) (v : Word) : Except Refusal Globals :=
  if g.ctlEvent v && !g.quiesced v then .error .ctlResetUnspecified
  else .ok { g with en := v.getLsbD ctlEnBit, srst := v.getLsbD ctlSrstBit }

/-- `WR32(OFF_STAT, v)`: a 1 in bit `4*i` clears DONE(i), no write sets one (R80). -/
def Globals.writeStat (g : Globals) (v : Word) : Globals :=
  { g with done := g.done &&& ~~~(decodeStatus v) }

/-- `WR32(OFF_MASK, v)`: only the bits of `0x8000_00FF` are stored (R77). -/
def Globals.writeMask (g : Globals) (v : Word) : Globals :=
  { g with chm := v.setWidth 8, gie := v.getLsbD gieBit }

/-- The descriptor and buffer kept only where the bound bit stays 1 (R57, R77). -/
def dropUnbound (bound : BitVec 8) (cs : Vector Chan 8) : Vector Chan 8 :=
  Vector.ofFn fun i => if bound.getLsbD i then cs[i] else { cs[i] with desc := none }

/-- `WR32(OFF_BIND, v)` (R77). -/
def State.writeBind (s : State) (v : Word) : State :=
  { s with
    glb := { s.glb with bound := v.setWidth 8 }
    chans := dropUnbound (v.setWidth 8) s.chans }

/-- Cases (a) and (b) in which a CH_CTL write has no meaning (R79). -/
def Chan.ctlUnspecified (c : Chan) (v : Word) : Bool :=
  let en' := v.getLsbD chEnBit
  let srst' := v.getLsbD chSrstBit
  (!c.srst && srst' && (c.en || en')) || (en' && srst' && !c.en)

/-- The descriptor after a new activation: a device-to-memory buffer is free from here on (R236,
notes/assumptions/14.md). -/
def Desc.activate (d : Desc) : Desc := { d with streamed := true }

/-- Steps 1 to 3 of a CH_CTL write (R79): direction, enable request, soft-reset bit. `d` is the free value that
decides a re-enable racing a pending disable. -/
def Chan.ctlStore (c : Chan) (v : Word) (d : Word) : Chan :=
  let c := { c with dir := v.getLsbD chDirBit, srst := v.getLsbD chSrstBit }
  if v.getLsbD chEnBit then
    if c.en then
      if c.disPending then { c with disPending := d.getLsbD 0 } else c
    else { c with en := true, armed := true, disPending := false, desc := c.desc.map Desc.activate }
  else
    if c.en then { c with disPending := true } else c

/-- Step 4 of a CH_CTL write, the channel soft-reset event (R79): every programmable register is redrawn, taking
the free values from number `n` on; the hidden bits are cleared. -/
def Chan.softReset (c : Chan) (n : Nat) : Chan :=
  { c with
    addrUp := draw n
    addrLo := draw (n + 1)
    devAddr := draw (n + 2)
    xferSize := draw (n + 3)
    thresh := (draw (n + 4)).setWidth 30
    tmoEn := (draw (n + 4)).getLsbD tmoEnBit
    dir := (draw (n + 5)).getLsbD 0
    armed := false
    disPending := false }

/-- A write of `v` to CH_CTL is a channel soft-reset event (R79). -/
def Chan.ctlEvent (c : Chan) (v : Word) : Bool := !c.srst && v.getLsbD chSrstBit

/-- The channel after a CH_CTL write that has a meaning (R79). -/
def Chan.ctlAfter (c : Chan) (v : Word) (n : Nat) : Chan :=
  if c.ctlEvent v then (c.ctlStore v (draw n)).softReset (n + 1) else c.ctlStore v (draw n)

/-- How many free values are set aside for a CH_CTL write: one for the race, six for the event. -/
def Chan.ctlDraws (c : Chan) (v : Word) : Nat := if c.ctlEvent v then 7 else 1

/-- A write of a channel register (R77, R79); the read-only registers ignore it (R51). -/
def State.writeChReg (s : State) (i : Fin 8) (v : Word) : ChReg → Except Refusal State
  | .addrUp => .ok (s.setChan i { s.chan i with addrUp := v })
  | .addrLo => .ok (s.setChan i { s.chan i with addrLo := v })
  | .devAddr => .ok (s.setChan i { s.chan i with devAddr := v })
  | .xferSize => .ok (s.setChan i { s.chan i with xferSize := v })
  | .tmo => .ok (s.setChan i { s.chan i with thresh := v.setWidth 30, tmoEn := v.getLsbD tmoEnBit })
  | .ctl =>
      if (s.chan i).ctlUnspecified v then .error .chCtlUnspecified
      else .ok ((s.setChan i ((s.chan i).ctlAfter v s.draws)).tick ((s.chan i).ctlDraws v))
  | .curUp => .ok s
  | .curLo => .ok s
  | .sts => .ok s

/-- A write of any register (R77 to R80). -/
def State.writeReg (s : State) (v : Word) : Reg → Except Refusal State
  | .dmaCtl => (s.glb.writeCtl v).map fun g => { s with glb := g }
  | .chselL => .ok { s with glb := { s.glb with chselL := v } }
  | .chselH => .ok { s with glb := { s.glb with chselH := v } }
  | .dmaStat => .ok { s with glb := s.glb.writeStat v }
  | .dmaMask => .ok { s with glb := s.glb.writeMask v }
  | .dmaBind => .ok (s.writeBind v)
  | .dmaCap => .ok s
  | .chan i r => s.writeChReg i v r
  | .reserved => .ok s

/-- `WR32(off, v)`, one access of an agent (R77). Refused outside the region (R73). -/
def wr32 (ag : Agent) (off : Nat) (v : Word) (s : State) : Except Refusal State :=
  match regAt off with
  | none => .error .regAccess
  | some r => (s.writeReg v r).map fun s => s.log (.wr ag off v)

/-! ## The allocator port (R84) -/

/-- The allocator's answer: the HOST's next ready answer, or a free one (notes/assumptions/7.md). -/
def State.allocAnswer (s : State) : Option BusAddr :=
  match s.allocs with
  | a :: _ => a
  | [] => allocDraw s.draws

/-- `Alloc(size, 128, dir)`, one request (R84): the answer, and the state with the request made. -/
def allocReq (size : Word) (dir : Bool) (s : State) : Option BusAddr × State :=
  let a := s.allocAnswer
  (a, ({ s with allocs := s.allocs.tail, draws := s.draws + 1 }).log (.alloc size bufAlign dir a))

/-! ## Buffer bytes (R86, R87) -/

/-- The bytes of this buffer are free: a device-to-memory buffer since its first activation (R236). -/
def Desc.free (d : Desc) : Bool := (d.dir == dirD2M) && d.streamed

/-- What reading byte `o` of a buffer returns, given the next free value (R86). -/
def Desc.byteAt (d : Desc) (o : Nat) (fv : Word) : Byte :=
  if d.free then fv.setWidth 8 else d.buf.read o

/-- `MemRead(BUF(i), o, 1)` (R86): defined inside the buffer, changes no byte. -/
def memRead (i : Fin 8) (o : Nat) (s : State) : Except Fault (Byte × State) :=
  match s.desc i with
  | none => .error .bufferAccess
  | some d =>
    if o < d.size.toNat then
      .ok (d.byteAt o (draw s.draws), (s.tick 1).log (.memRd i o (d.byteAt o (draw s.draws))))
    else .error .bufferAccess

/-- `MemWrite(BUF(i), o, 1, b)` (R87): defined inside the buffer. -/
def memWrite (i : Fin 8) (o : Nat) (b : Byte) (s : State) : Except Fault State :=
  match s.desc i with
  | none => .error .bufferAccess
  | some d =>
    if o < d.size.toNat then
      .ok ((s.setChan i { s.chan i with desc := some { d with buf := d.buf.write o b } }).log (.memWr i o b))
    else .error .bufferAccess

/-! ## Responding and taking a fault -/

/-- The response sent on the command port; SEQ becomes IDLE (R23, R110). -/
def State.respond (s : State) (q : Resp) : State :=
  { s with seq := .idle, cmdOut := s.cmdOut ++ [q.packet] }

/-- TAKING A FAULT on the command port (R252, R253, R265): the sticky flag is set, the response sent, SEQ is IDLE, and
nothing else changes: no access, no saved register, no cause (R250). -/
def State.raise (s : State) (x : Violation) : State := (s.setFault x).respond x.resp

/-- SEQ left BUSY at its position. -/
def State.suspend (s : State) (r : SeqRun) : State := { s with seq := .busy r }

end Sys2Proof.Machine
end

