-- ==== Sys2Proof/Machine/Env.lean ====
section
/-! DEFINITION. The agents beside SEQ: the moves of ENG (44_engine_environment.md R231, R233, R234), the steps of an
interrupt-service agent (43_interrupt_handler.md R221, 30_encoding.md R105), and the schedule that interleaves them
with SEQ (20_memory.md R82). -/

namespace Sys2Proof.Machine

open Sys2Proof.Config

/-! ## ENG -/

/-- DONE(i) set: the only way a bit of DMA_STAT becomes 1 (R234). -/
def State.flagDone (s : State) (i : Fin 8) : State :=
  { s with glb := { s.glb with done := s.glb.done ||| (1#8 <<< i.val) } }

/-- Channel `i` with the enable bit and both hidden bits cleared (R231, R233). -/
def State.engDisable (s : State) (i : Fin 8) : State :=
  s.setChan i { s.chan i with en := false, disPending := false, armed := false }

/-- The precondition of a move (R231, R233, R234). -/
def State.engEnabled (s : State) : EngMove → Bool
  | .ackDisable i => (s.chan i).disPending
  | .selfDisable i => s.sw.selfDisable && (s.chan i).en
  | .complete i => (s.chan i).en && (s.chan i).armed && (!s.sw.needsCtlEn || s.glb.en)

/-- The effect of a move whose precondition holds (R231, R233, R234). -/
def State.engEffect (s : State) : EngMove → State
  | .ackDisable i => s.engDisable i
  | .selfDisable i => s.engDisable i
  | .complete i =>
      (s.setChan i { s.chan i with armed := (s.chan i).armed && !s.sw.oneShot }).flagDone i

/-- A move of ENG; one whose precondition does not hold is not taken (R230, notes/assumptions/21.md). -/
def State.engMove (s : State) (m : EngMove) : State := if s.engEnabled m then s.engEffect m else s

/-! ## IRQH_k -/

/-- Port `k` replaced. -/
def State.setPort (s : State) (k : Nat) (p : IrqPort) : State := { s with irqh := s.irqh.set k p }

/-- A packet accepted on a service port: HANDLE_IRQ starts at H1; anything else is an IllegalCommand there (R105,
R109, R253). -/
def State.irqAccept (s : State) (k : Nat) (p : IrqPort) (q : Packet) (rest : List Packet) : State :=
  match decode q with
  | .ok .handleIrq => s.setPort k { p with run := .busy .H1 0, inbox := rest }
  | _ => (s.setFault .illegal).setPort k { p with inbox := rest, outbox := p.outbox ++ [Resp.illegal.packet] }

/-- H1: read the status register once (R221). -/
def State.irqH1 (s : State) (k : Nat) (p : IrqPort) : State :=
  let v := s.readVal .dmaStat
  (s.setPort k { p with run := .busy .H2 v }).log (.rd (.irqh k) offStat v)

/-- H2: clear every completion bit with one all-ones write and respond with the bitmap of the word read at H1
(R221, R264). -/
def State.irqH2 (s : State) (k : Nat) (p : IrqPort) (v : Word) : State :=
  ({ s with glb := s.glb.writeStat statClearAll }.setPort k
    { p with run := .idle, outbox := p.outbox ++ [(Resp.ok [(decodeStatus v).setWidth 32]).packet] }).log
    (.wr (.irqh k) offStat statClearAll)

/-- The next step of IRQH_k: accept a waiting packet, H1, or H2; an idle agent with nothing waiting, or a port that
does not exist, does nothing (R26, notes/assumptions/23.md). -/
def State.irqStep (s : State) (k : Nat) : State :=
  match s.irqh[k]? with
  | none => s
  | some p =>
    match p.run, p.inbox with
    | .idle, [] => s
    | .idle, q :: rest => s.irqAccept k p q rest
    | .busy .H1 _, _ => s.irqH1 k p
    | .busy .H2 v, _ => s.irqH2 k p v

/-! ## The schedule -/

/-- Whose turn has come after the other agents have moved: SEQ's, or the step ends. -/
inductive Turned where
  | go (s : State)
  | rest (s : State)
  deriving Repr

/-- The turns taken up to and including SEQ's next one. With nothing left in the schedule it is always SEQ's turn
(notes/assumptions/2.md). -/
def runTurns : List Turn → State → Turned
  | [], s => .go { s with plan := [] }
  | .seq :: p, s => .go { s with plan := p }
  | .rest :: p, s => .rest { s with plan := p }
  | .eng m :: p, s => runTurns p (s.engMove m)
  | .irqh k :: p, s => runTurns p (s.irqStep k)

/-- One turn taken while SEQ is IDLE with no packet waiting: a turn of SEQ does nothing (R291,
notes/assumptions/31.md). -/
def State.idleTurn (s : State) : State :=
  match s.plan with
  | [] => s
  | .seq :: p => { s with plan := p }
  | .rest :: p => { s with plan := p }
  | .eng m :: p => { s with plan := p }.engMove m
  | .irqh k :: p => { s with plan := p }.irqStep k

end Sys2Proof.Machine
end

