-- ==== Sys2Proof/Machine/Seq.lean ====
section
/-! DEFINITION. The sequencer: what one micro-step of a command can do (10_state.md R24), the access combinators and
`MOD` (40_register_model.md R141), and the driver that runs a command's micro-steps interleaved with the other agents
(20_memory.md R82). notes/assumptions/1.md and 3.md say how a command and a step of the model relate. -/

namespace Sys2Proof.Machine

open Sys2Proof.Config

/-- The outcome of one micro-step of SEQ (R24). -/
inductive Micro where
  /-- the position moves to `r.step` -/
  | goto (r : SeqRun) (s : State)
  /-- the position stays: the spin of step K3 (R162) -/
  | spin (r : SeqRun) (s : State)
  /-- the last micro-step: the command responds -/
  | done (q : Resp) (s : State)
  /-- the access has no meaning (R258) -/
  | stop (x : Refusal)
  /-- a state that breaks the model's invariant -/
  | fault (x : Fault)
  deriving Repr

/-- One `RD32` of SEQ and what follows it. -/
def rdThen (off : Nat) (s : State) (k : Word → State → Micro) : Micro :=
  match rd32 .seq off s with
  | .error x => .stop x
  | .ok p => k p.1 p.2

/-- One `WR32` of SEQ and what follows it. -/
def wrThen (off : Nat) (v : Word) (s : State) (k : State → Micro) : Micro :=
  match wr32 .seq off v s with
  | .error x => .stop x
  | .ok s => k s

/-- Step M1 of `MOD`: read into `t` and go on (R141). -/
def modRead (off : Nat) (r : SeqRun) (next : Label) (s : State) : Micro :=
  rdThen off s fun t s => .goto { r with t := t, step := next } s

/-- Step M2 of `MOD`: write `t` back with the field replaced (R141). -/
def modWrite (off hi lo : Nat) (v : Word) (r : SeqRun) (s : State) (k : State → Micro) : Micro :=
  wrThen off (ins r.t hi lo v) s k

/-- A plain write and the next position. -/
def wrGoto (off : Nat) (v : Word) (r : SeqRun) (next : Label) (s : State) : Micro :=
  wrThen off v s fun s => .goto { r with step := next } s

/-- Step M2 of `MOD` and the next position. -/
def modGoto (off hi lo : Nat) (v : Word) (r : SeqRun) (next : Label) (s : State) : Micro :=
  modWrite off hi lo v r s fun s => .goto { r with step := next } s

/-- Step M2 of `MOD` as the last micro-step, responding OK with no value word. -/
def modDone (off hi lo : Nat) (v : Word) (r : SeqRun) (s : State) : Micro :=
  modWrite off hi lo v r s fun s => .done (.ok []) s

/-- What SEQ holds at the first micro-step of a command: the locals are 0, but for the block offset `cb`. -/
def SeqRun.init (cmd : Instr) (lbl : Label) (cb : Nat) : SeqRun :=
  { cmd := cmd, step := lbl, t := 0, b := 0, i := 0, ba := 0, cb := BitVec.ofNat 32 cb, r := [] }

/-- The bytes a command moves, one micro-step each. -/
def payload : Instr → Nat
  | .bufWr _ _ data => data.length
  | .bufRd _ _ n => n.toNat
  | .fldRd _ _ | .fldWr _ _ _ | .fldMod _ _ _ | .ctrlReset | .ctrlEnable | .ctrlDisable
  | .newChannel _ _ _ _ _ _ _ | .isComplete _ | .clrComplete _ | .setMask _ _ | .chActivate _
  | .chDeactivate _ | .chIsRunning _ | .handleIrq => 0

/-- A bound on the micro-steps one step of the model may make: more than any command needs (the longest,
CTRL_RESET, makes 65) beside its bytes and the spin reads the schedule can hold apart. notes/assumptions/3.md. -/
def budget (cmd : Instr) (s : State) : Nat := 128 + s.plan.length + payload cmd

/-- SEQ runs the command whose micro-steps are `f`, from position `r`, other agents moving in between as the
schedule says, until it responds, is refused, rests, or spins with nothing left in the schedule (R162, R309). -/
def drive (f : SeqRun → State → Micro) : Nat → SeqRun → State → Out
  | 0, r, s => .next (s.suspend r)
  | n + 1, r, s =>
    match runTurns s.plan s with
    | .rest s => .next (s.suspend r)
    | .go s =>
      match f r s with
      | .goto r s => drive f n r s
      | .spin r s => if s.plan = [] then .next (s.suspend r) else drive f n r s
      | .done q s => .next (s.respond q)
      | .stop x => .refused x
      | .fault x => .fault x

/-- A command accepted: SEQ becomes BUSY at its first label and runs (R23, R24). -/
def start (f : SeqRun → State → Micro) (cmd : Instr) (lbl : Label) (cb : Nat) (s : State) : Out :=
  drive f (budget cmd s) (SeqRun.init cmd lbl cb) s

/-- The end of a command that raises ContractViolation before its first access (R252). -/
def raiseContract (s : State) : Out := .next (s.raise .contract)

/-- A command with a channel index operand that must be legal (R252). -/
def withIndex (idx : BitVec 8) (s : State) (k : Fin 8 → Out) : Out :=
  match chanIdx? idx with
  | none => raiseContract s
  | some i => k i

/-- The channel-handle precondition (R169): index first, then the descriptor, without which the command has no
meaning (U1). -/
def withHandle (idx : BitVec 8) (s : State) (k : Fin 8 → Desc → Out) : Out :=
  withIndex idx s fun i =>
    match s.desc i with
    | none => .refused .noChannel
    | some d => k i d

/-- The micro-steps of a command on a channel, resolved from its index operand; SEQ never runs one whose index is
illegal. -/
def onChan (idx : BitVec 8) (f : Fin 8 → SeqRun → State → Micro) : SeqRun → State → Micro :=
  match chanIdx? idx with
  | none => fun _ _ => .fault .seqCorrupt
  | some i => f i

end Sys2Proof.Machine
end

