-- ==== Sys2Proof/Machine/Channel.lean ====
section
/-! DEFINITION. The Channel: ChConstruct and ChReset (41_channel.md R161, R162), the micro-sequences that run inside
NEW_CHANNEL, and the five channel commands (R163 to R167). -/

namespace Sys2Proof.Machine

open Sys2Proof.Config

/-! ## ChConstruct and ChReset -/

/-- ChConstruct's step C1 (R161): the request, then the validator on the answer; a failure ends NEW_CHANNEL with NONE
before any register of the channel is touched (R251). -/
def constructAlloc (dir : Bool) (size : Word) (r : SeqRun) (s : State) : Micro :=
  match allocReq size dir s with
  | (none, s) => .done .none s
  | (some ba, s) => if valid ba size then .goto { r with ba := ba, step := .C2 } s else .done .none s

/-- The steps of ChConstruct and, inside it, ChReset (R161, R162); `next` is the label after C8. Every other label
is not one of theirs. -/
def constructMicro (dir : Bool) (size dev : Word) (next : Label) (r : SeqRun) (s : State) : Micro :=
  match r.step with
  | .C1 => constructAlloc dir size r s
  | .C2 => rdThen (r.cb.toNat + choCtl) s fun t s =>
      .goto { r with t := t, step := if t.getLsbD chEnBit then .K1 else .C3 } s
  | .K1 => modRead (r.cb.toNat + choCtl) r .K2 s
  | .K2 => modGoto (r.cb.toNat + choCtl) chEnBit chEnBit 0 r .K3 s
  | .K3 => rdThen (r.cb.toNat + choCtl) s fun t s =>
      if t.getLsbD chEnBit then .spin { r with t := t } s else .goto { r with t := t, step := .K4 } s
  | .K4 => modRead (r.cb.toNat + choCtl) r .K5 s
  | .K5 => modGoto (r.cb.toNat + choCtl) chSrstBit chSrstBit 1 r .K6 s
  | .K6 => modRead (r.cb.toNat + choCtl) r .K7 s
  | .K7 => modGoto (r.cb.toNat + choCtl) chSrstBit chSrstBit 0 r .C3 s
  | .C3 => wrGoto (r.cb.toNat + choAddrLo) (addrLoOf r.ba) r .C4 s
  | .C4 => wrGoto (r.cb.toNat + choAddrUp) (addrUpOf r.ba) r .C5 s
  | .C5 => wrGoto (r.cb.toNat + choDevAddr) dev r .C6 s
  | .C6 => wrGoto (r.cb.toNat + choXferSize) size r .C7 s
  | .C7 => modRead (r.cb.toNat + choCtl) r .C8 s
  | .C8 => modGoto (r.cb.toNat + choCtl) chDirBit chDirBit (bitW dir) r next s
  | _ => .fault .seqCorrupt

/-! ## CH_ACTIVATE, CH_DEACTIVATE, CH_IS_RUNNING -/

/-- The micro-steps of CH_ACTIVATE: `MOD` of EN to 1 (R163). -/
def chActivateMicro (r : SeqRun) (s : State) : Micro :=
  match r.step with
  | .A1 => modRead (r.cb.toNat + choCtl) r .A2 s
  | .A2 => modDone (r.cb.toNat + choCtl) chEnBit chEnBit 1 r s
  | _ => .fault .seqCorrupt

/-- CH_ACTIVATE (R163). -/
def execChActivate (idx : BitVec 8) (s : State) : Out :=
  withHandle idx s fun i _ => start chActivateMicro (.chActivate idx) .A1 (chanBase i) s

/-- The micro-steps of CH_DEACTIVATE: `MOD` of EN to 0, no waiting (R164). -/
def chDeactivateMicro (r : SeqRun) (s : State) : Micro :=
  match r.step with
  | .D1 => modRead (r.cb.toNat + choCtl) r .D2 s
  | .D2 => modDone (r.cb.toNat + choCtl) chEnBit chEnBit 0 r s
  | _ => .fault .seqCorrupt

/-- CH_DEACTIVATE (R164). -/
def execChDeactivate (idx : BitVec 8) (s : State) : Out :=
  withHandle idx s fun i _ => start chDeactivateMicro (.chDeactivate idx) .D1 (chanBase i) s

/-- The micro-step of CH_IS_RUNNING: the live enable bit (R165). -/
def chIsRunningMicro (r : SeqRun) (s : State) : Micro :=
  match r.step with
  | .Q1 => rdThen (r.cb.toNat + choCtl) s fun t s => .done (.ok [bitW (t.getLsbD chEnBit)]) s
  | _ => .fault .seqCorrupt

/-- CH_IS_RUNNING (R165). -/
def execChIsRunning (idx : BitVec 8) (s : State) : Out :=
  withHandle idx s fun i _ => start chIsRunningMicro (.chIsRunning idx) .Q1 (chanBase i) s

/-! ## BUF_WR, BUF_RD -/

/-- The range check of R166 and R167; the sum is taken without wrapping. -/
def bufInRange (off : Word) (n : Nat) (d : Desc) : Bool := decide (off.toNat + n ≤ d.size.toNat)

/-- The byte steps of BUF_WR: one byte per step, ascending (R166). -/
def bufWrMicro (i : Fin 8) (off : Word) (data : List Byte) (r : SeqRun) (s : State) : Micro :=
  match r.step with
  | .W k =>
      match memWrite i (off.toNat + k) (data.getD k 0) s with
      | .error x => .fault x
      | .ok s => if k + 1 < data.length then .goto { r with step := .W (k + 1) } s else .done (.ok []) s
  | _ => .fault .seqCorrupt

/-- BUF_WR (R166): index, descriptor, bounds, then the bytes; no byte at all is OK at once. -/
def execBufWr (idx : BitVec 8) (off : Word) (data : List Byte) (s : State) : Out :=
  withHandle idx s fun i d =>
    if bufInRange off data.length d then
      if data.length = 0 then .next (s.respond (.ok []))
      else start (bufWrMicro i off data) (.bufWr idx off data) (.W 0) (chanBase i) s
    else raiseContract s

/-- The byte steps of BUF_RD: one byte per step, ascending; the bytes are packed like the data of BUF_WR (R167,
R111). -/
def bufRdMicro (i : Fin 8) (off : Word) (n : BitVec 16) (r : SeqRun) (s : State) : Micro :=
  match r.step with
  | .V k =>
      match memRead i (off.toNat + k) s with
      | .error x => .fault x
      | .ok p =>
        if k + 1 < n.toNat then .goto { r with step := .V (k + 1), r := r.r ++ [p.1] } p.2
        else .done (.ok (packBytes (r.r ++ [p.1]))) p.2
  | _ => .fault .seqCorrupt

/-- BUF_RD (R167). -/
def execBufRd (idx : BitVec 8) (off : Word) (n : BitVec 16) (s : State) : Out :=
  withHandle idx s fun i d =>
    if bufInRange off n.toNat d then
      if n.toNat = 0 then .next (s.respond (.ok []))
      else start (bufRdMicro i off n) (.bufRd idx off n) (.V 0) (chanBase i) s
    else raiseContract s

end Sys2Proof.Machine
end

