-- ==== Sys2Proof/Machine/Controller.lean ====
section
/-! DEFINITION. The Controller commands CTRL_RESET, CTRL_ENABLE, CTRL_DISABLE, NEW_CHANNEL, IS_COMPLETE, CLR_COMPLETE,
SET_MASK (42_controller.md R190 to R198). -/

namespace Sys2Proof.Machine

open Sys2Proof.Config

/-! ## CTRL_RESET -/

/-- The end of one turn of the loop of CTRL_RESET: the next channel, or on to T12 after the eighth (R190). -/
def resetNext (r : SeqRun) : SeqRun :=
  { r with i := r.i + 1, step := if r.i.toNat + 1 < nCh then .T5 else .T12 }

/-- The micro-steps of CTRL_RESET (R190); the loop's index is set to 0 on the way to T5. -/
def ctrlResetMicro (r : SeqRun) (s : State) : Micro :=
  match r.step with
  | .T1 => modRead offCtl r .T2 s
  | .T2 => modGoto offCtl ctlEnBit ctlEnBit 0 r .T3 s
  | .T3 => modRead offMask r .T4 s
  | .T4 => modGoto offMask gieBit gieBit (bitW (!gieEnabled)) { r with i := 0 } .T5 s
  | .T5 => rdThen offBind s fun t s =>
      .goto { r with t := t, step := if t.getLsbD r.i.toNat then .T6 else .T7 } s
  | .T6 => modGoto offBind r.i.toNat r.i.toNat 0 r .T7 s
  | .T7 => modRead offMask r .T8 s
  | .T8 => modGoto offMask r.i.toNat r.i.toNat (bitW chmMasked) r .T9 s
  | .T9 => wrGoto offStat (encStatClear r.i.toNat) r .T10 s
  | .T10 => modRead (selOff r.i.toNat) r .T11 s
  | .T11 => modWrite (selOff r.i.toNat) (selHi r.i.toNat) (selLo r.i.toNat) 0 r s fun s => .goto (resetNext r) s
  | .T12 => modRead offCtl r .T13 s
  | .T13 => modGoto offCtl ctlSrstBit ctlSrstBit 1 r .T14 s
  | .T14 => modRead offCtl r .T15 s
  | .T15 => modGoto offCtl ctlSrstBit ctlSrstBit 0 r .T16 s
  | .T16 => wrThen offMask maskAll s fun s => .done (.ok []) s
  | _ => .fault .seqCorrupt

/-- CTRL_RESET (R190). -/
def execCtrlReset (s : State) : Out := start ctrlResetMicro .ctrlReset .T1 0 s

/-! ## CTRL_ENABLE, CTRL_DISABLE -/

/-- The micro-steps of CTRL_ENABLE: `MOD` of EN to 1 (R191). -/
def ctrlEnableMicro (r : SeqRun) (s : State) : Micro :=
  match r.step with
  | .E1 => modRead offCtl r .E2 s
  | .E2 => modDone offCtl ctlEnBit ctlEnBit 1 r s
  | _ => .fault .seqCorrupt

/-- CTRL_ENABLE (R191). -/
def execCtrlEnable (s : State) : Out := start ctrlEnableMicro .ctrlEnable .E1 0 s

/-- The micro-steps of CTRL_DISABLE: `MOD` of EN to 0 (R192). -/
def ctrlDisableMicro (r : SeqRun) (s : State) : Micro :=
  match r.step with
  | .E1 => modRead offCtl r .E2 s
  | .E2 => modDone offCtl ctlEnBit ctlEnBit 0 r s
  | _ => .fault .seqCorrupt

/-- CTRL_DISABLE (R192). -/
def execCtrlDisable (s : State) : Out := start ctrlDisableMicro .ctrlDisable .E1 0 s

/-! ## NEW_CHANNEL -/

/-- The descriptor NEW_CHANNEL makes at N8: a buffer of `size` zero bytes, not yet activated (R57, R58, R193). -/
def Desc.fresh (ba : BusAddr) (size : Word) (dir : Bool) : Desc :=
  { ba := ba, size := size, dir := dir, buf := [], streamed := false }

/-- `desc[idx] <- {ba, size, dir}; buf[idx] <- size zero bytes` (R193 N8). -/
def State.attach (s : State) (i : Fin 8) (d : Desc) : State :=
  s.setChan i { s.chan i with desc := some d }

/-- The micro-steps of NEW_CHANNEL (R193); N4 is ChConstruct, steps C1 to C8. -/
def newChannelMicro (slave : BitVec 8) (dir irq : Bool) (size dev : Word) (i : Fin 8) (r : SeqRun)
    (s : State) : Micro :=
  match r.step with
  | .N1 => rdThen offBind s fun b s =>
      if b.getLsbD i then .done .none s else .goto { r with t := b, b := b, step := .N2 } s
  | .N2 => modRead offCtl r .N3 s
  | .N3 => modGoto offCtl ctlEnBit ctlEnBit 0 r .C1 s
  | .N5 => modRead (selOff i) r .N6 s
  | .N6 => modGoto (selOff i) (selHi i) (selLo i) (selField (slave.setWidth 32) true) r .N7 s
  | .N7 => modRead offBind r .N8 s
  | .N8 => modWrite offBind i i 1 r s fun s =>
      .goto { r with step := .N9 } (s.attach i (Desc.fresh r.ba size dir))
  | .N9 => modRead offMask r .N10 s
  | .N10 => modDone offMask i i (bitW (if irq then !chmMasked else chmMasked)) r s
  | _ => constructMicro dir size dev .N5 r s

/-- NEW_CHANNEL (R193): the index, then the slave id, then the micro-steps (R257). `tmo` is carried and written
nowhere (R193, D18). DESIGN CHOICE, safe: `cb` is computed here, before N1, where the spec keeps it after N3; the source
does not settle the order and the computation is pure (R312). notes/assumptions/33.md. -/
def execNewChannel (idx slave : BitVec 8) (dir irq : Bool) (size dev : Word) (tmo : BitVec 30)
    (s : State) : Out :=
  withIndex idx s fun i =>
    if nSlave ≤ slave.toNat then raiseContract s
    else
      start (newChannelMicro slave dir irq size dev i) (.newChannel idx slave dir irq size dev tmo) .N1
        (chanBase i) s

/-! ## IS_COMPLETE, CLR_COMPLETE, SET_MASK -/

/-- The micro-step of IS_COMPLETE (R194). -/
def isCompleteMicro (i : Fin 8) (r : SeqRun) (s : State) : Micro :=
  match r.step with
  | .P1 => rdThen offStat s fun t s => .done (.ok [bitW (t.getLsbD (doneBit i))]) s
  | _ => .fault .seqCorrupt

/-- IS_COMPLETE (R194): an index of 8 or more answers false with no access and no fault (R254). -/
def execIsComplete (idx : BitVec 8) (s : State) : Out :=
  match chanIdx? idx with
  | none => .next (s.respond (.ok [0]))
  | some i => start (isCompleteMicro i) (.isComplete idx) .P1 0 s

/-- The micro-step of CLR_COMPLETE: one plain write, no read (R195). -/
def clrCompleteMicro (i : Fin 8) (r : SeqRun) (s : State) : Micro :=
  match r.step with
  | .L1 => wrThen offStat (encStatClear i) s fun s => .done (.ok []) s
  | _ => .fault .seqCorrupt

/-- CLR_COMPLETE (R195): an index of 8 or more is a no-op (R254). -/
def execClrComplete (idx : BitVec 8) (s : State) : Out :=
  match chanIdx? idx with
  | none => .next (s.respond (.ok []))
  | some i => start (clrCompleteMicro i) (.clrComplete idx) .L1 0 s

/-- The micro-steps of SET_MASK: `MOD` of CHM(idx) (R196). -/
def setMaskMicro (i : Fin 8) (masked : Bool) (r : SeqRun) (s : State) : Micro :=
  match r.step with
  | .S1 => modRead offMask r .S2 s
  | .S2 => modDone offMask i i (bitW (if masked then chmMasked else !chmMasked)) r s
  | _ => .fault .seqCorrupt

/-- SET_MASK (R196). -/
def execSetMask (idx : BitVec 8) (masked : Bool) (s : State) : Out :=
  withIndex idx s fun i => start (setMaskMicro i masked) (.setMask idx masked) .S1 0 s

end Sys2Proof.Machine
end

