-- ==== Sys2Proof/Machine/InterruptHandler.lean ====
section
/-! DEFINITION. HANDLE_IRQ on the command port (43_interrupt_handler.md R221; 30_encoding.md R105). On a service port
the same two steps are IRQH_k's, Machine/Env.lean. -/

namespace Sys2Proof.Machine

open Sys2Proof.Config

/-- The micro-steps of HANDLE_IRQ run by SEQ; the status word `s` is kept in `t` (R221, notes/assumptions/16.md). -/
def handleIrqMicro (r : SeqRun) (s : State) : Micro :=
  match r.step with
  | .H1 => modRead offStat r .H2 s
  | .H2 => wrThen offStat statClearAll s fun s => .done (.ok [(decodeStatus r.t).setWidth 32]) s
  | _ => .fault .seqCorrupt

/-- HANDLE_IRQ (R221). -/
def execHandleIrq (s : State) : Out := start handleIrqMicro .handleIrq .H1 0 s

end Sys2Proof.Machine
end

