-- ==== Sys2Proof/Machine/RegisterModel.lean ====
section
/-! DEFINITION. The Register Model commands FLD_RD, FLD_WR, FLD_MOD (40_register_model.md R140 to R146). -/

namespace Sys2Proof.Machine

/-- The micro-step of FLD_RD (R142). -/
def fldRdMicro (l : FieldLoc) (r : SeqRun) (s : State) : Micro :=
  match r.step with
  | .F1 => rdThen l.off s fun t s => .done (.ok [ext t l.hi l.lo]) s
  | _ => .fault .seqCorrupt

/-- The micro-step of FLD_WR: the field and zero in every other bit, no read (R143). -/
def fldWrMicro (l : FieldLoc) (value : Word) (r : SeqRun) (s : State) : Micro :=
  match r.step with
  | .F1 => wrThen l.off (ins 0 l.hi l.lo value) s fun s => .done (.ok []) s
  | _ => .fault .seqCorrupt

/-- The micro-steps of FLD_MOD, the two steps of `MOD` (R144, R141). -/
def fldModMicro (l : FieldLoc) (value : Word) (r : SeqRun) (s : State) : Micro :=
  match r.step with
  | .F1 => modRead l.off r .F2 s
  | .F2 => modDone l.off l.hi l.lo value r s
  | _ => .fault .seqCorrupt

/-- A field command's micro-steps, resolved from its operands; SEQ never runs one whose field has no place. -/
def onField (f : Fld) (idx : BitVec 8) (k : FieldLoc → SeqRun → State → Micro) : SeqRun → State → Micro :=
  match fldLoc f idx with
  | none => fun _ _ => .fault .seqCorrupt
  | some l => k l

/-- FLD_RD (R142). -/
def execFldRd (f : Fld) (idx : BitVec 8) (s : State) : Out :=
  match fldLoc f idx with
  | none => raiseContract s
  | some l => start (fldRdMicro l) (.fldRd f idx) .F1 0 s

/-- FLD_WR (R143). -/
def execFldWr (f : Fld) (idx : BitVec 8) (value : Word) (s : State) : Out :=
  match fldLoc f idx with
  | none => raiseContract s
  | some l => start (fldWrMicro l value) (.fldWr f idx value) .F1 0 s

/-- FLD_MOD (R144). -/
def execFldMod (f : Fld) (idx : BitVec 8) (value : Word) (s : State) : Out :=
  match fldLoc f idx with
  | none => raiseContract s
  | some l => start (fldModMicro l value) (.fldMod f idx value) .F1 0 s

end Sys2Proof.Machine
end

