-- ==== Sys2Proof/Machine/Dispatch.lean ====
section
/-! DEFINITION. One arm per command (30_encoding.md R104): its meaning. -/

namespace Sys2Proof.Machine

/-- What SEQ does with an accepted command. SEQ accepts one only when IDLE (R23): `step` calls it only then. -/
def exec (i : Instr) (s : State) : Host.Outcome State Fault Refusal :=
  match i with
  | .fldRd f idx => Sys2Proof.Machine.execFldRd f idx s
  | .fldWr f idx value => Sys2Proof.Machine.execFldWr f idx value s
  | .fldMod f idx value => Sys2Proof.Machine.execFldMod f idx value s
  | .ctrlReset => Sys2Proof.Machine.execCtrlReset s
  | .ctrlEnable => Sys2Proof.Machine.execCtrlEnable s
  | .ctrlDisable => Sys2Proof.Machine.execCtrlDisable s
  | .newChannel idx slave dir irq size dev tmo => Sys2Proof.Machine.execNewChannel idx slave dir irq size dev tmo s
  | .isComplete idx => Sys2Proof.Machine.execIsComplete idx s
  | .clrComplete idx => Sys2Proof.Machine.execClrComplete idx s
  | .setMask idx masked => Sys2Proof.Machine.execSetMask idx masked s
  | .chActivate idx => Sys2Proof.Machine.execChActivate idx s
  | .chDeactivate idx => Sys2Proof.Machine.execChDeactivate idx s
  | .chIsRunning idx => Sys2Proof.Machine.execChIsRunning idx s
  | .bufWr idx off data => Sys2Proof.Machine.execBufWr idx off data s
  | .bufRd idx off n => Sys2Proof.Machine.execBufRd idx off n s
  | .handleIrq => Sys2Proof.Machine.execHandleIrq s

end Sys2Proof.Machine
end

