-- ==== Sys2Proof/Machine/Resume.lean ====
section
/-! DEFINITION. SEQ going on with the command it is BUSY with (10_state.md R23, R24): the micro-steps of a command, and
the step that resumes it. -/

namespace Sys2Proof.Machine

/-- The micro-steps of each command. -/
def microOf (c : Instr) : SeqRun → State → Micro :=
  match c with
  | .fldRd f idx => onField f idx fldRdMicro
  | .fldWr f idx value => onField f idx fun l => fldWrMicro l value
  | .fldMod f idx value => onField f idx fun l => fldModMicro l value
  | .ctrlReset => ctrlResetMicro
  | .ctrlEnable => ctrlEnableMicro
  | .ctrlDisable => ctrlDisableMicro
  | .newChannel idx slave dir irq size dev _ => onChan idx fun i => newChannelMicro slave dir irq size dev i
  | .isComplete idx => onChan idx isCompleteMicro
  | .clrComplete idx => onChan idx clrCompleteMicro
  | .setMask idx masked => onChan idx fun i => setMaskMicro i masked
  | .chActivate idx => onChan idx fun _ => chActivateMicro
  | .chDeactivate idx => onChan idx fun _ => chDeactivateMicro
  | .chIsRunning idx => onChan idx fun _ => chIsRunningMicro
  | .bufWr idx off data => onChan idx fun i => bufWrMicro i off data
  | .bufRd idx off n => onChan idx fun i => bufRdMicro i off n
  | .handleIrq => handleIrqMicro

/-- SEQ, BUSY at `r`, goes on (R24). -/
def resume (r : SeqRun) (s : State) : Out := drive (microOf r.cmd) (budget r.cmd s) r s

/-- A packet taken from the command port by an IDLE SEQ: decoded and run, or an IllegalCommand (R105, R109, R253). -/
def accept (p : Packet) (s : State) : Out :=
  match decode p with
  | .ok i => exec i s
  | .error _ => .next (s.raise .illegal)

end Sys2Proof.Machine
end

