-- ==== Sys2Proof/Machine/Step.lean ====
section
/-! DEFINITION. One step of the machine. The machine has no program counter and fetches nothing (10_state.md R24,
20_memory.md R91): a command is a packet that the HOST sends on the command port. notes/assumptions/12.md. -/

namespace Sys2Proof.Machine

/-- A BUSY SEQ goes on; an IDLE one takes the next packet of the command port; with none waiting one turn of the
schedule passes (R20, R23, R291). -/
def step (s : State) : Host.Outcome State Fault Refusal :=
  match s.seq, s.cmdIn with
  | .busy r, _ => resume r s
  | .idle, p :: rest => accept p { s with cmdIn := rest }
  | .idle, [] => .next s.idleTurn

/-- The packet numbered `w` as the table numbers it, first on the command port of an IDLE sequencer. -/
def State.withFetchWord (s : State) (nbits w : Nat) : State :=
  { s with seq := .idle, cmdIn := tablePacket nbits w :: s.cmdIn }

end Sys2Proof.Machine
end

