-- ==== Sys2Proof/Safety.lean ====
section
/-! DEFINITION. What a claim about a run can speak of: the invariant of the machine (10_state.md R56, R57, R58; the
validator R160 for every Channel that exists; SEQ at a label its command has, R24), the launch premise SRST_CLEAN
(70_reset_and_hazards.md R297), the fairness premise ENG_ACK_FAIR (44_engine_environment.md R232), schedules without a
rest, runs. -/

namespace Sys2Proof.Machine

open Sys2Proof.Config

/-! ## The invariant -/

/-- R56: a pending disable and an owed completion both need the enable bit. -/
def Chan.hiddenOk (c : Chan) : Bool := (!c.disPending || c.en) && (!c.armed || c.en)

/-- A descriptor as NEW_CHANNEL makes it: its address and size passed the validator (R160, R161), its buffer is in
canonical form and lies inside its size (R58, R85). -/
def Desc.ok (d : Desc) : Bool := valid d.ba d.size && Memory.wf d.buf && Memory.within d.size.toNat d.buf

/-- The labels of CTRL_RESET before its loop (R190). -/
def resetBefore : List Label := [.T1, .T2, .T3, .T4]
/-- The labels of the loop of CTRL_RESET (R190). -/
def resetLoop : List Label := [.T5, .T6, .T7, .T8, .T9, .T10, .T11]
/-- The labels of CTRL_RESET after its loop (R190). -/
def resetAfter : List Label := [.T12, .T13, .T14, .T15, .T16]
/-- The labels of NEW_CHANNEL up to the allocator request (R193, R161). -/
def newBeforeAlloc : List Label := [.N1, .N2, .N3, .C1]
/-- The labels of NEW_CHANNEL after the allocator's answer has passed the validator (R193, R161, R162). -/
def newAfterAlloc : List Label :=
  [.C2, .K1, .K2, .K3, .K4, .K5, .K6, .K7, .C3, .C4, .C5, .C6, .C7, .C8, .N5, .N6, .N7, .N8, .N9, .N10]

/-- A channel command stands at one of its labels with its block offset (R23, R24). -/
def onLabels (idx : BitVec 8) (r : SeqRun) (ls : List Label) : Bool :=
  match chanIdx? idx with
  | none => false
  | some i => r.cb == BitVec.ofNat 32 (chanBase i) && ls.contains r.step

/-- BUF_WR or BUF_RD stands at byte `k` of the `n` bytes its checks allowed (R166, R167). -/
def onBuffer (idx : BitVec 8) (off : Word) (n k : Nat) (s : State) : Bool :=
  match chanIdx? idx with
  | none => false
  | some i => decide (k < n) && (s.desc i).any (fun d => bufInRange off n d)

/-- SEQ is BUSY at a label its command has, with locals its steps can have left (R23, R24). -/
def SeqRun.ok (r : SeqRun) (s : State) : Bool :=
  match r.cmd with
  | .fldRd f idx => (fldLoc f idx).isSome && r.step == .F1
  | .fldWr f idx _ => (fldLoc f idx).isSome && r.step == .F1
  | .fldMod f idx _ => (fldLoc f idx).isSome && (r.step == .F1 || r.step == .F2)
  | .ctrlReset =>
      (resetBefore.contains r.step && r.i == 0#32) || (resetLoop.contains r.step && decide (r.i.toNat < nCh)) ||
        (resetAfter.contains r.step && r.i == BitVec.ofNat 32 nCh)
  | .ctrlEnable => r.step == .E1 || r.step == .E2
  | .ctrlDisable => r.step == .E1 || r.step == .E2
  | .newChannel idx slave _ _ size _ _ =>
      decide (slave.toNat < nSlave) &&
        (onLabels idx r newBeforeAlloc || (onLabels idx r newAfterAlloc && valid r.ba size))
  | .isComplete idx => (chanIdx? idx).isSome && r.step == .P1
  | .clrComplete idx => (chanIdx? idx).isSome && r.step == .L1
  | .setMask idx _ => (chanIdx? idx).isSome && (r.step == .S1 || r.step == .S2)
  | .chActivate idx => onLabels idx r [.A1, .A2]
  | .chDeactivate idx => onLabels idx r [.D1, .D2]
  | .chIsRunning idx => onLabels idx r [.Q1]
  | .bufWr idx off data =>
      match r.step with
      | .W k => onBuffer idx off data.length k s
      | _ => false
  | .bufRd idx off n =>
      match r.step with
      | .V k => onBuffer idx off n.toNat k s && r.r.length == k
      | _ => false
  | .handleIrq => r.step == .H1 || r.step == .H2

/-- SEQ is IDLE, or BUSY as its command allows. -/
def State.seqOk (s : State) : Bool :=
  match s.seq with
  | .idle => true
  | .busy r => r.ok s

/-- The invariant of the machine: it holds at reset and every step keeps it. -/
structure State.Inv (s : State) : Prop where
  /-- R56 -/
  hidden : ∀ i : Fin 8, (s.chan i).hiddenOk = true
  /-- R57: a descriptor implies the bound bit; R58, R160: it is as NEW_CHANNEL made it -/
  desc : ∀ i : Fin 8, (s.desc i).all (fun d => s.boundBit i && d.ok) = true
  /-- R23, R24 -/
  seq : s.seqOk = true
  /-- R8: N_IRQH >= 1 -/
  ports : 1 ≤ s.irqh.length

/-! ## Premises the spec names -/

/-- `CH_ACTIVATE i`. -/
def activates (i : Fin 8) : Instr → Bool
  | .chActivate idx => chanIdx? idx == some i
  | _ => false

/-- `FLD_MOD CHCTL_SRST, i, 0`. -/
def clearsSrst (i : Fin 8) : Instr → Bool
  | .fldMod .chctlSrst idx value => chanIdx? idx == some i && value == 0#32
  | _ => false

/-- SRST_CLEAN(i) of a trace that starts at `s` and sends the commands `prog` (R297): the soft-reset bit is clear, or
the enable bit is set, so that NEW_CHANNEL's ChReset clears it, or the program clears it before it activates `i`. -/
def State.SrstClean (s : State) (prog : List Instr) (i : Fin 8) : Prop :=
  (s.chan i).srst = false ∨ (s.chan i).en = true ∨
    ∃ c ∈ prog.takeWhile (fun c => !activates i c), clearsSrst i c = true

/-- The schedule never ends a step while a command runs: only SEQ, ENG and IRQH_k move. -/
def State.NoRest (s : State) : Prop := Turn.rest ∉ s.plan

/-- Nobody but SEQ moves, and the schedule never cuts a command. -/
def State.Quiet (s : State) : Prop := ∀ x ∈ s.plan, x = Turn.seq

/-- `t` is `e` but for the model's own schedule, counter of free values and access log. -/
def State.sameMachine (t e : State) : Prop := t = { e with plan := t.plan, draws := t.draws, bus := t.bus }

/-- What the HOST adds between two steps: packets on the command port, allocator answers, turns of the other agents,
packets on each service port (R20). -/
structure HostInput where
  cmds : List Packet
  answers : List (Option BusAddr)
  turns : List Turn
  irqs : List (List Packet)
  deriving DecidableEq, Repr

/-- Packets added to the service ports, port by port. -/
def feedPorts : List IrqPort → List (List Packet) → List IrqPort
  | p :: ps, q :: qs => { p with inbox := p.inbox ++ q } :: feedPorts ps qs
  | ps, [] => ps
  | [], _ => []

/-- The state with the HOST's inputs queued. -/
def State.feed (s : State) (h : HostInput) : State :=
  { s with
    cmdIn := s.cmdIn ++ h.cmds
    allocs := s.allocs ++ h.answers
    plan := s.plan ++ h.turns
    irqh := feedPorts s.irqh h.irqs }

/-- A run: each state is the one the step before gave, with whatever the HOST has added. -/
def IsRun (σ : Nat → State) : Prop :=
  ∀ n, ∃ (t : State) (h : HostInput), step (σ n) = .next t ∧ σ (n + 1) = t.feed h

/-- ENG_ACK_FAIR (R232): a pending disable does not stay pending for ever. A premise of termination claims only. -/
def EngAckFair (σ : Nat → State) : Prop :=
  ∀ (i : Fin 8) (n : Nat), ((σ n).chan i).disPending = true → ∃ m, n < m ∧ ((σ m).chan i).disPending = false

/-- No fault is recorded, "no fault recorded" as a premise (R25). -/
def State.noFaultRecorded (s : State) : Prop := s.fltContract = false ∧ s.fltIllegal = false

/-! ## Schedules as a claim names them (R20, R82) -/

/-- A turn of an agent other than SEQ. -/
def Turn.other : Turn → Bool
  | .eng _ | .irqh _ => true
  | .seq | .rest => false

/-- What one turn of another agent does. -/
def State.otherTurn (s : State) : Turn → State
  | .eng m => s.engMove m
  | .irqh k => s.irqStep k
  | .seq | .rest => s

/-- The moves of other agents, in order. -/
def State.others (s : State) (p : List Turn) : State := p.foldl State.otherTurn s

/-- The schedule `plan` gives other agents the moves `p`, then SEQ one turn, and leaves `q`; a schedule that has run
out gives SEQ every turn. -/
def seqTurn (plan p q : List Turn) : Prop :=
  (∀ x ∈ p, x.other = true) ∧ (plan = p ++ .seq :: q ∨ (plan = p ∧ q = []))

/-- SEQ's next micro-step falls after the moves `p`, and `q` remains. -/
def State.seqAfter (s : State) (p q : List Turn) : Prop := seqTurn s.plan p q

/-- SEQ's next two micro-steps: the first after the moves `p₁`, the second after the moves `p₂`; `q` remains. -/
def State.seqAfterTwice (s : State) (p₁ p₂ q : List Turn) : Prop :=
  ∃ r, seqTurn s.plan p₁ r ∧ seqTurn r p₂ q

/-! ## What other agents cannot touch (R237, R221) -/

/-- A channel without the three bits ENG may clear. -/
def Chan.still (c : Chan) : Chan := { c with en := false, disPending := false, armed := false }

/-- The state without what ENG or an interrupt-service agent may change (the completion flags, each channel's enable
and hidden bits, `flt.illegal`, the service ports) and without the model's schedule, counter and access log. -/
def State.still (s : State) : State :=
  { s with
    glb := { s.glb with done := 0 }
    chans := s.chans.map Chan.still
    fltIllegal := false
    irqh := []
    plan := []
    draws := 0
    bus := [] }

/-- An access of SEQ. -/
def Access.bySeq : Access → Bool
  | .rd .seq _ _ | .wr .seq _ _ | .alloc _ _ _ _ | .memRd _ _ _ | .memWr _ _ _ => true
  | .rd (.irqh _) _ _ | .wr (.irqh _) _ _ => false

/-- SEQ's accesses in the log, oldest first. -/
def State.seqLog (s : State) : List Access := s.bus.filter Access.bySeq

/-! ## Conditions under which a write or a command has a meaning -/

/-- A write of `v` to the register has a meaning (R78, R79); every write of another register has one. -/
def State.writeDefined (s : State) (v : Word) : Reg → Bool
  | .dmaCtl => !(s.glb.ctlEvent v && !s.glb.quiesced v)
  | .chan i .ctl => !(s.chan i).ctlUnspecified v
  | _ => true

/-- The commands of 41 to 43: all but the three raw field commands. -/
def isDriver : Instr → Bool
  | .fldRd _ _ | .fldWr _ _ _ | .fldMod _ _ _ => false
  | _ => true

/-- The channel a command names by its index operand, if the index is legal. -/
def targetOf : Instr → Option (Fin 8)
  | .fldRd f idx | .fldWr f idx _ | .fldMod f idx _ => if f.isCh then chanIdx? idx else none
  | .newChannel idx _ _ _ _ _ _ | .isComplete idx | .clrComplete idx | .setMask idx _ | .chActivate idx
  | .chDeactivate idx | .chIsRunning idx | .bufWr idx _ _ | .bufRd idx _ _ => chanIdx? idx
  | .ctrlReset | .ctrlEnable | .ctrlDisable | .handleIrq => none

/-- The command works on a Channel object and so needs one (R169). -/
def needsChannel : Instr → Bool
  | .chActivate _ | .chDeactivate _ | .chIsRunning _ | .bufWr _ _ _ | .bufRd _ _ _ => true
  | _ => false

/-- What a driver command needs so that it responds whatever the other agents do: a Channel where it works on one
(R169), no stale soft-reset bit where it activates one (R297), no stale enable where it constructs one (R162). -/
def State.readyFor (s : State) (c : Instr) : Prop :=
  ∀ i, targetOf c = some i →
    (needsChannel c = true → (s.desc i).isSome = true) ∧
    (∀ idx, c = .chActivate idx → (s.chan i).srst = false) ∧
    (∀ idx slave dir irq size dev tmo, c = .newChannel idx slave dir irq size dev tmo → (s.chan i).en = false)

/-- The command writes DMA_MASK or DMA_BIND by a raw field write (R143, R144). -/
def isRawWrite : Instr → Bool
  | .fldWr _ _ _ | .fldMod _ _ _ => true
  | _ => false

/-- The causes of a ContractViolation, command by command (R252). -/
def State.contractCause (s : State) : Instr → Bool
  | .newChannel idx slave _ _ _ _ _ => decide (8 ≤ idx.toNat) || decide (32 ≤ slave.toNat)
  | .setMask idx _ | .chActivate idx | .chDeactivate idx | .chIsRunning idx => decide (8 ≤ idx.toNat)
  | .bufWr idx off data =>
      match chanIdx? idx with
      | none => true
      | some i => (s.desc i).any fun d => decide (d.size.toNat < off.toNat + data.length)
  | .bufRd idx off n =>
      match chanIdx? idx with
      | none => true
      | some i => (s.desc i).any fun d => decide (d.size.toNat < off.toNat + n.toNat)
  | .fldRd f idx | .fldWr f idx _ | .fldMod f idx _ => f.isCh && decide (8 ≤ idx.toNat)
  | .ctrlReset | .ctrlEnable | .ctrlDisable | .isComplete _ | .clrComplete _ | .handleIrq => false

/-- A ContractViolation taken: the sticky flag, the response 0x2000_0000, SEQ IDLE, nothing else (R252). -/
def State.contractTaken (s : State) : State :=
  { s with fltContract := true, seq := .idle, cmdOut := s.cmdOut ++ [[0x20000000#32]] }

/-- A mask bit set to `b`. -/
def withBit (m : BitVec 8) (i : Fin 8) (b : Bool) : BitVec 8 :=
  (m &&& ~~~(1#8 <<< i.val)) ||| (if b then 1#8 <<< i.val else 0#8)

/-- A step that stops, with a fault or a refusal. -/
def stops (o : Out) : Bool :=
  match o with
  | .next _ => false
  | .fault _ => true
  | .refused _ => true

end Sys2Proof.Machine
end

