-- ==== Sys2Proof/Certificates/Slice0/Obligations.lean ====
section
/-! DEFINITION. The statements for the provers, from the numbered rules of spec/. `s.seqAfter p q` and
`s.seqAfterTwice p₁ p₂ q` say where the moves of the other agents fall between SEQ's micro-steps (R82; the schedule
as data is the model's, notes/assumptions/1.md and 2.md); `s.NoRest`
says that the schedule never cuts a command in two (the model's own turn, notes/assumptions/3.md); `still` is the state
without what the other agents may change, and `seqLog` the accesses SEQ made (Safety.lean). -/

open Sys2Proof Sys2Proof.Machine Sys2Proof.Config

/-! ## Encoding -/

/-- R101 to R104: every well-formed command is what its packet decodes to, every operand at every value. -/
def Obligations.DecodeEncodeRoundTrip : Prop :=
  ∀ i : Instr, i.wf = true → decode (encode i) = .ok i

/-- R100 to R104, R109: a packet that decodes is exactly the packet of the command it decodes to, so no bit of a packet
is dropped and no two packets stand for one command. -/
def Obligations.EncodeDecodeCanonical : Prop :=
  ∀ (p : Packet) (i : Instr), decode p = .ok i → i.wf = true ∧ encode i = p

/-- R109, the command port: the packets that decode to nothing are those of the list. -/
def Obligations.IllegalPacketsAsListed : Prop :=
  ∀ p : Packet, (∃ e, decode p = .error e) ↔
    p = [] ∨ ∃ w₀ ws, p = w₀ :: ws ∧
      ((∀ r ∈ opTable, w₀ &&& r.mask ≠ r.pattern) ∨
       ∃ r ∈ opTable, w₀ &&& r.mask = r.pattern ∧
        (ws.length + 1 ≠ packetWords r.op w₀ ∨
         (r.op ∈ [Op.fldRd, Op.fldWr, Op.fldMod] ∧
           ((∀ f : Fld, f.fid ≠ hdrLow w₀) ∨ ∃ f : Fld, f.fid = hdrLow w₀ ∧ f.isCh = false ∧ hdrIdx w₀ ≠ 0)) ∨
         (r.op = .newChannel ∧ ∃ w₃, ws[2]? = some w₃ ∧ w₃.extractLsb' 30 2 ≠ 0#2) ∨
         (r.op = .bufWr ∧
           ∃ k b, (hdrN w₀).toNat ≤ k ∧ (unpackBytes (ws.drop 1))[k]? = some b ∧ b ≠ 0#8)))

/-- Words written out from R101 to R108, one of each format, decode to the commands they stand for. -/
def Obligations.SampleWordsDecode : Prop :=
  decode [0x30000000#32] = .ok .handleIrq ∧
  decode [0x14030000#32] = .ok (.isComplete 3) ∧
  decode [0x16020001#32] = .ok (.setMask 2 true) ∧
  decode [0x0107008E#32] = .ok (.fldRd .tmoThresh 7) ∧
  decode [0x02000030#32, 0x000000FF#32] = .ok (.fldWr .maskAll 0 0xFF) ∧
  decode [0x1305031F#32, 0x40#32, 0x2800F004#32, 0x3FFFFFFF#32] =
    .ok (.newChannel 5 31 true true 0x40 0x2800F004 0x3FFFFFFF) ∧
  decode [0x24030005#32, 0x2#32, 0x44434241#32, 0x45#32] =
    .ok (.bufWr 3 2 [0x41, 0x42, 0x43, 0x44, 0x45]) ∧
  decode [0x25000004#32, 0x10#32] = .ok (.bufRd 0 0x10 4)

/-! ## Steps -/

/-- R23, R105: an IDLE sequencer takes the next packet of the command port and runs the command it decodes to. -/
def Obligations.StepRunsDecodedCommand : Prop :=
  ∀ (s : Machine.State) (p : Packet) (rest : List Packet) (i : Instr),
    s.seq = .idle → s.cmdIn = p :: rest → decode p = .ok i → i.wf = true →
    step s = exec i { s with cmdIn := rest }

/-- R253, on both kinds of port: no access, the sticky flag, the response 0x3000_0000, the agent IDLE. That a service
port takes its packet in a turn of its own is the model's choice (notes/assumptions/23.md). -/
def Obligations.IllegalPacketRaisesIllegalCommand : Prop :=
  (∀ (s : Machine.State) (p : Packet) (rest : List Packet) (e : DecodeError),
    s.seq = .idle → s.cmdIn = p :: rest → decode p = .error e →
    step s = .next { s with
      cmdIn := rest, fltIllegal := true, cmdOut := s.cmdOut ++ [[0x30000000#32]] }) ∧
  ∀ (s : Machine.State) (k : Nat) (port : IrqPort) (p : Packet) (rest : List Packet),
    s.irqh[k]? = some port → port.run = .idle → port.inbox = p :: rest → decode p ≠ .ok .handleIrq →
    s.irqStep k = { s with
      fltIllegal := true
      irqh := s.irqh.set k { port with inbox := rest, outbox := port.outbox ++ [[0x30000000#32]] } }

/-- R291: an IDLE machine with no packet waiting does nothing of its own; only another agent's turn changes it. One
turn a step, and the empty schedule of the reset state, are the model's choices (notes/assumptions/2.md, 31.md). -/
def Obligations.IdleMachineWaits : Prop :=
  (∀ s : Machine.State, s.seq = .idle → s.cmdIn = [] → s.plan = [] → step s = .next s) ∧
  (∀ (s : Machine.State) (x : Turn) (p : List Turn), s.seq = .idle → s.cmdIn = [] → s.plan = x :: p →
    step s = .next ({ s with plan := p }.otherTurn x)) ∧
  step Machine.State.reset = .next Machine.State.reset

/-- R23, R110: while SEQ is BUSY no packet is taken; the command stays the same one, and it responds exactly when SEQ
becomes IDLE, once. -/
def Obligations.BusySequencerAcceptsNothing : Prop :=
  ∀ (s t : Machine.State) (r : SeqRun), s.seq = .busy r → step s = .next t →
    t.cmdIn = s.cmdIn ∧
    ((t.seq = .idle ∧ ∃ q, t.cmdOut = s.cmdOut ++ [q]) ∨
     (∃ r', t.seq = .busy r' ∧ r'.cmd = r.cmd ∧ t.cmdOut = s.cmdOut))

/-! ## Pure units -/

/-- R120, R121: inserting truncates the value to the field, leaves every other field, and inserting what was extracted
changes nothing. -/
def Obligations.FieldInsertTruncatesAndPreserves : Prop :=
  ∀ (w v : Word) (hi lo : Nat), lo ≤ hi → hi ≤ 31 →
    ext (ins w hi lo v) hi lo = v &&& BitVec.ofNat 32 (2 ^ (hi - lo + 1) - 1) ∧
    (∀ hi' lo', lo' ≤ hi' → hi' ≤ 31 → hi' < lo ∨ hi < lo' → ext (ins w hi lo v) hi' lo' = ext w hi' lo') ∧
    ins w hi lo (ext w hi lo) = w

/-- R220: the sum form of the decoder, blind to the padding bits, with its corner values. -/
def Obligations.StatusDecoderIsTheSum : Prop :=
  (∀ s : Word, (decodeStatus s).toNat =
    ((List.range 8).map fun i => ((s >>> (4 * i)) &&& 1#32).toNat * 2 ^ i).sum) ∧
  (∀ s s' : Word, s &&& 0x11111111#32 = s' &&& 0x11111111#32 → decodeStatus s = decodeStatus s') ∧
  decodeStatus 0#32 = 0x00#8 ∧ decodeStatus 0x11111111#32 = 0xFF#8 ∧ decodeStatus 0xEEEEEEEE#32 = 0x00#8 ∧
  decodeStatus 0xFFFFFFFF#32 = 0xFF#8 ∧ decodeStatus 0x10000011#32 = 0x83#8 ∧
  decodeStatus 0x00001000#32 = 0x08#8

/-- R160: the validator in both of the forms the rule gives. -/
def Obligations.ValidatorChecksAlignmentAndMinimum : Prop :=
  ∀ (ba : BusAddr) (size : Word),
    (valid ba size = true ↔ ba.toNat % 4 = 0 ∧ size.toNat % 4 = 0 ∧ 4 ≤ size.toNat) ∧
    (valid ba size = true ↔ ba.extractLsb' 0 2 = 0#2 ∧ size.extractLsb' 0 2 = 0#2 ∧ size ≠ 0#32)

/-- R30, R38, R49, R73: the complete register map, its reserved words, and the offsets outside it. -/
def Obligations.RegisterMapIsComplete : Prop :=
  (∀ off, regAt off = none ↔ off % 4 ≠ 0 ∨ 0x224 ≤ off) ∧
  regAt 0x00 = some .dmaCtl ∧ regAt 0x04 = some .chselL ∧ regAt 0x08 = some .dmaStat ∧
  regAt 0x0C = some .dmaMask ∧ regAt 0x20 = some .dmaBind ∧ regAt 0x24 = some .dmaCap ∧
  regAt 0x28 = some .chselH ∧
  (∀ off ∈ [0x10, 0x14, 0x18, 0x1C, 0x2C, 0x30, 0x34, 0x38, 0x3C], regAt off = some .reserved) ∧
  ∀ i : Fin 8,
    regAt (0x40 + 0x40 * i + 0x00) = some (.chan i .addrUp) ∧
    regAt (0x40 + 0x40 * i + 0x04) = some (.chan i .addrLo) ∧
    regAt (0x40 + 0x40 * i + 0x08) = some (.chan i .devAddr) ∧
    regAt (0x40 + 0x40 * i + 0x0C) = some (.chan i .xferSize) ∧
    regAt (0x40 + 0x40 * i + 0x10) = some (.chan i .curUp) ∧
    regAt (0x40 + 0x40 * i + 0x14) = some (.chan i .curLo) ∧
    regAt (0x40 + 0x40 * i + 0x18) = some (.chan i .ctl) ∧
    regAt (0x40 + 0x40 * i + 0x1C) = some (.chan i .sts) ∧
    regAt (0x40 + 0x40 * i + 0x20) = some (.chan i .tmo) ∧
    (∀ o ∈ [0x24, 0x28, 0x2C, 0x30, 0x34, 0x38, 0x3C],
      regAt (0x40 + 0x40 * i + o) = if i.val < 7 then some .reserved else none)

/-- R108, R127: where every field lies, and that a channel field has no place at an index of 8 or more. -/
def Obligations.FieldPlacesAsListed : Prop :=
  fldLoc .ctlAll 0 = some ⟨0x00, 31, 0⟩ ∧ fldLoc .ctlEn 0 = some ⟨0x00, 0, 0⟩ ∧
  fldLoc .ctlSrst 0 = some ⟨0x00, 1, 1⟩ ∧ fldLoc .chselLAll 0 = some ⟨0x04, 31, 0⟩ ∧
  fldLoc .chselHAll 0 = some ⟨0x28, 31, 0⟩ ∧ fldLoc .statAll 0 = some ⟨0x08, 31, 0⟩ ∧
  fldLoc .maskAll 0 = some ⟨0x0C, 31, 0⟩ ∧ fldLoc .maskGie 0 = some ⟨0x0C, 31, 31⟩ ∧
  fldLoc .bindAll 0 = some ⟨0x20, 31, 0⟩ ∧ fldLoc .capAll 0 = some ⟨0x24, 31, 0⟩ ∧
  (∀ idx : BitVec 8, idx.toNat < 8 →
    let i := idx.toNat
    let k := i % 4
    let cb := 0x40 + 0x40 * i
    fldLoc .chselSel idx = some ⟨if i < 4 then 0x04 else 0x28, 8 * k + 6, 8 * k⟩ ∧
    fldLoc .chselSelen idx = some ⟨if i < 4 then 0x04 else 0x28, 8 * k + 7, 8 * k + 7⟩ ∧
    fldLoc .statDone idx = some ⟨0x08, 4 * i, 4 * i⟩ ∧ fldLoc .maskChm idx = some ⟨0x0C, i, i⟩ ∧
    fldLoc .bindBound idx = some ⟨0x20, i, i⟩ ∧ fldLoc .addrUp idx = some ⟨cb, 31, 0⟩ ∧
    fldLoc .addrLo idx = some ⟨cb + 0x04, 31, 0⟩ ∧ fldLoc .devAddr idx = some ⟨cb + 0x08, 31, 0⟩ ∧
    fldLoc .xferSize idx = some ⟨cb + 0x0C, 31, 0⟩ ∧ fldLoc .curUp idx = some ⟨cb + 0x10, 31, 0⟩ ∧
    fldLoc .curLo idx = some ⟨cb + 0x14, 31, 0⟩ ∧ fldLoc .chctlAll idx = some ⟨cb + 0x18, 31, 0⟩ ∧
    fldLoc .chctlEn idx = some ⟨cb + 0x18, 0, 0⟩ ∧ fldLoc .chctlSrst idx = some ⟨cb + 0x18, 1, 1⟩ ∧
    fldLoc .chctlDir idx = some ⟨cb + 0x18, 2, 2⟩ ∧ fldLoc .chstsAll idx = some ⟨cb + 0x1C, 31, 0⟩ ∧
    fldLoc .chstsEmpty idx = some ⟨cb + 0x1C, 0, 0⟩ ∧ fldLoc .chstsFull idx = some ⟨cb + 0x1C, 1, 1⟩ ∧
    fldLoc .tmoAll idx = some ⟨cb + 0x20, 31, 0⟩ ∧ fldLoc .tmoThresh idx = some ⟨cb + 0x20, 29, 0⟩ ∧
    fldLoc .tmoEn idx = some ⟨cb + 0x20, 31, 31⟩) ∧
  (∀ (f : Fld) (idx : BitVec 8), fldLoc f idx = none ↔ f.isCh = true ∧ 8 ≤ idx.toNat)

/-! ## The register space -/

/-- R76, R50: what a read of each register returns, reserved bits zero, and that it changes nothing: the log records
the access, and the model's counter of free values moves only at the registers whose reads draw. -/
def Obligations.RegisterReadsReturnStoredBits : Prop :=
  ∀ (s : Machine.State) (ag : Agent) (i : Fin 8),
    let c := s.chan i
    let reads := fun (off : Nat) (v : Word) => rd32 ag off s = .ok (v, s.log (.rd ag off v))
    (∃ v, reads 0x00 v ∧ v.getLsbD 0 = s.glb.en ∧ v.getLsbD 1 = s.glb.srst ∧ v >>> 2 = 0#32) ∧
    reads 0x04 s.glb.chselL ∧ reads 0x28 s.glb.chselH ∧
    (∃ v, reads 0x08 v ∧ v &&& 0xEEEEEEEE#32 = 0#32 ∧ ∀ j : Fin 8, v.getLsbD (4 * j) = s.doneFlag j) ∧
    (∃ v, reads 0x0C v ∧ v &&& 0x7FFFFF00#32 = 0#32 ∧ v.getLsbD 31 = s.glb.gie ∧
      ∀ j : Fin 8, v.getLsbD j = s.glb.chm.getLsbD j) ∧
    (∃ v, reads 0x20 v ∧ v &&& 0xFFFFFF00#32 = 0#32 ∧ ∀ j : Fin 8, v.getLsbD j = s.boundBit j) ∧
    reads 0x24 capValue ∧
    reads (0x40 + 0x40 * i) c.addrUp ∧ reads (0x44 + 0x40 * i) c.addrLo ∧
    reads (0x48 + 0x40 * i) c.devAddr ∧ reads (0x4C + 0x40 * i) c.xferSize ∧
    (∃ v, reads (0x58 + 0x40 * i) v ∧ v.getLsbD 0 = c.en ∧ v.getLsbD 1 = c.srst ∧ v.getLsbD 2 = c.dir ∧
      v >>> 3 = 0#32) ∧
    (∃ v, reads (0x60 + 0x40 * i) v ∧ v.extractLsb' 0 30 = c.thresh ∧ v.getLsbD 30 = false ∧
      v.getLsbD 31 = c.tmoEn) ∧
    (∀ off ∈ [0x50 + 0x40 * i.val, 0x54 + 0x40 * i.val],
      ∃ v n, rd32 ag off s = .ok (v, { s with draws := n }.log (.rd ag off v))) ∧
    (∃ v n, rd32 ag (0x5C + 0x40 * i) s = .ok (v, { s with draws := n }.log (.rd ag (0x5C + 0x40 * i) v)) ∧
      v >>> 2 = 0#32) ∧
    (∀ off, regAt off = some .reserved → reads off 0#32)

/-- R77, R51: a write of every register but the three with rules of their own (DMA_CTL R78, CH_CTL R79, DMA_STAT R80):
what reads back, that no other register moves, and that only DMA_BIND drops descriptors. -/
def Obligations.RegisterWritesStoreAndPreserve : Prop :=
  ∀ (s : Machine.State) (ag : Agent) (off : Nat) (v : Word) (g : Reg), regAt off = some g →
    g ≠ .dmaCtl → g ≠ .dmaStat → (∀ i, g ≠ .chan i .ctl) →
    ∃ t, wr32 ag off v s = .ok t ∧
      t.readVal g = (match g with
        | .dmaMask => v &&& 0x800000FF#32
        | .dmaBind => v &&& 0x000000FF#32
        | .chan _ .tmo => v &&& 0xBFFFFFFF#32
        | .chselL | .chselH | .chan _ .addrUp | .chan _ .addrLo | .chan _ .devAddr | .chan _ .xferSize => v
        | _ => s.readVal g) ∧
      (∀ g', g' ≠ g → t.readVal g' = s.readVal g') ∧
      (∀ j : Fin 8, t.desc j = if g = .dmaBind ∧ v.getLsbD j = false then none else s.desc j) ∧
      (∀ j : Fin 8, (t.chan j).disPending = (s.chan j).disPending ∧ (t.chan j).armed = (s.chan j).armed) ∧
      t = { s with glb := t.glb, chans := t.chans, bus := s.bus ++ [.wr ag off v] }

/-- R78: the write of DMA_CTL; a soft-reset event has a meaning only in the quiesced condition, and changes nothing
else there. -/
def Obligations.GlobalControlWrite : Prop :=
  ∀ (s : Machine.State) (ag : Agent) (v : Word),
    let event := s.glb.srst = false ∧ v.getLsbD 1 = true
    let quiesced := s.glb.en = false ∧ v.getLsbD 0 = false ∧ s.glb.bound = 0#8 ∧ s.glb.chselL = 0#32 ∧
      s.glb.chselH = 0#32
    (¬ event ∨ quiesced → wr32 ag 0x00 v s =
      .ok ({ s with glb := { s.glb with en := v.getLsbD 0, srst := v.getLsbD 1 } }.log (.wr ag 0x00 v))) ∧
    (event ∧ ¬ quiesced → wr32 ag 0x00 v s = .error .ctlResetUnspecified)

/-- R79: the write of CH_CTL, case by case. A new activation also starts the history on which R236 rests (the model's
reading, notes/assumptions/14.md). -/
def Obligations.ChannelControlWrite : Prop :=
  ∀ (s : Machine.State) (ag : Agent) (i : Fin 8) (v : Word),
    let c := s.chan i
    let off := 0x58 + 0x40 * i.val
    let en := v.getLsbD 0
    let srst := v.getLsbD 1
    let event := c.srst = false ∧ srst = true
    let unspecified := (event ∧ (c.en = true ∨ en = true)) ∨ (en = true ∧ srst = true ∧ c.en = false)
    (unspecified → wr32 ag off v s = .error .chCtlUnspecified) ∧
    (¬ unspecified → ∃ c' n,
      wr32 ag off v s = .ok ({ s.setChan i c' with draws := n }.log (.wr ag off v)) ∧
      c'.srst = srst ∧ c'.en = (c.en || en) ∧
      c'.desc = (if en = true ∧ c.en = false then c.desc.map Desc.activate else c.desc) ∧
      (¬ event →
        c'.dir = v.getLsbD 2 ∧ c'.addrUp = c.addrUp ∧ c'.addrLo = c.addrLo ∧ c'.devAddr = c.devAddr ∧
        c'.xferSize = c.xferSize ∧ c'.thresh = c.thresh ∧ c'.tmoEn = c.tmoEn ∧
        c'.armed = (c.armed || (en && !c.en)) ∧
        (en = true → c.en = false → c'.disPending = false) ∧
        (en = true → c.en = true → c.disPending = false → c'.disPending = false) ∧
        (en = false → c.en = true → c'.disPending = true) ∧
        (en = false → c.en = false → c'.disPending = c.disPending)) ∧
      (event → c'.armed = false ∧ c'.disPending = false))

/-- R80, R222 (e): a write of DMA_STAT clears the flags its ones name, sets none and touches nothing else; two such
writes commute. -/
def Obligations.StatusWriteOnlyClears : Prop :=
  (∀ (s : Machine.State) (ag : Agent) (v : Word), ∃ t, wr32 ag 0x08 v s = .ok t ∧
    (∀ j : Fin 8, t.doneFlag j = (s.doneFlag j && !v.getLsbD (4 * j))) ∧
    t = { s with glb := { s.glb with done := t.glb.done }, bus := s.bus ++ [.wr ag 0x08 v] }) ∧
  ∀ (g : Globals) (v v' : Word), (g.writeStat v).writeStat v' = (g.writeStat v').writeStat v

/-! ## The other agents -/

/-- R231, R233, R234: each move of ENG, with its precondition; a move that is not enabled is not taken
(notes/assumptions/21.md). -/
def Obligations.EngineMovesAreExact : Prop :=
  ∀ (s : Machine.State) (i : Fin 8),
    let c := s.chan i
    let off := s.setChan i { c with en := false, disPending := false, armed := false }
    let t := s.engMove (.complete i)
    (s.engMove (.ackDisable i) = if c.disPending = true then off else s) ∧
    (s.engMove (.selfDisable i) = if s.sw.selfDisable = true ∧ c.en = true then off else s) ∧
    (c.en = true → c.armed = true → (s.sw.needsCtlEn = true → s.glb.en = true) →
      t.doneFlag i = true ∧ (∀ j, j ≠ i → t.doneFlag j = s.doneFlag j) ∧
      t.chan i = { c with armed := !s.sw.oneShot } ∧ (∀ j, j ≠ i → t.chan j = s.chan j) ∧
      t = { s with glb := { s.glb with done := t.glb.done }, chans := t.chans }) ∧
    ((c.en = false ∨ c.armed = false ∨ (s.sw.needsCtlEn = true ∧ s.glb.en = false)) → t = s)

/-- R237, R221, R267: whatever moves ENG and the interrupt-service agents make, in any order, every register software
owns, every descriptor and buffer byte, SEQ and `flt.contract` stay as they are; no enable bit is set; and ENG itself
clears no completion flag and touches no service port, fault flag or access log. -/
def Obligations.OtherAgentsLeaveSoftwareState : Prop :=
  (∀ (s : Machine.State) (p : List Turn),
    (s.others p).still = s.still ∧ ∀ j : Fin 8, ((s.others p).chan j).en = true → (s.chan j).en = true) ∧
  ∀ (s : Machine.State) (m : EngMove),
    (∀ j : Fin 8, s.doneFlag j = true → (s.engMove m).doneFlag j = true) ∧
    (s.engMove m).irqh = s.irqh ∧ (s.engMove m).fltIllegal = s.fltIllegal ∧ (s.engMove m).bus = s.bus ∧
    (s.engMove m).draws = s.draws

/-- R234: a bit of DMA_STAT becomes 1 only by ENG's completion move on that channel, whatever commands, handlers and
other moves a step contains. -/
def Obligations.OnlyCompletionSetsDone : Prop :=
  ∀ (s t : Machine.State) (i : Fin 8), step s = .next t → Turn.eng (.complete i) ∉ s.plan →
    t.doneFlag i = true → s.doneFlag i = true

/-- R221, R222, R26: a HANDLE_IRQ on a service port, with moves of ENG between its two steps: it reports the flags
as they were when H1 read them, clears all of them at H2, and touches nothing else. The first of
the three turns, which accepts the packet, is the model's (notes/assumptions/23.md). -/
def Obligations.ServicePortRunsHandleIrq : Prop :=
  ∀ (s : Machine.State) (k : Nat) (port : IrqPort) (rest : List Packet) (ms : List EngMove),
    s.irqh[k]? = some port → port.run = .idle → port.inbox = [0x30000000#32] :: rest →
    let mid := s.others (ms.map Turn.eng)
    s.others ([.irqh k, .irqh k] ++ ms.map Turn.eng ++ [.irqh k]) =
      { mid with
        glb := { mid.glb with done := 0#8 }
        irqh := s.irqh.set k
          { run := .idle, inbox := rest, outbox := port.outbox ++ [[0#32, s.glb.done.setWidth 32]] }
        bus := s.bus ++ [.rd (.irqh k) 0x08 (statWord s.glb.done), .wr (.irqh k) 0x08 0xFFFFFFFF#32] }

/-- R261: the line equation in both of its forms, over the bits and over the words of the two registers. -/
def Obligations.InterruptLineEquation : Prop :=
  ∀ s : Machine.State,
    (s.irqOut = true ↔
      s.glb.gie = true ∧ ∃ i : Fin 8, s.doneFlag i = true ∧ s.glb.chm.getLsbD i = false) ∧
    (s.irqOut = true ↔
      (s.readVal .dmaMask).getLsbD 31 = true ∧
      decodeStatus (s.readVal .dmaStat) &&& ~~~((s.readVal .dmaMask).setWidth 8) &&& 0xFF#8 ≠ 0#8)

/-! ## Invariants of the whole machine -/

/-- R25, R8, R26: no step clears a sticky fault flag, changes a switch or adds or removes a service port. -/
def Obligations.FaultFlagsStaySet : Prop :=
  ∀ s t : Machine.State, step s = .next t →
    (s.fltContract = true → t.fltContract = true) ∧ (s.fltIllegal = true → t.fltIllegal = true) ∧
    t.sw = s.sw ∧ t.irqh.length = s.irqh.length

/-- R25: no rule reads the fault flags. Two machines that differ only in them step alike. -/
def Obligations.FaultFlagsAreNeverRead : Prop :=
  ∀ (s : Machine.State) (a b : Bool),
    step { s with fltContract := a, fltIllegal := b } =
      match step { s with fltContract := false, fltIllegal := false } with
      | .next t => .next { t with fltContract := a || t.fltContract, fltIllegal := b || t.fltIllegal }
      | .fault x => .fault x
      | .refused x => .refused x

/-- R56, R57, R58, R23, R24: every step from every state that meets the invariant gives one that meets it. -/
def Obligations.StepKeepsInvariant : Prop :=
  ∀ s t : Machine.State, s.Inv → step s = .next t → t.Inv

/-- R62: the machine meets the invariant right after reset. The register values there are the model's choice
(notes/assumptions/4.md, 5.md). -/
def Obligations.ResetMeetsInvariant : Prop := Machine.State.reset.Inv

/-- R258: from a state that meets the invariant a step never faults, and is refused only in the three situations of
the list that a command can reach; no command makes an access outside the register region (R73). -/
def Obligations.StepStopsOnlyAsListed : Prop :=
  ∀ s : Machine.State, s.Inv →
    (∀ x, step s ≠ .fault x) ∧
    ∀ x, step s = .refused x → x = .noChannel ∨ x = .chCtlUnspecified ∨ x = .ctlResetUnspecified

/-- R298: under the launch premise, and on a Channel that exists, no command of 41 to 43 is refused, whatever the other
agents do. -/
def Obligations.DriverCommandsNeverRefused : Prop :=
  ∀ (s : Machine.State) (c : Instr), isDriver c = true →
    (∀ i, targetOf c = some i →
      (needsChannel c = true → (s.desc i).isSome = true) ∧
      (∀ idx, c = .chActivate idx → (s.chan i).srst = false)) →
    ∀ x, exec c s ≠ .refused x

/-- R250, R256, R269: a driver command that has what it needs responds, exactly once, however the other agents'
moves fall between its micro-steps; the only wait is NEW_CHANNEL's on a stale channel. -/
def Obligations.DriverCommandsRespondOnce : Prop :=
  ∀ (s : Machine.State) (c : Instr), isDriver c = true → s.NoRest → s.readyFor c →
    ∃ t q, exec c s = .next t ∧ t.seq = .idle ∧ t.cmdOut = s.cmdOut ++ [q]

/-- R252, R265: every listed cause gives the ContractViolation, with no access and no other change, and no command
raises the flag without one. -/
def Obligations.ContractViolationsAsListed : Prop :=
  ∀ (s : Machine.State) (c : Instr),
    (s.contractCause c = true → exec c s = .next s.contractTaken) ∧
    (s.contractCause c = false → ∀ t, exec c s = .next t → t.fltContract = s.fltContract)

/-- R169, R258 (1): the five channel commands on an index without a Channel have no meaning; on an index of 8 or more
they are ContractViolations first (R257). -/
def Obligations.ChannelCommandsNeedChannel : Prop :=
  ∀ (s : Machine.State) (c : Instr), needsChannel c = true →
    (targetOf c = none → exec c s = .next s.contractTaken) ∧
    (∀ i, targetOf c = some i → s.desc i = none → exec c s = .refused .noChannel)

/-- R36, R262: only NEW_CHANNEL, CTRL_RESET and the raw field writes change a bound bit, the first only sets and the
second only clears; and only a raw field write can set the global interrupt enable. -/
def Obligations.WhoWritesBoundBitsAndGie : Prop :=
  ∀ (s t : Machine.State) (c : Instr), exec c s = .next t → isRawWrite c = false →
    (t.glb.gie = true → s.glb.gie = true) ∧
    (∀ j : Fin 8, t.boundBit j ≠ s.boundBit j →
      (s.boundBit j = true ∧ c = .ctrlReset) ∨
      (t.boundBit j = true ∧ targetOf c = some j ∧
        ∃ idx slave dir irq size dev tmo, c = .newChannel idx slave dir irq size dev tmo))

/-- R193, R163 to R167: a command leaves every channel it does not name as it is: its registers, its descriptor and
every byte of its buffer. The enable bit and the two hidden bits, which ENG may clear (R237), are never set.
CTRL_RESET and the raw field writes are set aside (R190, R77). -/
def Obligations.CommandsLeaveOtherChannels : Prop :=
  ∀ (s t : Machine.State) (c : Instr) (j : Fin 8), s.Inv → exec c s = .next t → c ≠ .ctrlReset →
    isRawWrite c = false → targetOf c ≠ some j →
    (t.chan j).still = (s.chan j).still ∧
    ((t.chan j).en = true → (s.chan j).en = true) ∧
    ((t.chan j).armed = true → (s.chan j).armed = true) ∧
    ((t.chan j).disPending = true → (s.chan j).disPending = true)

/-! ## The Register Model commands -/

/-- R142: one read, the field extracted; a channel field at an index of 8 or more is a ContractViolation. -/
def Obligations.FieldReadReturnsField : Prop :=
  ∀ (s : Machine.State) (f : Fld) (idx : BitVec 8),
    (f.isCh = true → 8 ≤ idx.toNat → exec (.fldRd f idx) s = .next s.contractTaken) ∧
    ∀ (l : FieldLoc) (g : Reg) (p q : List Turn), fldLoc f idx = some l → regAt l.off = some g →
      s.seqAfter p q →
      let s₁ := s.others p
      let v := s₁.readVal g
      exec (.fldRd f idx) s = .next
        ((({ s₁ with plan := q }.tick g.readDraws).log (.rd .seq l.off v)).respond (.ok [ext v l.hi l.lo]))

/-- R143: one write, of the field with zero in every other bit, and no read; refused exactly where that write has no
meaning. -/
def Obligations.FieldWriteZeroesTheRest : Prop :=
  ∀ (s : Machine.State) (f : Fld) (idx : BitVec 8) (value : Word),
    (f.isCh = true → 8 ≤ idx.toNat → exec (.fldWr f idx value) s = .next s.contractTaken) ∧
    ∀ (l : FieldLoc) (g : Reg) (p q : List Turn), fldLoc f idx = some l → regAt l.off = some g →
      s.seqAfter p q →
      let s₁ := s.others p
      let v := ins 0#32 l.hi l.lo value
      (s₁.writeDefined v g = true → ∃ s₂, wr32 .seq l.off v s₁ = .ok s₂ ∧
        exec (.fldWr f idx value) s = .next ({ s₂ with plan := q }.respond (.ok []))) ∧
      (s₁.writeDefined v g = false → ∃ x, exec (.fldWr f idx value) s = .refused x)

/-- R144, R141: a read and a write of the read word with the field replaced, in that order, with any moves of the other
agents before and between; refused exactly where the write has no meaning. -/
def Obligations.FieldModifyReadsThenWrites : Prop :=
  ∀ (s : Machine.State) (f : Fld) (idx : BitVec 8) (value : Word),
    (f.isCh = true → 8 ≤ idx.toNat → exec (.fldMod f idx value) s = .next s.contractTaken) ∧
    ∀ (l : FieldLoc) (g : Reg) (p₁ p₂ q : List Turn), fldLoc f idx = some l → regAt l.off = some g →
      s.seqAfterTwice p₁ p₂ q →
      let s₁ := s.others p₁
      let t := s₁.readVal g
      let s₂ := ((s₁.tick g.readDraws).log (.rd .seq l.off t)).others p₂
      let v := ins t l.hi l.lo value
      (s₂.writeDefined v g = true → ∃ s₃, wr32 .seq l.off v s₂ = .ok s₃ ∧
        exec (.fldMod f idx value) s = .next ({ s₃ with plan := q }.respond (.ok []))) ∧
      (s₂.writeDefined v g = false → ∃ x, exec (.fldMod f idx value) s = .refused x)

/-- R146 (a), R306: `MOD` on a completion flag clears every other flag that was set at its read; its own flag goes as
the value says. -/
def Obligations.ModifyOfStatusLosesFlags : Prop :=
  ∀ (s : Machine.State) (idx : BitVec 8) (i : Fin 8) (value : Word) (p₁ p₂ q : List Turn),
    idx.toNat = i.val → s.seqAfterTwice p₁ p₂ q →
    let s₁ := s.others p₁
    let s₂ := (s₁.log (.rd .seq 0x08 (statWord s₁.glb.done))).others p₂
    ∃ t, exec (.fldMod .statDone idx value) s = .next t ∧
      t.doneFlag i = (s₂.doneFlag i && !value.getLsbD 0) ∧
      ∀ j, j ≠ i → t.doneFlag j = (s₂.doneFlag j && !s₁.doneFlag j)

/-- R146 (b): if ENG clears the enable bit between the two steps of a `MOD` of the direction, the second step writes
the bit back: a new activation. -/
def Obligations.ModifyCanReactivateChannel : Prop :=
  ∀ (s : Machine.State) (idx : BitVec 8) (i : Fin 8) (value : Word), idx.toNat = i.val →
    (s.chan i).en = true → (s.chan i).srst = false → s.sw.selfDisable = true →
    s.plan = [.seq, .eng (.selfDisable i), .seq] →
    ∃ t, exec (.fldMod .chctlDir idx value) s = .next t ∧
      (t.chan i).en = true ∧ (t.chan i).armed = true ∧ (t.chan i).dir = value.getLsbD 0

/-! ## The Controller commands -/

/-- R197: the state after CTRL_RESET, whatever the state before and whatever the other agents do meanwhile. The
invariant shuts out a descriptor without its bound bit (R57), for which there is no unbinding write. -/
def Obligations.ControllerResetPostState : Prop :=
  ∀ s : Machine.State, s.Inv → s.NoRest →
    ∃ t, exec .ctrlReset s = .next t ∧
      t.still = (({ s with
        glb := { en := false, srst := false, chselL := 0, chselH := 0, done := 0, chm := 0xFF, gie := false,
                 bound := 0 }
        chans := s.chans.map fun c => { c with desc := none } } : Machine.State).respond (.ok [])).still ∧
      t.irqOut = false ∧
      (s.sw.needsCtlEn = true → t.glb.done = 0#8) ∧
      (∀ i : Fin 8, t.doneFlag i = true → (s.chan i).en = true ∧ (s.chan i).armed = true) ∧
      ((∀ m, Turn.eng m ∉ s.plan) → t.glb.done = 0#8 ∧ ∀ i : Fin 8, t.chan i = { s.chan i with desc := none })

/-- R190: the access count of CTRL_RESET, 4 + 8*6 + 5 and one more for every channel found bound. -/
def Obligations.ControllerResetAccessCount : Prop :=
  ∀ s : Machine.State, s.NoRest →
    ∃ t, exec .ctrlReset s = .next t ∧
      t.seqLog.length = s.seqLog.length + 57 + (List.finRange 8).countP fun i => s.boundBit i

/-- R191, R192: one read and one write of DMA_CTL; only the enable bit changes, SRST goes back as read, no channel is
touched. -/
def Obligations.ControllerEnableAndDisable : Prop :=
  ∀ (s : Machine.State) (p₁ p₂ q : List Turn) (b : Bool), s.seqAfterTwice p₁ p₂ q →
    let s₁ := (s.others p₁).log (.rd .seq 0x00 (encCtl s.glb.en s.glb.srst))
    let s₂ := s₁.others p₂
    exec (if b then .ctrlEnable else .ctrlDisable) s = .next
      (({ s₂ with glb := { s₂.glb with en := b }, plan := q }.log
        (.wr .seq 0x00 (encCtl b s.glb.srst))).respond (.ok []))

/-- R193, R161, R57, R58: a successful NEW_CHANNEL on a channel without a stale enable: the seventeen accesses in their
order, the registers, the descriptor with its zeroed buffer, the select field, the bound bit and the mask bit, and that
nothing else changes but by the other agents' moves, and with none of those (`Quiet`) nothing else at all; the
controller is left disabled; every byte of the buffer reads zero. `streamed` is the model's history bit
(notes/assumptions/14.md). -/
def Obligations.NewChannelBindsChannel : Prop :=
  ∀ (s : Machine.State) (idx slave : BitVec 8) (i : Fin 8) (dir irq : Bool) (size dev : Word) (tmo : BitVec 30)
    (ba : BusAddr) (answers : List (Option BusAddr)),
    s.Inv → s.NoRest → idx.toNat = i.val → slave.toNat < 32 → s.boundBit i = false → (s.chan i).en = false →
    s.allocs = some ba :: answers → valid ba size = true →
    let c := s.chan i
    let cb := 0x40 + 0x40 * i.val
    let sel := if i.val < 4 then s.glb.chselL else s.glb.chselH
    let selOffset := if i.val < 4 then 0x04 else 0x28
    let sel' := ins sel (8 * (i.val % 4) + 7) (8 * (i.val % 4)) (0x80#32 ||| slave.setWidth 32)
    let bound' := withBit s.glb.bound i true
    let chm' := withBit s.glb.chm i (!irq)
    let made := ({ s.setChan i { c with
              addrUp := ba.extractLsb' 32 32, addrLo := ba.extractLsb' 0 32, devAddr := dev, xferSize := size,
              dir := dir
              desc := some { ba := ba, size := size, dir := dir, buf := [], streamed := false } } with
          glb := { s.glb with
            en := false
            chselL := if i.val < 4 then sel' else s.glb.chselL
            chselH := if i.val < 4 then s.glb.chselH else sel'
            bound := bound'
            chm := chm' }
          allocs := answers } : Machine.State).respond (.ok [])
    ∃ t, exec (.newChannel idx slave dir irq size dev tmo) s = .next t ∧
      (t.chan i).en = false ∧ t.still = made.still ∧ (s.Quiet → t.sameMachine made) ∧
      (∀ o, (t.desc i).map (fun d => Memory.read d.buf o) = some 0#8) ∧
      t.seqLog = s.seqLog ++
        [.rd .seq 0x20 (s.glb.bound.setWidth 32),
         .rd .seq 0x00 (encCtl s.glb.en s.glb.srst), .wr .seq 0x00 (encCtl false s.glb.srst),
         .alloc size 128 dir (some ba),
         .rd .seq (cb + 0x18) (encChctl false c.srst c.dir),
         .wr .seq (cb + 0x04) (ba.extractLsb' 0 32), .wr .seq cb (ba.extractLsb' 32 32),
         .wr .seq (cb + 0x08) dev, .wr .seq (cb + 0x0C) size,
         .rd .seq (cb + 0x18) (encChctl false c.srst c.dir), .wr .seq (cb + 0x18) (encChctl false c.srst dir),
         .rd .seq selOffset sel, .wr .seq selOffset sel',
         .rd .seq 0x20 (s.glb.bound.setWidth 32), .wr .seq 0x20 (bound'.setWidth 32),
         .rd .seq 0x0C (maskWord s.glb.chm s.glb.gie), .wr .seq 0x0C (maskWord chm' s.glb.gie)]

/-- R198 (b), R110: a NEW_CHANNEL on a bound index reads DMA_BIND once, changes nothing and answers NONE, the word
0x1000_0000. -/
def Obligations.NewChannelOnBoundIndexAnswersNone : Prop :=
  ∀ (s : Machine.State) (idx slave : BitVec 8) (i : Fin 8) (dir irq : Bool) (size dev : Word) (tmo : BitVec 30)
    (p q : List Turn), idx.toNat = i.val → slave.toNat < 32 → s.boundBit i = true → s.seqAfter p q →
    let t := ({ s.others p with plan := q }.log (.rd .seq 0x20 (s.glb.bound.setWidth 32))).respond .none
    exec (.newChannel idx slave dir irq size dev tmo) s = .next t ∧ t.cmdOut = s.cmdOut ++ [[0x10000000#32]]

/-- R198 (c), R251 (2), (3), R110: where the allocator fails or the validator refuses, NEW_CHANNEL answers NONE; the
controller is left disabled and nothing else has changed: four accesses, none of them to the channel. -/
def Obligations.NewChannelConstructionFailure : Prop :=
  ∀ (s : Machine.State) (idx slave : BitVec 8) (i : Fin 8) (dir irq : Bool) (size dev : Word) (tmo : BitVec 30)
    (a : Option BusAddr) (answers : List (Option BusAddr)),
    s.NoRest → idx.toNat = i.val → slave.toNat < 32 → s.boundBit i = false → s.allocs = a :: answers →
    (∀ ba, a = some ba → valid ba size = false) →
    let failed := ({ s with glb := { s.glb with en := false }, allocs := answers } : Machine.State).respond .none
    ∃ t, exec (.newChannel idx slave dir irq size dev tmo) s = .next t ∧
      t.still = failed.still ∧ (s.Quiet → t.sameMachine failed) ∧ t.cmdOut = s.cmdOut ++ [[0x10000000#32]] ∧
      t.seqLog = s.seqLog ++
        [.rd .seq 0x20 (s.glb.bound.setWidth 32), .rd .seq 0x00 (encCtl s.glb.en s.glb.srst),
         .wr .seq 0x00 (encCtl false s.glb.srst), .alloc size 128 dir a]

/-- R162, R193, R168: NEW_CHANNEL on a stale channel whose disable ENG acknowledges after `k` reads of the spin: it
runs ChReset and binds the channel as on a clean one, with both soft-reset and hidden bits clear; CH_TMO is left
unspecified. -/
def Obligations.NewChannelResetsStaleChannel : Prop :=
  ∀ (s : Machine.State) (idx slave : BitVec 8) (i : Fin 8) (dir irq : Bool) (size dev : Word) (tmo : BitVec 30)
    (ba : BusAddr) (answers : List (Option BusAddr)) (k : Nat),
    s.Inv → s.plan = List.replicate (7 + k) .seq ++ [.eng (.ackDisable i)] → idx.toNat = i.val →
    slave.toNat < 32 → s.boundBit i = false → (s.chan i).en = true → s.allocs = some ba :: answers →
    valid ba size = true →
    let sel' := fun w => ins w (8 * (i.val % 4) + 7) (8 * (i.val % 4)) (0x80#32 ||| slave.setWidth 32)
    ∃ t thresh tmoEn, exec (.newChannel idx slave dir irq size dev tmo) s = .next t ∧
      t.chan i =
        { addrUp := ba.extractLsb' 32 32, addrLo := ba.extractLsb' 0 32, devAddr := dev, xferSize := size,
          en := false, srst := false, dir := dir, thresh := thresh, tmoEn := tmoEn, disPending := false,
          armed := false
          desc := some { ba := ba, size := size, dir := dir, buf := [], streamed := false } } ∧
      (∀ j, j ≠ i → t.chan j = s.chan j) ∧
      t.glb = { s.glb with
        en := false
        chselL := if i.val < 4 then sel' s.glb.chselL else s.glb.chselL
        chselH := if i.val < 4 then s.glb.chselH else sel' s.glb.chselH
        bound := withBit s.glb.bound i true
        chm := withBit s.glb.chm i (!irq) } ∧
      t.seq = .idle ∧ t.cmdOut = s.cmdOut ++ [[0#32]] ∧
      t.bus.length = s.bus.length + 24 + k

/-- R162, R250, R309: with nobody to acknowledge the disable NEW_CHANNEL stands at K3 without a response, and each
further read of the spin changes nothing. -/
def Obligations.SpinWithoutAcknowledgeNeverResponds : Prop :=
  (∀ (s : Machine.State) (idx slave : BitVec 8) (i : Fin 8) (dir irq : Bool) (size dev : Word) (tmo : BitVec 30)
    (ba : BusAddr) (answers : List (Option BusAddr)),
    s.plan = [] → idx.toNat = i.val → slave.toNat < 32 → s.boundBit i = false → (s.chan i).en = true →
    s.allocs = some ba :: answers → valid ba size = true →
    ∃ t r, exec (.newChannel idx slave dir irq size dev tmo) s = .next t ∧ t.seq = .busy r ∧ r.step = .K3 ∧
      r.cmd = .newChannel idx slave dir irq size dev tmo ∧ r.cb.toNat = 0x40 + 0x40 * i.val ∧ t.plan = [] ∧
      t.cmdOut = s.cmdOut ∧ t.chan i = { s.chan i with disPending := true } ∧ t.glb = { s.glb with en := false }) ∧
  ∀ (s : Machine.State) (r : SeqRun) (i : Fin 8) (idx slave : BitVec 8) (dir irq : Bool) (size dev : Word)
    (tmo : BitVec 30), s.seq = .busy r → r.cmd = .newChannel idx slave dir irq size dev tmo →
    idx.toNat = i.val → r.step = .K3 → r.cb.toNat = 0x40 + 0x40 * i.val → (s.chan i).en = true → s.plan = [] →
    let w := encChctl true (s.chan i).srst (s.chan i).dir
    step s = .next { s with
      seq := .busy { r with t := w }, bus := s.bus ++ [.rd .seq (0x58 + 0x40 * i.val) w] }

/-- R232: under ENG_ACK_FAIR, on every run whose schedules never cut a command in two, a NEW_CHANNEL at the spin with
its disable pending comes to an end. -/
def Obligations.SpinEndsUnderFairness : Prop :=
  ∀ (σ : Nat → Machine.State) (r : SeqRun) (i : Fin 8), IsRun σ → EngAckFair σ → (∀ n, (σ n).NoRest) →
    (σ 0).Inv → (σ 0).seq = .busy r → r.step = .K3 → targetOf r.cmd = some i →
    ((σ 0).chan i).disPending = true → ∃ n, (σ n).seq = .idle

/-- R194, R254: one read and the channel's flag; at an index of 8 or more OK(0), no access and no fault. -/
def Obligations.IsCompleteReadsFlag : Prop :=
  ∀ (s : Machine.State) (idx : BitVec 8),
    (8 ≤ idx.toNat → exec (.isComplete idx) s = .next (s.respond (.ok [0]))) ∧
    ∀ (i : Fin 8) (p q : List Turn), idx.toNat = i.val → s.seqAfter p q →
      let s₁ := s.others p
      exec (.isComplete idx) s = .next
        (({ s₁ with plan := q }.log (.rd .seq 0x08 (statWord s₁.glb.done))).respond
          (.ok [if s₁.doneFlag i then 1 else 0]))

/-- R195, R254: one write of the channel's single bit, which clears that flag and no other; at an index of 8 or more a
no-op. -/
def Obligations.ClearCompleteClearsOneFlag : Prop :=
  ∀ (s : Machine.State) (idx : BitVec 8),
    (8 ≤ idx.toNat → exec (.clrComplete idx) s = .next (s.respond (.ok []))) ∧
    ∀ (i : Fin 8) (p q : List Turn), idx.toNat = i.val → s.seqAfter p q →
      let s₁ := s.others p
      exec (.clrComplete idx) s = .next
        (({ s₁ with glb := { s₁.glb with done := withBit s₁.glb.done i false }, plan := q }.log
          (.wr .seq 0x08 (1#32 <<< (4 * i.val)))).respond (.ok []))

/-- R196: a read and a write of DMA_MASK; the channel's bit becomes the operand, every other bit goes back as read. -/
def Obligations.SetMaskChangesOneBit : Prop :=
  ∀ (s : Machine.State) (idx : BitVec 8) (masked : Bool),
    (8 ≤ idx.toNat → exec (.setMask idx masked) s = .next s.contractTaken) ∧
    ∀ (i : Fin 8) (p₁ p₂ q : List Turn), idx.toNat = i.val → s.seqAfterTwice p₁ p₂ q →
      let s₁ := (s.others p₁).log (.rd .seq 0x0C (maskWord s.glb.chm s.glb.gie))
      let s₂ := s₁.others p₂
      let chm := withBit s.glb.chm i masked
      exec (.setMask idx masked) s = .next
        (({ s₂ with glb := { s₂.glb with chm := chm }, plan := q }.log
          (.wr .seq 0x0C (maskWord chm s.glb.gie))).respond (.ok []))

/-! ## The Channel commands -/

/-- R163, R79, R297: a read and a write of CH_CTL that sets EN. From a clear live bit this is a new activation; on an
active channel only a pending disable may be cancelled (a free bit). With the soft-reset bit set it is no event: on a
channel active at A2 the write has that same meaning, on one that is not, it has none, whether EN was clear from the
start or ENG has cleared it meanwhile. That the new activation marks the descriptor is the model's reading of R236
(notes/assumptions/14.md). -/
def Obligations.ActivateEnablesChannel : Prop :=
  ∀ (s : Machine.State) (idx : BitVec 8) (i : Fin 8), idx.toNat = i.val → (s.desc i).isSome = true →
    ((s.chan i).srst = false → ∀ p₁ p₂ q : List Turn, s.seqAfterTwice p₁ p₂ q →
      let s₁ := s.others p₁
      let off := 0x58 + 0x40 * i.val
      let s₂ := (s₁.log (.rd .seq off (encChctl (s₁.chan i).en false (s.chan i).dir))).others p₂
      let c := s₂.chan i
      ∃ (x : Bool) (n : Nat), exec (.chActivate idx) s = .next
        (({ s₂.setChan i (if c.en then { c with disPending := c.disPending && x }
              else { c with en := true, armed := true, disPending := false, desc := c.desc.map Desc.activate }) with
            plan := q, draws := n }.log (.wr .seq off (encChctl true false (s.chan i).dir))).respond (.ok []))) ∧
    ((s.chan i).srst = true → ∀ p₁ p₂ q : List Turn, s.seqAfterTwice p₁ p₂ q →
      let s₁ := s.others p₁
      let off := 0x58 + 0x40 * i.val
      let s₂ := (s₁.log (.rd .seq off (encChctl (s₁.chan i).en true (s.chan i).dir))).others p₂
      let c := s₂.chan i
      (c.en = true → ∃ (x : Bool) (n : Nat), exec (.chActivate idx) s = .next
        (({ s₂.setChan i { c with disPending := c.disPending && x } with plan := q, draws := n }.log
          (.wr .seq off (encChctl true true (s.chan i).dir))).respond (.ok []))) ∧
      (c.en = false → exec (.chActivate idx) s = .refused .chCtlUnspecified)) ∧
    ((s.chan i).srst = true → (s.chan i).en = false → s.NoRest →
      exec (.chActivate idx) s = .refused .chCtlUnspecified)

/-- R164: a read and a write of CH_CTL that asks for the disable; the live bit stays until ENG acknowledges, and an
inactive channel is left as it is. -/
def Obligations.DeactivateRequestsDisable : Prop :=
  ∀ (s : Machine.State) (idx : BitVec 8) (i : Fin 8) (p₁ p₂ q : List Turn), idx.toNat = i.val →
    (s.desc i).isSome = true → s.seqAfterTwice p₁ p₂ q →
    let s₁ := s.others p₁
    let off := 0x58 + 0x40 * i.val
    let s₂ := (s₁.log (.rd .seq off (encChctl (s₁.chan i).en (s.chan i).srst (s.chan i).dir))).others p₂
    let c := s₂.chan i
    ∃ n, exec (.chDeactivate idx) s = .next
      (({ s₂.setChan i (if c.en then { c with disPending := true } else c) with plan := q, draws := n }.log
        (.wr .seq off (encChctl false (s.chan i).srst (s.chan i).dir))).respond (.ok []))

/-- R165: one read; the answer is the live enable bit as it is at the read. -/
def Obligations.IsRunningReadsLiveBit : Prop :=
  ∀ (s : Machine.State) (idx : BitVec 8) (i : Fin 8) (p q : List Turn), idx.toNat = i.val →
    (s.desc i).isSome = true → s.seqAfter p q →
    let s₁ := s.others p
    let c := s₁.chan i
    exec (.chIsRunning idx) s = .next
      (({ s₁ with plan := q }.log (.rd .seq (0x58 + 0x40 * i.val) (encChctl c.en c.srst c.dir))).respond
        (.ok [if c.en then 1 else 0]))

/-- R166, R87: the bytes land at their offsets, one write each in ascending order, every other byte of the buffer and
everything else stays but for the other agents' moves, and all of it under a quiet schedule. -/
def Obligations.BufferWriteStoresBytes : Prop :=
  ∀ (s : Machine.State) (idx : BitVec 8) (off : Word) (data : List Byte) (i : Fin 8) (d : Desc),
    s.NoRest → idx.toNat = i.val → s.desc i = some d → Memory.wf d.buf = true →
    off.toNat + data.length ≤ d.size.toNat →
    ∃ t m, exec (.bufWr idx off data) s = .next t ∧
      t.still = ((s.setChan i { s.chan i with desc := some { d with buf := m } }).respond (.ok [])).still ∧
      (s.Quiet → t.sameMachine ((s.setChan i { s.chan i with desc := some { d with buf := m } }).respond (.ok []))) ∧
      (∀ o, Memory.read m o = if off.toNat ≤ o ∧ o < off.toNat + data.length then data.getD (o - off.toNat) 0
        else Memory.read d.buf o) ∧
      Memory.wf m = true ∧
      t.seqLog = s.seqLog ++
        (List.range data.length).map fun k => Access.memWr i (off.toNat + k) (data.getD k 0)

/-- R167, R86, R236: the bytes of the range in ascending order, packed little-endian, nothing changed. The bytes of a
device-to-memory buffer that has been activated are free values (the model's counter, notes/assumptions/6.md). -/
def Obligations.BufferReadReturnsBytes : Prop :=
  ∀ (s : Machine.State) (idx : BitVec 8) (off : Word) (n : BitVec 16) (i : Fin 8) (d : Desc),
    s.NoRest → idx.toNat = i.val → s.desc i = some d → off.toNat + n.toNat ≤ d.size.toNat →
    let bytes := (List.range n.toNat).map fun k =>
      if d.dir = true ∧ d.streamed = true then (draw (s.draws + k)).setWidth 8 else Memory.read d.buf (off.toNat + k)
    ∃ t, exec (.bufRd idx off n) s = .next t ∧
      t.still = (s.respond (.ok (packBytes bytes))).still ∧
      (s.Quiet → t.sameMachine (s.respond (.ok (packBytes bytes)))) ∧
      t.seqLog = s.seqLog ++ (List.range n.toNat).map fun k => Access.memRd i (off.toNat + k) (bytes.getD k 0)

/-- R87, R167: what is written into a buffer whose bytes are stable is what the next read of the same range returns. -/
def Obligations.BufferRoundTrip : Prop :=
  ∀ (s : Machine.State) (idx : BitVec 8) (off : Word) (data : List Byte) (n : BitVec 16) (i : Fin 8) (d : Desc),
    s.NoRest → idx.toNat = i.val → s.desc i = some d → Memory.wf d.buf = true →
    off.toNat + data.length ≤ d.size.toNat → n.toNat = data.length → (d.dir = false ∨ d.streamed = false) →
    ∃ t u, exec (.bufWr idx off data) s = .next t ∧ exec (.bufRd idx off n) t = .next u ∧
      u.cmdOut = s.cmdOut ++ [[0#32], 0#32 :: packBytes data]

/-! ## HANDLE_IRQ on the command port -/

/-- R221: the status register read once, all of it cleared by one all-ones write, the bitmap of the word read
returned; DMA_STAT and nothing else. -/
def Obligations.HandleIrqReportsAndClears : Prop :=
  ∀ (s : Machine.State) (p₁ p₂ q : List Turn), s.seqAfterTwice p₁ p₂ q →
    let s₁ := s.others p₁
    let s₂ := (s₁.log (.rd .seq 0x08 (statWord s₁.glb.done))).others p₂
    exec .handleIrq s = .next
      (({ s₂ with glb := { s₂.glb with done := 0#8 }, plan := q }.log (.wr .seq 0x08 0xFFFFFFFF#32)).respond
        (.ok [s₁.glb.done.setWidth 32]))

/-- R222 (c), 90_conflicts.md C3: a completion flagged between H1 and H2 is cleared and reported to nobody. -/
def Obligations.HandleIrqCanLoseCompletion : Prop :=
  ∀ (s : Machine.State) (j : Fin 8), (s.chan j).en = true → (s.chan j).armed = true → s.glb.en = true →
    s.doneFlag j = false → s.plan = [.seq, .eng (.complete j), .seq] →
    ∃ t w, exec .handleIrq s = .next t ∧ t.cmdOut = s.cmdOut ++ [[0#32, w]] ∧ w.getLsbD j = false ∧
      t.glb.done = 0#8 ∧ (s.sw.oneShot = true → (t.chan j).armed = false)

/-- R264, R222 (b): when HANDLE_IRQ responds every flag is clear and the interrupt line is low, however the other
agents moved while it ran. -/
def Obligations.HandleIrqLowersLine : Prop :=
  ∀ s : Machine.State, s.NoRest →
    ∃ t, exec .handleIrq s = .next t ∧ t.glb.done = 0#8 ∧ t.irqOut = false
end

