-- ==== Sys2Proof/Laws/Operands.lean ====
section
/-! SUPPORT. The bits of the codec: what bit `j` of each word the codec builds is (30_encoding.md R120 to R126), and which
register stands at each offset (20_memory.md R74, R75). -/

namespace Sys2Proof.Machine

open Sys2Proof.Config

/-! ## Bits -/

@[simp] theorem bitW_getLsbD (b : Bool) (j : Nat) : (bitW b).getLsbD j = (decide (j = 0) && b) := by
  cases b <;> simp [bitW]

@[simp] theorem ofBits_getLsbD (w : Nat) (f : Nat → Bool) (n j : Nat) :
    (ofBits w f n).getLsbD j = (decide (j < n) && decide (j < w) && f j) := by
  induction n with
  | zero => simp [ofBits]
  | succ n ih =>
    rw [ofBits, BitVec.getLsbD_or, ih]
    by_cases hf : f n
    · by_cases hjn : j = n
      · subst hjn
        by_cases hw : j < w <;> simp [hf, hw]
      · by_cases hlt : j < n
        · have : j < n + 1 := by omega
          simp only [hf, if_true, hlt, this]
          by_cases hw : j < w <;> simp [hw, hlt]
        · have h2 : ¬ j < n + 1 := by omega
          have h3 : j - n ≠ 0 := by omega
          by_cases hw : j < w <;> simp [hf, hw, hlt, h2, h3]
    · by_cases hjn : j = n
      · subst hjn
        simp [hf]
      · by_cases hlt : j < n
        · have : j < n + 1 := by omega
          simp [hf, hlt, this]
        · have h2 : ¬ j < n + 1 := by omega
          simp [hf, hlt, h2]

/-! ## Fields (R120, R121) -/

theorem fieldOnes_getLsbD {hi lo : Nat} (h : hi ≤ 31) (j : Nat) :
    (fieldOnes hi lo).getLsbD j = decide (j < hi - lo + 1) := by
  have hw : hi - lo + 1 ≤ 32 := by omega
  simp only [fieldOnes, BitVec.getLsbD_ofNat, Nat.testBit_two_pow_sub_one]
  by_cases hj : j < hi - lo + 1
  · have : j < 32 := by omega
    simp [hj, this]
  · simp [hj]

/-- Bit `j` of `ins(w, hi, lo, v)`. -/
theorem ins_getLsbD {hi lo : Nat} (h : lo ≤ hi) (h' : hi ≤ 31) (w v : Word) (j : Nat) :
    (ins w hi lo v).getLsbD j = if lo ≤ j ∧ j ≤ hi then v.getLsbD (j - lo) else w.getLsbD j := by
  simp only [ins, BitVec.getLsbD_or, BitVec.getLsbD_and, BitVec.getLsbD_not, BitVec.getLsbD_shiftLeft,
    fieldOnes_getLsbD h']
  by_cases hj : j < 32
  · by_cases h1 : lo ≤ j
    · have h1' : ¬ j < lo := by omega
      by_cases h2 : j ≤ hi
      · have h3 : j - lo < hi - lo + 1 := by omega
        simp [hj, h1, h2, h3, h1']
      · have h3 : ¬ j - lo < hi - lo + 1 := by omega
        simp [hj, h1, h2, h3, h1']
    · have h1' : j < lo := by omega
      simp [hj, h1, h1']
  · have h2 : ¬ j ≤ hi := by omega
    simp [hj, h2, BitVec.getLsbD_of_ge w j (by omega)]

/-- Bit `j` of `ext(w, hi, lo)`. -/
theorem ext_getLsbD {hi lo : Nat} (h' : hi ≤ 31) (w : Word) (j : Nat) :
    (ext w hi lo).getLsbD j = (decide (j ≤ hi - lo) && w.getLsbD (lo + j)) := by
  simp only [ext, BitVec.getLsbD_and, BitVec.getLsbD_ushiftRight, fieldOnes_getLsbD h', Nat.lt_succ_iff,
    Bool.and_comm]

/-! ## The register words -/

@[simp] theorem encCtl_getElem_zero (a b : Bool) : (encCtl a b)[0] = a := by
  cases a <;> cases b <;> rfl

theorem encCtl_getLsbD_zero (a b : Bool) : (encCtl a b).getLsbD 0 = a :=
  encCtl_getElem_zero a b

@[simp] theorem encCtl_getElem_one (a b : Bool) : (encCtl a b)[1] = b := by
  cases a <;> cases b <;> rfl

theorem encCtl_getLsbD_one (a b : Bool) : (encCtl a b).getLsbD 1 = b :=
  encCtl_getElem_one a b

@[simp] theorem encChctl_getElem_zero (a b c : Bool) : (encChctl a b c)[0] = a := by
  cases a <;> cases b <;> cases c <;> rfl

theorem encChctl_getLsbD_zero (a b c : Bool) : (encChctl a b c).getLsbD 0 = a :=
  encChctl_getElem_zero a b c

@[simp] theorem encChctl_getElem_one (a b c : Bool) : (encChctl a b c)[1] = b := by
  cases a <;> cases b <;> cases c <;> rfl

theorem encChctl_getLsbD_one (a b c : Bool) : (encChctl a b c).getLsbD 1 = b :=
  encChctl_getElem_one a b c

@[simp] theorem encChctl_getElem_two (a b c : Bool) : (encChctl a b c)[2] = c := by
  cases a <;> cases b <;> cases c <;> rfl

theorem encChctl_getLsbD_two (a b c : Bool) : (encChctl a b c).getLsbD 2 = c :=
  encChctl_getElem_two a b c

/-- Bit `j` of the word of DMA_MASK. -/
theorem maskWord_getLsbD (chm : BitVec 8) (gie : Bool) (j : Nat) :
    (maskWord chm gie).getLsbD j = (chm.getLsbD j || (decide (j = 31) && gie)) := by
  simp only [maskWord, BitVec.getLsbD_or, BitVec.getLsbD_setWidth, BitVec.getLsbD_shiftLeft, bitW_getLsbD]
  by_cases hj : j < 32
  · by_cases h31 : j = 31
    · subst h31
      simp
    · have h1 : j < 31 := by omega
      simp [hj, h31, h1]
  · have h31 : j ≠ 31 := by omega
    simp [hj, h31, BitVec.getLsbD_of_ge chm j (by omega)]

@[simp] theorem maskWord_setWidth (chm : BitVec 8) (gie : Bool) : (maskWord chm gie).setWidth 8 = chm := by
  apply BitVec.eq_of_getLsbD_eq
  intro j hj
  have : j ≠ 31 := by omega
  rw [BitVec.getLsbD_setWidth, maskWord_getLsbD]
  simp [hj, this]

theorem maskWord_gie (chm : BitVec 8) (gie : Bool) : (maskWord chm gie).getLsbD 31 = gie := by
  rw [maskWord_getLsbD, BitVec.getLsbD_of_ge chm 31 (by omega)]
  simp

@[simp] theorem maskWord_getElem_gie (chm : BitVec 8) (gie : Bool) : (maskWord chm gie)[31] = gie :=
  maskWord_gie chm gie

/-- Bit `j` of the status word (R34). -/
theorem statWord_getLsbD (d : BitVec 8) (j : Nat) :
    (statWord d).getLsbD j = (decide (j < 32) && (j % 4 == 0) && d.getLsbD (j / 4)) := by
  simp [statWord, statStride, Bool.and_assoc]

/-- Bit `i` of the completion bitmap (R220). -/
theorem decodeStatus_getLsbD (s : Word) (i : Nat) :
    (decodeStatus s).getLsbD i = (decide (i < 8) && s.getLsbD (4 * i)) := by
  simp [decodeStatus, doneBit, statStride]

/-- The decoder reads back exactly the flags of the status word. -/
@[simp] theorem decodeStatus_statWord (d : BitVec 8) : decodeStatus (statWord d) = d := by
  apply BitVec.eq_of_getLsbD_eq
  intro j hj
  have h1 : 4 * j < 32 := by omega
  have h2 : 4 * j % 4 = 0 := by omega
  have h3 : 4 * j / 4 = j := by omega
  rw [decodeStatus_getLsbD, statWord_getLsbD]
  simp [hj, h1, h2, h3]

@[simp] theorem decodeStatus_all : decodeStatus statClearAll = 0xFF#8 := by decide

/-- The clear word of one channel has that channel's flag and no other (R124). -/
theorem decodeStatus_encStatClear (i : Fin 8) : decodeStatus (encStatClear i) = 1#8 <<< i.val := by
  revert i
  decide

/-- Bit `j` of the word of CH_TMO. -/
theorem encTmo_getLsbD (th : BitVec 30) (en : Bool) (j : Nat) :
    (encTmo th en).getLsbD j = (th.getLsbD j || (decide (j = 31) && en)) := by
  simp only [encTmo, BitVec.getLsbD_or, BitVec.getLsbD_setWidth, BitVec.getLsbD_shiftLeft, bitW_getLsbD]
  by_cases hj : j < 32
  · by_cases h31 : j = 31
    · subst h31
      simp
    · have h1 : j < 31 := by omega
      simp [hj, h31, h1]
  · have h31 : j ≠ 31 := by omega
    have h30 : 30 ≤ j := by omega
    simp [hj, h31, BitVec.getLsbD_of_ge th j h30]

/-! ## Indices and offsets -/

theorem chanIdx?_of_lt {idx : BitVec 8} (h : idx.toNat < 8) : chanIdx? idx = some ⟨idx.toNat, h⟩ := by
  simp [chanIdx?, h]

theorem chanIdx?_of_ge {idx : BitVec 8} (h : 8 ≤ idx.toNat) : chanIdx? idx = none := by
  simp [chanIdx?, Nat.not_lt.mpr h]

theorem chanIdx?_eq_some {idx : BitVec 8} {i : Fin 8} (h : chanIdx? idx = some i) : idx.toNat = i.val := by
  unfold chanIdx? at h
  split at h
  · cases h
    rfl
  · cases h

theorem chanIdx?_eq_none {idx : BitVec 8} (h : chanIdx? idx = none) : 8 ≤ idx.toNat := by
  unfold chanIdx? at h
  split at h
  · cases h
  · omega

/-- The translator and the offset function lead to the channel's own register (R74, R75). -/
@[simp] theorem regAt_chOff (i : Fin 8) (r : ChReg) : regAt (chanBase i + r.off) = some (.chan i r) := by
  revert i r
  intro i r
  cases r <;> revert i <;> decide

/-- The block offset that SEQ keeps in its 32-bit local `cb` (R23). -/
@[simp] theorem chanBase_toNat (i : Fin 8) : (BitVec.ofNat 32 (chanBase i)).toNat = chanBase i := by
  revert i
  decide
@[simp] theorem regAt_addrUp (i : Fin 8) : regAt (chanBase i + choAddrUp) = some (.chan i .addrUp) :=
  regAt_chOff i .addrUp
@[simp] theorem regAt_addrLo (i : Fin 8) : regAt (chanBase i + choAddrLo) = some (.chan i .addrLo) :=
  regAt_chOff i .addrLo
@[simp] theorem regAt_devAddr (i : Fin 8) : regAt (chanBase i + choDevAddr) = some (.chan i .devAddr) :=
  regAt_chOff i .devAddr
@[simp] theorem regAt_xferSize (i : Fin 8) : regAt (chanBase i + choXferSize) = some (.chan i .xferSize) :=
  regAt_chOff i .xferSize
@[simp] theorem regAt_ctl (i : Fin 8) : regAt (chanBase i + choCtl) = some (.chan i .ctl) :=
  regAt_chOff i .ctl

@[simp] theorem regAt_offCtl : regAt offCtl = some .dmaCtl := by decide
@[simp] theorem regAt_offStat : regAt offStat = some .dmaStat := by decide
@[simp] theorem regAt_offMask : regAt offMask = some .dmaMask := by decide
@[simp] theorem regAt_offBind : regAt offBind = some .dmaBind := by decide
@[simp] theorem regAt_offCap : regAt offCap = some .dmaCap := by decide
@[simp] theorem regAt_offChselL : regAt offChselL = some .chselL := by decide
@[simp] theorem regAt_offChselH : regAt offChselH = some .chselH := by decide

/-- The channel-selection register of a channel (R75). -/
theorem regAt_selOff (i : Nat) : regAt (selOff i) = some (if i / 4 = 0 then .chselL else .chselH) := by
  unfold selOff
  split <;> decide

end Sys2Proof.Machine
end

