-- ==== Sys2Proof/Laws/Codec.lean ====
section
/-! SUPPORT. What `MOD` writes back, field by field (30_encoding.md R120, R122 to R126): inserting one field into the
word of a register gives the word of the register with that field changed. -/

namespace Sys2Proof.Machine

open Sys2Proof.Config

theorem chanIdx?_of_eq {idx : BitVec 8} {i : Fin 8} (h : idx.toNat = i.val) : chanIdx? idx = some i := by
  rw [chanIdx?_of_lt (by omega)]
  simp [h]

theorem withBit_getLsbD (m : BitVec 8) (i : Fin 8) (b : Bool) (j : Nat) :
    (withBit m i b).getLsbD j = if j = i.val then b else m.getLsbD j := by
  by_cases hj : j < 8
  · have : ∀ (i j : Fin 8) (b m : Bool),
        let k := decide (j.val < 8) && (!decide (j.val < i.val) && (1#8).getLsbD (j.val - i.val))
        ((m && !k) || (b && k)) = if j.val = i.val then b else m := by decide
    have := this i ⟨j, hj⟩ b (m.getLsbD j)
    cases b <;> simp_all [withBit]
  · have hj' : ¬ j = i.val := by omega
    simp [hj', BitVec.getLsbD_of_ge _ _ (Nat.le_of_not_lt hj)]

theorem ins_bit_getLsbD (w : Word) (i : Fin 8) (b : Bool) (j : Nat) :
    (ins w i i (bitW b)).getLsbD j = if j = i.val then b else w.getLsbD j := by
  rw [ins_getLsbD (Nat.le_refl _) (by omega)]
  by_cases h : j = i.val
  · subst h
    simp only [Nat.le_refl, and_self, ↓reduceIte, Nat.sub_self, bitW_getLsbD, decide_true, Bool.true_and]
  · have : ¬ (i.val ≤ j ∧ j ≤ i.val) := by omega
    simp [h, this]

theorem ins_maskWord (m : BitVec 8) (g : Bool) (i : Fin 8) (b : Bool) :
    ins (maskWord m g) i i (bitW b) = maskWord (withBit m i b) g := by
  apply BitVec.eq_of_getLsbD_eq
  intro j hj
  rw [ins_bit_getLsbD, maskWord_getLsbD, maskWord_getLsbD, withBit_getLsbD]
  by_cases h : j = i.val
  · have : ¬ j = 31 := by omega
    simp [h, show i.val ≠ 31 by omega]
  · simp [h]

theorem ins_bound (m : BitVec 8) (i : Fin 8) (b : Bool) :
    ins (m.setWidth 32) i i (bitW b) = (withBit m i b).setWidth 32 := by
  apply BitVec.eq_of_getLsbD_eq
  intro j hj
  rw [ins_bit_getLsbD, BitVec.getLsbD_setWidth, BitVec.getLsbD_setWidth, withBit_getLsbD]
  by_cases h : j = i.val <;> simp [h]
  intro; omega

theorem ins_encCtl_en (a b c : Bool) :
    ins (encCtl a b) 0 0 (bitW c) = encCtl c b := by
  revert a b c
  decide
theorem ins_encCtl_srst (a b c : Bool) :
    ins (encCtl a b) 1 1 (bitW c) = encCtl a c := by
  revert a b c
  decide
theorem ins_encChctl_en (a b c d : Bool) :
    ins (encChctl a b c) 0 0 (bitW d) = encChctl d b c := by
  revert a b c d
  decide
theorem ins_encChctl_srst (a b c d : Bool) :
    ins (encChctl a b c) 1 1 (bitW d) = encChctl a d c := by
  revert a b c d
  decide
theorem ins_encChctl_dir (a b c d : Bool) :
    ins (encChctl a b c) 2 2 (bitW d) = encChctl a b d := by
  revert a b c d
  decide
theorem decodeStatus_one_shift (i : Fin 8) : decodeStatus (1#32 <<< (4 * i.val)) = 1#8 <<< i.val := by
  revert i
  decide

/-- The combined select field that N6 inserts: the enable flag and a legal slave id (R123). -/
theorem selField_of_slave (slave : BitVec 8) (h : slave.toNat < 128) :
    selField (slave.setWidth 32) true = 0x80#32 ||| slave.setWidth 32 := by
  have : ∀ k : Fin 128, selField ((BitVec.ofNat 8 k.val).setWidth 32) true =
      0x80#32 ||| (BitVec.ofNat 8 k.val).setWidth 32 := by decide
  have := this ⟨slave.toNat, h⟩
  simpa using this

/-- The status word of a channel holds its two bits and nothing else (R47, R126). -/
theorem decChsts_encChsts (a b : Bool) : decChsts (encChsts a b) = (a, b) := by
  revert a b
  decide
theorem encChsts_reserved (a b : Bool) : encChsts a b >>> 2 = 0#32 := by
  revert a b
  decide

end Sys2Proof.Machine
end

