-- ==== Sys2Proof/Laws/Decode.lean ====
section
/-! SUPPORT. Lemmas of the packet codec (30_encoding.md R100 to R104): the parts of a header word, masking it, the rows
of the opcode map, the length of packed data. -/

namespace Sys2Proof.Laws

open Sys2Proof

/-! ## The parts of a header (R100) -/

theorem header_opc (opc idx : BitVec 8) (imm : BitVec 16) : (header opc idx imm).extractLsb' 24 8 = opc := by
  unfold header
  apply BitVec.eq_of_getLsbD_eq; intro i hi
  simp only [BitVec.getLsbD_extractLsb', BitVec.getLsbD_append]
  have h₁ : ¬ 24 + i < 16 := by omega
  have h₂ : ¬ 24 + i - 16 < 8 := by omega
  have h₃ : 24 + i - 16 - 8 = i := by omega
  simp [h₁, h₂, h₃, hi]

@[simp] theorem header_idx (opc idx : BitVec 8) (imm : BitVec 16) : hdrIdx (header opc idx imm) = idx := by
  unfold header hdrIdx
  apply BitVec.eq_of_getLsbD_eq; intro i hi
  simp only [BitVec.getLsbD_extractLsb', BitVec.getLsbD_append]
  split <;> (try split) <;> simp_all

@[simp] theorem header_imm (opc idx : BitVec 8) (imm : BitVec 16) : hdrN (header opc idx imm) = imm := by
  unfold header hdrN
  apply BitVec.eq_of_getLsbD_eq; intro i hi
  simp only [BitVec.getLsbD_extractLsb', BitVec.getLsbD_append]
  split <;> (try split) <;> simp_all

@[simp] theorem header_low (opc idx : BitVec 8) (imm : BitVec 16) :
    hdrLow (header opc idx imm) = imm.extractLsb' 0 8 := by
  unfold header hdrLow
  apply BitVec.eq_of_getLsbD_eq; intro i hi
  simp only [BitVec.getLsbD_extractLsb', BitVec.getLsbD_append]
  rw [if_pos (by omega : 0 + i < 16)]

/-- Masking a header masks its three parts. -/
theorem header_and (a a' b b' : BitVec 8) (c c' : BitVec 16) :
    header a b c &&& header a' b' c' = header (a &&& a') (b &&& b') (c &&& c') := by
  unfold header; rw [BitVec.and_append, BitVec.and_append]

/-- The header of a row of R104: OPC, and IDX and IMM16 with their fixed bits zero. -/
theorem header_matches (opc idx midx : BitVec 8) (imm mimm : BitVec 16) (hidx : idx &&& midx = 0#8)
    (himm : imm &&& mimm = 0#16) : header opc idx imm &&& header 0xFF midx mimm = header opc 0 0 := by
  have e : opc &&& 0xFF#8 = opc := by
    have h : (0xFF#8 : BitVec 8) = BitVec.allOnes 8 := by decide
    rw [h, BitVec.and_allOnes]
  rw [header_and, hidx, himm]
  exact congrArg (header · 0 0) e

/-! ## The rows of the opcode map (R104) -/

/-- Every row fixes the whole OPC. -/
theorem opTable_fixes_opc : ∀ r ∈ opTable, r.mask.extractLsb' 24 8 = 0xFF#8 := by decide

/-- The OPC names the row. -/
theorem opTable_opc_inj : ∀ r ∈ opTable, ∀ r' ∈ opTable,
    r.pattern.extractLsb' 24 8 = r'.pattern.extractLsb' 24 8 → r = r' := by decide

/-- No header word selects two rows: the patterns are disjoint. -/
theorem opTable_disjoint (w : Word) (r r' : OpRow) (hr : r ∈ opTable) (hr' : r' ∈ opTable)
    (h : w &&& r.mask = r.pattern) (h' : w &&& r'.mask = r'.pattern) : r = r' := by
  apply opTable_opc_inj r hr r' hr'
  rw [← h, ← h', BitVec.extractLsb'_and, BitVec.extractLsb'_and, opTable_fixes_opc r hr, opTable_fixes_opc r' hr']

/-- The row a header word matches is the one it selects. -/
theorem selectOp_of_match (w : Word) (r : OpRow) (hr : r ∈ opTable) (h : w &&& r.mask = r.pattern) :
    selectOp w = some r.op := by
  unfold selectOp
  cases hf : opTable.find? (fun r => (w &&& r.mask) == r.pattern) with
  | none =>
    have := List.find?_eq_none.mp hf r hr
    simp [h] at this
  | some r' =>
    have hm : w &&& r'.mask = r'.pattern := by simpa using List.find?_some hf
    rw [opTable_disjoint w r r' hr (List.mem_of_find?_eq_some hf) h hm]
    rfl

/-! ## Data words (R103) -/

theorem packBytes_length (bs : List Byte) : (packBytes bs).length = wordsFor bs.length := by
  induction bs using packBytes.induct with
  | case1 a b c d rest ih => simp only [packBytes, List.length_cons, ih, wordsFor]; omega
  | case2 => simp [packBytes, wordsFor]
  | case3 => simp [packBytes, wordsFor]
  | case4 => simp [packBytes, wordsFor]
  | case5 => simp [packBytes, wordsFor]

end Sys2Proof.Laws
end

