-- ==== Sys2Proof/Laws/State.lean ====
section
/-! SUPPORT. One lemma per field per update of the state, true by unfolding, so that no proof unfolds a record update;
reading a channel after a channel is replaced. -/

namespace Sys2Proof.Machine

variable (s : State)

/-! ### tick -/

@[simp] theorem State.tick_glb (n : Nat) : (s.tick n).glb = s.glb := rfl
@[simp] theorem State.tick_chans (n : Nat) : (s.tick n).chans = s.chans := rfl
@[simp] theorem State.tick_seq (n : Nat) : (s.tick n).seq = s.seq := rfl
@[simp] theorem State.tick_fltContract (n : Nat) : (s.tick n).fltContract = s.fltContract := rfl
@[simp] theorem State.tick_fltIllegal (n : Nat) : (s.tick n).fltIllegal = s.fltIllegal := rfl
@[simp] theorem State.tick_irqh (n : Nat) : (s.tick n).irqh = s.irqh := rfl
@[simp] theorem State.tick_sw (n : Nat) : (s.tick n).sw = s.sw := rfl
@[simp] theorem State.tick_cmdIn (n : Nat) : (s.tick n).cmdIn = s.cmdIn := rfl
@[simp] theorem State.tick_cmdOut (n : Nat) : (s.tick n).cmdOut = s.cmdOut := rfl
@[simp] theorem State.tick_allocs (n : Nat) : (s.tick n).allocs = s.allocs := rfl
@[simp] theorem State.tick_plan (n : Nat) : (s.tick n).plan = s.plan := rfl
@[simp] theorem State.tick_draws (n : Nat) : (s.tick n).draws = s.draws + n := rfl
@[simp] theorem State.tick_bus (n : Nat) : (s.tick n).bus = s.bus := rfl

/-! ### log -/

@[simp] theorem State.log_glb (a : Access) : (s.log a).glb = s.glb := rfl
@[simp] theorem State.log_chans (a : Access) : (s.log a).chans = s.chans := rfl
@[simp] theorem State.log_seq (a : Access) : (s.log a).seq = s.seq := rfl
@[simp] theorem State.log_fltContract (a : Access) : (s.log a).fltContract = s.fltContract := rfl
@[simp] theorem State.log_fltIllegal (a : Access) : (s.log a).fltIllegal = s.fltIllegal := rfl
@[simp] theorem State.log_irqh (a : Access) : (s.log a).irqh = s.irqh := rfl
@[simp] theorem State.log_sw (a : Access) : (s.log a).sw = s.sw := rfl
@[simp] theorem State.log_cmdIn (a : Access) : (s.log a).cmdIn = s.cmdIn := rfl
@[simp] theorem State.log_cmdOut (a : Access) : (s.log a).cmdOut = s.cmdOut := rfl
@[simp] theorem State.log_allocs (a : Access) : (s.log a).allocs = s.allocs := rfl
@[simp] theorem State.log_plan (a : Access) : (s.log a).plan = s.plan := rfl
@[simp] theorem State.log_draws (a : Access) : (s.log a).draws = s.draws := rfl
@[simp] theorem State.log_bus (a : Access) : (s.log a).bus = s.bus ++ [a] := rfl

/-! ### setChan -/

@[simp] theorem State.setChan_glb (i : Fin 8) (c : Chan) : (s.setChan i c).glb = s.glb := rfl
@[simp] theorem State.setChan_chans (i : Fin 8) (c : Chan) : (s.setChan i c).chans = s.chans.set i c := rfl
@[simp] theorem State.setChan_seq (i : Fin 8) (c : Chan) : (s.setChan i c).seq = s.seq := rfl
@[simp] theorem State.setChan_fltContract (i : Fin 8) (c : Chan) : (s.setChan i c).fltContract = s.fltContract := rfl
@[simp] theorem State.setChan_fltIllegal (i : Fin 8) (c : Chan) : (s.setChan i c).fltIllegal = s.fltIllegal := rfl
@[simp] theorem State.setChan_irqh (i : Fin 8) (c : Chan) : (s.setChan i c).irqh = s.irqh := rfl
@[simp] theorem State.setChan_sw (i : Fin 8) (c : Chan) : (s.setChan i c).sw = s.sw := rfl
@[simp] theorem State.setChan_cmdIn (i : Fin 8) (c : Chan) : (s.setChan i c).cmdIn = s.cmdIn := rfl
@[simp] theorem State.setChan_cmdOut (i : Fin 8) (c : Chan) : (s.setChan i c).cmdOut = s.cmdOut := rfl
@[simp] theorem State.setChan_allocs (i : Fin 8) (c : Chan) : (s.setChan i c).allocs = s.allocs := rfl
@[simp] theorem State.setChan_plan (i : Fin 8) (c : Chan) : (s.setChan i c).plan = s.plan := rfl
@[simp] theorem State.setChan_draws (i : Fin 8) (c : Chan) : (s.setChan i c).draws = s.draws := rfl
@[simp] theorem State.setChan_bus (i : Fin 8) (c : Chan) : (s.setChan i c).bus = s.bus := rfl

/-! ### respond -/

@[simp] theorem State.respond_glb (q : Resp) : (s.respond q).glb = s.glb := rfl
@[simp] theorem State.respond_chans (q : Resp) : (s.respond q).chans = s.chans := rfl
@[simp] theorem State.respond_seq (q : Resp) : (s.respond q).seq = .idle := rfl
@[simp] theorem State.respond_fltContract (q : Resp) : (s.respond q).fltContract = s.fltContract := rfl
@[simp] theorem State.respond_fltIllegal (q : Resp) : (s.respond q).fltIllegal = s.fltIllegal := rfl
@[simp] theorem State.respond_irqh (q : Resp) : (s.respond q).irqh = s.irqh := rfl
@[simp] theorem State.respond_sw (q : Resp) : (s.respond q).sw = s.sw := rfl
@[simp] theorem State.respond_cmdIn (q : Resp) : (s.respond q).cmdIn = s.cmdIn := rfl
@[simp] theorem State.respond_cmdOut (q : Resp) : (s.respond q).cmdOut = s.cmdOut ++ [q.packet] := rfl
@[simp] theorem State.respond_allocs (q : Resp) : (s.respond q).allocs = s.allocs := rfl
@[simp] theorem State.respond_plan (q : Resp) : (s.respond q).plan = s.plan := rfl
@[simp] theorem State.respond_draws (q : Resp) : (s.respond q).draws = s.draws := rfl
@[simp] theorem State.respond_bus (q : Resp) : (s.respond q).bus = s.bus := rfl

/-! ### suspend -/

@[simp] theorem SeqRun.init_cmd (c : Instr) (l : Label) (cb : Nat) : (SeqRun.init c l cb).cmd = c := rfl
@[simp] theorem SeqRun.init_step (c : Instr) (l : Label) (cb : Nat) : (SeqRun.init c l cb).step = l := rfl
@[simp] theorem SeqRun.init_i (c : Instr) (l : Label) (cb : Nat) : (SeqRun.init c l cb).i = 0 := rfl
@[simp] theorem SeqRun.init_cb (c : Instr) (l : Label) (cb : Nat) : (SeqRun.init c l cb).cb = BitVec.ofNat 32 cb := rfl
@[simp] theorem SeqRun.init_r (c : Instr) (l : Label) (cb : Nat) : (SeqRun.init c l cb).r = [] := rfl

@[simp] theorem State.suspend_glb (r : SeqRun) : (s.suspend r).glb = s.glb := rfl
@[simp] theorem State.suspend_chans (r : SeqRun) : (s.suspend r).chans = s.chans := rfl
@[simp] theorem State.suspend_seq (r : SeqRun) : (s.suspend r).seq = .busy r := rfl
@[simp] theorem State.suspend_fltContract (r : SeqRun) : (s.suspend r).fltContract = s.fltContract := rfl
@[simp] theorem State.suspend_fltIllegal (r : SeqRun) : (s.suspend r).fltIllegal = s.fltIllegal := rfl
@[simp] theorem State.suspend_irqh (r : SeqRun) : (s.suspend r).irqh = s.irqh := rfl
@[simp] theorem State.suspend_sw (r : SeqRun) : (s.suspend r).sw = s.sw := rfl
@[simp] theorem State.suspend_cmdIn (r : SeqRun) : (s.suspend r).cmdIn = s.cmdIn := rfl
@[simp] theorem State.suspend_cmdOut (r : SeqRun) : (s.suspend r).cmdOut = s.cmdOut := rfl
@[simp] theorem State.suspend_allocs (r : SeqRun) : (s.suspend r).allocs = s.allocs := rfl
@[simp] theorem State.suspend_plan (r : SeqRun) : (s.suspend r).plan = s.plan := rfl
@[simp] theorem State.suspend_draws (r : SeqRun) : (s.suspend r).draws = s.draws := rfl
@[simp] theorem State.suspend_bus (r : SeqRun) : (s.suspend r).bus = s.bus := rfl

/-! ### setPort -/

@[simp] theorem State.setPort_glb (k : Nat) (p : IrqPort) : (s.setPort k p).glb = s.glb := rfl
@[simp] theorem State.setPort_chans (k : Nat) (p : IrqPort) : (s.setPort k p).chans = s.chans := rfl
@[simp] theorem State.setPort_seq (k : Nat) (p : IrqPort) : (s.setPort k p).seq = s.seq := rfl
@[simp] theorem State.setPort_fltContract (k : Nat) (p : IrqPort) : (s.setPort k p).fltContract = s.fltContract := rfl
@[simp] theorem State.setPort_fltIllegal (k : Nat) (p : IrqPort) : (s.setPort k p).fltIllegal = s.fltIllegal := rfl
@[simp] theorem State.setPort_irqh (k : Nat) (p : IrqPort) : (s.setPort k p).irqh = s.irqh.set k p := rfl
@[simp] theorem State.setPort_sw (k : Nat) (p : IrqPort) : (s.setPort k p).sw = s.sw := rfl
@[simp] theorem State.setPort_cmdIn (k : Nat) (p : IrqPort) : (s.setPort k p).cmdIn = s.cmdIn := rfl
@[simp] theorem State.setPort_cmdOut (k : Nat) (p : IrqPort) : (s.setPort k p).cmdOut = s.cmdOut := rfl
@[simp] theorem State.setPort_allocs (k : Nat) (p : IrqPort) : (s.setPort k p).allocs = s.allocs := rfl
@[simp] theorem State.setPort_plan (k : Nat) (p : IrqPort) : (s.setPort k p).plan = s.plan := rfl
@[simp] theorem State.setPort_draws (k : Nat) (p : IrqPort) : (s.setPort k p).draws = s.draws := rfl
@[simp] theorem State.setPort_bus (k : Nat) (p : IrqPort) : (s.setPort k p).bus = s.bus := rfl

/-! ### attach -/

@[simp] theorem State.attach_glb (i : Fin 8) (d : Desc) : (s.attach i d).glb = s.glb := rfl
@[simp] theorem State.attach_chans (i : Fin 8) (d : Desc) : (s.attach i d).chans = s.chans.set i { s.chan i with desc := some d } := rfl
@[simp] theorem State.attach_seq (i : Fin 8) (d : Desc) : (s.attach i d).seq = s.seq := rfl
@[simp] theorem State.attach_fltContract (i : Fin 8) (d : Desc) : (s.attach i d).fltContract = s.fltContract := rfl
@[simp] theorem State.attach_fltIllegal (i : Fin 8) (d : Desc) : (s.attach i d).fltIllegal = s.fltIllegal := rfl
@[simp] theorem State.attach_irqh (i : Fin 8) (d : Desc) : (s.attach i d).irqh = s.irqh := rfl
@[simp] theorem State.attach_sw (i : Fin 8) (d : Desc) : (s.attach i d).sw = s.sw := rfl
@[simp] theorem State.attach_cmdIn (i : Fin 8) (d : Desc) : (s.attach i d).cmdIn = s.cmdIn := rfl
@[simp] theorem State.attach_cmdOut (i : Fin 8) (d : Desc) : (s.attach i d).cmdOut = s.cmdOut := rfl
@[simp] theorem State.attach_allocs (i : Fin 8) (d : Desc) : (s.attach i d).allocs = s.allocs := rfl
@[simp] theorem State.attach_plan (i : Fin 8) (d : Desc) : (s.attach i d).plan = s.plan := rfl
@[simp] theorem State.attach_draws (i : Fin 8) (d : Desc) : (s.attach i d).draws = s.draws := rfl
@[simp] theorem State.attach_bus (i : Fin 8) (d : Desc) : (s.attach i d).bus = s.bus := rfl

/-! ### flagDone -/

@[simp] theorem State.flagDone_glb (i : Fin 8) : (s.flagDone i).glb = { s.glb with done := s.glb.done ||| (1#8 <<< i.val) } := rfl
@[simp] theorem State.flagDone_chans (i : Fin 8) : (s.flagDone i).chans = s.chans := rfl
@[simp] theorem State.flagDone_seq (i : Fin 8) : (s.flagDone i).seq = s.seq := rfl
@[simp] theorem State.flagDone_fltContract (i : Fin 8) : (s.flagDone i).fltContract = s.fltContract := rfl
@[simp] theorem State.flagDone_fltIllegal (i : Fin 8) : (s.flagDone i).fltIllegal = s.fltIllegal := rfl
@[simp] theorem State.flagDone_irqh (i : Fin 8) : (s.flagDone i).irqh = s.irqh := rfl
@[simp] theorem State.flagDone_sw (i : Fin 8) : (s.flagDone i).sw = s.sw := rfl
@[simp] theorem State.flagDone_cmdIn (i : Fin 8) : (s.flagDone i).cmdIn = s.cmdIn := rfl
@[simp] theorem State.flagDone_cmdOut (i : Fin 8) : (s.flagDone i).cmdOut = s.cmdOut := rfl
@[simp] theorem State.flagDone_allocs (i : Fin 8) : (s.flagDone i).allocs = s.allocs := rfl
@[simp] theorem State.flagDone_plan (i : Fin 8) : (s.flagDone i).plan = s.plan := rfl
@[simp] theorem State.flagDone_draws (i : Fin 8) : (s.flagDone i).draws = s.draws := rfl
@[simp] theorem State.flagDone_bus (i : Fin 8) : (s.flagDone i).bus = s.bus := rfl

/-! ### engDisable -/

@[simp] theorem State.engDisable_glb (i : Fin 8) : (s.engDisable i).glb = s.glb := rfl
@[simp] theorem State.engDisable_chans (i : Fin 8) : (s.engDisable i).chans = s.chans.set i { s.chan i with en := false, disPending := false, armed := false } := rfl
@[simp] theorem State.engDisable_seq (i : Fin 8) : (s.engDisable i).seq = s.seq := rfl
@[simp] theorem State.engDisable_fltContract (i : Fin 8) : (s.engDisable i).fltContract = s.fltContract := rfl
@[simp] theorem State.engDisable_fltIllegal (i : Fin 8) : (s.engDisable i).fltIllegal = s.fltIllegal := rfl
@[simp] theorem State.engDisable_irqh (i : Fin 8) : (s.engDisable i).irqh = s.irqh := rfl
@[simp] theorem State.engDisable_sw (i : Fin 8) : (s.engDisable i).sw = s.sw := rfl
@[simp] theorem State.engDisable_cmdIn (i : Fin 8) : (s.engDisable i).cmdIn = s.cmdIn := rfl
@[simp] theorem State.engDisable_cmdOut (i : Fin 8) : (s.engDisable i).cmdOut = s.cmdOut := rfl
@[simp] theorem State.engDisable_allocs (i : Fin 8) : (s.engDisable i).allocs = s.allocs := rfl
@[simp] theorem State.engDisable_plan (i : Fin 8) : (s.engDisable i).plan = s.plan := rfl
@[simp] theorem State.engDisable_draws (i : Fin 8) : (s.engDisable i).draws = s.draws := rfl
@[simp] theorem State.engDisable_bus (i : Fin 8) : (s.engDisable i).bus = s.bus := rfl

/-! ### writeBind -/

@[simp] theorem State.writeBind_glb (v : Word) : (s.writeBind v).glb = { s.glb with bound := v.setWidth 8 } := rfl
@[simp] theorem State.writeBind_chans (v : Word) : (s.writeBind v).chans = dropUnbound (v.setWidth 8) s.chans := rfl
@[simp] theorem State.writeBind_seq (v : Word) : (s.writeBind v).seq = s.seq := rfl
@[simp] theorem State.writeBind_fltContract (v : Word) : (s.writeBind v).fltContract = s.fltContract := rfl
@[simp] theorem State.writeBind_fltIllegal (v : Word) : (s.writeBind v).fltIllegal = s.fltIllegal := rfl
@[simp] theorem State.writeBind_irqh (v : Word) : (s.writeBind v).irqh = s.irqh := rfl
@[simp] theorem State.writeBind_sw (v : Word) : (s.writeBind v).sw = s.sw := rfl
@[simp] theorem State.writeBind_cmdIn (v : Word) : (s.writeBind v).cmdIn = s.cmdIn := rfl
@[simp] theorem State.writeBind_cmdOut (v : Word) : (s.writeBind v).cmdOut = s.cmdOut := rfl
@[simp] theorem State.writeBind_allocs (v : Word) : (s.writeBind v).allocs = s.allocs := rfl
@[simp] theorem State.writeBind_plan (v : Word) : (s.writeBind v).plan = s.plan := rfl
@[simp] theorem State.writeBind_draws (v : Word) : (s.writeBind v).draws = s.draws := rfl
@[simp] theorem State.writeBind_bus (v : Word) : (s.writeBind v).bus = s.bus := rfl

/-! ### setFault, raise -/

@[simp] theorem State.setFault_glb (x : Violation) : (s.setFault x).glb = s.glb := by cases x <;> rfl
@[simp] theorem State.setFault_chans (x : Violation) : (s.setFault x).chans = s.chans := by cases x <;> rfl
@[simp] theorem State.setFault_seq (x : Violation) : (s.setFault x).seq = s.seq := by cases x <;> rfl
@[simp] theorem State.setFault_fltContract (x : Violation) : (s.setFault x).fltContract = (s.fltContract || (x == .contract)) := by cases x <;> simp [State.setFault]
@[simp] theorem State.setFault_fltIllegal (x : Violation) : (s.setFault x).fltIllegal = (s.fltIllegal || (x == .illegal)) := by cases x <;> simp [State.setFault]
@[simp] theorem State.setFault_irqh (x : Violation) : (s.setFault x).irqh = s.irqh := by cases x <;> rfl
@[simp] theorem State.setFault_sw (x : Violation) : (s.setFault x).sw = s.sw := by cases x <;> rfl
@[simp] theorem State.setFault_cmdIn (x : Violation) : (s.setFault x).cmdIn = s.cmdIn := by cases x <;> rfl
@[simp] theorem State.setFault_cmdOut (x : Violation) : (s.setFault x).cmdOut = s.cmdOut := by cases x <;> rfl
@[simp] theorem State.setFault_allocs (x : Violation) : (s.setFault x).allocs = s.allocs := by cases x <;> rfl
@[simp] theorem State.setFault_plan (x : Violation) : (s.setFault x).plan = s.plan := by cases x <;> rfl
@[simp] theorem State.setFault_draws (x : Violation) : (s.setFault x).draws = s.draws := by cases x <;> rfl
@[simp] theorem State.setFault_bus (x : Violation) : (s.setFault x).bus = s.bus := by cases x <;> rfl

@[simp] theorem State.raise_glb (x : Violation) : (s.raise x).glb = s.glb := by simp [State.raise]
@[simp] theorem State.raise_chans (x : Violation) : (s.raise x).chans = s.chans := by simp [State.raise]
@[simp] theorem State.raise_seq (x : Violation) : (s.raise x).seq = .idle := by simp [State.raise]
@[simp] theorem State.raise_fltContract (x : Violation) : (s.raise x).fltContract = (s.fltContract || (x == .contract)) := by simp [State.raise]
@[simp] theorem State.raise_fltIllegal (x : Violation) : (s.raise x).fltIllegal = (s.fltIllegal || (x == .illegal)) := by simp [State.raise]
@[simp] theorem State.raise_irqh (x : Violation) : (s.raise x).irqh = s.irqh := by simp [State.raise]
@[simp] theorem State.raise_sw (x : Violation) : (s.raise x).sw = s.sw := by simp [State.raise]
@[simp] theorem State.raise_cmdIn (x : Violation) : (s.raise x).cmdIn = s.cmdIn := by simp [State.raise]
@[simp] theorem State.raise_cmdOut (x : Violation) : (s.raise x).cmdOut = s.cmdOut ++ [x.resp.packet] := by simp [State.raise]
@[simp] theorem State.raise_allocs (x : Violation) : (s.raise x).allocs = s.allocs := by simp [State.raise]
@[simp] theorem State.raise_plan (x : Violation) : (s.raise x).plan = s.plan := by simp [State.raise]
@[simp] theorem State.raise_draws (x : Violation) : (s.raise x).draws = s.draws := by simp [State.raise]
@[simp] theorem State.raise_bus (x : Violation) : (s.raise x).bus = s.bus := by simp [State.raise]

/-! ### Reading a channel -/

/-- A channel after channel `i` is replaced. -/
theorem State.setChan_chan (i j : Fin 8) (c : Chan) :
    (s.setChan i c).chan j = if i = j then c else s.chan j := by
  simp only [State.chan, State.setChan, Fin.getElem_fin, Vector.getElem_set, Fin.val_inj]

@[simp] theorem State.setChan_chan_self (i : Fin 8) (c : Chan) : (s.setChan i c).chan i = c := by
  simp [State.setChan_chan]

theorem State.setChan_chan_ne {i j : Fin 8} (h : i ≠ j) (c : Chan) : (s.setChan i c).chan j = s.chan j := by
  simp [State.setChan_chan, h]

/-- Putting a channel back as it is changes nothing. -/
@[simp] theorem State.setChan_self (i : Fin 8) : s.setChan i (s.chan i) = s := by
  simp [State.chan, State.setChan]

/-- Replacing a channel twice keeps the second. -/
@[simp] theorem State.setChan_setChan (i : Fin 8) (c d : Chan) : (s.setChan i c).setChan i d = s.setChan i d := by
  simp [State.setChan]

@[simp] theorem State.tick_chan (n : Nat) (j : Fin 8) : (s.tick n).chan j = s.chan j := rfl
@[simp] theorem State.log_chan (a : Access) (j : Fin 8) : (s.log a).chan j = s.chan j := rfl
@[simp] theorem State.respond_chan (q : Resp) (j : Fin 8) : (s.respond q).chan j = s.chan j := rfl
@[simp] theorem State.suspend_chan (r : SeqRun) (j : Fin 8) : (s.suspend r).chan j = s.chan j := rfl
@[simp] theorem State.setPort_chan (k : Nat) (p : IrqPort) (j : Fin 8) : (s.setPort k p).chan j = s.chan j := rfl
@[simp] theorem State.flagDone_chan (i : Fin 8) (j : Fin 8) : (s.flagDone i).chan j = s.chan j := rfl
@[simp] theorem State.setFault_chan (x : Violation) (j : Fin 8) : (s.setFault x).chan j = s.chan j := by cases x <;> rfl

theorem State.attach_chan (i j : Fin 8) (d : Desc) :
    (s.attach i d).chan j = if i = j then { s.chan i with desc := some d } else s.chan j :=
  s.setChan_chan i j _

theorem State.engDisable_chan (i j : Fin 8) :
    (s.engDisable i).chan j =
      if i = j then { s.chan i with en := false, disPending := false, armed := false } else s.chan j :=
  s.setChan_chan i j _

/-- A channel after a write of DMA_BIND: its descriptor is gone unless its bound bit stays 1 (R77). -/
theorem State.writeBind_chan (v : Word) (j : Fin 8) :
    (s.writeBind v).chan j =
      if (v.setWidth 8).getLsbD j then s.chan j else { s.chan j with desc := none } := by
  simp [State.chan, State.writeBind, dropUnbound]

/-- Two states with the same fields are the same; the channels may be compared one by one. -/
theorem State.ext_chan {s t : State} (hg : s.glb = t.glb) (hc : ∀ i, s.chan i = t.chan i) (hs : s.seq = t.seq)
    (h1 : s.fltContract = t.fltContract) (h2 : s.fltIllegal = t.fltIllegal) (h3 : s.irqh = t.irqh)
    (h4 : s.sw = t.sw) (h5 : s.cmdIn = t.cmdIn) (h6 : s.cmdOut = t.cmdOut) (h7 : s.allocs = t.allocs)
    (h8 : s.plan = t.plan) (h9 : s.draws = t.draws) (h10 : s.bus = t.bus) : s = t := by
  have hv : s.chans = t.chans := by
    ext i hi : 1
    simpa [State.chan] using hc ⟨i, hi⟩
  cases s
  cases t
  simp_all

end Sys2Proof.Machine
end

