-- ==== Sys2Proof/Laws/Drive.lean ====
section
/-! SUPPORT. Reasoning about the driver. `drive_holds` packages the one induction over a command's micro-steps and the
turns between them: an assertion that every micro-step and every turn keeps holds wherever the command ends. The
`quiet` lemmas run a command step by step where the schedule holds nothing. -/

namespace Sys2Proof.Machine

/-! ## Turns -/

/-- The state after the turns. -/
def Turned.state : Turned → State
  | .go s => s
  | .rest s => s

/-- What every other agent's move keeps, a whole list of turns keeps. -/
theorem runTurns_keeps {P : State → Prop} (hplan : ∀ s p, P s → P { s with plan := p })
    (heng : ∀ s m, P s → P (s.engMove m)) (hirq : ∀ s k, P s → P (s.irqStep k)) :
    ∀ (p : List Turn) (s : State), P s → P (runTurns p s).state
  | [], s, h => hplan s [] h
  | .seq :: p, s, h => hplan s p h
  | .rest :: p, s, h => hplan s p h
  | .eng m :: p, s, h => runTurns_keeps hplan heng hirq p _ (heng s m h)
  | .irqh k :: p, s, h => runTurns_keeps hplan heng hirq p _ (hirq s k h)

/-- What every other agent's move keeps, one turn of an idle machine keeps. -/
theorem idleTurn_keeps {P : State → Prop} (hplan : ∀ s p, P s → P { s with plan := p })
    (heng : ∀ s m, P s → P (s.engMove m)) (hirq : ∀ s k, P s → P (s.irqStep k)) (s : State) (h : P s) :
    P s.idleTurn := by
  unfold State.idleTurn
  split
  · exact h
  · exact hplan _ _ h
  · exact hplan _ _ h
  · exact heng _ _ (hplan _ _ h)
  · exact hirq _ _ (hplan _ _ h)

/-- With nothing in the schedule it is SEQ's turn and nothing has changed. -/
theorem runTurns_quiet {s : State} (h : s.plan = []) : runTurns s.plan s = .go s := by
  cases s
  simp_all [runTurns]

/-! ## The driver -/

/-- How a command may end: `Q` of the next state, `R` of a refusal, `F` of a fault. -/
def Ends (Q : State → Prop) (R : Refusal → Prop) (F : Fault → Prop) : Out → Prop
  | .next s => Q s
  | .refused x => R x
  | .fault x => F x

/-- What one micro-step must establish: the assertion `I` at the next position, `D` where it responds. -/
def Micro.Holds (I : SeqRun → State → Prop) (D : Resp → State → Prop) (R : Refusal → Prop)
    (F : Fault → Prop) : Micro → Prop
  | .goto r s => I r s
  | .spin r s => I r s
  | .done q s => D q s
  | .stop x => R x
  | .fault x => F x

section
variable {I : SeqRun → State → Prop} {D : Resp → State → Prop} {Q : State → Prop} {R : Refusal → Prop}
  {F : Fault → Prop}

@[simp] theorem ends_next (s : State) : Ends Q R F (.next s) = Q s := rfl
@[simp] theorem ends_refused (x : Refusal) : Ends Q R F (.refused x) = R x := rfl
@[simp] theorem ends_fault (x : Fault) : Ends Q R F (.fault x) = F x := rfl
@[simp] theorem holds_goto (r : SeqRun) (s : State) : (Micro.goto r s).Holds I D R F = I r s := rfl
@[simp] theorem holds_spin (r : SeqRun) (s : State) : (Micro.spin r s).Holds I D R F = I r s := rfl
@[simp] theorem holds_done (q : Resp) (s : State) : (Micro.done q s).Holds I D R F = D q s := rfl
@[simp] theorem holds_stop (x : Refusal) : (Micro.stop x).Holds I D R F = R x := rfl
@[simp] theorem holds_fault (x : Fault) : (Micro.fault x).Holds I D R F = F x := rfl

end

/-- THE INDUCTION OVER A COMMAND. An assertion kept by every micro-step and by the other agents' moves holds at
every position SEQ rests at, and what each last micro-step establishes holds of the state it responds from. -/
theorem drive_holds {f : SeqRun → State → Micro} {I : SeqRun → State → Prop} {D : Resp → State → Prop}
    {Q : State → Prop} {R : Refusal → Prop} {F : Fault → Prop}
    (hplan : ∀ r s p, I r s → I r { s with plan := p })
    (heng : ∀ r s m, I r s → I r (s.engMove m))
    (hirq : ∀ r s k, I r s → I r (s.irqStep k))
    (hstep : ∀ r s, I r s → (f r s).Holds I D R F)
    (hrest : ∀ r s, I r s → Q (s.suspend r))
    (hdone : ∀ q s, D q s → Q (s.respond q)) :
    ∀ (n : Nat) (r : SeqRun) (s : State), I r s → Ends Q R F (drive f n r s)
  | 0, r, s, h => hrest r s h
  | n + 1, r, s, h => by
    have ih := drive_holds hplan heng hirq hstep hrest hdone n
    have ht := runTurns_keeps (P := I r) (hplan r) (heng r) (hirq r) s.plan s h
    unfold drive
    cases hr : runTurns s.plan s with
    | rest s' =>
      rw [hr] at ht
      exact hrest r s' ht
    | go s' =>
      rw [hr] at ht
      have hs := hstep r s' ht
      cases hf : f r s' with
      | goto r' s'' =>
        rw [hf] at hs
        simpa [hf] using ih r' s'' hs
      | spin r' s'' =>
        rw [hf] at hs
        simp only [hf]
        split
        · exact hrest r' s'' hs
        · exact ih r' s'' hs
      | done q s'' =>
        rw [hf] at hs
        simpa [hf, Ends, Micro.Holds] using hdone q s'' hs
      | stop x =>
        rw [hf] at hs
        simpa [hf, Ends, Micro.Holds] using hs
      | fault x =>
        rw [hf] at hs
        simpa [hf, Ends, Micro.Holds] using hs

/-! ## Running a command where the schedule holds nothing -/

section
variable {f : SeqRun → State → Micro} {n : Nat} {r r' : SeqRun} {s s' : State}

theorem drive_goto (h : s.plan = []) (hf : f r s = .goto r' s') :
    drive f (n + 1) r s = drive f n r' s' := by
  simp [drive, runTurns_quiet h, hf]

theorem drive_done {q : Resp} (h : s.plan = []) (hf : f r s = .done q s') :
    drive f (n + 1) r s = .next (s'.respond q) := by
  simp [drive, runTurns_quiet h, hf]

theorem drive_stop {x : Refusal} (h : s.plan = []) (hf : f r s = .stop x) :
    drive f (n + 1) r s = .refused x := by
  simp [drive, runTurns_quiet h, hf]

/-- The spin of K3 with nothing left in the schedule: SEQ stays BUSY (R162, R250). -/
theorem drive_spin (h : s.plan = []) (hf : f r s = .spin r' s') (h' : s'.plan = []) :
    drive f (n + 1) r s = .next (s'.suspend r') := by
  simp [drive, runTurns_quiet h, hf, h']

end

end Sys2Proof.Machine
end

