-- ==== Sys2Proof/Laws/Env.lean ====
section
/-! SUPPORT. What the moves of the other agents can do, said once: `Between s t` holds when ENG and the
interrupt-service agents alone have moved from `s` to `t` (44_engine_environment.md R237, 43_interrupt_handler.md R221);
the turns of a schedule are such moves. -/

namespace Sys2Proof.Machine

/-- Everything the other agents leave alone, and the one direction in which they move the rest. -/
structure Between (s t : State) : Prop where
  glb : t.glb = { s.glb with done := t.glb.done }
  chan : ∀ i, t.chan i = { s.chan i with en := (t.chan i).en, disPending := (t.chan i).disPending,
                                         armed := (t.chan i).armed }
  en : ∀ i, (t.chan i).en = true → (s.chan i).en = true
  armed : ∀ i, (t.chan i).armed = true → (s.chan i).armed = true
  disPending : ∀ i, (t.chan i).disPending = true → (s.chan i).disPending = true
  hidden : ∀ i, (s.chan i).hiddenOk = true → (t.chan i).hiddenOk = true
  owed : ∀ i, (s.chan i).disPending = true → (t.chan i).en = true → (t.chan i).disPending = true
  done : ∀ i, t.doneFlag i = true →
    s.doneFlag i = true ∨ ((s.chan i).en = true ∧ (s.chan i).armed = true ∧ (s.sw.needsCtlEn = true → s.glb.en = true))
  seq : t.seq = s.seq
  fltContract : t.fltContract = s.fltContract
  fltIllegal : s.fltIllegal = true → t.fltIllegal = true
  ports : t.irqh.length = s.irqh.length
  sw : t.sw = s.sw
  cmdIn : t.cmdIn = s.cmdIn
  cmdOut : t.cmdOut = s.cmdOut
  allocs : t.allocs = s.allocs
  draws : t.draws = s.draws
  seqLog : t.seqLog = s.seqLog

theorem Between.refl (s : State) : Between s s where
  glb := rfl
  chan _ := rfl
  en _ h := h
  armed _ h := h
  disPending _ h := h
  hidden _ h := h
  owed _ h _ := h
  done _ h := .inl h
  seq := rfl
  fltContract := rfl
  fltIllegal h := h
  ports := rfl
  sw := rfl
  cmdIn := rfl
  cmdOut := rfl
  allocs := rfl
  draws := rfl
  seqLog := rfl

theorem Between.glb_en {s t : State} (h : Between s t) : t.glb.en = s.glb.en := by rw [h.glb]
theorem Between.glb_srst {s t : State} (h : Between s t) : t.glb.srst = s.glb.srst := by rw [h.glb]
theorem Between.glb_chselL {s t : State} (h : Between s t) : t.glb.chselL = s.glb.chselL := by rw [h.glb]
theorem Between.glb_chselH {s t : State} (h : Between s t) : t.glb.chselH = s.glb.chselH := by rw [h.glb]
theorem Between.glb_chm {s t : State} (h : Between s t) : t.glb.chm = s.glb.chm := by rw [h.glb]
theorem Between.glb_gie {s t : State} (h : Between s t) : t.glb.gie = s.glb.gie := by rw [h.glb]
theorem Between.glb_bound {s t : State} (h : Between s t) : t.glb.bound = s.glb.bound := by rw [h.glb]
theorem Between.chan_srst {s t : State} (h : Between s t) (i : Fin 8) : (t.chan i).srst = (s.chan i).srst := by
  rw [h.chan i]
theorem Between.chan_dir {s t : State} (h : Between s t) (i : Fin 8) : (t.chan i).dir = (s.chan i).dir := by
  rw [h.chan i]
theorem Between.desc {s t : State} (h : Between s t) (i : Fin 8) : t.desc i = s.desc i := by
  unfold State.desc
  rw [h.chan i]
theorem Between.boundBit {s t : State} (h : Between s t) (i : Fin 8) : t.boundBit i = s.boundBit i := by
  simp [State.boundBit, h.glb_bound]
theorem Between.chan_still {s t : State} (h : Between s t) (i : Fin 8) : (t.chan i).still = (s.chan i).still := by
  rw [h.chan i]
  rfl

theorem Between.trans {s t u : State} (h : Between s t) (h' : Between t u) : Between s u where
  glb := by rw [h'.glb, h.glb]
  chan i := by rw [h'.chan i, h.chan i]
  en i e := h.en i (h'.en i e)
  armed i e := h.armed i (h'.armed i e)
  disPending i e := h.disPending i (h'.disPending i e)
  hidden i e := h'.hidden i (h.hidden i e)
  owed i e e' := h'.owed i (h.owed i e (h'.en i e')) e'
  done i e := by
    rcases h'.done i e with hd | ⟨h1, h2, h3⟩
    · exact h.done i hd
    · exact .inr ⟨h.en i h1, h.armed i h2, fun hs => h.glb_en ▸ h3 (h.sw ▸ hs)⟩
  seq := h'.seq.trans h.seq
  fltContract := h'.fltContract.trans h.fltContract
  fltIllegal e := h'.fltIllegal (h.fltIllegal e)
  ports := h'.ports.trans h.ports
  sw := h'.sw.trans h.sw
  cmdIn := h'.cmdIn.trans h.cmdIn
  cmdOut := h'.cmdOut.trans h.cmdOut
  allocs := h'.allocs.trans h.allocs
  draws := h'.draws.trans h.draws
  seqLog := h'.seqLog.trans h.seqLog

/-- The schedule is no part of what `Between` speaks of. -/
theorem Between.withPlan {s t : State} (h : Between s t) (p : List Turn) : Between s { t with plan := p } :=
  ⟨h.glb, h.chan, h.en, h.armed, h.disPending, h.hidden, h.owed, h.done, h.seq, h.fltContract, h.fltIllegal, h.ports,
    h.sw, h.cmdIn, h.cmdOut, h.allocs, h.draws, h.seqLog⟩

/-! ## Each agent's move -/

theorem doneFlag_flagDone (s : State) (i j : Fin 8) :
    (s.flagDone i).doneFlag j = (s.doneFlag j || decide (j = i)) := by
  simp only [State.doneFlag, State.flagDone, BitVec.getLsbD_or]
  congr 1
  revert i j
  decide

theorem engDisable_between (s : State) (i : Fin 8) : Between s (s.engDisable i) where
  glb := rfl
  chan j := by rw [State.engDisable_chan]; split <;> simp_all
  en j := by rw [State.engDisable_chan]; split <;> simp
  armed j := by rw [State.engDisable_chan]; split <;> simp
  disPending j := by rw [State.engDisable_chan]; split <;> simp
  hidden j := by rw [State.engDisable_chan]; split <;> simp [Chan.hiddenOk]
  owed j := by rw [State.engDisable_chan]; split <;> simp_all
  done j h := .inl h
  seq := rfl
  fltContract := rfl
  fltIllegal h := h
  ports := rfl
  sw := rfl
  cmdIn := rfl
  cmdOut := rfl
  allocs := rfl
  draws := rfl
  seqLog := rfl

theorem complete_between (s : State) (i : Fin 8) (h : s.engEnabled (.complete i) = true) :
    Between s (s.engEffect (.complete i)) := by
  simp only [State.engEnabled, Bool.and_eq_true, Bool.or_eq_true, Bool.not_eq_true'] at h
  obtain ⟨⟨hen, harm⟩, hctl⟩ := h
  have hc : ∀ j, (s.engEffect (.complete i)).chan j =
      if i = j then { s.chan i with armed := (s.chan i).armed && !s.sw.oneShot } else s.chan j := by
    intro j
    simp only [State.engEffect, State.flagDone_chan]
    exact s.setChan_chan i j _
  refine ⟨rfl, fun j => ?_, fun j => ?_, fun j => ?_, fun j => ?_, fun j => ?_, fun j => ?_, fun j e => ?_, rfl, rfl,
    fun e => e, rfl, rfl, rfl, rfl, rfl, rfl, rfl⟩
  · rw [hc j]; split <;> simp_all
  · rw [hc j]; split <;> simp_all
  · rw [hc j]; split <;> simp_all
  · rw [hc j]; split <;> simp_all
  · rw [hc j]; split <;> simp_all [Chan.hiddenOk]
  · rw [hc j]; split <;> simp_all
  · simp only [State.engEffect, doneFlag_flagDone, Bool.or_eq_true, decide_eq_true_eq] at e
    rcases e with e | e
    · exact .inl e
    · subst e
      refine .inr ⟨hen, harm, fun hs => ?_⟩
      rcases hctl with hctl | hctl
      · simp [hs] at hctl
      · exact hctl

/-- A move of ENG. -/
theorem engMove_between (s : State) (m : EngMove) : Between s (s.engMove m) := by
  unfold State.engMove
  split
  · rename_i h
    cases m with
    | ackDisable i => exact engDisable_between s i
    | selfDisable i => exact engDisable_between s i
    | complete i => exact complete_between s i h
  · exact .refl s

/-- A step of an interrupt-service agent: it may clear completion flags, set `flt.illegal`, move its own port and log its
own access. -/
theorem irqStep_cases (s : State) (k : Nat) :
    ∃ d f ports b, s.irqStep k =
        { s with glb := { s.glb with done := d }, fltIllegal := f, irqh := ports, bus := s.bus ++ b } ∧
      (∀ i : Fin 8, d.getLsbD i = true → s.doneFlag i = true) ∧ (s.fltIllegal = true → f = true) ∧
      ports.length = s.irqh.length ∧ (∀ a ∈ b, a.bySeq = false) := by
  have triv : s = { s with bus := s.bus ++ [] } := by simp
  unfold State.irqStep
  split
  · exact ⟨s.glb.done, s.fltIllegal, s.irqh, [], triv, fun _ h => h, id, rfl, by simp⟩
  · rename_i p hp
    split
    · exact ⟨s.glb.done, s.fltIllegal, s.irqh, [], triv, fun _ h => h, id, rfl, by simp⟩
    · rename_i q rest _ _
      unfold State.irqAccept
      split
      · exact ⟨s.glb.done, s.fltIllegal, _, [], by rw [List.append_nil]; rfl, fun _ h => h, id, List.length_set, by simp⟩
      · exact ⟨s.glb.done, true, _, [], by rw [List.append_nil]; rfl, fun _ h => h, fun _ => rfl, List.length_set,
          by simp⟩
    · exact ⟨s.glb.done, s.fltIllegal, s.irqh.set k _, [_], rfl, fun _ h => h, id, by simp, by simp [Access.bySeq]⟩
    · refine ⟨(s.glb.writeStat Config.statClearAll).done, s.fltIllegal, s.irqh.set k _, [_], rfl, ?_, id, by simp,
        by simp [Access.bySeq]⟩
      intro i h
      simp only [Globals.writeStat, BitVec.getLsbD_and, Bool.and_eq_true] at h
      exact h.1

theorem irqStep_between (s : State) (k : Nat) : Between s (s.irqStep k) := by
  obtain ⟨d, f, ports, b, he, hd, hf, hp, hb⟩ := irqStep_cases s k
  rw [he]
  refine ⟨rfl, fun _ => rfl, fun _ h => h, fun _ h => h, fun _ h => h, fun _ h => h, fun _ h _ => h,
    fun i h => .inl (hd i h), rfl, rfl, hf, hp, rfl, rfl, rfl, rfl, rfl, ?_⟩
  have : b.filter Access.bySeq = [] := by
    rw [List.filter_eq_nil_iff]
    intro a ha
    simp [hb a ha]
  simp [State.seqLog, this]

theorem otherTurn_between (s : State) (x : Turn) : Between s (s.otherTurn x) := by
  cases x with
  | seq => exact .refl s
  | rest => exact .refl s
  | eng m => exact engMove_between s m
  | irqh k => exact irqStep_between s k

@[simp] theorem others_nil (s : State) : s.others [] = s := rfl
@[simp] theorem others_cons (s : State) (x : Turn) (p : List Turn) :
    s.others (x :: p) = (s.otherTurn x).others p := rfl
theorem others_append (s : State) (p p' : List Turn) : s.others (p ++ p') = (s.others p).others p' := by
  simp [State.others]

/-- Any moves of the other agents. -/
theorem others_between : ∀ (p : List Turn) (s : State), Between s (s.others p)
  | [], s => .refl s
  | x :: p, s => (otherTurn_between s x).trans (others_between p (s.otherTurn x))

/-! ## No move reads or writes the schedule -/

@[simp] theorem engMove_plan (s : State) (m : EngMove) : (s.engMove m).plan = s.plan := by
  unfold State.engMove
  split
  · cases m <;> rfl
  · rfl

@[simp] theorem irqStep_plan (s : State) (k : Nat) : (s.irqStep k).plan = s.plan := by
  obtain ⟨d, f, ports, b, he, -⟩ := irqStep_cases s k
  rw [he]

@[simp] theorem otherTurn_plan (s : State) (x : Turn) : (s.otherTurn x).plan = s.plan := by
  cases x <;> simp [State.otherTurn]

@[simp] theorem others_plan : ∀ (p : List Turn) (s : State), (s.others p).plan = s.plan
  | [], _ => rfl
  | x :: p, s => by simp [others_plan p]

theorem engMove_withPlan (s : State) (m : EngMove) (p : List Turn) :
    ({ s with plan := p } : State).engMove m = { s.engMove m with plan := p } := by
  have he : ({ s with plan := p } : State).engEnabled m = s.engEnabled m := by cases m <;> rfl
  unfold State.engMove
  rw [he]
  cases s.engEnabled m
  · rfl
  · cases m <;> rfl

theorem irqStep_withPlan (s : State) (k : Nat) (p : List Turn) :
    ({ s with plan := p } : State).irqStep k = { s.irqStep k with plan := p } := by
  unfold State.irqStep
  cases s.irqh[k]? with
  | none => rfl
  | some port =>
    simp only
    split
    · rfl
    · unfold State.irqAccept
      split <;> rfl
    · rfl
    · rfl

theorem otherTurn_withPlan (s : State) (x : Turn) (p : List Turn) :
    ({ s with plan := p } : State).otherTurn x = { s.otherTurn x with plan := p } := by
  cases x with
  | seq => rfl
  | rest => rfl
  | eng m => exact engMove_withPlan s m p
  | irqh k => exact irqStep_withPlan s k p

theorem others_withPlan : ∀ (p : List Turn) (s : State) (q : List Turn),
    ({ s with plan := q } : State).others p = { s.others p with plan := q }
  | [], _, _ => rfl
  | x :: p, s, q => by
    rw [others_cons, others_cons, otherTurn_withPlan, others_withPlan p]

/-! ## The turns up to SEQ's next one -/

/-- Moves of other agents are taken in order. -/
theorem runTurns_others : ∀ (p r : List Turn) (s : State), (∀ x ∈ p, x.other = true) →
    runTurns (p ++ r) s = runTurns r (s.others p)
  | [], _, _, _ => rfl
  | .eng m :: p, r, s, h => runTurns_others p r _ fun x hx => h x (List.mem_cons_of_mem _ hx)
  | .irqh k :: p, r, s, h => runTurns_others p r _ fun x hx => h x (List.mem_cons_of_mem _ hx)
  | .seq :: p, r, s, h => absurd (h .seq (by simp)) (by simp [Turn.other])
  | .rest :: p, r, s, h => absurd (h .rest (by simp)) (by simp [Turn.other])

/-- A schedule that gives SEQ its turn after the moves `p`. -/
theorem runTurns_seqTurn {plan p q : List Turn} (h : seqTurn plan p q) (s : State) :
    runTurns plan s = .go { s.others p with plan := q } := by
  obtain ⟨ho, rfl | ⟨rfl, rfl⟩⟩ := h
  · rw [runTurns_others p _ s ho]
    rfl
  · have := runTurns_others plan [] s ho
    rw [List.append_nil] at this
    rw [this]
    rfl

/-- Without a rest in the schedule SEQ always gets a turn, and what is left has no rest either. -/
theorem seqTurn_of_noRest : ∀ {plan : List Turn}, Turn.rest ∉ plan → ∃ p q, seqTurn plan p q ∧ Turn.rest ∉ q ∧
    q.length ≤ plan.length
  | [], _ => ⟨[], [], ⟨by simp, .inr ⟨rfl, rfl⟩⟩, by simp, Nat.le_refl _⟩
  | .seq :: r, h => ⟨[], r, ⟨by simp, .inl rfl⟩, fun hr => h (List.mem_cons_of_mem _ hr), by simp⟩
  | .rest :: r, h => absurd (List.mem_cons_self) h
  | .eng m :: r, h => by
    obtain ⟨p, q, ⟨ho, hp⟩, hq, hl⟩ := seqTurn_of_noRest (plan := r) fun hr => h (List.mem_cons_of_mem _ hr)
    refine ⟨.eng m :: p, q, ⟨?_, ?_⟩, hq, by simp; omega⟩
    · intro x hx
      rcases List.mem_cons.1 hx with rfl | hx
      · rfl
      · exact ho x hx
    · rcases hp with rfl | ⟨rfl, rfl⟩
      · exact .inl rfl
      · exact .inr ⟨rfl, rfl⟩
  | .irqh k :: r, h => by
    obtain ⟨p, q, ⟨ho, hp⟩, hq, hl⟩ := seqTurn_of_noRest (plan := r) fun hr => h (List.mem_cons_of_mem _ hr)
    refine ⟨.irqh k :: p, q, ⟨?_, ?_⟩, hq, by simp; omega⟩
    · intro x hx
      rcases List.mem_cons.1 hx with rfl | hx
      · rfl
      · exact ho x hx
    · rcases hp with rfl | ⟨rfl, rfl⟩
      · exact .inl rfl
      · exact .inr ⟨rfl, rfl⟩

/-! ## The driver under a schedule -/

section
variable {f : SeqRun → State → Micro} {n : Nat} {r r' : SeqRun} {s s' : State} {p q : List Turn}

theorem drive_seqTurn_goto (h : s.seqAfter p q) (hf : f r { s.others p with plan := q } = .goto r' s') :
    drive f (n + 1) r s = drive f n r' s' := by
  simp [drive, runTurns_seqTurn h s, hf]

theorem drive_seqTurn_done {a : Resp} (h : s.seqAfter p q)
    (hf : f r { s.others p with plan := q } = .done a s') : drive f (n + 1) r s = .next (s'.respond a) := by
  simp [drive, runTurns_seqTurn h s, hf]

theorem drive_seqTurn_stop {x : Refusal} (h : s.seqAfter p q)
    (hf : f r { s.others p with plan := q } = .stop x) : drive f (n + 1) r s = .refused x := by
  simp [drive, runTurns_seqTurn h s, hf]

end

/-- A command's first micro-step has at least 128 to go. -/
theorem start_eq (f : SeqRun → State → Micro) (cmd : Instr) (lbl : Label) (cb : Nat) (s : State) :
    start f cmd lbl cb s = drive f (s.plan.length + payload cmd + 128) (SeqRun.init cmd lbl cb) s := by
  unfold start budget
  congr 1
  omega

/-- The induction over a command, with the other agents' moves said once: an assertion that they and every micro-step
keep holds wherever SEQ rests, and what each last micro-step establishes holds of the state it responds from. -/
theorem drive_ends {f : SeqRun → State → Micro} {I : SeqRun → State → Prop} {D : Resp → State → Prop}
    {Q : State → Prop} {R : Refusal → Prop} {F : Fault → Prop}
    (hother : ∀ r s t, I r s → Between s t → I r t) (hstep : ∀ r s, I r s → (f r s).Holds I D R F)
    (hrest : ∀ r s, I r s → Q (s.suspend r)) (hdone : ∀ q s, D q s → Q (s.respond q))
    (n : Nat) (r : SeqRun) (s : State) (h : I r s) : Ends Q R F (drive f n r s) :=
  drive_holds (fun r s p h => hother r s _ h ((Between.refl s).withPlan p))
    (fun r s m h => hother r s _ h (engMove_between s m)) (fun r s k h => hother r s _ h (irqStep_between s k))
    hstep hrest hdone n r s h

/-- What a micro-step of a command that comes to an end must establish: it goes to a position nearer the end where the
assertion holds, or it responds; it leaves the schedule alone. -/
def Micro.Advances (I : SeqRun → State → Prop) (D : Resp → State → Prop) (μ : SeqRun → Nat) (m : Nat)
    (plan : List Turn) : Micro → Prop
  | .goto r s => I r s ∧ μ r < m ∧ s.plan = plan
  | .spin _ _ => False
  | .done q s => D q s
  | .stop _ => False
  | .fault _ => False

/-- A COMMAND THAT COMES TO AN END. An assertion kept by the moves of the other agents, and micro-steps that each
bring the command nearer its end: without a rest in the schedule it responds, from a state its last micro-step has
established. -/
theorem drive_total {f : SeqRun → State → Micro} {I : SeqRun → State → Prop} {D : Resp → State → Prop}
    {μ : SeqRun → Nat}
    (hother : ∀ r s t, I r s → Between s t → I r t)
    (hstep : ∀ r s, I r s → (f r s).Advances I D μ (μ r) s.plan) :
    ∀ (n : Nat) (r : SeqRun) (s : State), I r s → s.NoRest → μ r < n →
      ∃ q t, drive f n r s = .next (t.respond q) ∧ D q t
  | 0, _, _, _, _, h => absurd h (Nat.not_lt_zero _)
  | n + 1, r, s, hI, hn, hμ => by
    obtain ⟨p, q, hp, hq, -⟩ := seqTurn_of_noRest hn
    have hb := (others_between p s).withPlan q
    have hs := hstep r _ (hother r s _ hI hb)
    cases hf : f r { s.others p with plan := q } with
    | goto r' s' =>
      rw [hf] at hs
      obtain ⟨h1, h2, h3⟩ := hs
      rw [drive_seqTurn_goto hp hf]
      exact drive_total hother hstep n r' s' h1 (by rw [State.NoRest, h3]; exact hq) (by omega)
    | done a s' =>
      rw [hf] at hs
      exact ⟨a, s', drive_seqTurn_done hp hf, hs⟩
    | spin r' s' =>
      rw [hf] at hs
      exact hs.elim
    | stop x =>
      rw [hf] at hs
      exact hs.elim
    | fault x =>
      rw [hf] at hs
      exact hs.elim

/-! ## A quiet schedule -/

theorem State.Quiet.noRest {s : State} (h : s.Quiet) : s.NoRest := fun hr => by simpa using h _ hr

/-- Under a quiet schedule SEQ's turn comes at once: nobody else moves before it, and the schedule stays quiet. -/
theorem State.Quiet.runTurns {s : State} (h : s.Quiet) (t : State) :
    ∃ q, runTurns s.plan t = .go { t with plan := q } ∧ (∀ x ∈ q, x = Turn.seq) := by
  unfold State.Quiet at h
  revert h
  cases s.plan with
  | nil => exact fun _ => ⟨[], rfl, by simp⟩
  | cons x p =>
    intro h
    obtain rfl := h x (by simp)
    exact ⟨p, rfl, fun y hy => h y (by simp [hy])⟩

theorem State.sameMachine.refl (s : State) : s.sameMachine s := rfl

/-- What `sameMachine` says, field by field. -/
theorem State.sameMachine_iff (t e : State) :
    t.sameMachine e ↔ t.glb = e.glb ∧ t.chans = e.chans ∧ t.seq = e.seq ∧ t.fltContract = e.fltContract ∧
      t.fltIllegal = e.fltIllegal ∧ t.irqh = e.irqh ∧ t.sw = e.sw ∧ t.cmdIn = e.cmdIn ∧ t.cmdOut = e.cmdOut ∧
      t.allocs = e.allocs := by
  cases t
  cases e
  simp [State.sameMachine]

end Sys2Proof.Machine
end

