-- ==== Sys2Proof/Machine/Asm.lean ====
section
/-! DEFINITION. The assembler of 30_encoding.md R112 and the spelling of the pseudo-instructions of R113: one line of
text to a command. It adds no behaviour to the core (92_eei_decisions.md D32). What a malformed line is, the spec does
not say: it assembles to nothing (notes/assumptions/32.md). -/

namespace Sys2Proof.Machine

open Sys2Proof.Config

/-- The name of a field (R108). -/
def fieldName : Fld → String
  | .ctlAll => "CTL_ALL" | .ctlEn => "CTL_EN" | .ctlSrst => "CTL_SRST"
  | .chselSel => "CHSEL_SEL" | .chselSelen => "CHSEL_SELEN" | .chselLAll => "CHSEL_L_ALL"
  | .chselHAll => "CHSEL_H_ALL" | .statAll => "STAT_ALL" | .statDone => "STAT_DONE"
  | .maskAll => "MASK_ALL" | .maskChm => "MASK_CHM" | .maskGie => "MASK_GIE"
  | .bindAll => "BIND_ALL" | .bindBound => "BIND_BOUND" | .capAll => "CAP_ALL"
  | .addrUp => "ADDR_UP" | .addrLo => "ADDR_LO" | .devAddr => "DEV_ADDR" | .xferSize => "XFER_SIZE"
  | .curUp => "CUR_UP" | .curLo => "CUR_LO"
  | .chctlAll => "CHCTL_ALL" | .chctlEn => "CHCTL_EN" | .chctlSrst => "CHCTL_SRST" | .chctlDir => "CHCTL_DIR"
  | .chstsAll => "CHSTS_ALL" | .chstsEmpty => "CHSTS_EMPTY" | .chstsFull => "CHSTS_FULL"
  | .tmoAll => "TMO_ALL" | .tmoThresh => "TMO_THRESH" | .tmoEn => "TMO_EN"

/-- What a line of a program says. `WAITC` is the HOST's loop (R113). -/
inductive Line where
  | blank
  | cmd (i : Instr)
  | pseudo (p : Pseudo)
  | waitc (idx : BitVec 8) (n : Nat)
  deriving DecidableEq, Repr

/-! ## Characters -/

/-- The pieces of a line between separators that stand outside a string. -/
def splitOutside (sep : Char) : Bool → List Char → List (List Char)
  | _, [] => [[]]
  | q, c :: cs =>
    if c == sep && !q then [] :: splitOutside sep q cs
    else
      match splitOutside sep (if c == '"' then !q else q) cs with
      | [] => [[c]]
      | piece :: pieces => (c :: piece) :: pieces

/-- Blanks taken away on both sides. -/
def trimBlanks (cs : List Char) : List Char :=
  ((cs.dropWhile Char.isWhitespace).reverse.dropWhile Char.isWhitespace).reverse

/-- A digit in a base of at most 16. -/
def digitOf (base : Nat) (c : Char) : Option Nat :=
  let d := if '0' ≤ c ∧ c ≤ '9' then some (c.toNat - 48)
    else if 'a' ≤ c ∧ c ≤ 'f' then some (c.toNat - 87)
    else if 'A' ≤ c ∧ c ≤ 'F' then some (c.toNat - 55)
    else none
  d.filter (· < base)

/-- Digits read from the left. -/
def digits (base : Nat) : Nat → List Char → Option Nat
  | acc, [] => some acc
  | acc, c :: cs => (digitOf base c).bind fun d => digits base (base * acc + d) cs

/-- A number, decimal or `0x` hexadecimal (R112). -/
def number : List Char → Option Nat
  | [] => none
  | '0' :: 'x' :: c :: cs => digits 16 0 (c :: cs)
  | cs => digits 10 0 cs

/-- A number that fits `w` bits. -/
def numberW (w : Nat) (cs : List Char) : Option (BitVec w) :=
  (number cs).bind fun n => if n < 2 ^ w then some (BitVec.ofNat w n) else none

/-- `0` or `1`. -/
def flagOf (cs : List Char) : Option Bool := (numberW 1 cs).map (· == 1#1)

/-- The bytes of a string with the escapes of R112, in ASCII. -/
def unescape : List Char → Option (List Byte)
  | [] => some []
  | '\\' :: 'r' :: cs => (unescape cs).map (0x0D#8 :: ·)
  | '\\' :: 'n' :: cs => (unescape cs).map (0x0A#8 :: ·)
  | '\\' :: '\\' :: cs => (unescape cs).map (0x5C#8 :: ·)
  | '\\' :: _ => none
  | c :: cs => if c == '"' || 128 ≤ c.toNat then none else (unescape cs).map (BitVec.ofNat 8 c.toNat :: ·)

/-! ## Operands -/

/-- A field by its name. -/
def fieldOf (cs : List Char) : Option Fld := Fld.all.find? fun f => (fieldName f).toList == cs

/-- `<field>[, <ch>]`: the channel is written for a channel's field and omitted for a global one (R112). The rest of
the operands is left. -/
def fieldOperands : List (List Char) → Option (Fld × BitVec 8 × List (List Char))
  | [] => none
  | f :: ops =>
    (fieldOf f).bind fun f =>
      if f.isCh then
        match ops with
        | [] => none
        | ch :: rest => (numberW 8 ch).map fun idx => (f, idx, rest)
      else some (f, 0, ops)

/-- The bytes of BUF_WR: numbers, or one string (R112). -/
def byteOperands : List (List Char) → Option (List Byte)
  | [] => some []
  | ['"' :: cs] => if cs.getLast? = some '"' then unescape cs.dropLast else none
  | op :: ops => (numberW 8 op).bind fun b => (byteOperands ops).map (b :: ·)

/-- One keyword operand `key=value`. -/
def keyword (op : List Char) : Option (List Char × List Char) :=
  match splitOutside '=' false op with
  | [k, v] => some (trimBlanks k, trimBlanks v)
  | _ => none

/-- The keywords of NEW_CHANNEL (R112). -/
def keywords : List (List Char) := ["slave", "dir", "size", "dev", "tmo", "irq"].map String.toList

/-- `dir=M2D` or `dir=D2M` (R112). -/
def dirOf (cs : List Char) : Option Bool :=
  if cs = "M2D".toList then some dirM2D else if cs = "D2M".toList then some dirD2M else none

/-- The keyword operands in any order: four required, `tmo` and `irq` 0 when omitted (R112). -/
def newChannelOperands (idx : BitVec 8) (ops : List (List Char)) : Option Instr := do
  let kvs ← ops.mapM keyword
  let keys := kvs.map Prod.fst
  if keys.Nodup ∧ ∀ k ∈ keys, k ∈ keywords then
    let get := fun (k : String) => kvs.lookup k.toList
    let slave ← (get "slave").bind (numberW 8)
    let dir ← (get "dir").bind dirOf
    let size ← (get "size").bind (numberW 32)
    let dev ← (get "dev").bind (numberW 32)
    let tmo ← numberW 30 ((get "tmo").getD ['0'])
    let irq ← flagOf ((get "irq").getD ['0'])
    some (.newChannel idx slave dir irq size dev tmo)
  else none

/-! ## Lines -/

/-- A line of one channel operand. -/
def chanLine (k : BitVec 8 → Line) : List (List Char) → Option Line
  | [ch] => (numberW 8 ch).map k
  | _ => none

/-- A mnemonic (R104, R113) with the operands it takes. -/
def mnemonicLine (m : List Char) (ops : List (List Char)) : Option Line :=
  if m = "FLD_RD".toList then
    (fieldOperands ops).bind fun (f, idx, rest) => if rest = [] then some (.cmd (.fldRd f idx)) else none
  else if m = "FLD_WR".toList then
    (fieldOperands ops).bind fun (f, idx, rest) =>
      match rest with
      | [v] => (numberW 32 v).map fun v => .cmd (.fldWr f idx v)
      | _ => none
  else if m = "FLD_MOD".toList then
    (fieldOperands ops).bind fun (f, idx, rest) =>
      match rest with
      | [v] => (numberW 32 v).map fun v => .cmd (.fldMod f idx v)
      | _ => none
  else if m = "CTRL_RESET".toList ∧ ops = [] then some (.cmd .ctrlReset)
  else if m = "CTRL_ENABLE".toList ∧ ops = [] then some (.cmd .ctrlEnable)
  else if m = "CTRL_DISABLE".toList ∧ ops = [] then some (.cmd .ctrlDisable)
  else if m = "NEW_CHANNEL".toList then
    match ops with
    | ch :: rest => (numberW 8 ch).bind fun idx => (newChannelOperands idx rest).map .cmd
    | [] => none
  else if m = "IS_COMPLETE".toList then chanLine (fun idx => .cmd (.isComplete idx)) ops
  else if m = "CLR_COMPLETE".toList then chanLine (fun idx => .cmd (.clrComplete idx)) ops
  else if m = "SET_MASK".toList then
    match ops with
    | [ch, b] => (numberW 8 ch).bind fun idx => (flagOf b).map fun b => .cmd (.setMask idx b)
    | _ => none
  else if m = "CH_ACTIVATE".toList then chanLine (fun idx => .cmd (.chActivate idx)) ops
  else if m = "CH_DEACTIVATE".toList then chanLine (fun idx => .cmd (.chDeactivate idx)) ops
  else if m = "CH_IS_RUNNING".toList then chanLine (fun idx => .cmd (.chIsRunning idx)) ops
  else if m = "BUF_WR".toList then
    match ops with
    | ch :: off :: rest =>
        (numberW 8 ch).bind fun idx => (numberW 32 off).bind fun off => (byteOperands rest).bind fun data =>
          if dataLenOk data then some (.cmd (.bufWr idx off data)) else none
    | _ => none
  else if m = "BUF_RD".toList then
    match ops with
    | [ch, off, n] =>
        (numberW 8 ch).bind fun idx => (numberW 32 off).bind fun off => (numberW 16 n).map fun n =>
          .cmd (.bufRd idx off n)
    | _ => none
  else if m = "HANDLE_IRQ".toList ∧ ops = [] then some (.cmd .handleIrq)
  else if m = "MASK".toList then chanLine (fun idx => .pseudo (.mask idx)) ops
  else if m = "UNMASK".toList then chanLine (fun idx => .pseudo (.unmask idx)) ops
  else if m = "GIE_ON".toList ∧ ops = [] then some (.pseudo .gieOn)
  else if m = "GIE_OFF".toList ∧ ops = [] then some (.pseudo .gieOff)
  else if m = "WAITC".toList then
    match ops with
    | [ch, n] => (numberW 8 ch).bind fun idx => (number n).map fun n => .waitc idx n
    | _ => none
  else if m = "DEBUG_STATUS".toList ∧ ops = [] then some (.pseudo .debugStatus)
  else none

/-- One line of a program (R112): the comment taken away, the mnemonic, the operands between commas. -/
def assembleChars (line : List Char) : Option Line :=
  let text := trimBlanks ((splitOutside ';' false line).headD [])
  match text with
  | [] => some .blank
  | _ :: _ =>
    let m := text.takeWhile fun c => !c.isWhitespace
    let rest := trimBlanks (text.drop m.length)
    mnemonicLine m (if rest = [] then [] else (splitOutside ',' false rest).map trimBlanks)

/-- One line of a program as text (R112). -/
def assembleLine (line : String) : Option Line := assembleChars line.toList

end Sys2Proof.Machine
end

