-- ==== Sys2Proof/Machine/Host.lean ====
section
/-! DEFINITION. The HOST's own sequences, which add no behaviour to the core (30_encoding.md R113, 70_reset_and_hazards.md
R295): sending a command and waiting for its response, sending a list of commands, the loop WAITC, the interrupt
dispatcher (60_exceptions.md R263), the boot sequence. notes/assumptions/34.md. -/

namespace Sys2Proof.Machine

open Sys2Proof.Config

/-- How a sequence of the HOST ends. -/
inductive HostEnd where
  /-- every command responded as the sequence wants -/
  | done (s : State)
  /-- the HOST went no further: no response, or another one than the sequence wants, or a count ran out -/
  | gaveUp (s : State)
  /-- a step faulted -/
  | fault (x : Fault)
  /-- a step was refused -/
  | refused (x : Refusal)
  deriving DecidableEq, Repr

/-- What follows a step, unless it stopped. -/
def HostEnd.after (o : Out) (k : State → HostEnd) : HostEnd :=
  match o with
  | .next t => k t
  | .fault x => .fault x
  | .refused x => .refused x

/-- What follows a sequence that came to its end. -/
def HostEnd.andThen (e : HostEnd) (k : State → HostEnd) : HostEnd :=
  match e with
  | .done t => k t
  | .gaveUp t => .gaveUp t
  | .fault x => .fault x
  | .refused x => .refused x

/-! ## One command -/

/-- SEQ is IDLE and no packet waits on the command port. -/
def State.portFree (s : State) : Bool := s.seq == .idle && s.cmdIn.isEmpty

/-- Agent IRQH_k is IDLE and no packet waits on service port `k`. -/
def State.servicePortFree (s : State) (k : Nat) : Bool :=
  match s.irqh[k]? with
  | some p => p.run == .idle && p.inbox.isEmpty
  | none => false

/-- The HOST waits at most `n` steps for `p`. -/
def waitFor (p : State → Bool) : Nat → State → Out
  | 0, s => .next s
  | n + 1, s =>
    if p s then .next s
    else
      match step s with
      | .next t => waitFor p n t
      | .fault x => .fault x
      | .refused x => .refused x

/-- How many steps the HOST waits: enough for every command but a spin that nobody ends, since a step that leaves SEQ
BUSY elsewhere has used up a rest of the schedule; and for HANDLE_IRQ on a service port, since each step uses up a
packet or a turn of the schedule and without turns its agent does not move. -/
def patience (s : State) : Nat := s.plan.length + s.cmdIn.length + 1

/-- A command sent on the free command port, and what the HOST does with its response, the first packet that appears
there (R23, R110). The HOST sends nothing while the port is not free, and gives up on a command that does not respond. -/
def send (i : Instr) (s : State) (k : Packet → State → HostEnd) : HostEnd :=
  if s.portFree then
    let s' := { s with cmdIn := [encode i] }
    .after (waitFor State.portFree (patience s') s') fun t =>
      match t.cmdOut[s.cmdOut.length]? with
      | some q => k q t
      | none => .gaveUp t
  else .gaveUp s

/-! ## Sequences -/

/-- The response code is OK (R110). -/
def isOk (q : Packet) : Bool := q.head? == some 0#32

/-- Commands sent one after the other, each when the one before has responded OK. -/
def sendAll : List Instr → State → HostEnd
  | [], s => .done s
  | i :: is, s => send i s fun q t => if isOk q then sendAll is t else .gaveUp t

/-- `WAITC ch, n`: IS_COMPLETE up to `n` times, stopping at the first response whose value is 1 (R113). -/
def waitc (idx : BitVec 8) : Nat → State → HostEnd
  | 0, s => .gaveUp s
  | n + 1, s =>
    send (.isComplete idx) s fun q t => if q = (Resp.ok [1]).packet then .done t else waitc idx n t

/-- A line of a program run (R112, R113). -/
def sendLine : Line → State → HostEnd
  | .blank, s => .done s
  | .cmd i, s => sendAll [i] s
  | .pseudo p, s => sendAll p.expand s
  | .waitc idx n, s => waitc idx n s

/-! ## The interrupt dispatcher (R263, R264) -/

/-- HANDLE_IRQ sent on service port `k`. -/
def State.dispatch (s : State) (k : Nat) : State :=
  match s.irqh[k]? with
  | some p => s.setPort k { p with inbox := p.inbox ++ [encode .handleIrq] }
  | none => s

/-- The responses sent on service port `k`, oldest first. -/
def State.served (s : State) (k : Nat) : List Packet :=
  match s.irqh[k]? with
  | some p => p.outbox
  | none => []

/-- HANDLE_IRQ sent on the free service port `k`, and what the dispatcher does with its response, the first packet that
appears there (R105, R110). It sends nothing on a port that is not free or does not exist, and gives up on a command that
does not respond. -/
def sendIrq (k : Nat) (s : State) (h : Packet → State → HostEnd) : HostEnd :=
  if s.servicePortFree k then
    let s' := s.dispatch k
    .after (waitFor (fun t => t.servicePortFree k) (patience s') s') fun t =>
      match (t.served k)[(s.served k).length]? with
      | some q => h q t
      | none => .gaveUp t
  else .gaveUp s

/-- The response is an OK whose bitmap reports channel `i` (R111). -/
def reports (i : Fin 8) (q : Packet) : Bool :=
  match q with
  | [rc, bitmap] => rc == 0#32 && bitmap.getLsbD i
  | _ => false

/-- The dispatcher looks at the line at most `n` times, a step of the machine passing when it is low. Where it is high
it sends HANDLE_IRQ on port `k` and waits for the response; it ends when a bitmap reports channel `i`, and otherwise
goes on, the line being a level (R264). -/
def awaitIrq (i : Fin 8) (k : Nat) : Nat → State → HostEnd
  | 0, s => .gaveUp s
  | n + 1, s =>
    if s.irqOut then sendIrq k s fun q t => if reports i q then .done t else awaitIrq i k n t
    else .after (step s) (awaitIrq i k n)

/-! ## The boot sequence (R295). Step 1, the mapping, is a premise (R296). -/

/-- The operands of the boot sequence: the channel, its ChannelConfig record (R107), the payload. -/
structure Boot where
  idx : BitVec 8
  slave : BitVec 8
  dir : Bool
  irq : Bool
  size : Word
  dev : Word
  tmo : BitVec 30
  payload : List Byte
  deriving DecidableEq, Repr

/-- Steps 2 to 4: reset, create, fill the buffer of a memory-to-device channel. -/
def Boot.create (b : Boot) : List Instr :=
  [.ctrlReset, .newChannel b.idx b.slave b.dir b.irq b.size b.dev b.tmo] ++
    if b.dir == dirM2D then [.bufWr b.idx 0 b.payload] else []

/-- Steps 5 to 7: clear before activate (R303), activate, enable. -/
def Boot.launch (b : Boot) : List Instr := [.clrComplete b.idx, .chActivate b.idx, .ctrlEnable]

/-- The polling path, steps 2 to 9: at most `n` polls, then the flag is cleared. -/
def Boot.polled (b : Boot) (n : Nat) (s : State) : HostEnd :=
  ((sendAll (b.create ++ b.launch) s).andThen (waitc b.idx n)).andThen (sendAll [.clrComplete b.idx])

/-- The interrupt path, steps 2 to 8: GIE is turned on before the launch (R313), the dispatcher looks at the line at
most `n` times, and the path ends when HANDLE_IRQ on port `k` has responded with the channel's bit. There is no step 9:
HANDLE_IRQ has already cleared the flag. -/
def Boot.handled (b : Boot) (k n : Nat) (s : State) : HostEnd :=
  (sendAll (b.create ++ Pseudo.gieOn.expand ++ b.launch) s).andThen fun t =>
    match chanIdx? b.idx with
    | some i => awaitIrq i k n t
    | none => .gaveUp t

end Sys2Proof.Machine
end

