-- ==== Sys2Proof/Laws/Host.lean ====
section
/-! SUPPORT. What the HOST's sequences can do, said once (30_encoding.md R113, 70_reset_and_hazards.md R295): every
response they look at is one that appeared after the command was sent. -/

namespace Sys2Proof.Machine

open Sys2Proof.Config

@[simp] theorem HostEnd.andThen_done (s : State) (k : State → HostEnd) : (HostEnd.done s).andThen k = k s := rfl
@[simp] theorem HostEnd.after_next (s : State) (k : State → HostEnd) : HostEnd.after (.next s) k = k s := rfl

theorem HostEnd.after_eq_done {o : Out} {k : State → HostEnd} {u : State} (h : HostEnd.after o k = .done u) :
    ∃ t, o = .next t ∧ k t = .done u := by
  cases o with
  | next t => exact ⟨t, rfl, h⟩
  | fault x => cases h
  | refused x => cases h

/-- A send that comes to its end found the port free, and the response it looks at is the first that appeared on the
port after the command was placed there. -/
theorem send_done {i : Instr} {s u : State} {k : Packet → State → HostEnd} (h : send i s k = .done u) :
    s.portFree = true ∧ ∃ t q, waitFor State.portFree (patience { s with cmdIn := [encode i] }) { s with cmdIn := [encode i] } = .next t ∧
      t.cmdOut[s.cmdOut.length]? = some q ∧ k q t = .done u := by
  unfold send at h
  split at h
  · rename_i hp
    obtain ⟨t, ht, hk⟩ := HostEnd.after_eq_done h
    split at hk
    · rename_i q hq
      exact ⟨hp, t, q, ht, hq, hk⟩
    · cases hk
  · cases h

/-- A sequence of commands that comes to its end got OK for each of them. -/
theorem sendAll_cons_done {i : Instr} {is : List Instr} {s u : State} (h : sendAll (i :: is) s = .done u) :
    ∃ t q, t.cmdOut[s.cmdOut.length]? = some q ∧ isOk q = true ∧ sendAll is t = .done u := by
  obtain ⟨-, t, q, -, hq, hk⟩ := send_done h
  split at hk
  · rename_i ho
    exact ⟨t, q, hq, ho, hk⟩
  · cases hk

/-- WAITC comes to its end only on a response OK(1) to an IS_COMPLETE of its own, and it sends at most `n` of them. -/
theorem waitc_done {idx : BitVec 8} {u : State} :
    ∀ {n : Nat} {s : State}, waitc idx n s = .done u →
      ∃ v : State, v.portFree = true ∧ u.cmdOut[v.cmdOut.length]? = some [0#32, 1#32] ∧
        waitFor State.portFree (patience { v with cmdIn := [encode (.isComplete idx)] })
          { v with cmdIn := [encode (.isComplete idx)] } = .next u
  | 0, _, h => by cases h
  | n + 1, s, h => by
    obtain ⟨hp, t, q, ht, hq, hk⟩ := send_done h
    split at hk
    · rename_i e
      cases hk
      exact ⟨s, hp, by rw [hq, e]; rfl, ht⟩
    · exact waitc_done hk

/-- The service port did what was asked of it: the response looked at is one that appeared after HANDLE_IRQ was placed
on the free port `k`. -/
theorem sendIrq_done {k : Nat} {s u : State} {h : Packet → State → HostEnd} (e : sendIrq k s h = .done u) :
    s.servicePortFree k = true ∧ ∃ t q,
      waitFor (fun t => t.servicePortFree k) (patience (s.dispatch k)) (s.dispatch k) = .next t ∧
      (t.served k)[(s.served k).length]? = some q ∧ h q t = .done u := by
  unfold sendIrq at e
  split at e
  · rename_i hp
    obtain ⟨t, ht, hk⟩ := HostEnd.after_eq_done e
    split at hk
    · rename_i q hq
      exact ⟨hp, t, q, ht, hq, hk⟩
    · cases hk
  · cases e

/-- The dispatcher comes to its end only on a response to a HANDLE_IRQ of its own, sent while the line was high, whose
bitmap reports the channel. -/
theorem awaitIrq_done {i : Fin 8} {k : Nat} {u : State} :
    ∀ {n : Nat} {s : State}, awaitIrq i k n s = .done u →
      ∃ (v : State) (q : Packet), v.irqOut = true ∧ v.servicePortFree k = true ∧
        (u.served k)[(v.served k).length]? = some q ∧ reports i q = true
  | 0, _, h => by cases h
  | n + 1, s, h => by
    unfold awaitIrq at h
    split at h
    · rename_i hl
      obtain ⟨hp, t, q, -, hq, hk⟩ := sendIrq_done h
      split at hk
      · rename_i hr
        cases hk
        exact ⟨s, q, hl, hp, hq, hr⟩
      · exact awaitIrq_done hk
    · obtain ⟨t, -, ht⟩ := HostEnd.after_eq_done h
      exact awaitIrq_done ht

end Sys2Proof.Machine
end

