-- ==== Sys2Proof/Laws/Memory.lean ====
section
/-! SUPPORT. The laws of a buffer's bytes: what a read gives after a write (20_memory.md R86, R87), and that every
memory operation keeps the canonical form and the size bound. -/

namespace Sys2Proof.Machine

@[simp] theorem Memory.read_nil (a : Nat) : Memory.read [] a = Memory.unlisted := rfl

theorem Memory.above_mono {lo lo' : Nat} (h : lo ≤ lo') :
    ∀ {m : Memory}, Memory.above lo' m = true → Memory.above lo m = true
  | [], _ => rfl
  | c :: m, hm => by
    simp only [Memory.above, Bool.and_eq_true, decide_eq_true_eq] at hm ⊢
    exact ⟨h.trans hm.1, Memory.above_mono h hm.2⟩

/-- Below every listed offset a read gives the unlisted byte. -/
theorem Memory.read_of_above {lo a : Nat} (h : a < lo) :
    ∀ {m : Memory}, Memory.above lo m = true → Memory.read m a = Memory.unlisted
  | [], _ => rfl
  | c :: m, hm => by
    simp only [Memory.above, Bool.and_eq_true, decide_eq_true_eq] at hm
    have hne : c.1 ≠ a := by omega
    simp [Memory.read, hne, Memory.read_of_above h hm.2]

theorem Memory.read_put (a x : Nat) (b : Byte) (m : Memory) (h : Memory.above (a + 1) m = true) :
    Memory.read (Memory.put a b m) x = if x = a then b else Memory.read m x := by
  unfold Memory.put
  split
  · rename_i hb
    split
    · rename_i hx
      subst hx
      rw [Memory.read_of_above (Nat.lt_succ_self x) h, hb]
    · rfl
  · simp only [Memory.read, eq_comm]

/-- Read after write: the written byte at its offset, every other byte as before. -/
theorem Memory.read_write (a x : Nat) (b : Byte) :
    ∀ (m : Memory), Memory.wf m = true →
      Memory.read (Memory.write m a b) x = if x = a then b else Memory.read m x
  | [], _ => by simpa [Memory.write] using Memory.read_put a x b [] rfl
  | c :: m, hm => by
    simp only [Memory.wf, Bool.and_eq_true, decide_eq_true_eq] at hm
    obtain ⟨⟨hc, ha⟩, hw⟩ := hm
    unfold Memory.write
    split
    · rename_i hlt
      refine Memory.read_put a x b (c :: m) ?_
      simp only [Memory.above, Bool.and_eq_true, decide_eq_true_eq]
      exact ⟨hlt, Memory.above_mono (by omega) ha⟩
    · split
      · rename_i hnlt heq
        subst heq
        rw [Memory.read_put c.1 x b m ha]
        by_cases hx : x = c.1
        · simp [hx]
        · simp [Memory.read, hx, Ne.symm hx]
      · rename_i hnlt hne
        have ih := Memory.read_write a x b m hw
        by_cases hx : c.1 = x
        · subst hx
          simp [Memory.read, hne]
        · simp [Memory.read, hx, ih]

theorem Memory.above_put {lo a : Nat} (b : Byte) {m : Memory} (h : lo ≤ a) (hm : Memory.above lo m = true) :
    Memory.above lo (Memory.put a b m) = true := by
  unfold Memory.put
  split
  · exact hm
  · simp [Memory.above, h, hm]

theorem Memory.above_write {lo a : Nat} (b : Byte) (h : lo ≤ a) :
    ∀ {m : Memory}, Memory.above lo m = true → Memory.above lo (Memory.write m a b) = true
  | [], _ => Memory.above_put b h rfl
  | c :: m, hm => by
    have hm' := hm
    simp only [Memory.above, Bool.and_eq_true, decide_eq_true_eq] at hm'
    unfold Memory.write
    split
    · exact Memory.above_put b h hm
    · split
      · exact Memory.above_put b h hm'.2
      · simp only [Memory.above, Bool.and_eq_true, decide_eq_true_eq]
        exact ⟨hm'.1, Memory.above_write b h hm'.2⟩

theorem Memory.wf_put {a : Nat} (b : Byte) {m : Memory} (h : Memory.above (a + 1) m = true)
    (hm : Memory.wf m = true) : Memory.wf (Memory.put a b m) = true := by
  unfold Memory.put
  split
  · exact hm
  · rename_i hb
    simp [Memory.wf, hb, h, hm]

/-- A write keeps the canonical form. -/
theorem Memory.wf_write (a : Nat) (b : Byte) :
    ∀ {m : Memory}, Memory.wf m = true → Memory.wf (Memory.write m a b) = true
  | [], _ => Memory.wf_put b rfl rfl
  | c :: m, hm => by
    have hm' := hm
    simp only [Memory.wf, Bool.and_eq_true, decide_eq_true_eq] at hm'
    obtain ⟨⟨hc, ha⟩, hw⟩ := hm'
    unfold Memory.write
    split
    · rename_i hlt
      refine Memory.wf_put b ?_ hm
      simp only [Memory.above, Bool.and_eq_true, decide_eq_true_eq]
      exact ⟨hlt, Memory.above_mono (by omega) ha⟩
    · split
      · rename_i heq
        subst heq
        exact Memory.wf_put b ha hw
      · rename_i hnlt hne
        simp only [Memory.wf, Bool.and_eq_true, decide_eq_true_eq]
        exact ⟨⟨hc, Memory.above_write b (by omega) ha⟩, Memory.wf_write a b hw⟩

theorem Memory.within_put {size a : Nat} (b : Byte) {m : Memory} (h : a < size)
    (hm : Memory.within size m = true) : Memory.within size (Memory.put a b m) = true := by
  unfold Memory.put
  split
  · exact hm
  · simp [Memory.within, h, hm]

/-- A write inside the buffer keeps every listed offset inside it. -/
theorem Memory.within_write {size a : Nat} (b : Byte) (h : a < size) :
    ∀ {m : Memory}, Memory.within size m = true → Memory.within size (Memory.write m a b) = true
  | [], _ => Memory.within_put b h rfl
  | c :: m, hm => by
    have hm' := hm
    simp only [Memory.within, Bool.and_eq_true, decide_eq_true_eq] at hm'
    unfold Memory.write
    split
    · exact Memory.within_put b h hm
    · split
      · exact Memory.within_put b h hm'.2
      · simp only [Memory.within, Bool.and_eq_true, decide_eq_true_eq]
        exact ⟨hm'.1, Memory.within_write b h hm'.2⟩

/-- Writing what an unlisted byte reads as at an offset that is not listed changes nothing. -/
theorem Memory.write_unlisted_nil (a : Nat) : Memory.write [] a Memory.unlisted = [] := by
  simp [Memory.write, Memory.put]

end Sys2Proof.Machine
end

