-- ==== Sys2Proof/Laws/Ops.lean ====
section
/-! SUPPORT. What each access of the register space can do (20_memory.md R76 to R80), said once: a read returns the
register's value and changes nothing but the free-value counter and the access log; a write of each register by name. -/

namespace Sys2Proof.Machine

open Sys2Proof.Config

/-! ## Reads -/

/-- A read of a register of the region. -/
theorem rd32_of_regAt {off : Nat} {g : Reg} (h : regAt off = some g) (ag : Agent) (s : State) :
    rd32 ag off s = .ok (s.readVal g, (s.tick g.readDraws).log (.rd ag off (s.readVal g))) := by
  simp [rd32, h]

/-- The state after a read that takes no free value. -/
@[simp] theorem State.tick_zero (s : State) : s.tick 0 = s := rfl

/-- Everything a read can do. -/
theorem rd32_cases {ag : Agent} {off : Nat} {s t : State} {v : Word} (h : rd32 ag off s = .ok (v, t)) :
    ∃ g, regAt off = some g ∧ v = s.readVal g ∧ t = (s.tick g.readDraws).log (.rd ag off v) := by
  unfold rd32 at h
  cases hr : regAt off with
  | none => simp [hr] at h
  | some g =>
    simp only [hr, Except.ok.injEq, Prod.mk.injEq] at h
    exact ⟨g, rfl, h.1.symm, by rw [← h.2, h.1]⟩

/-- A read of SEQ inside a micro-step. -/
theorem rdThen_of_regAt {off : Nat} {g : Reg} (h : regAt off = some g) (s : State) (k : Word → State → Micro) :
    rdThen off s k = k (s.readVal g) ((s.tick g.readDraws).log (.rd .seq off (s.readVal g))) := by
  simp [rdThen, rd32_of_regAt h]

/-! ## Writes -/

/-- A write of a register of the region. -/
theorem wr32_of_regAt {off : Nat} {g : Reg} (h : regAt off = some g) (ag : Agent) (v : Word) (s : State) :
    wr32 ag off v s = (s.writeReg v g).map fun t => t.log (.wr ag off v) := by
  simp [wr32, h]

/-- A write that has a meaning, inside a micro-step. -/
theorem wrThen_of_ok {off : Nat} {v : Word} {g : Reg} {s t : State} (h : regAt off = some g)
    (hw : s.writeReg v g = .ok t) (k : State → Micro) :
    wrThen off v s k = k (t.log (.wr .seq off v)) := by
  simp [wrThen, wr32_of_regAt h, hw, Except.map]

/-- A write that has no meaning, inside a micro-step. -/
theorem wrThen_of_error {off : Nat} {v : Word} {g : Reg} {s : State} {x : Refusal} (h : regAt off = some g)
    (hw : s.writeReg v g = .error x) (k : State → Micro) : wrThen off v s k = .stop x := by
  simp [wrThen, wr32_of_regAt h, hw, Except.map]

/-- Everything a write can do. -/
theorem wr32_cases {ag : Agent} {off : Nat} {v : Word} {s t : State} (h : wr32 ag off v s = .ok t) :
    ∃ g t', regAt off = some g ∧ s.writeReg v g = .ok t' ∧ t = t'.log (.wr ag off v) := by
  unfold wr32 at h
  cases hr : regAt off with
  | none => simp [hr] at h
  | some g =>
    cases hw : s.writeReg v g with
    | error x => simp [hr, hw, Except.map] at h
    | ok t' =>
      simp only [hr, hw, Except.map, Except.ok.injEq] at h
      exact ⟨g, t', rfl, hw, h.symm⟩

@[simp] theorem writeReg_chselL (s : State) (v : Word) :
    s.writeReg v .chselL = .ok { s with glb := { s.glb with chselL := v } } := rfl
@[simp] theorem writeReg_chselH (s : State) (v : Word) :
    s.writeReg v .chselH = .ok { s with glb := { s.glb with chselH := v } } := rfl
@[simp] theorem writeReg_dmaStat (s : State) (v : Word) :
    s.writeReg v .dmaStat = .ok { s with glb := s.glb.writeStat v } := rfl
@[simp] theorem writeReg_dmaMask (s : State) (v : Word) :
    s.writeReg v .dmaMask = .ok { s with glb := s.glb.writeMask v } := rfl
@[simp] theorem writeReg_dmaBind (s : State) (v : Word) : s.writeReg v .dmaBind = .ok (s.writeBind v) := rfl
@[simp] theorem writeReg_dmaCap (s : State) (v : Word) : s.writeReg v .dmaCap = .ok s := rfl
@[simp] theorem writeReg_reserved (s : State) (v : Word) : s.writeReg v .reserved = .ok s := rfl
@[simp] theorem writeReg_chan (s : State) (v : Word) (i : Fin 8) (r : ChReg) :
    s.writeReg v (.chan i r) = s.writeChReg i v r := rfl

/-- A write of DMA_CTL that has a meaning (R78). -/
theorem writeReg_dmaCtl_ok {s : State} {v : Word} (h : s.glb.ctlEvent v = false ∨ s.glb.quiesced v = true) :
    s.writeReg v .dmaCtl = .ok { s with glb := { s.glb with en := v.getLsbD 0, srst := v.getLsbD 1 } } := by
  rcases h with h | h <;> simp [State.writeReg, Globals.writeCtl, h, Except.map]

/-- A write of DMA_CTL that has none (R78, U3). -/
theorem writeReg_dmaCtl_error {s : State} {v : Word} (h1 : s.glb.ctlEvent v = true)
    (h2 : s.glb.quiesced v = false) : s.writeReg v .dmaCtl = .error .ctlResetUnspecified := by
  simp [State.writeReg, Globals.writeCtl, h1, h2, Except.map]

/-- A write of CH_CTL that has a meaning (R79). -/
theorem writeChReg_ctl_ok {s : State} {i : Fin 8} {v : Word} (h : (s.chan i).ctlUnspecified v = false) :
    s.writeChReg i v .ctl =
      .ok ((s.setChan i ((s.chan i).ctlAfter v s.draws)).tick ((s.chan i).ctlDraws v)) := by
  simp [State.writeChReg, h]

/-- A write of CH_CTL that has none (R79, U2). -/
theorem writeChReg_ctl_error {s : State} {i : Fin 8} {v : Word} (h : (s.chan i).ctlUnspecified v = true) :
    s.writeChReg i v .ctl = .error .chCtlUnspecified := by
  simp [State.writeChReg, h]

/-! ## The allocator port -/

/-- A request with an answer ready (R84). -/
theorem allocReq_ready {s : State} {a : Option BusAddr} {rest : List (Option BusAddr)} (h : s.allocs = a :: rest)
    (size : Word) (dir : Bool) :
    allocReq size dir s =
      (a, ({ s with allocs := rest, draws := s.draws + 1 } : State).log (.alloc size bufAlign dir a)) := by
  simp [allocReq, State.allocAnswer, h]

/-! ## Buffer bytes -/

/-- A byte read inside the buffer (R86). -/
theorem memRead_ok {i : Fin 8} {o : Nat} {s : State} {d : Desc} (hd : s.desc i = some d)
    (ho : o < d.size.toNat) :
    memRead i o s =
      .ok (d.byteAt o (draw s.draws), (s.tick 1).log (.memRd i o (d.byteAt o (draw s.draws)))) := by
  simp [memRead, hd, ho]

/-- A byte written inside the buffer (R87). -/
theorem memWrite_ok {i : Fin 8} {o : Nat} {b : Byte} {s : State} {d : Desc} (hd : s.desc i = some d)
    (ho : o < d.size.toNat) :
    memWrite i o b s =
      .ok ((s.setChan i { s.chan i with desc := some { d with buf := d.buf.write o b } }).log (.memWr i o b)) := by
  simp [memWrite, hd, ho]

end Sys2Proof.Machine
end

