-- ==== Sys2Proof/Laws/Seq.lean ====
section
/-! SUPPORT. Whole commands of one or two micro-steps under a schedule: one read, one write, `MOD`
(40_register_model.md R141), with any moves of the other agents before and between (20_memory.md R82). -/

namespace Sys2Proof.Machine

open Sys2Proof.Config

/-! ## No register's value or write depends on the schedule -/

theorem readVal_withPlan (s : State) (p : List Turn) (g : Reg) :
    ({ s with plan := p } : State).readVal g = s.readVal g := by
  cases g <;> rfl

theorem writeReg_withPlan (s : State) (p : List Turn) (v : Word) (g : Reg) :
    ({ s with plan := p } : State).writeReg v g = (s.writeReg v g).map fun t => { t with plan := p } := by
  cases g with
  | dmaCtl =>
    simp only [State.writeReg]
    cases s.glb.writeCtl v <;> rfl
  | chan i r =>
    cases r with
    | ctl =>
      have hc : ({ s with plan := p } : State).chan i = s.chan i := rfl
      simp only [State.writeReg, State.writeChReg, hc]
      split <;> rfl
    | _ => rfl
  | _ => rfl

/-- A write has a meaning exactly where `writeDefined` says so. -/
theorem writeReg_of_defined {s : State} {v : Word} {g : Reg} (h : s.writeDefined v g = true) :
    ∃ t, s.writeReg v g = .ok t := by
  cases g with
  | dmaCtl =>
    simp only [State.writeDefined, Bool.not_eq_true', Bool.and_eq_false_iff, Bool.not_eq_false'] at h
    exact ⟨_, writeReg_dmaCtl_ok h⟩
  | chan i r =>
    cases r with
    | ctl =>
      simp only [State.writeDefined, Bool.not_eq_true'] at h
      exact ⟨_, writeChReg_ctl_ok h⟩
    | _ => exact ⟨_, rfl⟩
  | _ => exact ⟨_, rfl⟩

theorem writeReg_of_not_defined {s : State} {v : Word} {g : Reg} (h : s.writeDefined v g = false) :
    ∃ x, s.writeReg v g = .error x := by
  cases g with
  | dmaCtl =>
    simp only [State.writeDefined, Bool.not_eq_false', Bool.and_eq_true, Bool.not_eq_true'] at h
    exact ⟨_, writeReg_dmaCtl_error h.1 h.2⟩
  | chan i r =>
    cases r with
    | ctl =>
      simp only [State.writeDefined, Bool.not_eq_false'] at h
      exact ⟨_, writeChReg_ctl_error h⟩
    | _ => simp [State.writeDefined] at h
  | _ => simp [State.writeDefined] at h

/-! ## One access -/

section
variable {f : SeqRun → State → Micro} {n : Nat} {r : SeqRun} {s : State} {p q : List Turn} {off : Nat} {g : Reg}

/-- A command whose one micro-step is a read. -/
theorem drive_one_read {a : Word → Resp} (hp : s.seqAfter p q) (hg : regAt off = some g)
    (hf : ∀ s, f r s = rdThen off s fun t s => .done (a t) s) :
    drive f (n + 1) r s = .next
      ((({ s.others p with plan := q }.tick g.readDraws).log (.rd .seq off ((s.others p).readVal g))).respond
        (a ((s.others p).readVal g))) := by
  rw [drive_seqTurn_done hp (by rw [hf, rdThen_of_regAt hg]), readVal_withPlan]

/-- A command whose one micro-step is a write that has a meaning. -/
theorem drive_one_write {a : Resp} {v : Word} {t : State} (hp : s.seqAfter p q) (hg : regAt off = some g)
    (hf : ∀ s, f r s = wrThen off v s fun s => .done a s) (hw : (s.others p).writeReg v g = .ok t) :
    drive f (n + 1) r s = .next (({ t with plan := q }.log (.wr .seq off v)).respond a) := by
  rw [drive_seqTurn_done hp]
  rw [hf, wrThen_of_ok hg (t := { t with plan := q })]
  rw [writeReg_withPlan, hw]
  rfl

/-- A command whose one micro-step is a write that has none. -/
theorem drive_one_write_refused {a : Resp} {v : Word} {x : Refusal} (hp : s.seqAfter p q) (hg : regAt off = some g)
    (hf : ∀ s, f r s = wrThen off v s fun s => .done a s) (hw : (s.others p).writeReg v g = .error x) :
    drive f (n + 1) r s = .refused x := by
  rw [drive_seqTurn_stop hp]
  rw [hf, wrThen_of_error hg (x := x)]
  rw [writeReg_withPlan, hw]
  rfl

end

/-! ## A read, then a write that may use what was read -/

section
variable {f : SeqRun → State → Micro} {n : Nat} {r : SeqRun} {s : State} {p₁ p₂ q : List Turn} {off : Nat} {g : Reg}
  {next : Label} {w : Word → Word} {a : Word → Resp}

/-- The state in which the second micro-step acts. -/
theorem readThen_others (s : State) (p₁ p₂ r : List Turn) (off : Nat) (g : Reg) :
    State.others (({ s.others p₁ with plan := r }.tick g.readDraws).log
        (.rd .seq off (State.readVal { s.others p₁ with plan := r } g))) p₂ =
      { State.others (((s.others p₁).tick g.readDraws).log (.rd .seq off ((s.others p₁).readVal g))) p₂ with
        plan := r } := by
  rw [readVal_withPlan]
  exact others_withPlan p₂ (((s.others p₁).tick g.readDraws).log (.rd .seq off ((s.others p₁).readVal g))) r

/-- A command of two micro-steps, a read and a write that has a meaning. -/
theorem drive_read_write {t : State} (hp : s.seqAfterTwice p₁ p₂ q) (hg : regAt off = some g)
    (h1 : ∀ s, f r s = modRead off r next s)
    (h2 : ∀ t s, f { r with t := t, step := next } s = wrThen off (w t) s fun s => .done (a t) s)
    (hw : (State.others (((s.others p₁).tick g.readDraws).log (.rd .seq off ((s.others p₁).readVal g))) p₂).writeReg
      (w ((s.others p₁).readVal g)) g = .ok t) :
    drive f (n + 2) r s = .next
      (({ t with plan := q }.log (.wr .seq off (w ((s.others p₁).readVal g)))).respond
        (a ((s.others p₁).readVal g))) := by
  obtain ⟨m, hm1, hm2⟩ := hp
  rw [drive_seqTurn_goto (n := n + 1) hm1 (by rw [h1, modRead, rdThen_of_regAt hg])]
  refine drive_seqTurn_done (p := p₂) (q := q) hm2 ?_
  rw [readThen_others, readVal_withPlan, h2]
  refine wrThen_of_ok hg (t := { t with plan := q }) ?_ _
  have := writeReg_withPlan
    (State.others (((s.others p₁).tick g.readDraws).log (.rd .seq off ((s.others p₁).readVal g))) p₂) q
    (w ((s.others p₁).readVal g)) g
  rw [hw] at this
  exact this

/-- A command of two micro-steps, a read and a write that has none. -/
theorem drive_read_write_refused {x : Refusal} (hp : s.seqAfterTwice p₁ p₂ q) (hg : regAt off = some g)
    (h1 : ∀ s, f r s = modRead off r next s)
    (h2 : ∀ t s, f { r with t := t, step := next } s = wrThen off (w t) s fun s => .done (a t) s)
    (hw : (State.others (((s.others p₁).tick g.readDraws).log (.rd .seq off ((s.others p₁).readVal g))) p₂).writeReg
      (w ((s.others p₁).readVal g)) g = .error x) :
    drive f (n + 2) r s = .refused x := by
  obtain ⟨m, hm1, hm2⟩ := hp
  rw [drive_seqTurn_goto (n := n + 1) hm1 (by rw [h1, modRead, rdThen_of_regAt hg])]
  refine drive_seqTurn_stop (p := p₂) (q := q) hm2 ?_
  rw [readThen_others, readVal_withPlan, h2]
  refine wrThen_of_error hg ?_ _
  have := writeReg_withPlan
    (State.others (((s.others p₁).tick g.readDraws).log (.rd .seq off ((s.others p₁).readVal g))) p₂) q
    (w ((s.others p₁).readVal g)) g
  rw [hw] at this
  exact this

end

end Sys2Proof.Machine
end

