-- ==== Sys2Proof/Laws/Micro.lean ====
section
/-! SUPPORT. What any micro-step of any command can do to the state, said once: at most one access of the register space,
the allocator port or a buffer (10_state.md R13, R24), and NEW_CHANNEL's attaching of the descriptor. A property that these
keep, every command keeps. -/

namespace Sys2Proof.Machine

open Sys2Proof.Config

/-- A property of the state kept by everything a micro-step can do. -/
structure StepClosed (P : State → Prop) : Prop where
  read : ∀ s n a, P s → P ((s.tick n).log a)
  write : ∀ s t v g a, P s → s.writeReg v g = .ok t → P (t.log a)
  alloc : ∀ s a n l, P s → P (({ s with allocs := l, draws := n } : State).log a)
  memWrite : ∀ s i d m a, P s → s.desc i = some d →
    P ((s.setChan i { s.chan i with desc := some { d with buf := m } }).log a)
  attach : ∀ s t v g a i ba size dir, P s → s.writeReg v g = .ok t → P ((t.log a).attach i (Desc.fresh ba size dir))

/-- What a micro-step of SEQ at `r` must give for `P` to be kept: `P` wherever it goes on or responds, and the command
stays the one it is. -/
def KeepsAt (P : State → Prop) (r : SeqRun) (m : Micro) : Prop :=
  m.Holds (fun r' s => P s ∧ r'.cmd = r.cmd) (fun _ s => P s) (fun _ => True) (fun _ => True)

section
variable {P : State → Prop} {r : SeqRun} {s : State}

theorem rdThen_keeps (hP : StepClosed P) (h : P s) {off : Nat} {k : Word → State → Micro}
    (hk : ∀ t s, P s → KeepsAt P r (k t s)) : KeepsAt P r (rdThen off s k) := by
  unfold rdThen rd32
  cases regAt off with
  | none => trivial
  | some g => exact hk _ _ (hP.read _ _ _ h)

theorem wrThen_keeps (hP : StepClosed P) (h : P s) {off : Nat} {v : Word} {k : State → Micro}
    (hk : ∀ s, P s → KeepsAt P r (k s)) : KeepsAt P r (wrThen off v s k) := by
  cases hg : regAt off with
  | none => simp [wrThen, wr32, hg, KeepsAt]
  | some g =>
    cases hw : s.writeReg v g with
    | error x => simp [wrThen_of_error hg hw, KeepsAt]
    | ok t =>
      rw [wrThen_of_ok hg hw]
      exact hk _ (hP.write _ _ _ _ _ h hw)

theorem modRead_keeps (hP : StepClosed P) (h : P s) (off : Nat) (next : Label) : KeepsAt P r (modRead off r next s) :=
  rdThen_keeps hP h fun _ _ hs => ⟨hs, rfl⟩

theorem wrGoto_keeps (hP : StepClosed P) (h : P s) (off : Nat) (v : Word) (next : Label) :
    KeepsAt P r (wrGoto off v r next s) :=
  wrThen_keeps hP h fun _ hs => ⟨hs, rfl⟩

theorem modGoto_keeps (hP : StepClosed P) (h : P s) (off hi lo : Nat) (v : Word) (next : Label) :
    KeepsAt P r (modGoto off hi lo v r next s) :=
  wrThen_keeps hP h fun _ hs => ⟨hs, rfl⟩

theorem modDone_keeps (hP : StepClosed P) (h : P s) (off hi lo : Nat) (v : Word) :
    KeepsAt P r (modDone off hi lo v r s) :=
  wrThen_keeps hP h fun _ hs => hs

theorem wrDone_keeps (hP : StepClosed P) (h : P s) (off : Nat) (v : Word) (a : Resp) :
    KeepsAt P r (wrThen off v s fun s => .done a s) :=
  wrThen_keeps hP h fun _ hs => hs

theorem rdDone_keeps (hP : StepClosed P) (h : P s) (off : Nat) (a : Word → Resp) :
    KeepsAt P r (rdThen off s fun t s => .done (a t) s) :=
  rdThen_keeps hP h fun _ _ hs => hs

/-! ## The commands of more than two micro-steps -/

/-- The loop of CTRL_RESET advances its index by one, without wrapping while it is inside its range (R190). -/
theorem resetNext_i {r : SeqRun} (h : r.i.toNat < nCh) : (resetNext r).i.toNat = r.i.toNat + 1 := by
  have h1 : (1 : Word).toNat = 1 := rfl
  simp only [nCh] at h
  simp only [resetNext, BitVec.toNat_add, h1]
  omega

theorem resetNext_step (r : SeqRun) : (resetNext r).step = if r.i.toNat + 1 < nCh then .T5 else .T12 := rfl

theorem ctrlReset_keeps (hP : StepClosed P) (h : P s) : KeepsAt P r (ctrlResetMicro r s) := by
  unfold ctrlResetMicro
  split
  case h_5 => exact rdThen_keeps hP h fun _ _ hs => ⟨hs, rfl⟩
  case h_1 | h_3 | h_7 | h_10 | h_12 | h_14 => exact modRead_keeps hP h _ _
  case h_2 | h_6 | h_8 | h_13 | h_15 => exact modGoto_keeps hP h _ _ _ _ _
  case h_9 => exact wrGoto_keeps hP h _ _ _
  case h_16 => exact wrDone_keeps hP h _ _ _
  case h_17 => trivial
  case h_4 => exact modGoto_keeps (r := { r with i := 0 }) hP h _ _ _ _ _
  case h_11 => exact wrThen_keeps hP h fun _ hs => ⟨hs, rfl⟩

theorem construct_keeps (hP : StepClosed P) (h : P s) (dir : Bool) (size dev : Word) (next : Label) :
    KeepsAt P r (constructMicro dir size dev next r s) := by
  unfold constructMicro
  split
  case h_1 =>
    unfold constructAlloc allocReq
    have ha := hP.alloc s (.alloc size bufAlign dir s.allocAnswer) (s.draws + 1) s.allocs.tail h
    cases hs : s.allocAnswer with
    | none =>
      rw [hs] at ha
      exact ha
    | some ba =>
      rw [hs] at ha
      simp only
      split
      · exact ⟨ha, rfl⟩
      · exact ha
  case h_2 => exact rdThen_keeps hP h fun _ _ hs => ⟨hs, rfl⟩
  case h_5 =>
    refine rdThen_keeps hP h fun t _ hs => ?_
    split
    · exact ⟨hs, rfl⟩
    · exact ⟨hs, rfl⟩
  case h_3 => exact modRead_keeps hP h _ _
  case h_4 => exact modGoto_keeps hP h _ _ _ _ _
  case h_6 => exact modRead_keeps hP h _ _
  case h_7 => exact modGoto_keeps hP h _ _ _ _ _
  case h_8 => exact modRead_keeps hP h _ _
  case h_9 => exact modGoto_keeps hP h _ _ _ _ _
  case h_10 => exact wrGoto_keeps hP h _ _ _
  case h_11 => exact wrGoto_keeps hP h _ _ _
  case h_12 => exact wrGoto_keeps hP h _ _ _
  case h_13 => exact wrGoto_keeps hP h _ _ _
  case h_14 => exact modRead_keeps hP h _ _
  case h_15 => exact modGoto_keeps hP h _ _ _ _ _
  case h_16 => trivial

theorem newChannel_keeps (hP : StepClosed P) (h : P s) (slave : BitVec 8) (dir irq : Bool) (size dev : Word)
    (i : Fin 8) : KeepsAt P r (newChannelMicro slave dir irq size dev i r s) := by
  unfold newChannelMicro
  split
  case h_1 =>
    refine rdThen_keeps hP h fun t _ hs => ?_
    split
    · exact hs
    · exact ⟨hs, rfl⟩
  case h_7 =>
    cases hw : s.writeReg (ins r.t i i 1) .dmaBind with
    | error x =>
      rw [modWrite, wrThen_of_error regAt_offBind hw]
      trivial
    | ok t =>
      rw [modWrite, wrThen_of_ok regAt_offBind hw]
      exact ⟨hP.attach _ _ _ _ _ _ _ _ _ h hw, rfl⟩
  case h_2 => exact modRead_keeps hP h _ _
  case h_3 => exact modGoto_keeps hP h _ _ _ _ _
  case h_4 => exact modRead_keeps hP h _ _
  case h_5 => exact modGoto_keeps hP h _ _ _ _ _
  case h_6 => exact modRead_keeps hP h _ _
  case h_8 => exact modRead_keeps hP h _ _
  case h_9 => exact modDone_keeps hP h _ _ _ _
  case h_10 => exact construct_keeps hP h _ _ _ _

theorem bufWr_keeps (hP : StepClosed P) (h : P s) (i : Fin 8) (off : Word) (data : List Byte) :
    KeepsAt P r (bufWrMicro i off data r s) := by
  unfold bufWrMicro
  split
  · unfold memWrite
    cases hd : s.desc i with
    | none => trivial
    | some d =>
      simp only
      split
      · trivial
      · rename_i t ht
        split at ht
        · simp only [Except.ok.injEq] at ht
          subst ht
          split
          · exact ⟨hP.memWrite _ _ _ _ _ h hd, rfl⟩
          · exact hP.memWrite _ _ _ _ _ h hd
        · simp at ht
  · trivial

theorem bufRd_keeps (hP : StepClosed P) (h : P s) (i : Fin 8) (off : Word) (n : BitVec 16) :
    KeepsAt P r (bufRdMicro i off n r s) := by
  unfold bufRdMicro
  split
  · unfold memRead
    cases hd : s.desc i with
    | none => trivial
    | some d =>
      simp only
      split
      · trivial
      · rename_i t ht
        split at ht
        · simp only [Except.ok.injEq] at ht
          subst ht
          split
          · exact ⟨hP.read _ _ _ h, rfl⟩
          · exact hP.read _ _ _ h
        · simp at ht
  · trivial

/-- A property that every single effect keeps, every micro-step of every command keeps. -/
theorem microOf_keeps (hP : StepClosed P) (h : P s) (c : Instr) : KeepsAt P r (microOf c r s) := by
  cases c with
  | fldRd f idx =>
    simp only [microOf, onField]
    cases fldLoc f idx with
    | none => trivial
    | some l =>
      simp only [fldRdMicro]
      split
      · exact rdDone_keeps hP h _ (fun t => .ok [ext t l.hi l.lo])
      · trivial
  | fldWr f idx value =>
    simp only [microOf, onField]
    cases fldLoc f idx with
    | none => trivial
    | some l =>
      simp only [fldWrMicro]
      split
      · exact wrDone_keeps hP h _ _ _
      · trivial
  | fldMod f idx value =>
    simp only [microOf, onField]
    cases fldLoc f idx with
    | none => trivial
    | some l =>
      simp only [fldModMicro]
      split
      · exact modRead_keeps hP h _ _
      · exact modDone_keeps hP h _ _ _ _
      · trivial
  | ctrlReset => exact ctrlReset_keeps hP h
  | ctrlEnable =>
    simp only [microOf, ctrlEnableMicro]
    split
    · exact modRead_keeps hP h _ _
    · exact modDone_keeps hP h _ _ _ _
    · trivial
  | ctrlDisable =>
    simp only [microOf, ctrlDisableMicro]
    split
    · exact modRead_keeps hP h _ _
    · exact modDone_keeps hP h _ _ _ _
    · trivial
  | newChannel idx slave dir irq size dev tmo =>
    simp only [microOf, onChan]
    cases chanIdx? idx with
    | none => trivial
    | some i => exact newChannel_keeps hP h _ _ _ _ _ _
  | isComplete idx =>
    simp only [microOf, onChan]
    cases chanIdx? idx with
    | none => trivial
    | some i =>
      simp only [isCompleteMicro]
      split
      · exact rdDone_keeps hP h _ (fun t => .ok [bitW (t.getLsbD (doneBit i))])
      · trivial
  | clrComplete idx =>
    simp only [microOf, onChan]
    cases chanIdx? idx with
    | none => trivial
    | some i =>
      simp only [clrCompleteMicro]
      split
      · exact wrDone_keeps hP h _ _ _
      · trivial
  | setMask idx masked =>
    simp only [microOf, onChan]
    cases chanIdx? idx with
    | none => trivial
    | some i =>
      simp only [setMaskMicro]
      split
      · exact modRead_keeps hP h _ _
      · exact modDone_keeps hP h _ _ _ _
      · trivial
  | chActivate idx =>
    simp only [microOf, onChan]
    cases chanIdx? idx with
    | none => trivial
    | some i =>
      simp only [chActivateMicro]
      split
      · exact modRead_keeps hP h _ _
      · exact modDone_keeps hP h _ _ _ _
      · trivial
  | chDeactivate idx =>
    simp only [microOf, onChan]
    cases chanIdx? idx with
    | none => trivial
    | some i =>
      simp only [chDeactivateMicro]
      split
      · exact modRead_keeps hP h _ _
      · exact modDone_keeps hP h _ _ _ _
      · trivial
  | chIsRunning idx =>
    simp only [microOf, onChan]
    cases chanIdx? idx with
    | none => trivial
    | some i =>
      simp only [chIsRunningMicro]
      split
      · exact rdDone_keeps hP h _ (fun t => .ok [bitW (t.getLsbD chEnBit)])
      · trivial
  | bufWr idx off data =>
    simp only [microOf, onChan]
    cases chanIdx? idx with
    | none => trivial
    | some i => exact bufWr_keeps hP h _ _ _
  | bufRd idx off n =>
    simp only [microOf, onChan]
    cases chanIdx? idx with
    | none => trivial
    | some i => exact bufRd_keeps hP h _ _ _
  | handleIrq =>
    simp only [microOf, handleIrqMicro]
    split
    · exact modRead_keeps hP h _ _
    · exact wrThen_keeps hP h fun _ hs => hs
    · trivial

end

/-! ## What accepting a command can do -/

/-- An accepted command raises a ContractViolation, is refused for want of a Channel, answers at once, or runs its
micro-steps. -/
theorem exec_cases (c : Instr) (s : State) :
    exec c s = .next (s.raise .contract) ∨ exec c s = .refused .noChannel ∨
    (∃ vals, exec c s = .next (s.respond (.ok vals))) ∨
    ∃ lbl cb, exec c s = start (microOf c) c lbl cb s := by
  cases c with
  | fldRd f idx =>
    simp only [exec, execFldRd, microOf, onField]
    cases fldLoc f idx with
    | none => exact .inl rfl
    | some l => exact .inr (.inr (.inr ⟨_, _, rfl⟩))
  | fldWr f idx value =>
    simp only [exec, execFldWr, microOf, onField]
    cases fldLoc f idx with
    | none => exact .inl rfl
    | some l => exact .inr (.inr (.inr ⟨_, _, rfl⟩))
  | fldMod f idx value =>
    simp only [exec, execFldMod, microOf, onField]
    cases fldLoc f idx with
    | none => exact .inl rfl
    | some l => exact .inr (.inr (.inr ⟨_, _, rfl⟩))
  | ctrlReset => exact .inr (.inr (.inr ⟨_, _, rfl⟩))
  | ctrlEnable => exact .inr (.inr (.inr ⟨_, _, rfl⟩))
  | ctrlDisable => exact .inr (.inr (.inr ⟨_, _, rfl⟩))
  | newChannel idx slave dir irq size dev tmo =>
    simp only [exec, execNewChannel, withIndex, microOf, onChan]
    cases chanIdx? idx with
    | none => exact .inl rfl
    | some i =>
      simp only
      split
      · exact .inl rfl
      · exact .inr (.inr (.inr ⟨_, _, rfl⟩))
  | isComplete idx =>
    simp only [exec, execIsComplete, microOf, onChan]
    cases chanIdx? idx with
    | none => exact .inr (.inr (.inl ⟨_, rfl⟩))
    | some i => exact .inr (.inr (.inr ⟨_, _, rfl⟩))
  | clrComplete idx =>
    simp only [exec, execClrComplete, microOf, onChan]
    cases chanIdx? idx with
    | none => exact .inr (.inr (.inl ⟨_, rfl⟩))
    | some i => exact .inr (.inr (.inr ⟨_, _, rfl⟩))
  | setMask idx masked =>
    simp only [exec, execSetMask, withIndex, microOf, onChan]
    cases chanIdx? idx with
    | none => exact .inl rfl
    | some i => exact .inr (.inr (.inr ⟨_, _, rfl⟩))
  | chActivate idx =>
    simp only [exec, execChActivate, withHandle, withIndex, microOf, onChan]
    cases chanIdx? idx with
    | none => exact .inl rfl
    | some i =>
      simp only
      cases s.desc i with
      | none => exact .inr (.inl rfl)
      | some d => exact .inr (.inr (.inr ⟨_, _, rfl⟩))
  | chDeactivate idx =>
    simp only [exec, execChDeactivate, withHandle, withIndex, microOf, onChan]
    cases chanIdx? idx with
    | none => exact .inl rfl
    | some i =>
      simp only
      cases s.desc i with
      | none => exact .inr (.inl rfl)
      | some d => exact .inr (.inr (.inr ⟨_, _, rfl⟩))
  | chIsRunning idx =>
    simp only [exec, execChIsRunning, withHandle, withIndex, microOf, onChan]
    cases chanIdx? idx with
    | none => exact .inl rfl
    | some i =>
      simp only
      cases s.desc i with
      | none => exact .inr (.inl rfl)
      | some d => exact .inr (.inr (.inr ⟨_, _, rfl⟩))
  | bufWr idx off data =>
    simp only [exec, execBufWr, withHandle, withIndex, microOf, onChan]
    cases chanIdx? idx with
    | none => exact .inl rfl
    | some i =>
      simp only
      cases s.desc i with
      | none => exact .inr (.inl rfl)
      | some d =>
        simp only
        split
        · split
          · exact .inr (.inr (.inl ⟨_, rfl⟩))
          · exact .inr (.inr (.inr ⟨_, _, rfl⟩))
        · exact .inl rfl
  | bufRd idx off n =>
    simp only [exec, execBufRd, withHandle, withIndex, microOf, onChan]
    cases chanIdx? idx with
    | none => exact .inl rfl
    | some i =>
      simp only
      cases s.desc i with
      | none => exact .inr (.inl rfl)
      | some d =>
        simp only
        split
        · split
          · exact .inr (.inr (.inl ⟨_, rfl⟩))
          · exact .inr (.inr (.inr ⟨_, _, rfl⟩))
        · exact .inl rfl
  | handleIrq => exact .inr (.inr (.inr ⟨_, _, rfl⟩))

/-! ## What a step keeps -/

/-- A property kept by every effect of a micro-step, by the other agents' moves, by a response, a rest and a fault
taken, and by the queueing of packets. -/
structure MachineClosed (P : State → Prop) : Prop extends StepClosed P where
  between : ∀ s t, P s → Between s t → P t
  respond : ∀ s q, P s → P (s.respond q)
  suspend : ∀ s r, P s → P (s.suspend r)
  setFault : ∀ s x, P s → P (s.setFault x)
  cmdIn : ∀ s l, P s → P { s with cmdIn := l }

section
variable {P : State → Prop}

theorem drive_keeps (hP : MachineClosed P) (c : Instr) (n : Nat) (r : SeqRun) (s : State) (h : P s) :
    Ends P (fun _ => True) (fun _ => True) (drive (microOf c) n r s) := by
  refine drive_ends (I := fun _ s => P s) (D := fun _ s => P s) (fun _ s t => hP.between s t) (fun r s hs => ?_)
    (fun r s => hP.suspend s r) (fun q s => hP.respond s q) n r s h
  have hk := microOf_keeps (r := r) hP.toStepClosed hs c
  cases hm : microOf c r s with
  | goto r' s' =>
    rw [hm] at hk
    exact hk.1
  | spin r' s' =>
    rw [hm] at hk
    exact hk.1
  | done q s' =>
    rw [hm] at hk
    exact hk
  | stop x => trivial
  | fault x => trivial

theorem exec_keeps (hP : MachineClosed P) (c : Instr) (s : State) (h : P s) :
    Ends P (fun _ => True) (fun _ => True) (exec c s) := by
  rcases exec_cases c s with he | he | ⟨vals, he⟩ | ⟨lbl, cb, he⟩ <;> rw [he]
  · exact hP.respond _ _ (hP.setFault _ _ h)
  · trivial
  · exact hP.respond _ _ h
  · rw [start_eq]
    exact drive_keeps hP c _ _ _ h

theorem step_keeps (hP : MachineClosed P) {s t : State} (hs : step s = .next t) (h : P s) : P t := by
  have key : Ends P (fun _ => True) (fun _ => True) (step s) := by
    unfold step
    split
    · exact drive_keeps hP _ _ _ _ h
    · unfold accept
      split
      · exact exec_keeps hP _ _ (hP.cmdIn _ _ h)
      · exact hP.respond _ _ (hP.setFault _ _ (hP.cmdIn _ _ h))
    · exact idleTurn_keeps (fun s p h => hP.between s _ h ((Between.refl s).withPlan p))
        (fun s m h => hP.between s _ h (engMove_between s m)) (fun s k h => hP.between s _ h (irqStep_between s k)) s h
  rw [hs] at key
  exact key

end

end Sys2Proof.Machine
end

