-- ==== Sys2Proof/Laws/PerInstr.lean ====
section
/-! SUPPORT. The per-instruction family `OneRow` (30_encoding.md R103, R104): the packet of a well-formed command
matches one row of the opcode map, that row is the command's own, and its length is the one R103 gives. -/

namespace Sys2Proof.Laws

open Sys2Proof

/-- The row of R104 a command belongs to. -/
def OneRow.opOf : Instr → Op
  | .fldRd _ _ => .fldRd
  | .fldWr _ _ _ => .fldWr
  | .fldMod _ _ _ => .fldMod
  | .ctrlReset => .ctrlReset
  | .ctrlEnable => .ctrlEnable
  | .ctrlDisable => .ctrlDisable
  | .newChannel _ _ _ _ _ _ _ => .newChannel
  | .isComplete _ => .isComplete
  | .clrComplete _ => .clrComplete
  | .setMask _ _ => .setMask
  | .chActivate _ => .chActivate
  | .chDeactivate _ => .chDeactivate
  | .chIsRunning _ => .chIsRunning
  | .bufWr _ _ _ => .bufWr
  | .bufRd _ _ _ => .bufRd
  | .handleIrq => .handleIrq

/-- The packet of a well-formed command has a header that selects the command's row, and the length R103 gives. -/
def OneRow.Statement (i : Instr) : Prop :=
  i.wf = true → ∃ w₀ ws, encode i = w₀ :: ws ∧ selectOp w₀ = some (OneRow.opOf i) ∧
    ws.length + 1 = packetWords (OneRow.opOf i) w₀

theorem OneRow.imm_fid (x : BitVec 8) : (0#8 ++ x : BitVec 16) &&& 0xFF00#16 = 0#16 := by
  have h : (0xFF00#16 : BitVec 16) = 0xFF#8 ++ 0#8 := by decide
  rw [h, BitVec.and_append]; simp

theorem OneRow.imm_newChannel (slave : BitVec 8) (dir irq : Bool) :
    newChannelImm slave dir irq &&& 0xFC00#16 = 0#16 := by
  have h : (0xFC00#16 : BitVec 16) = 0xFC#8 ++ 0#8 := by decide
  unfold newChannelImm
  rw [h, BitVec.and_append]
  cases dir <;> cases irq <;> simp

theorem OneRow.fldRd (f : Fld) (idx : BitVec 8) : OneRow.Statement (.fldRd f idx) := fun _ =>
  ⟨_, _, rfl, selectOp_of_match _ ⟨.fldRd, header 0x01 0 0, header 0xFF 0 0xFF00⟩ (by decide)
    (header_matches _ _ _ _ _ (by simp) (imm_fid _)), rfl⟩

theorem OneRow.fldWr (f : Fld) (idx : BitVec 8) (v : Word) : OneRow.Statement (.fldWr f idx v) := fun _ =>
  ⟨_, _, rfl, selectOp_of_match _ ⟨.fldWr, header 0x02 0 0, header 0xFF 0 0xFF00⟩ (by decide)
    (header_matches _ _ _ _ _ (by simp) (imm_fid _)), rfl⟩

theorem OneRow.fldMod (f : Fld) (idx : BitVec 8) (v : Word) : OneRow.Statement (.fldMod f idx v) := fun _ =>
  ⟨_, _, rfl, selectOp_of_match _ ⟨.fldMod, header 0x03 0 0, header 0xFF 0 0xFF00⟩ (by decide)
    (header_matches _ _ _ _ _ (by simp) (imm_fid _)), rfl⟩

theorem OneRow.ctrlReset : OneRow.Statement .ctrlReset := fun _ => ⟨_, _, rfl, by decide, rfl⟩

theorem OneRow.ctrlEnable : OneRow.Statement .ctrlEnable := fun _ => ⟨_, _, rfl, by decide, rfl⟩

theorem OneRow.ctrlDisable : OneRow.Statement .ctrlDisable := fun _ => ⟨_, _, rfl, by decide, rfl⟩

theorem OneRow.newChannel (idx slave : BitVec 8) (dir irq : Bool) (size dev : Word) (tmo : BitVec 30) :
    OneRow.Statement (.newChannel idx slave dir irq size dev tmo) := fun _ =>
  ⟨_, _, rfl, selectOp_of_match _ ⟨.newChannel, header 0x13 0 0, header 0xFF 0 0xFC00⟩ (by decide)
    (header_matches _ _ _ _ _ (by simp) (imm_newChannel slave dir irq)), rfl⟩

theorem OneRow.isComplete (idx : BitVec 8) : OneRow.Statement (.isComplete idx) := fun _ =>
  ⟨_, _, rfl, selectOp_of_match _ ⟨.isComplete, header 0x14 0 0, header 0xFF 0 0xFFFF⟩ (by decide)
    (header_matches _ _ _ _ _ (by simp) (by decide)), rfl⟩

theorem OneRow.clrComplete (idx : BitVec 8) : OneRow.Statement (.clrComplete idx) := fun _ =>
  ⟨_, _, rfl, selectOp_of_match _ ⟨.clrComplete, header 0x15 0 0, header 0xFF 0 0xFFFF⟩ (by decide)
    (header_matches _ _ _ _ _ (by simp) (by decide)), rfl⟩

theorem OneRow.setMask (idx : BitVec 8) (masked : Bool) : OneRow.Statement (.setMask idx masked) := fun _ =>
  ⟨_, _, rfl, selectOp_of_match _ ⟨.setMask, header 0x16 0 0, header 0xFF 0 0xFFFE⟩ (by decide)
    (header_matches _ _ _ _ _ (by simp) (by cases masked <;> decide)), rfl⟩

theorem OneRow.chActivate (idx : BitVec 8) : OneRow.Statement (.chActivate idx) := fun _ =>
  ⟨_, _, rfl, selectOp_of_match _ ⟨.chActivate, header 0x20 0 0, header 0xFF 0 0xFFFF⟩ (by decide)
    (header_matches _ _ _ _ _ (by simp) (by decide)), rfl⟩

theorem OneRow.chDeactivate (idx : BitVec 8) : OneRow.Statement (.chDeactivate idx) := fun _ =>
  ⟨_, _, rfl, selectOp_of_match _ ⟨.chDeactivate, header 0x21 0 0, header 0xFF 0 0xFFFF⟩ (by decide)
    (header_matches _ _ _ _ _ (by simp) (by decide)), rfl⟩

theorem OneRow.chIsRunning (idx : BitVec 8) : OneRow.Statement (.chIsRunning idx) := fun _ =>
  ⟨_, _, rfl, selectOp_of_match _ ⟨.chIsRunning, header 0x22 0 0, header 0xFF 0 0xFFFF⟩ (by decide)
    (header_matches _ _ _ _ _ (by simp) (by decide)), rfl⟩

theorem OneRow.bufWr (idx : BitVec 8) (off : Word) (data : List Byte) : OneRow.Statement (.bufWr idx off data) := by
  intro h
  have hl : data.length < 2 ^ 16 := by simpa [Instr.wf, dataLenOk] using h
  refine ⟨_, _, rfl, selectOp_of_match _ ⟨.bufWr, header 0x24 0 0, header 0xFF 0 0⟩ (by decide)
    (header_matches _ _ _ _ _ (by simp) (by simp)), ?_⟩
  simp only [OneRow.opOf, packetWords, header_imm, List.length_cons, packBytes_length, BitVec.toNat_ofNat,
    Nat.mod_eq_of_lt hl]
  omega

theorem OneRow.bufRd (idx : BitVec 8) (off : Word) (n : BitVec 16) : OneRow.Statement (.bufRd idx off n) := fun _ =>
  ⟨_, _, rfl, selectOp_of_match _ ⟨.bufRd, header 0x25 0 0, header 0xFF 0 0⟩ (by decide)
    (header_matches _ _ _ _ _ (by simp) (by simp)), rfl⟩

theorem OneRow.handleIrq : OneRow.Statement .handleIrq := fun _ => ⟨_, _, rfl, by decide, rfl⟩

end Sys2Proof.Laws
end

