-- ==== Sys2Proof/Tests/Slice0.lean ====
section
/-! SUPPORT. The model's own tests: ill-formed commands, packets written out from spec/95_test_vectors.md, one step on
small states with the vectors of 95_test_vectors.md 2.6 to 2.13, and for each obligation with hypotheses a witness
that meets them. -/

namespace Sys2Proof.Tests

open Sys2Proof Sys2Proof.Machine Sys2Proof.Config

/-! ## Helpers -/

/-- The next state of an outcome. -/
def nextOf : Out → Option Machine.State
  | .next t => some t
  | .fault _ => none
  | .refused _ => none

/-- The refusal of an outcome. -/
def refusalOf : Out → Option Refusal
  | .refused x => some x
  | .next _ => none
  | .fault _ => none

/-- The step that runs one packet. -/
def ran (p : Packet) (s : Machine.State) : Option Machine.State := nextOf (step { s with cmdIn := [p] })

/-- The state S1 of 95_test_vectors.md: all zero but DMA_MASK = 0xFF. -/
def s1 : Machine.State := { Machine.State.reset with glb := { Globals.reset with chm := 0xFF } }

/-- S1 with another global block. -/
def withGlb (g : Globals) : Machine.State := { s1 with glb := g }

/-- S1 with channel `i` replaced. -/
def withChan (i : Fin 8) (c : Chan) : Machine.State := s1.setChan i c

/-- A descriptor of eight zero bytes, memory to device. -/
def desc8 : Desc := Desc.fresh 0x80000180 8 false

/-- S1 with channel 3 bound to an eight-byte buffer, its registers as 2.7 leaves those a test reads. -/
def bound3 : Machine.State :=
  { (withChan 3 { Chan.reset with addrLo := 0x80000180, devAddr := 0x28004000, xferSize := 8, desc := some desc8 }) with
    glb := { s1.glb with bound := 0x08, chselL := 0x87000000 } }

/-- `bound3` with channel 3 active. -/
def active3 : Machine.State :=
  { bound3.setChan 3 { bound3.chan 3 with en := true, armed := true } with glb := { bound3.glb with en := true } }

/-- S1 with channel 5 left enabled and unbound, and one allocator answer ready. -/
def stale5 : Machine.State :=
  { withChan 5 { Chan.reset with en := true, dir := true } with allocs := [some 0x123456780] }

/-- `stale5` with a stale soft-reset bit too, so that K5 is no soft-reset event and no register is redrawn. -/
def dirtyStale5 : Machine.State := stale5.setChan 5 { stale5.chan 5 with srst := true }

/-- The acknowledge after nine turns of SEQ: two reads of the spin. -/
def staleSpins : List Turn := List.replicate 9 .seq ++ [.eng (.ackDisable 5)]

/-- The status word 0x1000_0011 in DMA_STAT. -/
def flags017 : Machine.State := withGlb { s1.glb with done := 0x83 }

/-- The NEW_CHANNEL of 2.5 on channel 5. -/
def new5 : Instr := .newChannel 5 31 true true 64 0x2800F004 0

/-! ## WellFormed -/

theorem test_wf_refuses_global_field_index : (Instr.fldRd .ctlEn 1).wf = false := by decide
theorem test_wf_refuses_global_field_index_wr : (Instr.fldWr .maskGie 255 1).wf = false := by decide
theorem test_wf_refuses_global_field_index_mod : (Instr.fldMod .capAll 8 1).wf = false := by decide
theorem test_wf_refuses_65536_bytes (b : Byte) : (Instr.bufWr 0 0 (List.replicate 65536 b)).wf = false := by
  rw [Instr.wf, dataLenOk, List.length_replicate]; rfl
theorem test_wf_accepts_channel_field_index : (Instr.fldRd .tmoEn 255).wf = true := by decide

/-! ## Decoding: words written out from R100 to R108 (95_test_vectors.md 2.5) -/

theorem test_decode_fld_rd : decode [0x01070021] = .ok (.fldRd .statDone 7) := by decide
theorem test_decode_fld_wr : decode [0x02000030, 0x000000FF] = .ok (.fldWr .maskAll 0 0xFF) := by decide
theorem test_decode_fld_mod : decode [0x0303008E, 0x00012345] = .ok (.fldMod .tmoThresh 3 0x12345) := by decide
theorem test_decode_ctrl_reset : decode [0x10000000] = .ok .ctrlReset := by decide
theorem test_decode_ctrl_enable : decode [0x11000000] = .ok .ctrlEnable := by decide
theorem test_decode_ctrl_disable : decode [0x12000000] = .ok .ctrlDisable := by decide
theorem test_decode_new_channel : decode [0x1307020A, 0x8, 0x28002000, 0x3FFFFFFE] =
    .ok (.newChannel 7 10 false true 8 0x28002000 0x3FFFFFFE) := by decide
theorem test_decode_is_complete : decode [0x14010000] = .ok (.isComplete 1) := by decide
theorem test_decode_clr_complete : decode [0x15070000] = .ok (.clrComplete 7) := by decide
theorem test_decode_set_mask : decode [0x16030001] = .ok (.setMask 3 true) := by decide
theorem test_decode_ch_activate : decode [0x20000000] = .ok (.chActivate 0) := by decide
theorem test_decode_ch_deactivate : decode [0x21030000] = .ok (.chDeactivate 3) := by decide
theorem test_decode_ch_is_running : decode [0x22050000] = .ok (.chIsRunning 5) := by decide
theorem test_decode_buf_wr : decode [0x24030003, 0x2, 0x007A7978] = .ok (.bufWr 3 2 [0x78, 0x79, 0x7A]) := by decide
theorem test_decode_buf_rd : decode [0x25050004, 0x3C] = .ok (.bufRd 5 0x3C 4) := by decide
theorem test_decode_handle_irq : decode [0x30000000] = .ok .handleIrq := by decide

/-- Every FID of R108, read off its table. -/
theorem test_fids : Fld.all.map Fld.fid =
    [0x00, 0x01, 0x02, 0x10, 0x11, 0x12, 0x13, 0x20, 0x21, 0x30, 0x31, 0x32, 0x40, 0x41, 0x50, 0x80, 0x81, 0x82,
     0x83, 0x84, 0x85, 0x86, 0x87, 0x88, 0x89, 0x8A, 0x8B, 0x8C, 0x8D, 0x8E, 0x8F] := by decide

/-- The packets of 95_test_vectors.md 2.10. -/
def illegalPackets : List Packet :=
  [[0x00000000], [0x04000000], [0x17000000], [0x23000000], [0x26000000], [0x31000000], [0xFF000000], [0x10010000],
   [0x10000001], [0x30000001], [0x14000001], [0x16000002], [0x16090002], [0x13000400, 0x4, 0x28001000, 0x0],
   [0x13000003, 0x4, 0x28001000, 0x40000000], [0x13000003, 0x4, 0x28001000], [0x01000003], [0x01000100],
   [0x01010001], [0x02000030], [0x01000030, 0x0], [0x24000003, 0x0, 0x01636261], [0x24000005, 0x0, 0x64636261],
   [0x25000004, 0x0, 0x0], []]

theorem test_illegal_packets :
    illegalPackets.all (fun p => match decode p with | .ok _ => false | .error _ => true) = true := by decide

/-- The table's numbering: FLD_WR MASK_ALL with its operand word in bits 63 to 32. -/
theorem test_table_word : decodeTableWord 64 0x000000FF02000030 = some (.fldWr .maskAll 0 0xFF) := by decide

theorem test_assemble_string :
    assembleLine "BUF_WR 0, 0, \"AB\\r\\n\" ; text" = some (.cmd (.bufWr 0 0 [0x41, 0x42, 0x0D, 0x0A])) := by
  decide
theorem test_assemble_keywords : assembleLine "NEW_CHANNEL 5, slave=31, dir=D2M, size=64, dev=0x2800F004, irq=1" =
    some (.cmd new5) := by decide
theorem test_assemble_global_field : assembleLine "FLD_MOD MASK_GIE, 1" = some (.cmd (.fldMod .maskGie 0 1)) := by
  decide

/-! ## Pure units (95_test_vectors.md 2.1, 2.3, 2.4, 2.13) -/

theorem test_ins_keeps_neighbours : ins 0x11223344 15 8 0x9F = 0x11229F44 := by decide
theorem test_ins_truncates : ins 0 6 0 0xFF = 0x7F := by decide
theorem test_ext_ignores_padding : ext 0xEEEEEEEE 4 4 = 0 := by decide
theorem test_chsel_codec : encChsel 7 9 true 0 = 0x89000000 ∧ decChsel 5 0x00009F00 = (0x1F, true) := by decide
theorem test_chsts_codec : encChsts true false = 1 ∧ decChsts 0xFFFFFFFE = (false, true) := by decide
theorem test_tmo_codec : encTmo 0x12345 true = 0x80012345 := by decide
theorem test_decode_status : decodeStatus 0xDEADBEEF = 0x99 := by decide
theorem test_valid_minimum : valid 0x80000080 4 = true ∧ valid 0x80000102 8 = false ∧ valid 0x80000100 6 = false := by
  decide
theorem test_irq_line_level :
    (withGlb { s1.glb with done := 0x02, chm := 0xFD, gie := true }).irqOut = true ∧
    (withGlb { s1.glb with done := 0x02, chm := 0xFE, gie := true }).irqOut = false := by decide

/-! ## One step of each command (95_test_vectors.md 2.6 to 2.9) -/

theorem test_fld_rd_done : (ran [0x01070021] flags017).map State.cmdOut = some [[0x0, 0x1]] := by decide
theorem test_fld_rd_select : (ran [0x01070010] (withGlb { s1.glb with chselH := 0x89000000 })).map State.cmdOut =
    some [[0x0, 0x9]] := by decide
theorem test_fld_wr_zeroes_rest : (ran [0x02030031, 0x1] (withGlb { s1.glb with gie := true })).map State.glb =
    some { s1.glb with chm := 0x08, gie := false } := by decide
theorem test_fld_wr_bind_drops_desc : (ran [0x02000040, 0xFFFFFF00] bound3).map (fun t => (t.glb.bound, t.desc 3)) =
    some (0, none) := by decide
theorem test_fld_mod_gie : (ran [0x03000032, 0x1] s1).map State.bus =
    some [.rd .seq 0x00C 0xFF, .wr .seq 0x00C 0x800000FF] := by decide
theorem test_fld_mod_stat_hazard : (ran [0x03010021, 0x0] (withGlb { s1.glb with done := 0x82 })).map
    (fun t => t.glb.done) = some 0x02 := by decide
theorem test_ctrl_reset_from_zero : (ran [0x10000000] Machine.State.reset).map
    (fun t => (t.glb, t.cmdOut, t.bus.length)) = some (s1.glb, [[0x0]], 57) := by decide
theorem test_ctrl_reset_unbinds : (ran [0x10000000] active3).map
    (fun t => (t.glb, (t.chan 3).en, t.desc 3, t.bus.length)) = some (s1.glb, true, none, 58) := by decide
theorem test_ctrl_enable : (ran [0x11000000] s1).map State.bus = some [.rd .seq 0 0, .wr .seq 0 1] := by
  decide
theorem test_ctrl_disable : (ran [0x12000000] (withGlb { s1.glb with en := true })).map State.bus =
    some [.rd .seq 0 1, .wr .seq 0 0] := by decide
theorem test_new_channel_trace : (ran [0x13000003, 0x4, 0x28001000, 0x0]
    { s1 with allocs := [some 0x80000080] }).map State.bus =
    some [.rd .seq 0x020 0, .rd .seq 0x000 0, .wr .seq 0x000 0, .alloc 4 128 false (some 0x80000080),
      .rd .seq 0x058 0, .wr .seq 0x044 0x80000080, .wr .seq 0x040 0, .wr .seq 0x048 0x28001000, .wr .seq 0x04C 4,
      .rd .seq 0x058 0, .wr .seq 0x058 0, .rd .seq 0x004 0, .wr .seq 0x004 0x83, .rd .seq 0x020 0,
      .wr .seq 0x020 1, .rd .seq 0x00C 0xFF, .wr .seq 0x00C 0xFF] := by decide
theorem test_new_channel_stale_spin : (ran [0x1305031F, 0x40, 0x2800F004, 0x0]
    { dirtyStale5 with plan := staleSpins }).map
    (fun t => (t.cmdOut, t.bus.length, (t.chan 5).en, (t.chan 5).srst, t.glb.chselH)) =
    some ([[0x0]], 26, false, false, 0x9F00) := by decide
theorem test_is_complete : (ran [0x14010000] flags017).map State.cmdOut = some [[0x0, 0x1]] := by decide
theorem test_is_complete_out_of_range : (ran [0x14080000] flags017).map (fun t => (t.cmdOut, t.bus, t.fltContract)) =
    some ([[0x0, 0x0]], [], false) := by decide
theorem test_clr_complete : (ran [0x15070000] flags017).map (fun t => (t.glb.done, t.bus)) =
    some (0x03, [.wr .seq 0x008 0x10000000]) := by decide
theorem test_set_mask_keeps_gie : (ran [0x16000000] (withGlb { s1.glb with gie := true })).map State.bus =
    some [.rd .seq 0x00C 0x800000FF, .wr .seq 0x00C 0x800000FE] := by decide
theorem test_set_mask_contract : (ran [0x16080001] s1).map (fun t => (t.cmdOut, t.bus, t.fltContract, t.seq)) =
    some ([[0x20000000]], [], true, .idle) := by decide
theorem test_ch_activate : (ran [0x20030000] bound3).map (fun t => ((t.chan 3).en, (t.chan 3).armed, t.bus)) =
    some (true, true, [.rd .seq 0x118 0, .wr .seq 0x118 1]) := by decide
theorem test_ch_activate_no_channel : refusalOf (step { bound3 with cmdIn := [[0x20020000]] }) = some .noChannel := by
  decide
theorem test_ch_deactivate_pending : (ran [0x21030000] active3).map (fun t => ((t.chan 3).en, (t.chan 3).disPending)) =
    some (true, true) := by decide
theorem test_ch_deactivate_idle : (ran [0x21030000] bound3).map (fun t => (t.chan 3, t.bus)) =
    some (bound3.chan 3, [.rd .seq 0x118 0, .wr .seq 0x118 0]) := by decide
theorem test_ch_is_running : (ran [0x22030000] active3).map State.cmdOut = some [[0x0, 0x1]] := by decide
theorem test_buf_wr : (ran [0x24030003, 0x2, 0x007A7978] bound3).map (fun t => (t.desc 3).map Desc.buf) =
    some (some [(2, 0x78), (3, 0x79), (4, 0x7A)]) := by decide
theorem test_buf_wr_no_partial_write : (ran [0x24030003, 0x6, 0x00636261] bound3).map
    (fun t => (t.desc 3, t.cmdOut)) = some (some desc8, [[0x20000000]]) := by decide
theorem test_buf_rd : (ran [0x25030008, 0x0] (bound3.setChan 3
    { bound3.chan 3 with desc := some { desc8 with buf := [(2, 0x78), (3, 0x79), (4, 0x7A)] } })).map State.cmdOut =
    some [[0x0, 0x79780000, 0x7A]] := by decide
theorem test_buf_rd_sum_does_not_wrap : (ran [0x25030002, 0xFFFFFFFF] bound3).map State.cmdOut =
    some [[0x20000000]] := by decide
theorem test_handle_irq : (ran [0x30000000] flags017).map (fun t => (t.cmdOut, t.glb.done, t.bus)) =
    some ([[0x0, 0x83]], 0, [.rd .seq 0x008 0x10000011, .wr .seq 0x008 0xFFFFFFFF]) := by decide
theorem test_eng_complete : (active3.engMove (.complete 3)).glb.done = 0x08 ∧
    ((active3.engMove (.complete 3)).chan 3).armed = false := by decide

/-! ## The HOST's sequences (R113, R297) -/

/-- Channel 0 not complete, an OK(1) of an earlier poll on the command port, and a rest before SEQ's turn. -/
def pollingLate : Machine.State := { s1 with cmdOut := [[0, 1]], plan := [.rest] }

/-- WAITC goes by the response to its own command, 0, and not by the OK(1) that was there. -/
theorem test_waitc_own_response :
    (match waitc 0 2 pollingLate with | .gaveUp t => t.cmdOut | _ => []) = [[0, 1], [0, 0], [0, 0]] := by decide
theorem test_waitc_stops_at_one :
    (match waitc 7 5 { flags017 with plan := [.rest] } with | .done t => t.cmdOut | _ => []) = [[0, 1]] := by decide
/-- Nothing is sent over a BUSY SEQ. -/
theorem test_send_needs_free_port : waitc 0 1 { pollingLate with seq := .busy (SeqRun.init .ctrlEnable .E1 0) } =
    .gaveUp { pollingLate with seq := .busy (SeqRun.init .ctrlEnable .E1 0) } := by decide

/-- Channel 7 flagged and unmasked, the line high, three turns for the service agent. -/
def lineHigh : Machine.State :=
  { withGlb { s1.glb with done := 0x80, chm := 0x7F, gie := true } with plan := [.irqh 0, .irqh 0, .irqh 0] }

/-- The dispatcher ends with the bitmap delivered and the flag cleared; on a port that does not exist it sends nothing. -/
theorem test_dispatcher_serves :
    (match awaitIrq 7 0 2 lineHigh with | .done t => (t.glb.done, t.served 0) | _ => (1, [])) = (0, [[0, 0x80]]) ∧
    awaitIrq 7 1 2 lineHigh = .gaveUp lineHigh := by decide

/-- CTRL_RESET resting at T4 with its loop index out of range is no state of the invariant, and T4 leads to channel 0. -/
theorem test_reset_loop_index :
    { s1 with seq := .busy { SeqRun.init .ctrlReset .T4 0 with i := 8 } }.seqOk = false ∧
    (nextOf (step { s1 with seq := .busy (SeqRun.init .ctrlReset .T4 0), plan := [.seq, .rest] })).map
      Machine.State.seq = some (.busy (SeqRun.init .ctrlReset .T5 0)) := by decide

/-- The program's own FLD_MOD clears a stale soft-reset bit before the activation, and not after it. -/
theorem test_srst_clean_by_program :
    (withChan 3 { Chan.reset with srst := true }).SrstClean
      [.ctrlReset, .fldMod .chctlSrst 3 0, .chActivate 3] 3 ∧
    ¬ (withChan 3 { Chan.reset with srst := true }).SrstClean [.chActivate 3, .fldMod .chctlSrst 3 0] 3 := by
  unfold Machine.State.SrstClean
  decide

/-! ## Witnesses: for each obligation with hypotheses, values that meet them -/

theorem inv_s1 : s1.Inv := ⟨by decide, by decide, by decide, by decide⟩
theorem inv_bound3 : bound3.Inv := ⟨by decide, by decide, by decide, by decide⟩
theorem noRest_bound3 : bound3.NoRest := by unfold Machine.State.NoRest; decide
theorem quiet_s1 : s1.Quiet ∧ { s1 with plan := [.seq, .seq] }.Quiet := by unfold Machine.State.Quiet; decide
theorem quiet_bound3 : bound3.Quiet := by unfold Machine.State.Quiet; decide
theorem inv_stale5 : stale5.Inv := ⟨by decide, by decide, by decide, by decide⟩

/-- Two moves of other agents, then SEQ, one more, then SEQ, and a rest left over. -/
def busyPlan : List Turn := [.eng (.complete 3), .irqh 0, .seq, .eng (.selfDisable 3), .seq, .rest]

theorem seqTurn_empty : seqTurn [] [] [] := by unfold seqTurn; decide
theorem seqTurn_busy : seqTurn busyPlan [.eng (.complete 3), .irqh 0] [.eng (.selfDisable 3), .seq, .rest] := by
  unfold seqTurn; decide
theorem seqAfterTwice_s1 : s1.seqAfterTwice [] [] [] := ⟨[], seqTurn_empty, seqTurn_empty⟩
theorem seqAfterTwice_busy : { active3 with plan := busyPlan }.seqAfterTwice [.eng (.complete 3), .irqh 0]
    [.eng (.selfDisable 3)] [.rest] := ⟨_, seqTurn_busy, by unfold seqTurn; decide⟩

theorem witness_DecodeEncodeRoundTrip : (Instr.fldMod .tmoEn 255 0xFFFFFFFF).wf = true ∧
    (Instr.bufWr 255 0 (List.replicate 65535 0)).wf = true := by
  refine ⟨by decide, ?_⟩
  rw [Instr.wf, dataLenOk, List.length_replicate]; rfl

theorem witness_EncodeDecodeCanonical : decode [0x240700FF - 0xFE, 0xFFFFFFFF, 0x000000FF] =
    .ok (.bufWr 7 0xFFFFFFFF [0xFF]) := by decide

theorem witness_StepRunsDecodedCommand :
    s1.seq = .idle ∧ { s1 with cmdIn := [[0x16080001], [0x0]] }.cmdIn = [0x16080001] :: [[0x0]] ∧
    decode [0x16080001] = .ok (.setMask 8 true) ∧ (Instr.setMask 8 true).wf = true := by decide

theorem witness_IllegalPacketRaisesIllegalCommand :
    (s1.seq = .idle ∧ decode [0x10010000] = .error .unknownHeader) ∧
    (s1.irqh[0]? = some IrqPort.reset ∧ IrqPort.reset.run = .idle ∧
      { IrqPort.reset with inbox := [[0x11000000]] }.inbox = [[0x11000000]] ∧
      decode [0x11000000] ≠ .ok .handleIrq) := by decide

theorem witness_IdleMachineWaits :
    (s1.seq = .idle ∧ s1.cmdIn = [] ∧ s1.plan = []) ∧
    ({ s1 with plan := busyPlan }.seq = .idle ∧ { s1 with plan := busyPlan }.cmdIn = [] ∧
      { s1 with plan := busyPlan }.plan = .eng (.complete 3) :: busyPlan.tail) := by decide

/-- SEQ BUSY with CTRL_ENABLE at its second micro-step. -/
def atE2 : Machine.State := { s1 with seq := .busy { SeqRun.init .ctrlEnable .E1 0 with step := .E2 } }

/-- SEQ BUSY at the spin of `new5`, the disable pending; the soft-reset bit is set, so that no later step draws. -/
def atK3 : Machine.State :=
  { withChan 5 { Chan.reset with en := true, srst := true, disPending := true } with
    seq := .busy { SeqRun.init new5 .K3 0x180 with ba := 0x123456780 } }

theorem witness_BusySequencerAcceptsNothing :
    (atE2.seq = .busy { SeqRun.init .ctrlEnable .E1 0 with step := .E2 } ∧ ∃ t, step atE2 = .next t ∧ t.seq = .idle) ∧
    (atK3.seq = .busy { SeqRun.init new5 .K3 0x180 with ba := 0x123456780 } ∧
      ∃ t, step atK3 = .next t ∧ ∃ r, t.seq = .busy r) :=
  ⟨⟨rfl, _, rfl, rfl⟩, rfl, _, rfl, _, rfl⟩

theorem witness_FieldInsertTruncatesAndPreserves :
    (0 ≤ 31 ∧ 31 ≤ 31) ∧ (31 ≤ 31 ∧ 31 ≤ 31 ∧ 0 ≤ 30 ∧ 30 ≤ 31 ∧ (30 < 31 ∨ 31 < 0)) ∧
    (0 ≤ 0 ∧ 0 ≤ 31 ∧ 1 ≤ 31 ∧ 31 ≤ 31 ∧ (31 < 0 ∨ 0 < 1)) := by decide

theorem witness_StatusDecoderIsTheSum :
    (0xEEEEEEEF#32 &&& 0x11111111#32 = 0x00000001#32 &&& 0x11111111#32) ∧ 0xEEEEEEEF#32 ≠ 0x00000001#32 := by decide

theorem witness_FieldPlacesAsListed : (0#8).toNat < 8 ∧ (7#8).toNat < 8 ∧
    (Fld.isCh .tmoEn = true ∧ 8 ≤ (8#8).toNat) ∧ Fld.isCh .ctlAll = false := by decide

theorem witness_RegisterReadsReturnStoredBits : regAt 0x10 = some .reserved ∧ regAt 0x3C = some .reserved ∧
    regAt 0x64 = some .reserved ∧ regAt 0x1FC = some .reserved := by decide

theorem witness_RegisterWritesStoreAndPreserve :
    (regAt 0x04 = some .chselL ∧ regAt 0x220 = some (.chan 7 .tmo) ∧ regAt 0x20 = some .dmaBind ∧
      regAt 0x3C = some .reserved) ∧ Reg.chselL ≠ .dmaCtl ∧ Reg.chan 7 .tmo ≠ .dmaStat ∧
    (∀ i, Reg.chan 7 .tmo ≠ .chan i .ctl) ∧ (∀ i, Reg.dmaBind ≠ .chan i .ctl) := by decide

theorem witness_GlobalControlWrite :
    (¬ (s1.glb.srst = false ∧ (1#32).getLsbD 1 = true)) ∧
    (s1.glb.en = false ∧ (2#32).getLsbD 0 = false ∧ s1.glb.bound = 0#8 ∧ s1.glb.chselL = 0#32 ∧ s1.glb.chselH = 0#32) ∧
    ((bound3.glb.srst = false ∧ (2#32).getLsbD 1 = true) ∧
      ¬ (bound3.glb.en = false ∧ (2#32).getLsbD 0 = false ∧ bound3.glb.bound = 0#8)) := by decide

theorem witness_ChannelControlWrite :
    -- a write without meaning: the soft-reset bit on an enabled channel, and enable with soft reset
    ((active3.chan 3).srst = false ∧ (2#32).getLsbD 1 = true ∧ (active3.chan 3).en = true) ∧
    ((3#32).getLsbD 0 = true ∧ (3#32).getLsbD 1 = true ∧ (s1.chan 0).en = false) ∧
    -- a soft-reset event with a meaning
    ((s1.chan 0).srst = false ∧ (2#32).getLsbD 1 = true ∧ (s1.chan 0).en = false ∧ (2#32).getLsbD 0 = false) ∧
    -- no event: activation, an enabled channel enabled again, disabled, an inactive channel disabled
    ((1#32).getLsbD 1 = false ∧ (1#32).getLsbD 0 = true ∧ (bound3.chan 3).en = false) ∧
    ((1#32).getLsbD 0 = true ∧ (active3.chan 3).en = true ∧ (active3.chan 3).disPending = false) ∧
    ((4#32).getLsbD 0 = false ∧ (active3.chan 3).en = true) ∧
    ((4#32).getLsbD 0 = false ∧ (bound3.chan 3).en = false) := by decide

theorem witness_EngineMovesAreExact :
    ((active3.chan 3).en = true ∧ (active3.chan 3).armed = true ∧ (active3.sw.needsCtlEn = true → active3.glb.en = true)) ∧
    (bound3.chan 3).en = false ∧ (stale5.chan 5).armed = false ∧ (s1.sw.needsCtlEn = true ∧ s1.glb.en = false) ∧
    (atK3.chan 5).disPending = true := by decide

theorem witness_OtherAgentsLeaveSoftwareState : (active3.chan 3).en = true ∧ flags017.doneFlag 7 = true := by decide

theorem witness_OnlyCompletionSetsDone :
    ∃ t, step { flags017 with plan := [.eng (.complete 1)] } = .next t ∧
      Turn.eng (.complete 7) ∉ { flags017 with plan := [.eng (.complete 1)] }.plan ∧ t.doneFlag 7 = true :=
  ⟨_, rfl, by decide, by decide⟩

/-- Channel 3 active, flags set, HANDLE_IRQ waiting on the service port. -/
def serving : Machine.State :=
  { active3 with glb := { active3.glb with done := 0x81 }
                 irqh := [{ IrqPort.reset with inbox := [[0x30000000], [0x11000000]] }] }

theorem witness_ServicePortRunsHandleIrq :
    serving.irqh[0]? = some { IrqPort.reset with inbox := [[0x30000000], [0x11000000]] } ∧
    { IrqPort.reset with inbox := [[0x30000000], [0x11000000]] }.run = .idle ∧
    { IrqPort.reset with inbox := [[0x30000000], [0x11000000]] }.inbox = [0x30000000#32] :: [[0x11000000]] ∧
    ([EngMove.complete 3].map Turn.eng) = [.eng (.complete 3)] := by decide

theorem witness_FaultFlagsStaySet :
    ∃ t, step { atE2 with fltContract := true, fltIllegal := true } = .next t ∧
      { atE2 with fltContract := true, fltIllegal := true }.fltContract = true := ⟨_, rfl, rfl⟩

theorem witness_StepKeepsInvariant : { bound3 with cmdIn := [[0x20030000]] }.Inv ∧
    ∃ t, step { bound3 with cmdIn := [[0x20030000]] } = .next t := ⟨⟨by decide, by decide, by decide, by decide⟩, _, rfl⟩

theorem witness_StepStopsOnlyAsListed :
    { bound3 with cmdIn := [[0x20020000]] }.Inv ∧
    step { bound3 with cmdIn := [[0x20020000]] } = .refused .noChannel ∧
    step { bound3 with cmdIn := [[0x03000002, 0x1]] } = .refused .ctlResetUnspecified ∧
    step { bound3 with cmdIn := [[0x02020086, 0x3]] } = .refused .chCtlUnspecified :=
  ⟨⟨by decide, by decide, by decide, by decide⟩, rfl, rfl, rfl⟩

theorem witness_DriverCommandsNeverRefused :
    isDriver (.chActivate 3) = true ∧ (∀ i, targetOf (.chActivate 3) = some i →
      (needsChannel (.chActivate 3) = true → (bound3.desc i).isSome = true) ∧
      (∀ idx, Instr.chActivate 3 = .chActivate idx → (bound3.chan i).srst = false)) := by
  refine ⟨rfl, fun i h => ?_⟩
  have hi : i = 3 := by simpa [targetOf, chanIdx?] using h.symm
  subst hi
  exact ⟨fun _ => by decide, fun _ _ => by decide⟩

theorem witness_DriverCommandsRespondOnce :
    (isDriver (.chActivate 3) = true ∧ bound3.NoRest ∧ bound3.readyFor (.chActivate 3)) ∧
    (isDriver new5 = true ∧ s1.NoRest ∧ s1.readyFor new5) := by
  refine ⟨⟨rfl, by simp [Machine.State.NoRest, bound3, s1, withChan, Machine.State.setChan, Machine.State.reset], ?_⟩,
    rfl, by simp [Machine.State.NoRest, s1, Machine.State.reset], ?_⟩
  · intro i h
    have hi : i = 3 := by simpa [targetOf, chanIdx?] using h.symm
    subst hi
    exact ⟨fun _ => by decide, fun _ _ => by decide, fun _ _ _ _ _ _ _ e => by cases e⟩
  · intro i h
    have hi : i = 5 := by simpa [targetOf, chanIdx?, new5] using h.symm
    subst hi
    refine ⟨fun e => by simp [needsChannel, new5] at e, ?_, ?_⟩
    · intro idx e; simp [new5] at e
    · intro idx slave dir irq size dev tmo _; decide

theorem witness_ContractViolationsAsListed :
    s1.contractCause (.newChannel 8 31 false false 4 0 0) = true ∧
    s1.contractCause (.newChannel 7 32 false false 4 0 0) = true ∧
    bound3.contractCause (.bufWr 3 9 []) = true ∧ bound3.contractCause (.bufRd 3 0xFFFFFFFF 2) = true ∧
    s1.contractCause (.fldRd .statDone 8) = true ∧
    (s1.contractCause (.newChannel 7 31 false false 4 0 0) = false ∧
      ∃ t, exec (.newChannel 7 31 false false 4 0 0) { s1 with allocs := [none] } = .next t) :=
  ⟨by decide, by decide, by decide, by decide, by decide, by decide, _, rfl⟩

theorem witness_ChannelCommandsNeedChannel :
    (needsChannel (.bufRd 8 0 1) = true ∧ targetOf (.bufRd 8 0 1) = none) ∧
    (needsChannel (.chActivate 7) = true ∧ targetOf (.chActivate 7) = some 7 ∧ bound3.desc 7 = none) := by decide

theorem witness_WhoWritesBoundBitsAndGie :
    (∃ t, exec .ctrlReset bound3 = .next t ∧ isRawWrite .ctrlReset = false ∧ t.boundBit 3 ≠ bound3.boundBit 3) ∧
    (∃ t, exec new5 { s1 with allocs := [some 0x123456780] } = .next t ∧ isRawWrite new5 = false ∧
      t.boundBit 5 ≠ s1.boundBit 5) ∧
    (∃ t, exec .handleIrq (withGlb { s1.glb with gie := true }) = .next t ∧ t.glb.gie = true) :=
  ⟨⟨_, rfl, rfl, by decide⟩, ⟨_, rfl, rfl, by decide⟩, _, rfl, rfl⟩

theorem witness_CommandsLeaveOtherChannels :
    bound3.Inv ∧ (∃ t, exec new5 { bound3 with allocs := [some 0x123456780] } = .next t) ∧ new5 ≠ .ctrlReset ∧
    isRawWrite new5 = false ∧ targetOf new5 ≠ some 3 := ⟨inv_bound3, ⟨_, rfl⟩, by decide, rfl, by decide⟩

theorem witness_FieldReadReturnsField :
    (Fld.isCh .chctlEn = true ∧ 8 ≤ (8#8).toNat) ∧
    (fldLoc .tmoEn 7 = some ⟨0x220, 31, 31⟩ ∧ regAt 0x220 = some (.chan 7 .tmo) ∧
      { active3 with plan := busyPlan }.seqAfter [.eng (.complete 3), .irqh 0] [.eng (.selfDisable 3), .seq, .rest]) :=
  ⟨by decide, by decide, by decide, seqTurn_busy⟩

theorem witness_FieldWriteZeroesTheRest :
    (Fld.isCh .statDone = true ∧ 8 ≤ (8#8).toNat) ∧
    (fldLoc .chctlSrst 2 = some ⟨0xD8, 1, 1⟩ ∧ regAt 0xD8 = some (.chan 2 .ctl) ∧ s1.seqAfter [] [] ∧
      (s1.others []).writeDefined (ins 0#32 1 1 1) (.chan 2 .ctl) = true) ∧
    (fldLoc .chctlSrst 3 = some ⟨0x118, 1, 1⟩ ∧ regAt 0x118 = some (.chan 3 .ctl) ∧ active3.seqAfter [] [] ∧
      (active3.others []).writeDefined (ins 0#32 1 1 1) (.chan 3 .ctl) = false) :=
  ⟨by decide, ⟨by decide, by decide, seqTurn_empty, by decide⟩, by decide, by decide, seqTurn_empty, by decide⟩

theorem witness_FieldModifyReadsThenWrites :
    (Fld.isCh .maskChm = true ∧ 8 ≤ (255#8).toNat) ∧
    (fldLoc .maskGie 0 = some ⟨0x0C, 31, 31⟩ ∧ regAt 0x0C = some .dmaMask ∧
      { active3 with plan := busyPlan }.seqAfterTwice [.eng (.complete 3), .irqh 0] [.eng (.selfDisable 3)] [.rest] ∧
      ({ active3 with plan := busyPlan }.others []).writeDefined 0x800000FF .dmaMask = true) ∧
    (fldLoc .ctlSrst 0 = some ⟨0x00, 1, 1⟩ ∧ regAt 0x00 = some .dmaCtl ∧ bound3.seqAfterTwice [] [] [] ∧
      bound3.writeDefined (ins (bound3.readVal .dmaCtl) 1 1 1) .dmaCtl = false) :=
  ⟨by decide, ⟨by decide, by decide, seqAfterTwice_busy, by decide⟩,
    by decide, by decide, ⟨[], seqTurn_empty, seqTurn_empty⟩, by decide⟩

theorem witness_ModifyOfStatusLosesFlags : (7#8).toNat = (7 : Fin 8).val ∧ s1.seqAfterTwice [] [] [] :=
  ⟨by decide, seqAfterTwice_s1⟩

/-- The plan of R146 (b). -/
def reactivating : Machine.State := { active3 with plan := [.seq, .eng (.selfDisable 3), .seq] }

theorem witness_ModifyCanReactivateChannel : (3#8).toNat = (3 : Fin 8).val ∧ (reactivating.chan 3).en = true ∧
    (reactivating.chan 3).srst = false ∧ reactivating.sw.selfDisable = true ∧
    reactivating.plan = [.seq, .eng (.selfDisable 3), .seq] := by decide

theorem witness_ControllerReset : { active3 with plan := [.eng (.complete 3), .seq, .irqh 0] }.Inv ∧
    { active3 with plan := [.eng (.complete 3), .seq, .irqh 0] }.NoRest :=
  ⟨⟨by decide, by decide, by decide, by decide⟩, by simp [Machine.State.NoRest]⟩

theorem witness_ControllerEnableAndDisable : { active3 with plan := busyPlan }.seqAfterTwice
    [.eng (.complete 3), .irqh 0] [.eng (.selfDisable 3)] [.rest] := seqAfterTwice_busy

theorem witness_NewChannelBindsChannel :
    { s1 with allocs := [some 0x80000080] }.Inv ∧ { s1 with allocs := [some 0x80000080] }.NoRest ∧
    (7#8).toNat = (7 : Fin 8).val ∧ (31#8).toNat < 32 ∧ s1.boundBit 7 = false ∧ (s1.chan 7).en = false ∧
    valid 0x80000080 4 = true ∧ { s1 with allocs := [some 0x80000080] }.Quiet :=
  ⟨⟨by decide, by decide, by decide, by decide⟩, by simp [Machine.State.NoRest, s1, Machine.State.reset],
    by decide, by decide, by decide, by decide, by decide, quiet_s1.1⟩

theorem witness_NewChannelOnBoundIndexAnswersNone : (3#8).toNat = (3 : Fin 8).val ∧ (0#8).toNat < 32 ∧
    { active3 with plan := busyPlan }.boundBit 3 = true ∧
    { active3 with plan := busyPlan }.seqAfter [.eng (.complete 3), .irqh 0] [.eng (.selfDisable 3), .seq, .rest] :=
  ⟨by decide, by decide, by decide, seqTurn_busy⟩

theorem witness_NewChannelConstructionFailure :
    s1.NoRest ∧ (1#8).toNat = (1 : Fin 8).val ∧ (4#8).toNat < 32 ∧ s1.boundBit 1 = false ∧
    (∀ ba, (none : Option BusAddr) = some ba → valid ba 8 = false) ∧
    (∀ ba, some (0x80000102 : BusAddr) = some ba → valid ba 8 = false) ∧ s1.Quiet :=
  ⟨by simp [Machine.State.NoRest, s1, Machine.State.reset], by decide, by decide, by decide,
    fun _ h => (Option.some_ne_none _ h.symm).elim, fun ba h => by cases h; decide, quiet_s1.1⟩

/-- The acknowledge before the first read of the spin. -/
def staleFirst : List Turn := List.replicate 7 .seq ++ [.eng (.ackDisable 5)]

theorem witness_NewChannelResetsStaleChannel :
    { stale5 with plan := staleFirst }.Inv ∧ staleFirst = List.replicate (7 + 0) .seq ++ [.eng (.ackDisable 5)] ∧ (5#8).toNat = (5 : Fin 8).val ∧
    (31#8).toNat < 32 ∧ stale5.boundBit 5 = false ∧ (stale5.chan 5).en = true ∧
    stale5.allocs = some 0x123456780 :: [] ∧ valid 0x123456780 64 = true :=
  ⟨⟨by decide, by decide, by decide, by decide⟩, by decide, by decide, by decide, by decide, by decide, by decide,
    by decide⟩

theorem witness_SpinWithoutAcknowledgeNeverResponds :
    (stale5.plan = [] ∧ (5#8).toNat = (5 : Fin 8).val ∧ (31#8).toNat < 32 ∧ stale5.boundBit 5 = false ∧
      (stale5.chan 5).en = true ∧ stale5.allocs = some 0x123456780 :: [] ∧ valid 0x123456780 64 = true) ∧
    (atK3.seq = .busy { SeqRun.init new5 .K3 0x180 with ba := 0x123456780 } ∧ (SeqRun.init new5 .K3 0x180).cmd = new5 ∧
      (SeqRun.init new5 .K3 0x180).step = .K3 ∧ (SeqRun.init new5 .K3 0x180).cb.toNat = 0x40 + 0x40 * (5 : Fin 8).val ∧
      (atK3.chan 5).en = true ∧ atK3.plan = []) := by decide

/-- A run that meets the premises: at the spin, the acknowledge given, then idle for ever. -/
def spinRun : Nat → Machine.State
  | 0 => { atK3 with plan := [.eng (.ackDisable 5)] }
  | n + 1 => (nextOf (step (spinRun n))).getD s1

theorem step_of_nextOf {s t : Machine.State} (h : nextOf (step s) = some t) : step s = .next t := by
  revert h; cases step s <;> simp [nextOf]

theorem spinRun_first : step (spinRun 0) = .next (spinRun 1) := step_of_nextOf (by decide +kernel)

theorem spinRun_settled : ∀ i : Fin 8, ((spinRun 1).chan i).disPending = false := by decide +kernel

theorem spinRun_again : step (spinRun 1) = .next (spinRun 1) := step_of_nextOf (by decide +kernel)

theorem spinRun_idle (n : Nat) : spinRun (n + 1) = spinRun 1 := by
  induction n with
  | zero => rfl
  | succ n ih =>
    have e : spinRun (n + 1 + 1) = (nextOf (step (spinRun (n + 1)))).getD s1 := rfl
    rw [e, ih, spinRun_again]; rfl

theorem feed_nothing (s : Machine.State) : s.feed ⟨[], [], [], []⟩ = s := by
  have h : feedPorts s.irqh [] = s.irqh := by cases s.irqh <;> rfl
  simp [Machine.State.feed, h]

theorem witness_SpinEndsUnderFairness :
    IsRun spinRun ∧ EngAckFair spinRun ∧ (∀ n, (spinRun n).NoRest) ∧ (spinRun 0).Inv ∧
    (spinRun 0).seq = .busy { SeqRun.init new5 .K3 0x180 with ba := 0x123456780 } ∧
    (SeqRun.init new5 .K3 0x180).step = .K3 ∧ targetOf (SeqRun.init new5 .K3 0x180).cmd = some 5 ∧
    ((spinRun 0).chan 5).disPending = true := by
  refine ⟨?_, ?_, ?_, ⟨by decide, by decide, by decide, by decide⟩, rfl, rfl, by decide, by decide⟩
  · intro n
    refine ⟨spinRun (n + 1), ⟨[], [], [], []⟩, ?_, (feed_nothing _).symm⟩
    cases n with
    | zero => exact spinRun_first
    | succ n => rw [spinRun_idle n, spinRun_idle (n + 1)]; exact spinRun_again
  · intro i n _
    refine ⟨n + 1, Nat.lt_succ_self n, ?_⟩
    rw [spinRun_idle n]; exact spinRun_settled i
  · intro n
    cases n with
    | zero => unfold Machine.State.NoRest; decide
    | succ n => rw [spinRun_idle n]; unfold Machine.State.NoRest; decide +kernel

theorem witness_IsCompleteReadsFlag : 8 ≤ (8#8).toNat ∧ ((0#8).toNat = (0 : Fin 8).val ∧
    { active3 with plan := busyPlan }.seqAfter [.eng (.complete 3), .irqh 0] [.eng (.selfDisable 3), .seq, .rest]) :=
  ⟨by decide, by decide, seqTurn_busy⟩

theorem witness_ClearCompleteClearsOneFlag : 8 ≤ (255#8).toNat ∧ (7#8).toNat = (7 : Fin 8).val ∧ s1.seqAfter [] [] :=
  ⟨by decide, by decide, seqTurn_empty⟩

theorem witness_SetMaskChangesOneBit : 8 ≤ (8#8).toNat ∧ (7#8).toNat = (7 : Fin 8).val ∧ s1.seqAfterTwice [] [] [] :=
  ⟨by decide, by decide, seqAfterTwice_s1⟩

/-- Channel 3 bound with a stale soft-reset bit. -/
def dirty3 : Machine.State := bound3.setChan 3 { bound3.chan 3 with srst := true }

/-- Channel 3 active with the soft-reset bit set. -/
def dirtyActive3 : Machine.State := active3.setChan 3 { active3.chan 3 with srst := true }

theorem noRest_dirty3 : dirty3.NoRest := by unfold Machine.State.NoRest; decide

theorem witness_ActivateEnablesChannel :
    ((3#8).toNat = (3 : Fin 8).val ∧ (active3.desc 3).isSome = true ∧ (active3.chan 3).srst = false ∧
      { active3 with plan := busyPlan }.seqAfterTwice [.eng (.complete 3), .irqh 0] [.eng (.selfDisable 3)] [.rest]) ∧
    ((dirty3.desc 3).isSome = true ∧ (dirty3.chan 3).srst = true ∧ (dirty3.chan 3).en = false ∧ dirty3.NoRest) ∧
    -- the soft-reset bit on an active channel: still active at A2, or disabled by ENG before it
    ((dirtyActive3.desc 3).isSome = true ∧ (dirtyActive3.chan 3).srst = true ∧
      dirtyActive3.seqAfterTwice [] [] [] ∧ (dirtyActive3.chan 3).en = true ∧
      { dirtyActive3 with plan := busyPlan }.seqAfterTwice [.eng (.complete 3), .irqh 0] [.eng (.selfDisable 3)] [.rest] ∧
      ((dirtyActive3.engMove (.selfDisable 3)).chan 3).en = false) :=
  ⟨⟨by decide, by decide, by decide, seqAfterTwice_busy⟩, ⟨by decide, by decide, by decide, noRest_dirty3⟩,
    by decide, by decide, ⟨[], seqTurn_empty, seqTurn_empty⟩, by decide, ⟨_, seqTurn_busy, by unfold seqTurn; decide⟩,
    by decide⟩

theorem witness_DeactivateRequestsDisable : (3#8).toNat = (3 : Fin 8).val ∧ (active3.desc 3).isSome = true ∧
    active3.seqAfterTwice [] [] [] ∧ bound3.seqAfterTwice [] [] [] :=
  ⟨by decide, by decide, ⟨[], seqTurn_empty, seqTurn_empty⟩, ⟨[], seqTurn_empty, seqTurn_empty⟩⟩

theorem witness_IsRunningReadsLiveBit : (3#8).toNat = (3 : Fin 8).val ∧ (active3.desc 3).isSome = true ∧
    { active3 with plan := busyPlan }.seqAfter [.eng (.complete 3), .irqh 0] [.eng (.selfDisable 3), .seq, .rest] :=
  ⟨by decide, by decide, seqTurn_busy⟩

theorem witness_BufferWriteStoresBytes : bound3.NoRest ∧ (3#8).toNat = (3 : Fin 8).val ∧
    bound3.desc 3 = some desc8 ∧ Memory.wf desc8.buf = true ∧ (6#32).toNat + [1#8, 0#8].length ≤ desc8.size.toNat ∧
    (8#32).toNat + ([] : List Byte).length ≤ desc8.size.toNat ∧ bound3.Quiet :=
  ⟨noRest_bound3, by decide, by decide, by decide, by decide, by decide, quiet_bound3⟩

theorem witness_BufferReadReturnsBytes : bound3.NoRest ∧ (3#8).toNat = (3 : Fin 8).val ∧
    bound3.desc 3 = some desc8 ∧ (0#32).toNat + (8#16).toNat ≤ desc8.size.toNat ∧
    (8#32).toNat + (0#16).toNat ≤ desc8.size.toNat ∧ bound3.Quiet :=
  ⟨noRest_bound3, by decide, by decide, by decide, by decide, quiet_bound3⟩

theorem witness_BufferRoundTrip : bound3.NoRest ∧ (3#8).toNat = (3 : Fin 8).val ∧ bound3.desc 3 = some desc8 ∧
    Memory.wf desc8.buf = true ∧ (6#32).toNat + [1#8, 0#8].length ≤ desc8.size.toNat ∧
    (2#16).toNat = [1#8, 0#8].length ∧ (desc8.dir = false ∨ desc8.streamed = false) := ⟨noRest_bound3, by decide⟩

theorem witness_HandleIrqReportsAndClears : { active3 with plan := busyPlan }.seqAfterTwice
    [.eng (.complete 3), .irqh 0] [.eng (.selfDisable 3)] [.rest] := seqAfterTwice_busy

/-- The window of R222 (c). -/
def losing : Machine.State := { active3 with plan := [.seq, .eng (.complete 3), .seq] }

theorem witness_HandleIrqCanLoseCompletion : (losing.chan 3).en = true ∧ (losing.chan 3).armed = true ∧
    losing.glb.en = true ∧ losing.doneFlag 3 = false ∧ losing.plan = [.seq, .eng (.complete 3), .seq] := by decide

theorem witness_HandleIrqLowersLine : losing.NoRest := by unfold Machine.State.NoRest; decide

end Sys2Proof.Tests
end

section
/-! SUPPORT. The frame of a register write, and the statements of 10_state.md and 20_memory.md that go by one unfolding of
`step`, by the register map, or by `step_keeps` (Laws/Micro.lean). -/

namespace Sys2Proof.Machine

open Sys2Proof.Config

/-! ## The frame of a register write -/

/-- Whatever register is written, nothing but the register file, the descriptors and the counter of free values moves
(R77 to R80). -/
theorem writeReg_frame {s t : State} {v : Word} {g : Reg} (h : s.writeReg v g = .ok t) :
    t = { s with glb := t.glb, chans := t.chans, draws := t.draws } := by
  cases g with
  | dmaCtl =>
    simp only [State.writeReg] at h
    cases hw : s.glb.writeCtl v with
    | error x => simp [hw, Except.map] at h
    | ok gl =>
      simp only [hw, Except.map, Except.ok.injEq] at h
      rw [← h]
  | chan i r =>
    cases r with
    | ctl =>
      simp only [State.writeReg, State.writeChReg] at h
      split at h
      · cases h
      · cases h
        rfl
    | _ => cases h; rfl
  | _ => cases h; rfl

/-! ## The command port (R23, R110) -/

/-- The command port's two queues are those of `s`. -/
def State.samePort (s t : State) : Prop := t.cmdIn = s.cmdIn ∧ t.cmdOut = s.cmdOut

/-- No micro-step takes a packet or responds of itself. -/
theorem samePort_stepClosed (s : State) : StepClosed s.samePort where
  read _ _ _ h := h
  write _ _ _ _ _ h hw := by
    rw [writeReg_frame hw]
    exact h
  alloc _ _ _ _ h := h
  memWrite _ _ _ _ _ h _ := h
  attach _ _ _ _ _ _ _ _ _ h hw := by
    rw [writeReg_frame hw]
    exact h

theorem Between.samePort {s t u : State} (h : Between t u) (ht : s.samePort t) : s.samePort u :=
  ⟨h.cmdIn.trans ht.1, h.cmdOut.trans ht.2⟩

/-- How a BUSY sequencer stands after a step: IDLE with one response sent, or BUSY with the same command and none. -/
def State.respondedOrBusy (s : State) (c : Instr) (t : State) : Prop :=
  t.cmdIn = s.cmdIn ∧
    ((t.seq = .idle ∧ ∃ q, t.cmdOut = s.cmdOut ++ [q]) ∨
      (∃ r, t.seq = .busy r ∧ r.cmd = c ∧ t.cmdOut = s.cmdOut))

/-- However far the driver gets with a command, it takes no packet, keeps the command and responds at most once. -/
theorem drive_respondedOrBusy (s : State) (n : Nat) (r : SeqRun) :
    Ends (s.respondedOrBusy r.cmd) (fun _ => True) (fun _ => True) (drive (microOf r.cmd) n r s) := by
  refine drive_ends (I := fun r' t => r'.cmd = r.cmd ∧ s.samePort t) (D := fun _ t => s.samePort t)
    (fun r' t u h hb => ⟨h.1, hb.samePort h.2⟩) (fun r' t h => ?_)
    (fun r' t h => ⟨h.2.1, .inr ⟨r', rfl, h.1, h.2.2⟩⟩)
    (fun q t h => ⟨h.1, .inl ⟨rfl, q.packet, by rw [State.respond_cmdOut, h.2]⟩⟩) n r s ⟨rfl, rfl, rfl⟩
  obtain ⟨hcmd, hport⟩ := h
  have hk := microOf_keeps (r := r') (samePort_stepClosed s) hport r.cmd
  cases hm : microOf r.cmd r' t with
  | goto r'' u =>
    rw [hm] at hk
    exact ⟨hk.2.trans hcmd, hk.1⟩
  | spin r'' u =>
    rw [hm] at hk
    exact ⟨hk.2.trans hcmd, hk.1⟩
  | done q u =>
    rw [hm] at hk
    exact hk
  | stop x => trivial
  | fault x => trivial

/-- A BUSY sequencer resumes its command, whatever waits on the command port. -/
theorem step_of_busy {s : State} {r : SeqRun} (h : s.seq = .busy r) : step s = resume r s := by
  simp [step, h]

/-- Settles O8: the assertion of `drive_respondedOrBusy`, for the resumed command. -/
theorem busySequencerAcceptsNothing : Obligations.BusySequencerAcceptsNothing := by
  intro s t r hbusy hstep
  have h := drive_respondedOrBusy s (budget r.cmd s) r
  rw [step_of_busy hbusy, resume] at hstep
  rw [hstep] at h
  exact h

/-! ## What no step changes (R25, R8, R26) -/

/-- The fault flags of `s` are still set, and its switches and the number of its service ports are as they were. -/
def State.flagsFrom (s t : State) : Prop :=
  (s.fltContract = true → t.fltContract = true) ∧ (s.fltIllegal = true → t.fltIllegal = true) ∧
    t.sw = s.sw ∧ t.irqh.length = s.irqh.length

theorem flagsFrom_stepClosed (s : State) : StepClosed s.flagsFrom where
  read _ _ _ h := h
  write _ _ _ _ _ h hw := by
    rw [writeReg_frame hw]
    exact h
  alloc _ _ _ _ h := h
  memWrite _ _ _ _ _ h _ := h
  attach _ _ _ _ _ _ _ _ _ h hw := by
    rw [writeReg_frame hw]
    exact h

theorem flagsFrom_machineClosed (s : State) : MachineClosed s.flagsFrom where
  toStepClosed := flagsFrom_stepClosed s
  between t u h hb := by
    obtain ⟨hc, hi, hsw, hp⟩ := h
    exact ⟨fun e => hb.fltContract.trans (hc e), fun e => hb.fltIllegal (hi e), hb.sw.trans hsw, hb.ports.trans hp⟩
  respond _ _ h := h
  suspend _ _ h := h
  setFault t x h := by
    obtain ⟨hc, hi, hsw, hp⟩ := h
    refine ⟨fun e => ?_, fun e => ?_, ?_, ?_⟩
    · rw [State.setFault_fltContract, hc e, Bool.true_or]
    · rw [State.setFault_fltIllegal, hi e, Bool.true_or]
    · rw [State.setFault_sw, hsw]
    · rw [State.setFault_irqh, hp]
  cmdIn _ _ h := h

/-- Settles O24: `flagsFrom` holds of the state itself and every effect of a step keeps it. -/
theorem faultFlagsStaySet : Obligations.FaultFlagsStaySet :=
  fun s _ hstep => step_keeps (flagsFrom_machineClosed s) hstep ⟨id, id, rfl, rfl⟩

/-! ## An IDLE sequencer with a packet waiting (R23, R105) -/

/-- An IDLE sequencer takes the first packet that waits. -/
theorem step_of_idle {s : State} {p : Packet} {rest : List Packet} (hs : s.seq = .idle) (hp : s.cmdIn = p :: rest) :
    step s = accept p { s with cmdIn := rest } := by
  simp [step, hs, hp]

/-- With no packet waiting, one turn of the schedule passes (R291). -/
theorem step_of_waiting {s : State} (hs : s.seq = .idle) (hp : s.cmdIn = []) : step s = .next s.idleTurn := by
  simp [step, hs, hp]

theorem accept_of_decode {p : Packet} {c : Instr} (h : decode p = .ok c) (s : State) : accept p s = exec c s := by
  simp [accept, h]

/-- Settles O5. -/
theorem stepRunsDecodedCommand : Obligations.StepRunsDecodedCommand := by
  intro s p rest c hs hp hd _
  rw [step_of_idle hs hp, accept_of_decode hd]

/-! ## The register map (R30, R38, R49, R73) -/

/-- The offsets that hold no register at all. -/
theorem regAt_eq_none_iff (off : Nat) : regAt off = none ↔ off % 4 ≠ 0 ∨ regionSize ≤ off := by
  unfold regAt
  split
  · rename_i h
    simp only [true_iff]
    exact h
  · rename_i h
    simp only [h, iff_false]
    split
    · simp
    · split <;> simp

/-- The nine registers of a channel block stand at their offsets from the block's base. -/
theorem regAt_block (i : Fin 8) (r : ChReg) : regAt (0x40 + 0x40 * i + r.off) = some (.chan i r) := by
  have hbase : 0x40 + 0x40 * i.val = chanBase i := by
    simp only [chanBase, chTableOff, chStride]
    omega
  rw [hbase]
  exact regAt_chOff i r

/-- The seven last words of a channel block are reserved; after channel 7 the region has ended (R49). -/
theorem regAt_block_rest : ∀ i : Fin 8, ∀ o ∈ [0x24, 0x28, 0x2C, 0x30, 0x34, 0x38, 0x3C],
    regAt (0x40 + 0x40 * i + o) = if i.val < 7 then some .reserved else none := by
  decide

/-- Settles O12. -/
theorem registerMapIsComplete : Obligations.RegisterMapIsComplete := by
  refine ⟨regAt_eq_none_iff, regAt_offCtl, regAt_offChselL, regAt_offStat, regAt_offMask, regAt_offBind, regAt_offCap,
    regAt_offChselH, by decide, fun i => ⟨?_, ?_, ?_, ?_, ?_, ?_, ?_, ?_, ?_, regAt_block_rest i⟩⟩
  · exact regAt_block i .addrUp
  · exact regAt_block i .addrLo
  · exact regAt_block i .devAddr
  · exact regAt_block i .xferSize
  · exact regAt_block i .curUp
  · exact regAt_block i .curLo
  · exact regAt_block i .ctl
  · exact regAt_block i .sts
  · exact regAt_block i .tmo

end Sys2Proof.Machine
end

section
/-! SUPPORT. Where SEQ can stand (10_state.md R23, R24): each micro-step of a command takes SEQ from a position that
`SeqRun.ok` allows to one that it allows, and what the other effects of a micro-step keep is kept beside it. -/

namespace Sys2Proof.Machine

open Sys2Proof.Config

/-! ## What `SeqRun.ok` says, command by command -/

/-- The position depends on the state through the descriptors alone. -/
theorem SeqRun.ok_congr {s t : State} (h : ∀ i, t.desc i = s.desc i) (r : SeqRun) : r.ok t = r.ok s := by
  unfold SeqRun.ok onBuffer
  simp only [h]

theorem onLabels_eq_true {idx : BitVec 8} {i : Fin 8} (hi : chanIdx? idx = some i) (r : SeqRun) (ls : List Label) :
    onLabels idx r ls = true ↔ r.cb = BitVec.ofNat 32 (chanBase i) ∧ r.step ∈ ls := by
  simp [onLabels, hi]

theorem onBuffer_eq_true {idx : BitVec 8} {i : Fin 8} (hi : chanIdx? idx = some i) (off : Word) (n k : Nat)
    (s : State) :
    onBuffer idx off n k s = true ↔ k < n ∧ ∃ d, s.desc i = some d ∧ bufInRange off n d = true := by
  simp [onBuffer, hi, Option.any_eq_true]

section
variable {r : SeqRun} {s : State}

theorem ok_ctrlReset (hc : r.cmd = .ctrlReset) :
    r.ok s = true ↔ (r.step ∈ resetBefore ∧ r.i = 0) ∨ (r.step ∈ resetLoop ∧ r.i.toNat < nCh) ∨
      (r.step ∈ resetAfter ∧ r.i = BitVec.ofNat 32 nCh) := by
  simp [SeqRun.ok, hc, or_assoc]

theorem ok_newChannel {idx slave : BitVec 8} {dir irq : Bool} {size dev : Word} {tmo : BitVec 30} {i : Fin 8}
    (hc : r.cmd = .newChannel idx slave dir irq size dev tmo) (hi : chanIdx? idx = some i) :
    r.ok s = true ↔ slave.toNat < nSlave ∧ r.cb = BitVec.ofNat 32 (chanBase i) ∧
      (r.step ∈ newBeforeAlloc ∨ (r.step ∈ newAfterAlloc ∧ valid r.ba size = true)) := by
  simp only [SeqRun.ok, hc, Bool.and_eq_true, Bool.or_eq_true, decide_eq_true_eq, onLabels_eq_true hi]
  tauto

theorem ok_bufWr {idx : BitVec 8} {off : Word} {data : List Byte} {i : Fin 8} {k : Nat}
    (hc : r.cmd = .bufWr idx off data) (hi : chanIdx? idx = some i) (hk : r.step = .W k) :
    r.ok s = true ↔ k < data.length ∧ ∃ d, s.desc i = some d ∧ bufInRange off data.length d = true := by
  simp only [SeqRun.ok, hc, hk, onBuffer_eq_true hi]

theorem ok_bufRd {idx : BitVec 8} {off : Word} {n : BitVec 16} {i : Fin 8} {k : Nat}
    (hc : r.cmd = .bufRd idx off n) (hi : chanIdx? idx = some i) (hk : r.step = .V k) :
    r.ok s = true ↔
      (k < n.toNat ∧ ∃ d, s.desc i = some d ∧ bufInRange off n.toNat d = true) ∧ r.r.length = k := by
  simp only [SeqRun.ok, hc, hk, Bool.and_eq_true, onBuffer_eq_true hi, beq_iff_eq]

end

/-! ## What a micro-step does from a position its command has -/

/-- A property of the state kept by everything a micro-step can do from a position its command has: as `StepClosed`,
but a byte is written inside its buffer, and a descriptor is attached with its bound bit written and past the
validator. -/
structure AccessClosed (P : State → Prop) : Prop where
  read : ∀ s n a, P s → P ((s.tick n).log a)
  write : ∀ s t v g a, P s → s.writeReg v g = .ok t → P (t.log a)
  alloc : ∀ s a n l, P s → P (({ s with allocs := l, draws := n } : State).log a)
  memWrite : ∀ s i d o b a, P s → s.desc i = some d → o < d.size.toNat →
    P ((s.setChan i { s.chan i with desc := some { d with buf := d.buf.write o b } }).log a)
  attach : ∀ s t w a (i : Fin 8) ba size dir, P s → s.writeReg (ins w i i 1) .dmaBind = .ok t → valid ba size = true →
    P ((t.log a).attach i (Desc.fresh ba size dir))

/-- A micro-step of command `c` that keeps `P` and leaves SEQ at a position the command has. -/
def StaysOk (P : State → Prop) (c : Instr) (m : Micro) : Prop :=
  m.Holds (fun r s => P s ∧ r.cmd = c ∧ r.ok s = true) (fun _ s => P s) (fun _ => True) (fun _ => True)

section
variable {P : State → Prop} {c : Instr} {r : SeqRun} {s : State}

theorem rdThen_stays (hP : AccessClosed P) (h : P s) {off : Nat} {k : Word → State → Micro}
    (hk : ∀ t s, P s → StaysOk P c (k t s)) : StaysOk P c (rdThen off s k) := by
  unfold rdThen rd32
  cases regAt off with
  | none => trivial
  | some g => exact hk _ _ (hP.read _ _ _ h)

theorem wrThen_stays (hP : AccessClosed P) (h : P s) {off : Nat} {v : Word} {k : State → Micro}
    (hk : ∀ s, P s → StaysOk P c (k s)) : StaysOk P c (wrThen off v s k) := by
  cases hg : regAt off with
  | none => simp [wrThen, wr32, hg, StaysOk]
  | some g =>
    cases hw : s.writeReg v g with
    | error x => simp [wrThen_of_error hg hw, StaysOk]
    | ok t =>
      rw [wrThen_of_ok hg hw]
      exact hk _ (hP.write _ _ _ _ _ h hw)

theorem modRead_stays (hP : AccessClosed P) (h : P s) {off : Nat} {next : Label} (hc : r.cmd = c)
    (hok : ∀ t s, ({ r with t := t, step := next } : SeqRun).ok s = true) : StaysOk P c (modRead off r next s) :=
  rdThen_stays hP h fun t s hs => ⟨hs, hc, hok t s⟩

theorem wrGoto_stays (hP : AccessClosed P) (h : P s) {off : Nat} {v : Word} {next : Label} (hc : r.cmd = c)
    (hok : ∀ s, ({ r with step := next } : SeqRun).ok s = true) : StaysOk P c (wrGoto off v r next s) :=
  wrThen_stays hP h fun s hs => ⟨hs, hc, hok s⟩

theorem modGoto_stays (hP : AccessClosed P) (h : P s) {off hi lo : Nat} {v : Word} {next : Label} (hc : r.cmd = c)
    (hok : ∀ s, ({ r with step := next } : SeqRun).ok s = true) : StaysOk P c (modGoto off hi lo v r next s) :=
  wrGoto_stays hP h hc hok

theorem wrDone_stays (hP : AccessClosed P) (h : P s) (off : Nat) (v : Word) (a : Resp) :
    StaysOk P c (wrThen off v s fun s => .done a s) :=
  wrThen_stays hP h fun _ hs => hs

theorem modDone_stays (hP : AccessClosed P) (h : P s) (off hi lo : Nat) (v : Word) :
    StaysOk P c (modDone off hi lo v r s) :=
  wrDone_stays hP h off _ _

theorem rdDone_stays (hP : AccessClosed P) (h : P s) (off : Nat) (a : Word → Resp) :
    StaysOk P c (rdThen off s fun t s => .done (a t) s) :=
  rdThen_stays hP h fun _ _ hs => hs

/-! ## CTRL_RESET -/

/-- Two labels of CTRL_RESET between which the loop index stays as it is: both before, both inside or both after the
loop. -/
def Label.samePart (l l' : Label) : Bool :=
  [resetBefore, resetLoop, resetAfter].any fun ls => ls.contains l && ls.contains l'

theorem ok_ctrlReset_samePart (hc : r.cmd = .ctrlReset) (hok : r.ok s = true) {l : Label}
    (hl : r.step.samePart l = true) (t : Word) (s' : State) :
    ({ r with t := t, step := l } : SeqRun).ok s' = true := by
  rw [ok_ctrlReset hc] at hok
  rw [ok_ctrlReset (r := { r with t := t, step := l }) hc]
  have hbl : ∀ x ∈ resetBefore, x ∉ resetLoop ∧ x ∉ resetAfter := by decide
  have hla : ∀ x ∈ resetLoop, x ∉ resetAfter := by decide
  simp only [Label.samePart, List.any_cons, List.any_nil, Bool.or_false, Bool.or_eq_true, Bool.and_eq_true,
    List.contains_iff_mem] at hl
  grind

theorem loopIndex_lt (hc : r.cmd = .ctrlReset) (hok : r.ok s = true) (hl : r.step ∈ resetLoop) : r.i.toNat < nCh := by
  have hout : ∀ x ∈ resetLoop, x ∉ resetBefore ∧ x ∉ resetAfter := by decide
  obtain ⟨hb, ha⟩ := hout _ hl
  rcases (ok_ctrlReset hc).1 hok with ⟨h, -⟩ | ⟨-, h⟩ | ⟨h, -⟩
  · exact absurd h hb
  · exact h
  · exact absurd h ha

/-- The end of the loop's turn leaves the index where the next label wants it (R190). -/
theorem resetNext_ok (hc : r.cmd = .ctrlReset) (h : r.i.toNat < nCh) (s : State) : (resetNext r).ok s = true := by
  have hi := resetNext_i h
  rw [ok_ctrlReset (r := resetNext r) hc, resetNext_step, hi]
  by_cases hlt : r.i.toNat + 1 < nCh
  · exact .inr (.inl ⟨by simp [hlt, resetLoop], hlt⟩)
  · refine .inr (.inr ⟨by simp [hlt, resetAfter], ?_⟩)
    apply BitVec.eq_of_toNat_eq
    rw [hi, BitVec.toNat_ofNat]
    simp only [nCh] at h hlt ⊢
    omega

theorem ctrlReset_stays (hP : AccessClosed P) (h : P s) (hc : r.cmd = .ctrlReset) (hok : r.ok s = true) :
    StaysOk P .ctrlReset (ctrlResetMicro r s) := by
  have within : ∀ {l l' : Label}, r.step = l → l.samePart l' = true → ∀ t s,
      ({ r with t := t, step := l' } : SeqRun).ok s = true :=
    fun hl hp => ok_ctrlReset_samePart hc hok (hl ▸ hp)
  unfold ctrlResetMicro
  split
  case h_1 hl | h_3 hl | h_7 hl | h_10 hl | h_12 hl | h_14 hl => exact modRead_stays hP h hc (within hl rfl)
  case h_2 hl | h_6 hl | h_8 hl | h_13 hl | h_15 hl => exact modGoto_stays hP h hc (within hl rfl r.t)
  case h_4 =>
    refine modGoto_stays (r := { r with i := 0 }) hP h hc fun s => ?_
    rw [ok_ctrlReset (r := { r with i := 0, step := .T5 }) hc]
    exact .inr (.inl ⟨by simp [resetLoop], by simp⟩)
  case h_5 hl =>
    refine rdThen_stays hP h fun t s hs => ⟨hs, hc, ?_⟩
    split
    · exact within hl rfl t s
    · exact within hl rfl t s
  case h_9 hl => exact wrGoto_stays hP h hc (within hl rfl r.t)
  case h_11 hl =>
    have hi := loopIndex_lt hc hok (by simp [hl, resetLoop])
    exact wrThen_stays hP h fun s hs => ⟨hs, hc, resetNext_ok hc hi s⟩
  case h_16 => exact wrDone_stays hP h _ _ _
  case h_17 => trivial

/-! ## NEW_CHANNEL -/

/-- Two labels of NEW_CHANNEL between which the allocator's answer stays as it is: both before the request, or both
after it. -/
def Label.sameSide (l l' : Label) : Bool :=
  [newBeforeAlloc, newAfterAlloc].any fun ls => ls.contains l && ls.contains l'

section
variable {idx slave : BitVec 8} {dir irq : Bool} {size dev : Word} {tmo : BitVec 30} {i : Fin 8}

theorem ok_newChannel_sameSide (hc : r.cmd = .newChannel idx slave dir irq size dev tmo)
    (hi : chanIdx? idx = some i) (hok : r.ok s = true) {l : Label} (hl : r.step.sameSide l = true) (t b : Word)
    (s' : State) : ({ r with t := t, b := b, step := l } : SeqRun).ok s' = true := by
  rw [ok_newChannel hc hi] at hok
  rw [ok_newChannel (r := { r with t := t, b := b, step := l }) hc hi]
  have hdisj : ∀ x ∈ newBeforeAlloc, x ∉ newAfterAlloc := by decide
  simp only [Label.sameSide, List.any_cons, List.any_nil, Bool.or_false, Bool.or_eq_true, Bool.and_eq_true,
    List.contains_iff_mem] at hl
  grind

/-- The one way over to the other side: an answer that passed the validator (R161). -/
theorem ok_newChannel_alloc (hc : r.cmd = .newChannel idx slave dir irq size dev tmo)
    (hi : chanIdx? idx = some i) (hok : r.ok s = true) {ba : BusAddr} (hv : valid ba size = true) (s' : State) :
    ({ r with ba := ba, step := .C2 } : SeqRun).ok s' = true := by
  obtain ⟨hs, hcb, -⟩ := (ok_newChannel hc hi).1 hok
  rw [ok_newChannel (r := { r with ba := ba, step := .C2 }) hc hi]
  exact ⟨hs, hcb, .inr ⟨by simp [newAfterAlloc], hv⟩⟩

theorem valid_of_ok_newChannel (hc : r.cmd = .newChannel idx slave dir irq size dev tmo)
    (hi : chanIdx? idx = some i) (hok : r.ok s = true) (hl : r.step ∈ newAfterAlloc) : valid r.ba size = true := by
  have hdisj : ∀ x ∈ newBeforeAlloc, x ∉ newAfterAlloc := by decide
  obtain ⟨-, -, hb | ⟨-, hv⟩⟩ := (ok_newChannel hc hi).1 hok
  · exact absurd hl (hdisj _ hb)
  · exact hv

theorem construct_stays (hP : AccessClosed P) (h : P s) (hc : r.cmd = .newChannel idx slave dir irq size dev tmo)
    (hi : chanIdx? idx = some i) (hok : r.ok s = true) :
    StaysOk P (.newChannel idx slave dir irq size dev tmo) (constructMicro dir size dev .N5 r s) := by
  have within : ∀ {l l' : Label}, r.step = l → l.sameSide l' = true → ∀ t s,
      ({ r with t := t, step := l' } : SeqRun).ok s = true :=
    fun hl hp t => ok_newChannel_sameSide hc hi hok (hl ▸ hp) t r.b
  unfold constructMicro
  split
  case h_1 =>
    unfold constructAlloc allocReq
    have ha := hP.alloc s (.alloc size bufAlign dir s.allocAnswer) (s.draws + 1) s.allocs.tail h
    cases hs : s.allocAnswer with
    | none =>
      rw [hs] at ha
      exact ha
    | some ba =>
      rw [hs] at ha
      simp only
      split
      · rename_i hv
        exact ⟨ha, hc, ok_newChannel_alloc hc hi hok hv _⟩
      · exact ha
  case h_2 hl =>
    refine rdThen_stays hP h fun t s hs => ⟨hs, hc, ?_⟩
    split
    · exact within hl rfl t s
    · exact within hl rfl t s
  case h_5 hl =>
    refine rdThen_stays hP h fun t s hs => ?_
    split
    · exact ⟨hs, hc, ok_newChannel_sameSide hc hi hok (l := r.step) (by rw [hl]; rfl) t r.b s⟩
    · exact ⟨hs, hc, within hl rfl t s⟩
  case h_3 hl | h_6 hl | h_8 hl | h_14 hl => exact modRead_stays hP h hc (within hl rfl)
  case h_4 hl | h_7 hl | h_9 hl | h_15 hl => exact modGoto_stays hP h hc (within hl rfl r.t)
  case h_10 hl | h_11 hl | h_12 hl | h_13 hl => exact wrGoto_stays hP h hc (within hl rfl r.t)
  case h_16 => trivial

theorem newChannel_stays (hP : AccessClosed P) (h : P s) (hc : r.cmd = .newChannel idx slave dir irq size dev tmo)
    (hi : chanIdx? idx = some i) (hok : r.ok s = true) :
    StaysOk P (.newChannel idx slave dir irq size dev tmo) (newChannelMicro slave dir irq size dev i r s) := by
  have within : ∀ {l l' : Label}, r.step = l → l.sameSide l' = true → ∀ t s,
      ({ r with t := t, step := l' } : SeqRun).ok s = true :=
    fun hl hp t => ok_newChannel_sameSide hc hi hok (hl ▸ hp) t r.b
  unfold newChannelMicro
  split
  case h_1 hl =>
    refine rdThen_stays hP h fun t s hs => ?_
    split
    · exact hs
    · exact ⟨hs, hc, ok_newChannel_sameSide hc hi hok (by rw [hl]; rfl) t t s⟩
  case h_2 hl | h_4 hl | h_6 hl | h_8 hl => exact modRead_stays hP h hc (within hl rfl)
  case h_3 hl | h_5 hl => exact modGoto_stays hP h hc (within hl rfl r.t)
  case h_7 hl =>
    have hv := valid_of_ok_newChannel hc hi hok (by rw [hl]; decide)
    cases hw : s.writeReg (ins r.t i i 1) .dmaBind with
    | error x =>
      rw [modWrite, wrThen_of_error regAt_offBind hw]
      trivial
    | ok t =>
      rw [modWrite, wrThen_of_ok regAt_offBind hw]
      exact ⟨hP.attach _ _ _ _ _ _ _ _ h hw hv, hc, within hl rfl r.t _⟩
  case h_9 => exact modDone_stays hP h _ _ _ _
  case h_10 => exact construct_stays hP h hc hi hok

end

/-! ## BUF_WR, BUF_RD -/

/-- A byte of a range that the bounds check allowed lies inside the buffer. -/
theorem lt_size_of_bufInRange {off : Word} {n k : Nat} {d : Desc} (h : bufInRange off n d = true) (hk : k < n) :
    off.toNat + k < d.size.toNat := by
  simp only [bufInRange, decide_eq_true_eq] at h
  omega

theorem bufWr_stays (hP : AccessClosed P) (h : P s) {idx : BitVec 8} {off : Word} {data : List Byte} {i : Fin 8}
    (hc : r.cmd = .bufWr idx off data) (hi : chanIdx? idx = some i) (hok : r.ok s = true) :
    StaysOk P (.bufWr idx off data) (bufWrMicro i off data r s) := by
  unfold bufWrMicro
  split
  · rename_i k hl
    obtain ⟨hk, d, hd, hr⟩ := (ok_bufWr hc hi hl).1 hok
    have hlt := lt_size_of_bufInRange hr hk
    have hs := hP.memWrite _ _ _ _ (data.getD k 0) (.memWr i (off.toNat + k) (data.getD k 0)) h hd hlt
    rw [memWrite_ok hd hlt]
    simp only
    split
    · rename_i hnext
      refine ⟨hs, hc, ?_⟩
      rw [ok_bufWr (r := { r with step := .W (k + 1) }) hc hi rfl]
      exact ⟨hnext, { d with buf := d.buf.write (off.toNat + k) (data.getD k 0) }, by simp [State.desc], hr⟩
    · exact hs
  · trivial

theorem bufRd_stays (hP : AccessClosed P) (h : P s) {idx : BitVec 8} {off : Word} {n : BitVec 16} {i : Fin 8}
    (hc : r.cmd = .bufRd idx off n) (hi : chanIdx? idx = some i) (hok : r.ok s = true) :
    StaysOk P (.bufRd idx off n) (bufRdMicro i off n r s) := by
  unfold bufRdMicro
  split
  · rename_i k hl
    obtain ⟨⟨hk, d, hd, hr⟩, hlen⟩ := (ok_bufRd hc hi hl).1 hok
    have hlt := lt_size_of_bufInRange hr hk
    rw [memRead_ok hd hlt]
    simp only
    split
    · rename_i hnext
      refine ⟨hP.read _ _ _ h, hc, ?_⟩
      rw [ok_bufRd (r := { r with step := .V (k + 1), r := _ }) hc hi rfl]
      exact ⟨⟨hnext, d, hd, hr⟩, by simp [hlen]⟩
    · exact hP.read _ _ _ h
  · trivial

/-! ## Every command -/

/-- A micro-step of a command, from a position the command has, ends at one it has. -/
theorem microOf_stays (hP : AccessClosed P) (h : P s) (hok : r.ok s = true) :
    StaysOk P r.cmd (microOf r.cmd r s) := by
  cases hc : r.cmd with
  | fldRd f idx =>
    simp only [microOf, onField]
    cases fldLoc f idx with
    | none => trivial
    | some l =>
      simp only [fldRdMicro]
      split
      · exact rdDone_stays hP h _ (fun t => .ok [ext t l.hi l.lo])
      · trivial
  | fldWr f idx value =>
    simp only [microOf, onField]
    cases fldLoc f idx with
    | none => trivial
    | some l =>
      simp only [fldWrMicro]
      split
      · exact wrDone_stays hP h _ _ _
      · trivial
  | fldMod f idx value =>
    simp only [microOf, onField]
    cases hl : fldLoc f idx with
    | none => trivial
    | some l =>
      simp only [fldModMicro]
      split
      · exact modRead_stays hP h hc fun t s => by simp [SeqRun.ok, hc, hl]
      · exact modDone_stays hP h _ _ _ _
      · trivial
  | ctrlReset => exact ctrlReset_stays hP h hc hok
  | ctrlEnable =>
    simp only [microOf, ctrlEnableMicro]
    split
    · exact modRead_stays hP h hc fun t s => by simp [SeqRun.ok, hc]
    · exact modDone_stays hP h _ _ _ _
    · trivial
  | ctrlDisable =>
    simp only [microOf, ctrlDisableMicro]
    split
    · exact modRead_stays hP h hc fun t s => by simp [SeqRun.ok, hc]
    · exact modDone_stays hP h _ _ _ _
    · trivial
  | newChannel idx slave dir irq size dev tmo =>
    simp only [microOf, onChan]
    cases hi : chanIdx? idx with
    | none => trivial
    | some i => exact newChannel_stays hP h hc hi hok
  | isComplete idx =>
    simp only [microOf, onChan]
    cases chanIdx? idx with
    | none => trivial
    | some i =>
      simp only [isCompleteMicro]
      split
      · exact rdDone_stays hP h _ (fun t => .ok [bitW (t.getLsbD (doneBit i))])
      · trivial
  | clrComplete idx =>
    simp only [microOf, onChan]
    cases chanIdx? idx with
    | none => trivial
    | some i =>
      simp only [clrCompleteMicro]
      split
      · exact wrDone_stays hP h _ _ _
      · trivial
  | setMask idx masked =>
    simp only [microOf, onChan]
    cases hi : chanIdx? idx with
    | none => trivial
    | some i =>
      simp only [setMaskMicro]
      split
      · exact modRead_stays hP h hc fun t s => by simp [SeqRun.ok, hc, hi]
      · exact modDone_stays hP h _ _ _ _
      · trivial
  | chActivate idx =>
    simp only [microOf, onChan]
    cases hi : chanIdx? idx with
    | none => trivial
    | some i =>
      simp only [chActivateMicro]
      split
      · exact modRead_stays hP h hc fun t s => by simp_all [SeqRun.ok, onLabels_eq_true hi]
      · exact modDone_stays hP h _ _ _ _
      · trivial
  | chDeactivate idx =>
    simp only [microOf, onChan]
    cases hi : chanIdx? idx with
    | none => trivial
    | some i =>
      simp only [chDeactivateMicro]
      split
      · exact modRead_stays hP h hc fun t s => by simp_all [SeqRun.ok, onLabels_eq_true hi]
      · exact modDone_stays hP h _ _ _ _
      · trivial
  | chIsRunning idx =>
    simp only [microOf, onChan]
    cases chanIdx? idx with
    | none => trivial
    | some i =>
      simp only [chIsRunningMicro]
      split
      · exact rdDone_stays hP h _ (fun t => .ok [bitW (t.getLsbD chEnBit)])
      · trivial
  | bufWr idx off data =>
    simp only [microOf, onChan]
    cases hi : chanIdx? idx with
    | none => trivial
    | some i => exact bufWr_stays hP h hc hi hok
  | bufRd idx off n =>
    simp only [microOf, onChan]
    cases hi : chanIdx? idx with
    | none => trivial
    | some i => exact bufRd_stays hP h hc hi hok
  | handleIrq =>
    simp only [microOf, handleIrqMicro]
    split
    · exact modRead_stays hP h hc fun t s => by simp [SeqRun.ok, hc]
    · exact wrThen_stays hP h fun _ hs => hs
    · trivial

end

end Sys2Proof.Machine
end

section
/-! SUPPORT. The invariant of the machine (Safety.lean): each effect of a micro-step keeps the parts of it that speak of
channels and ports, an accepted command starts at a position it has, and so every step keeps the whole. -/

namespace Sys2Proof.Machine

open Sys2Proof.Config

/-! ## The invariant without SEQ's position -/

/-- What the invariant says of one channel, given its bound bit (R56, R57, R58, R160). -/
def Chan.sound (c : Chan) (bound : Bool) : Prop :=
  c.hiddenOk = true ∧ c.desc.all (fun d => bound && d.ok) = true

/-- The invariant but for SEQ's position. -/
def State.Sound (s : State) : Prop := (∀ i, (s.chan i).sound (s.boundBit i)) ∧ 1 ≤ s.irqh.length

theorem State.inv_iff (s : State) : s.Inv ↔ s.Sound ∧ s.seqOk = true := by
  constructor
  · rintro ⟨hh, hd, hs, hp⟩
    exact ⟨⟨fun i => ⟨hh i, hd i⟩, hp⟩, hs⟩
  · rintro ⟨⟨hc, hp⟩, hs⟩
    exact ⟨fun i => (hc i).1, fun i => (hc i).2, hs, hp⟩

/-- Soundness goes by the channels, the bound bits and the number of service ports. -/
theorem State.Sound.of_eq {s t : State} (h : s.Sound) (hc : ∀ i, t.chan i = s.chan i)
    (hb : t.glb.bound = s.glb.bound) (hp : t.irqh = s.irqh) : t.Sound := by
  refine ⟨fun i => ?_, hp ▸ h.2⟩
  rw [hc, State.boundBit, hb]
  exact h.1 i

/-- One channel replaced by a sound one. -/
theorem State.Sound.setChan {s : State} (h : s.Sound) {i : Fin 8} {c : Chan} (hc : c.sound (s.boundBit i)) :
    (s.setChan i c).Sound := by
  refine ⟨fun j => ?_, h.2⟩
  rw [State.setChan_chan]
  split
  · rename_i hij
    exact hij ▸ hc
  · exact h.1 j

/-! ## Register writes -/

/-- Steps 1 to 3 of a CH_CTL write keep the two implications of R56. -/
theorem Chan.ctlStore_hiddenOk {c : Chan} (h : c.hiddenOk = true) (v d : Word) : (c.ctlStore v d).hiddenOk = true := by
  simp only [Chan.ctlStore]
  split
  · split
    · split <;> simp_all [Chan.hiddenOk]
    · simp [Chan.hiddenOk]
  · split <;> simp_all [Chan.hiddenOk]

/-- A new activation only marks the descriptor (R236). -/
theorem Chan.ctlStore_desc (c : Chan) (v d : Word) :
    (c.ctlStore v d).desc = c.desc ∨ (c.ctlStore v d).desc = c.desc.map Desc.activate := by
  simp only [Chan.ctlStore]
  split
  · split
    · split <;> exact .inl rfl
    · exact .inr rfl
  · split <;> exact .inl rfl

theorem Chan.ctlStore_sound {c : Chan} {b : Bool} (h : c.sound b) (v d : Word) : (c.ctlStore v d).sound b := by
  refine ⟨Chan.ctlStore_hiddenOk h.1 v d, ?_⟩
  rcases c.ctlStore_desc v d with hd | hd <;> rw [hd]
  · exact h.2
  · rw [Option.all_map]
    exact h.2

/-- The soft-reset event clears the hidden bits and keeps the descriptor. -/
theorem Chan.softReset_sound {c : Chan} {b : Bool} (h : c.sound b) (n : Nat) : (c.softReset n).sound b :=
  ⟨by simp [Chan.softReset, Chan.hiddenOk], h.2⟩

theorem Chan.ctlAfter_sound {c : Chan} {b : Bool} (h : c.sound b) (v : Word) (n : Nat) : (c.ctlAfter v n).sound b := by
  unfold Chan.ctlAfter
  split
  · exact Chan.softReset_sound (Chan.ctlStore_sound h _ _) _
  · exact Chan.ctlStore_sound h _ _

theorem writeChReg_sound {s t : State} {v : Word} {i : Fin 8} {r : ChReg} (h : s.Sound)
    (hw : s.writeChReg i v r = .ok t) : t.Sound := by
  cases r with
  | ctl =>
    simp only [State.writeChReg] at hw
    split at hw
    · cases hw
    · cases hw
      exact (h.setChan (Chan.ctlAfter_sound (h.1 i) _ _)).of_eq (fun _ => rfl) rfl rfl
  | addrUp | addrLo | devAddr | xferSize | tmo =>
    cases hw
    exact h.setChan (h.1 i)
  | curUp | curLo | sts =>
    cases hw
    exact h

/-- DMA_BIND takes the descriptor with the bound bit (R57, R77). -/
theorem writeBind_sound {s : State} (h : s.Sound) (v : Word) : (s.writeBind v).Sound := by
  refine ⟨fun j => ?_, h.2⟩
  rw [State.writeBind_chan, State.boundBit, State.writeBind_glb]
  obtain ⟨hh, hd⟩ := h.1 j
  split
  · rename_i hb
    refine ⟨hh, ?_⟩
    cases hj : (s.chan j).desc with
    | none => rfl
    | some d =>
      simp only [hj, Option.all_some, Bool.and_eq_true] at hd ⊢
      exact ⟨hb, hd.2⟩
  · exact ⟨hh, rfl⟩

/-- A write of any register. -/
theorem writeReg_sound {s t : State} {v : Word} {g : Reg} (h : s.Sound) (hw : s.writeReg v g = .ok t) : t.Sound := by
  cases g with
  | dmaCtl =>
    simp only [State.writeReg, Globals.writeCtl] at hw
    split at hw
    · cases hw
    · cases hw
      exact h.of_eq (fun _ => rfl) rfl rfl
  | dmaBind =>
    cases hw
    exact writeBind_sound h v
  | chan i r => exact writeChReg_sound h hw
  | chselL | chselH | dmaStat | dmaMask | dmaCap | reserved =>
    cases hw
    exact h.of_eq (fun _ => rfl) rfl rfl

/-! ## The other effects of a micro-step -/

/-- A byte written inside the buffer keeps the descriptor as NEW_CHANNEL made it (R58, R85). -/
theorem Desc.ok_write {d : Desc} (h : d.ok = true) {o : Nat} (ho : o < d.size.toNat) (b : Byte) :
    ({ d with buf := d.buf.write o b } : Desc).ok = true := by
  simp only [Desc.ok, Bool.and_eq_true] at h ⊢
  obtain ⟨⟨hv, hw⟩, hin⟩ := h
  exact ⟨⟨hv, Memory.wf_write o b hw⟩, Memory.within_write b ho hin⟩

theorem Desc.ok_fresh {ba : BusAddr} {size : Word} (h : valid ba size = true) (dir : Bool) :
    (Desc.fresh ba size dir).ok = true := by
  simp [Desc.ok, Desc.fresh, h, Memory.wf, Memory.within]

/-- Writing DMA_BIND with the field of one channel set to 1 sets that channel's bound bit. -/
theorem boundBit_of_write {s t : State} {w : Word} {i : Fin 8} (h : s.writeReg (ins w i i 1) .dmaBind = .ok t) :
    t.boundBit i = true := by
  cases h
  have := ins_bit_getLsbD w i true i
  simpa [State.boundBit, bitW] using this

theorem sound_accessClosed : AccessClosed State.Sound where
  read _ _ _ h := h.of_eq (fun _ => rfl) rfl rfl
  write _ _ _ _ _ h hw := (writeReg_sound h hw).of_eq (fun _ => rfl) rfl rfl
  alloc _ _ _ _ h := h.of_eq (fun _ => rfl) rfl rfl
  memWrite s i d o b _ h hd ho := by
    have hi := (h.1 i).2
    rw [show (s.chan i).desc = some d from hd] at hi
    simp only [Option.all_some, Bool.and_eq_true] at hi
    have hc : Chan.sound { s.chan i with desc := some { d with buf := d.buf.write o b } } (s.boundBit i) :=
      ⟨(h.1 i).1, by simp [hi.1, Desc.ok_write hi.2 ho b]⟩
    exact (State.Sound.setChan h hc).of_eq (fun _ => rfl) rfl rfl
  attach s t w a i ba size dir h hw hv := by
    have ht := writeReg_sound h hw
    refine State.Sound.setChan (s := t.log a) (ht.of_eq (fun _ => rfl) rfl rfl) ⟨(ht.1 i).1, ?_⟩
    have hb : (t.log a).boundBit i = true := boundBit_of_write (t := t) hw
    simp [hb, Desc.ok_fresh hv]

theorem Between.sound {s t : State} (hb : Between s t) (h : s.Sound) : t.Sound := by
  refine ⟨fun i => ⟨hb.hidden i (h.1 i).1, ?_⟩, hb.ports ▸ h.2⟩
  have hd : (t.chan i).desc = (s.chan i).desc := hb.desc i
  rw [hd, hb.boundBit]
  exact (h.1 i).2

/-! ## Where an accepted command starts -/

/-- The first label of each command. -/
def firstLabels : List Label := [.F1, .T1, .E1, .N1, .P1, .L1, .S1, .A1, .D1, .Q1, .W 0, .V 0, .H1]

/-- How an accepted command begins: it raises a ContractViolation, is refused for want of a Channel, answers at once, or
starts at a label. -/
inductive Opening where
  | contract
  | noChannel
  | answer (vals : List Word)
  | run (lbl : Label) (cb : Nat)

/-- The outcome of a command that begins so. -/
def Opening.out (c : Instr) (s : State) : Opening → Out
  | .contract => .next (s.raise .contract)
  | .noChannel => .refused .noChannel
  | .answer vals => .next (s.respond (.ok vals))
  | .run lbl cb => start (microOf c) c lbl cb s

/-- Where a command starts, it starts at a first label, at a position it has. -/
def Opening.ok (c : Instr) (s : State) : Opening → Prop
  | .run lbl cb => lbl ∈ firstLabels ∧ (SeqRun.init c lbl cb).ok s = true
  | .contract | .noChannel | .answer _ => True

/-- A channel command on a Channel that exists. -/
theorem handle_opening {c : Instr} {idx : BitVec 8} {s : State} {k : Fin 8 → Desc → State → Out}
    (hexec : ∀ t, exec c t = withHandle idx t fun i d => k i d t)
    (hk : ∀ i d, chanIdx? idx = some i → s.desc i = some d → ∃ o : Opening, o.ok c s ∧ ∀ t, k i d t = o.out c t) :
    ∃ o : Opening, o.ok c s ∧ ∀ t, (∀ i, t.desc i = s.desc i) → exec c t = o.out c t := by
  simp only [hexec, withHandle, withIndex]
  cases hi : chanIdx? idx with
  | none => exact ⟨.contract, trivial, fun _ _ => rfl⟩
  | some i =>
    cases hd : s.desc i with
    | none => exact ⟨.noChannel, trivial, fun t ht => by simp only [ht, hd]; rfl⟩
    | some d =>
      obtain ⟨o, hok, ho⟩ := hk i d hi hd
      exact ⟨o, hok, fun t ht => by simp only [ht, hd, ho]⟩

/-- A channel command whose micro-steps start at once, at the first of its labels. -/
theorem handle_run_opening {c : Instr} {idx : BitVec 8} {s : State} {f : SeqRun → State → Micro} {l : Label}
    (hexec : ∀ t, exec c t = withHandle idx t fun i _ => start f c l (chanBase i) t)
    (hf : ∀ i, chanIdx? idx = some i → microOf c = f) (hl : l ∈ firstLabels)
    (hok : ∀ i, chanIdx? idx = some i → (SeqRun.init c l (chanBase i)).ok s = true) :
    ∃ o : Opening, o.ok c s ∧ ∀ t, (∀ i, t.desc i = s.desc i) → exec c t = o.out c t :=
  handle_opening hexec fun i _ hi _ =>
    ⟨.run l (chanBase i), ⟨hl, hok i hi⟩, fun t => by rw [Opening.out, hf i hi]⟩

theorem onLabels_init {idx : BitVec 8} {i : Fin 8} {ls : List Label} {c : Instr} {l : Label}
    (hi : chanIdx? idx = some i) (hl : l ∈ ls) : onLabels idx (SeqRun.init c l (chanBase i)) ls = true :=
  (onLabels_eq_true hi _ _).2 ⟨rfl, hl⟩

/-- HOW A COMMAND BEGINS goes by its operands and the descriptors alone. -/
theorem exec_opening (c : Instr) (s : State) :
    ∃ o : Opening, o.ok c s ∧ ∀ t, (∀ i, t.desc i = s.desc i) → exec c t = o.out c t := by
  cases c with
  | fldRd f idx =>
    simp only [exec, execFldRd, Opening.out, microOf, onField]
    cases hl : fldLoc f idx with
    | none => exact ⟨.contract, trivial, fun _ _ => rfl⟩
    | some l => exact ⟨.run .F1 0, ⟨by decide, by simp [SeqRun.ok, hl]⟩, fun _ _ => rfl⟩
  | fldWr f idx value =>
    simp only [exec, execFldWr, Opening.out, microOf, onField]
    cases hl : fldLoc f idx with
    | none => exact ⟨.contract, trivial, fun _ _ => rfl⟩
    | some l => exact ⟨.run .F1 0, ⟨by decide, by simp [SeqRun.ok, hl]⟩, fun _ _ => rfl⟩
  | fldMod f idx value =>
    simp only [exec, execFldMod, Opening.out, microOf, onField]
    cases hl : fldLoc f idx with
    | none => exact ⟨.contract, trivial, fun _ _ => rfl⟩
    | some l => exact ⟨.run .F1 0, ⟨by decide, by simp [SeqRun.ok, hl]⟩, fun _ _ => rfl⟩
  | ctrlReset => exact ⟨.run .T1 0, ⟨by decide, rfl⟩, fun _ _ => rfl⟩
  | ctrlEnable => exact ⟨.run .E1 0, ⟨by decide, rfl⟩, fun _ _ => rfl⟩
  | ctrlDisable => exact ⟨.run .E1 0, ⟨by decide, rfl⟩, fun _ _ => rfl⟩
  | handleIrq => exact ⟨.run .H1 0, ⟨by decide, rfl⟩, fun _ _ => rfl⟩
  | newChannel idx slave dir irq size dev tmo =>
    simp only [exec, execNewChannel, withIndex, Opening.out, microOf, onChan]
    cases hi : chanIdx? idx with
    | none => exact ⟨.contract, trivial, fun _ _ => rfl⟩
    | some i =>
      by_cases hs : nSlave ≤ slave.toNat
      · exact ⟨.contract, trivial, fun _ _ => if_pos hs⟩
      · refine ⟨.run .N1 (chanBase i), ⟨by decide, ?_⟩, fun _ _ => if_neg hs⟩
        rw [ok_newChannel (r := SeqRun.init _ _ _) rfl hi]
        exact ⟨Nat.lt_of_not_le hs, rfl, .inl (by simp [newBeforeAlloc])⟩
  | isComplete idx =>
    simp only [exec, execIsComplete, Opening.out, microOf, onChan]
    cases hi : chanIdx? idx with
    | none => exact ⟨.answer [0], trivial, fun _ _ => rfl⟩
    | some i => exact ⟨.run .P1 0, ⟨by decide, by simp [SeqRun.ok, hi]⟩, fun _ _ => rfl⟩
  | clrComplete idx =>
    simp only [exec, execClrComplete, Opening.out, microOf, onChan]
    cases hi : chanIdx? idx with
    | none => exact ⟨.answer [], trivial, fun _ _ => rfl⟩
    | some i => exact ⟨.run .L1 0, ⟨by decide, by simp [SeqRun.ok, hi]⟩, fun _ _ => rfl⟩
  | setMask idx masked =>
    simp only [exec, execSetMask, withIndex, Opening.out, microOf, onChan]
    cases hi : chanIdx? idx with
    | none => exact ⟨.contract, trivial, fun _ _ => rfl⟩
    | some i => exact ⟨.run .S1 0, ⟨by decide, by simp [SeqRun.ok, hi]⟩, fun _ _ => rfl⟩
  | chActivate idx =>
    exact handle_run_opening (fun _ => rfl) (fun i hi => by simp only [microOf, onChan, hi]) (by decide)
      fun i hi => onLabels_init hi (by simp)
  | chDeactivate idx =>
    exact handle_run_opening (fun _ => rfl) (fun i hi => by simp only [microOf, onChan, hi]) (by decide)
      fun i hi => onLabels_init hi (by simp)
  | chIsRunning idx =>
    exact handle_run_opening (fun _ => rfl) (fun i hi => by simp only [microOf, onChan, hi]) (by decide)
      fun i hi => onLabels_init hi (by simp)
  | bufWr idx off data =>
    refine handle_opening (fun _ => rfl) fun i d hi hd => ?_
    simp only [Opening.out, microOf, onChan, hi]
    by_cases hr : bufInRange off data.length d = true
    · by_cases hn : data.length = 0
      · exact ⟨.answer [], trivial, fun _ => by rw [if_pos hr, if_pos hn]⟩
      · refine ⟨.run (.W 0) (chanBase i), ⟨by decide, ?_⟩, fun _ => by rw [if_pos hr, if_neg hn]⟩
        rw [ok_bufWr (r := SeqRun.init _ _ _) rfl hi rfl]
        exact ⟨Nat.pos_of_ne_zero hn, d, hd, hr⟩
    · exact ⟨.contract, trivial, fun _ => if_neg hr⟩
  | bufRd idx off n =>
    refine handle_opening (fun _ => rfl) fun i d hi hd => ?_
    simp only [Opening.out, microOf, onChan, hi]
    by_cases hr : bufInRange off n.toNat d = true
    · by_cases hn : n.toNat = 0
      · exact ⟨.answer [], trivial, fun _ => by rw [if_pos hr, if_pos hn]⟩
      · refine ⟨.run (.V 0) (chanBase i), ⟨by decide, ?_⟩, fun _ => by rw [if_pos hr, if_neg hn]⟩
        rw [ok_bufRd (r := SeqRun.init _ _ _) rfl hi rfl]
        exact ⟨⟨Nat.pos_of_ne_zero hn, d, hd, hr⟩, rfl⟩
    · exact ⟨.contract, trivial, fun _ => if_neg hr⟩

/-- An accepted command raises a ContractViolation, is refused for want of a Channel, answers at once, or starts at a
first label, at a position it has. -/
theorem exec_cases_ok (c : Instr) (s : State) :
    exec c s = .next (s.raise .contract) ∨ exec c s = .refused .noChannel ∨
    (∃ vals, exec c s = .next (s.respond (.ok vals))) ∨
    ∃ lbl cb, exec c s = start (microOf c) c lbl cb s ∧ lbl ∈ firstLabels ∧ (SeqRun.init c lbl cb).ok s = true := by
  obtain ⟨o, hok, ho⟩ := exec_opening c s
  have he := ho s fun _ => rfl
  cases o with
  | contract => exact .inl he
  | noChannel => exact .inr (.inl he)
  | answer vals => exact .inr (.inr (.inl ⟨vals, he⟩))
  | run lbl cb => exact .inr (.inr (.inr ⟨lbl, cb, he, hok⟩))

/-! ## Every step -/

/-- The induction over a command, with its position: what the other agents' moves and SEQ's accesses keep holds wherever
SEQ rests, at a position the command has, and where it responds. -/
theorem drive_staysOk {P : State → Prop} {Q : State → Prop} (hP : AccessClosed P)
    (hb : ∀ s t, P s → Between s t → P t) {c : Instr}
    (hrest : ∀ r s, P s → r.cmd = c → r.ok s = true → Q (s.suspend r)) (hdone : ∀ q s, P s → Q (s.respond q))
    (n : Nat) (r : SeqRun) (s : State) (h : P s) (hc : r.cmd = c) (hok : r.ok s = true) :
    Ends Q (fun _ => True) (fun _ => True) (drive (microOf c) n r s) := by
  refine drive_ends (I := fun r s => P s ∧ r.cmd = c ∧ r.ok s = true) (D := fun _ s => P s)
    (fun r s t hI hst => ⟨hb s t hI.1 hst, hI.2.1, ?_⟩) (fun r s hI => ?_) (fun r s hI => hrest r s hI.1 hI.2.1 hI.2.2)
    (fun q s hD => hdone q s hD) n r s ⟨h, hc, hok⟩
  · rw [SeqRun.ok_congr hst.desc]
    exact hI.2.2
  · obtain ⟨hs, rfl, hrok⟩ := hI
    exact microOf_stays hP hs hrok

theorem drive_inv (n : Nat) (r : SeqRun) (s : State) (h : s.Sound) (hok : r.ok s = true) :
    Ends State.Inv (fun _ => True) (fun _ => True) (drive (microOf r.cmd) n r s) := by
  refine drive_staysOk sound_accessClosed (fun s t hs hb => hb.sound hs) (fun r s hs _ hr => ?_) (fun q s hs => ?_)
    n r s h rfl hok
  · exact (State.inv_iff _).2 ⟨hs, hr⟩
  · exact (State.inv_iff _).2 ⟨hs, rfl⟩

theorem exec_inv (c : Instr) (s : State) (h : s.Sound) :
    Ends State.Inv (fun _ => True) (fun _ => True) (exec c s) := by
  rcases exec_cases_ok c s with he | he | ⟨vals, he⟩ | ⟨lbl, cb, he, -, hok⟩ <;> rw [he]
  · exact (State.inv_iff _).2 ⟨h, rfl⟩
  · trivial
  · exact (State.inv_iff _).2 ⟨h, rfl⟩
  · exact drive_inv _ _ s h hok

theorem Between.inv {s t : State} (hb : Between s t) (h : s.Inv) : t.Inv := by
  obtain ⟨hs, hq⟩ := (State.inv_iff s).1 h
  refine (State.inv_iff t).2 ⟨hb.sound hs, ?_⟩
  unfold State.seqOk at hq ⊢
  rw [hb.seq]
  split
  · rfl
  · rename_i r hr
    rw [hr] at hq
    rwa [SeqRun.ok_congr hb.desc]

theorem step_inv (s : State) (h : s.Inv) : Ends State.Inv (fun _ => True) (fun _ => True) (step s) := by
  obtain ⟨hs, hq⟩ := (State.inv_iff s).1 h
  cases hseq : s.seq with
  | busy r =>
    rw [step_of_busy hseq]
    exact drive_inv _ r s hs (by simpa [State.seqOk, hseq] using hq)
  | idle =>
    cases hin : s.cmdIn with
    | cons p rest =>
      rw [step_of_idle hseq hin]
      unfold accept
      split
      · exact exec_inv _ _ hs
      · exact (State.inv_iff _).2 ⟨hs, rfl⟩
    | nil =>
      rw [step_of_waiting hseq hin]
      exact idleTurn_keeps (P := State.Inv) (fun s p h => ((Between.refl s).withPlan p).inv h)
        (fun s m h => (engMove_between s m).inv h) (fun s k h => (irqStep_between s k).inv h) s h

/-- Settles O26: a step ends in the invariant, by cases on SEQ and its port. -/
theorem stepKeepsInvariant : Obligations.StepKeepsInvariant := by
  intro s t h hstep
  have := step_inv s h
  rwa [hstep] at this

/-- Settles O27: no channel has a hidden bit or a descriptor at reset, SEQ is IDLE, and there is one service port. -/
theorem resetMeetsInvariant : Obligations.ResetMeetsInvariant where
  hidden := by decide
  desc := by decide
  seq := rfl
  ports := Nat.le_refl 1

end Sys2Proof.Machine
end

section
/-! SUPPORT. Who changes a bound bit or sets the global interrupt enable (10_state.md R36, 60_exceptions.md R262): the
commands write DMA_BIND and DMA_MASK only by `MOD`, on a word they have just read, but for the last write of CTRL_RESET. -/

namespace Sys2Proof.Machine

open Sys2Proof.Config

/-! ## What a command may do to the two registers -/

/-- The changes from `b` to `b'` that R36 allows a command to make to the bound bits. -/
def MayRebind (c : Instr) (b b' : BitVec 8) : Prop :=
  ∀ j : Fin 8, b'.getLsbD j ≠ b.getLsbD j →
    (b.getLsbD j = true ∧ c = .ctrlReset) ∨
    (b'.getLsbD j = true ∧ targetOf c = some j ∧
      ∃ idx slave dir irq size dev tmo, c = .newChannel idx slave dir irq size dev tmo)

theorem MayRebind.refl (c : Instr) (b : BitVec 8) : MayRebind c b b := fun _ h => absurd rfl h

/-- One bit put into a word changes that bit alone of its low byte. -/
theorem ins_bit_setWidth (w : Word) (i : Fin 8) (b : Bool) :
    (ins w i i (bitW b)).setWidth 8 = withBit (w.setWidth 8) i b := by
  apply BitVec.eq_of_getLsbD_eq
  intro j hj
  rw [BitVec.getLsbD_setWidth, ins_bit_getLsbD, withBit_getLsbD, BitVec.getLsbD_setWidth]
  simp [hj]

/-- CTRL_RESET may clear one more bit (R190). -/
theorem MayRebind.clear {b m : BitVec 8} (h : MayRebind .ctrlReset b m) (i : Fin 8) :
    MayRebind .ctrlReset b (withBit m i false) := by
  intro j hj
  rw [withBit_getLsbD] at hj ⊢
  split at hj
  · exact .inl ⟨by simpa using hj, rfl⟩
  · rename_i hne
    rw [if_neg hne]
    exact h j hj

/-- NEW_CHANNEL may set the bit of its own index (R193 N8). -/
theorem MayRebind.set {idx slave : BitVec 8} {dir irq : Bool} {size dev : Word} {tmo : BitVec 30} {i : Fin 8}
    {b m : BitVec 8} (h : MayRebind (.newChannel idx slave dir irq size dev tmo) b m) (hi : chanIdx? idx = some i) :
    MayRebind (.newChannel idx slave dir irq size dev tmo) b (withBit m i true) := by
  intro j hj
  rw [withBit_getLsbD] at hj ⊢
  split at hj
  · rename_i hji
    rw [if_pos hji]
    exact .inr ⟨rfl, by rw [targetOf, hi, Fin.ext hji], _, _, _, _, _, _, _, rfl⟩
  · rename_i hne
    rw [if_neg hne]
    exact h j hj

/-- What a command that started in `s₀` may have done so far: it has not set GIE, and has changed only the bound bits it
may. -/
def Granted (s₀ : State) (c : Instr) (s : State) : Prop :=
  (s.glb.gie = true → s₀.glb.gie = true) ∧ MayRebind c s₀.glb.bound s.glb.bound

/-- The labels whose write puts back a word read from DMA_MASK: step M2 on a mask bit. -/
def Label.putsMask : Label → Bool
  | .T8 | .N10 | .S2 => true
  | _ => false

/-- The labels whose write puts back a word read from DMA_BIND. -/
def Label.putsBind : Label → Bool
  | .T6 | .N8 => true
  | _ => false

/-- The word SEQ is about to put back into DMA_MASK or DMA_BIND is one it may write. -/
def Holding (s₀ : State) (c : Instr) (r : SeqRun) : Prop :=
  (r.step.putsMask = true → r.t.getLsbD gieBit = true → s₀.glb.gie = true) ∧
    (r.step.putsBind = true → MayRebind c s₀.glb.bound (r.t.setWidth 8))

/-- A label that puts back neither register asks nothing of the word held. -/
theorem Holding.of_label {s₀ : State} {c : Instr} {r : SeqRun} (h : (r.step.putsMask || r.step.putsBind) = false) :
    Holding s₀ c r := by
  simp only [Bool.or_eq_false_iff] at h
  exact ⟨fun e => by simp [h.1] at e, fun e => by simp [h.2] at e⟩

theorem Granted.of_glb {s₀ s t : State} {c : Instr} (h : Granted s₀ c s) (hg : t.glb.gie = s.glb.gie)
    (hb : t.glb.bound = s.glb.bound) : Granted s₀ c t := by
  unfold Granted
  rw [hg, hb]
  exact h

theorem Between.granted {s₀ s t : State} {c : Instr} (hb : Between s t) (h : Granted s₀ c s) : Granted s₀ c t :=
  h.of_glb hb.glb_gie hb.glb_bound

/-! ## One access -/

/-- A write of any other register leaves GIE and the bound bits alone. -/
theorem writeReg_gie_bound {s t : State} {v : Word} {g : Reg} (hw : s.writeReg v g = .ok t) (hm : g ≠ .dmaMask)
    (hb : g ≠ .dmaBind) : t.glb.gie = s.glb.gie ∧ t.glb.bound = s.glb.bound := by
  cases g with
  | dmaMask => exact absurd rfl hm
  | dmaBind => exact absurd rfl hb
  | dmaCtl =>
    simp only [State.writeReg, Globals.writeCtl] at hw
    split at hw
    · cases hw
    · cases hw
      exact ⟨rfl, rfl⟩
  | chan i r =>
    cases r with
    | ctl =>
      simp only [State.writeReg, State.writeChReg] at hw
      split at hw
      · cases hw
      · cases hw
        exact ⟨rfl, rfl⟩
    | _ =>
      cases hw
      exact ⟨rfl, rfl⟩
  | chselL | chselH | dmaStat | dmaCap | reserved =>
    cases hw
    exact ⟨rfl, rfl⟩

/-- A micro-step after which `Granted` and `Holding` still stand. -/
def Grants (s₀ : State) (c : Instr) (m : Micro) : Prop :=
  m.Holds (fun r s => Granted s₀ c s ∧ Holding s₀ c r) (fun _ s => Granted s₀ c s) (fun _ => True) (fun _ => True)

section
variable {s₀ s : State} {c : Instr} {r : SeqRun} {off : Nat} {g : Reg} {v : Word}

/-- A read, followed by what is granted for the word read. -/
theorem rdThen_grants (hg : regAt off = some g) {k : Word → State → Micro} (h : Granted s₀ c s)
    (hk : ∀ s', Granted s₀ c s' → Grants s₀ c (k (s.readVal g) s')) : Grants s₀ c (rdThen off s k) := by
  rw [rdThen_of_regAt hg]
  exact hk _ (h.of_glb rfl rfl)

/-- A read whose word is not put back. -/
theorem rdThen_grants_any {k : Word → State → Micro} (h : Granted s₀ c s)
    (hk : ∀ t s', Granted s₀ c s' → Grants s₀ c (k t s')) : Grants s₀ c (rdThen off s k) := by
  cases hg : regAt off with
  | none => simp [rdThen, rd32, hg, Grants]
  | some g => exact rdThen_grants hg h (hk _)

theorem modRead_grants {next : Label} (h : Granted s₀ c s) (hl : (next.putsMask || next.putsBind) = false) :
    Grants s₀ c (modRead off r next s) :=
  rdThen_grants_any h fun _ _ hs => ⟨hs, .of_label hl⟩

theorem holding_of_readMask {next : Label} (h : Granted s₀ c s) (hl : next.putsBind = false) :
    Holding s₀ c { r with t := s.readVal .dmaMask, step := next } :=
  ⟨fun _ e => h.1 (by simpa [State.readVal] using e), fun e => by simp [hl] at e⟩

theorem holding_of_readBind {next : Label} (b : Word) (h : Granted s₀ c s) (hl : next.putsMask = false) :
    Holding s₀ c { r with t := s.readVal .dmaBind, b := b, step := next } :=
  ⟨fun e => by simp [hl] at e, fun _ => by simpa [State.readVal] using h.2⟩

theorem modRead_grants_mask {next : Label} (h : Granted s₀ c s) (hl : next.putsBind = false) :
    Grants s₀ c (modRead offMask r next s) :=
  rdThen_grants regAt_offMask h fun _ hs => ⟨hs, holding_of_readMask h hl⟩

theorem modRead_grants_bind {next : Label} (h : Granted s₀ c s) (hl : next.putsMask = false) :
    Grants s₀ c (modRead offBind r next s) :=
  rdThen_grants regAt_offBind h fun _ hs => ⟨hs, holding_of_readBind r.b h hl⟩

/-- A write of another register. -/
theorem wrThen_grants (hg : regAt off = some g) (hm : g ≠ .dmaMask) (hb : g ≠ .dmaBind) {k : State → Micro}
    (h : Granted s₀ c s) (hk : ∀ s', Granted s₀ c s' → Grants s₀ c (k s')) : Grants s₀ c (wrThen off v s k) := by
  cases hw : s.writeReg v g with
  | error x => simp [wrThen_of_error hg hw, Grants]
  | ok t =>
    obtain ⟨hgie, hbound⟩ := writeReg_gie_bound hw hm hb
    rw [wrThen_of_ok hg hw]
    exact hk _ (h.of_glb hgie hbound)

/-- A write of DMA_MASK that does not set GIE where it was clear at the start. -/
theorem wrThen_grants_mask {k : State → Micro} (h : Granted s₀ c s)
    (hv : v.getLsbD gieBit = true → s₀.glb.gie = true) (hk : ∀ s', Granted s₀ c s' → Grants s₀ c (k s')) :
    Grants s₀ c (wrThen offMask v s k) := by
  rw [wrThen_of_ok regAt_offMask rfl]
  exact hk _ ⟨hv, h.2⟩

/-- A write of DMA_BIND that makes an allowed change. -/
theorem wrThen_grants_bind {k : State → Micro} (h : Granted s₀ c s)
    (hv : MayRebind c s₀.glb.bound (v.setWidth 8)) (hk : ∀ s', Granted s₀ c s' → Grants s₀ c (k s')) :
    Grants s₀ c (wrThen offBind v s k) := by
  rw [wrThen_of_ok regAt_offBind rfl]
  exact hk _ ⟨h.1, hv⟩

theorem wrGoto_grants {next : Label} (hg : regAt off = some g) (hm : g ≠ .dmaMask) (hb : g ≠ .dmaBind)
    (h : Granted s₀ c s) (hl : (next.putsMask || next.putsBind) = false) :
    Grants s₀ c (wrGoto off v r next s) :=
  wrThen_grants hg hm hb h fun _ hs => ⟨hs, .of_label hl⟩

theorem wrDone_grants (hg : regAt off = some g) (hm : g ≠ .dmaMask) (hb : g ≠ .dmaBind) (h : Granted s₀ c s)
    (a : Resp) : Grants s₀ c (wrThen off v s fun s => .done a s) :=
  wrThen_grants hg hm hb h fun _ hs => hs

/-- A mask bit put into the word SEQ holds leaves that word's GIE as it is (R125). -/
theorem gie_of_ins_mask {w b : Word} {i : Nat} (hi : i < 8) (h : (ins w i i b).getLsbD gieBit = true) :
    w.getLsbD gieBit = true := by
  rw [ins_getLsbD (Nat.le_refl _) (by omega), if_neg (by simp only [gieBit]; omega)] at h
  exact h

end

/-! ## The commands of more than two micro-steps -/

theorem selReg_ne (i : Nat) : (if i / 4 = 0 then Reg.chselL else Reg.chselH) ≠ .dmaMask ∧
    (if i / 4 = 0 then Reg.chselL else Reg.chselH) ≠ .dmaBind := by
  split <;> simp

/-- The registers of the block SEQ's local `cb` points at. -/
theorem regAt_cb {r : SeqRun} {i : Fin 8} (h : r.cb = BitVec.ofNat 32 (chanBase i)) (g : ChReg) :
    regAt (r.cb.toNat + g.off) = some (.chan i g) := by
  rw [h, chanBase_toNat, regAt_chOff]

section
variable {s₀ s : State} {c : Instr} {r : SeqRun}

theorem resetNext_label (r : SeqRun) : ((resetNext r).step.putsMask || (resetNext r).step.putsBind) = false := by
  rw [resetNext_step]
  split <;> rfl

/-- CTRL_RESET clears bound bits at T6, puts mask bits back at T8, and turns GIE off at T4 and T16 (R190). -/
theorem ctrlReset_grants (h : Granted s₀ .ctrlReset s) (hh : Holding s₀ .ctrlReset r) (hc : r.cmd = .ctrlReset)
    (hok : r.ok s = true) : Grants s₀ .ctrlReset (ctrlResetMicro r s) := by
  unfold ctrlResetMicro
  split
  case h_1 | h_3 | h_10 | h_12 | h_14 => exact modRead_grants h rfl
  case h_7 => exact modRead_grants_mask h rfl
  case h_2 | h_13 | h_15 => exact wrGoto_grants regAt_offCtl (by simp) (by simp) h rfl
  case h_4 =>
    refine wrThen_grants_mask h (fun e => ?_) fun _ hs => ⟨hs, .of_label rfl⟩
    rw [ins_getLsbD (Nat.le_refl _) (by decide)] at e
    simp [gieEnabled, bitW] at e
  case h_5 =>
    refine rdThen_grants regAt_offBind h fun _ hs => ⟨hs, ?_⟩
    split
    · exact holding_of_readBind r.b h rfl
    · exact .of_label rfl
  case h_6 hl =>
    have hi := loopIndex_lt hc hok (by simp [hl, resetLoop])
    refine wrThen_grants_bind h ?_ fun _ hs => ⟨hs, .of_label rfl⟩
    have hm := (hh.2 (by rw [hl]; rfl)).clear ⟨r.i.toNat, hi⟩
    rwa [← ins_bit_setWidth] at hm
  case h_8 hl =>
    have hi := loopIndex_lt hc hok (by simp [hl, resetLoop])
    exact wrThen_grants_mask h (fun e => hh.1 (by rw [hl]; rfl) (gie_of_ins_mask hi e))
      fun _ hs => ⟨hs, .of_label rfl⟩
  case h_9 => exact wrGoto_grants regAt_offStat (by simp) (by simp) h rfl
  case h_11 =>
    exact wrThen_grants (regAt_selOff _) (selReg_ne _).1 (selReg_ne _).2 h fun _ hs =>
      ⟨hs, .of_label (resetNext_label r)⟩
  case h_16 => exact wrThen_grants_mask h (fun e => absurd e (by decide)) fun _ hs => hs
  case h_17 => trivial

/-- ChConstruct and ChReset touch their channel's block only (R161, R162). -/
theorem construct_grants (h : Granted s₀ c s) {i : Fin 8} (hcb : r.cb = BitVec.ofNat 32 (chanBase i)) (dir : Bool)
    (size dev : Word) : Grants s₀ c (constructMicro dir size dev .N5 r s) := by
  unfold constructMicro
  split
  case h_1 =>
    unfold constructAlloc allocReq
    cases s.allocAnswer with
    | none => exact h
    | some ba =>
      simp only
      split
      · exact ⟨h, .of_label rfl⟩
      · exact h
  case h_2 =>
    refine rdThen_grants_any h fun t s' hs => ⟨hs, .of_label ?_⟩
    split <;> rfl
  case h_5 hl =>
    refine rdThen_grants_any h fun t s' hs => ?_
    split
    · exact ⟨hs, .of_label (by rw [hl]; rfl)⟩
    · exact ⟨hs, .of_label rfl⟩
  case h_3 | h_6 | h_8 | h_14 => exact modRead_grants h rfl
  case h_4 | h_7 | h_9 | h_15 => exact wrGoto_grants (regAt_cb hcb .ctl) (by simp) (by simp) h rfl
  case h_10 => exact wrGoto_grants (regAt_cb hcb .addrLo) (by simp) (by simp) h rfl
  case h_11 => exact wrGoto_grants (regAt_cb hcb .addrUp) (by simp) (by simp) h rfl
  case h_12 => exact wrGoto_grants (regAt_cb hcb .devAddr) (by simp) (by simp) h rfl
  case h_13 => exact wrGoto_grants (regAt_cb hcb .xferSize) (by simp) (by simp) h rfl
  case h_16 => trivial

/-- NEW_CHANNEL sets its own bound bit at N8 and puts a mask bit back at N10 (R193). -/
theorem newChannel_grants {idx slave : BitVec 8} {dir irq : Bool} {size dev : Word} {tmo : BitVec 30} {i : Fin 8}
    (hc : c = .newChannel idx slave dir irq size dev tmo) (hi : chanIdx? idx = some i) (h : Granted s₀ c s)
    (hh : Holding s₀ c r) (hcb : r.cb = BitVec.ofNat 32 (chanBase i)) :
    Grants s₀ c (newChannelMicro slave dir irq size dev i r s) := by
  unfold newChannelMicro
  split
  case h_1 =>
    refine rdThen_grants_any h fun t s' hs => ?_
    split
    · exact hs
    · exact ⟨hs, .of_label rfl⟩
  case h_2 | h_4 => exact modRead_grants h rfl
  case h_6 => exact modRead_grants_bind h rfl
  case h_8 => exact modRead_grants_mask h rfl
  case h_3 => exact wrGoto_grants regAt_offCtl (by simp) (by simp) h rfl
  case h_5 => exact wrGoto_grants (regAt_selOff _) (selReg_ne _).1 (selReg_ne _).2 h rfl
  case h_7 hl =>
    subst hc
    refine wrThen_grants_bind h ?_ fun _ hs => ⟨hs.of_glb rfl rfl, .of_label rfl⟩
    have hm := (hh.2 (by rw [hl]; rfl)).set hi
    rwa [← ins_bit_setWidth] at hm
  case h_9 hl =>
    exact wrThen_grants_mask h (fun e => hh.1 (by rw [hl]; rfl) (gie_of_ins_mask i.isLt e)) fun _ hs => hs
  case h_10 => exact construct_grants h hcb _ _ _

/-- The bytes of a buffer are no register. -/
theorem bufWr_grants {idx : BitVec 8} {off : Word} {data : List Byte} {i : Fin 8} (h : Granted s₀ c s)
    (hc : r.cmd = .bufWr idx off data) (hi : chanIdx? idx = some i) (hok : r.ok s = true) :
    Grants s₀ c (bufWrMicro i off data r s) := by
  unfold bufWrMicro
  split
  · rename_i k hl
    obtain ⟨hk, d, hd, hr⟩ := (ok_bufWr hc hi hl).1 hok
    rw [memWrite_ok hd (lt_size_of_bufInRange hr hk)]
    simp only
    split
    · exact ⟨h, .of_label rfl⟩
    · exact h
  · trivial

theorem bufRd_grants {idx : BitVec 8} {off : Word} {n : BitVec 16} {i : Fin 8} (h : Granted s₀ c s)
    (hc : r.cmd = .bufRd idx off n) (hi : chanIdx? idx = some i) (hok : r.ok s = true) :
    Grants s₀ c (bufRdMicro i off n r s) := by
  unfold bufRdMicro
  split
  · rename_i k hl
    obtain ⟨⟨hk, d, hd, hr⟩, -⟩ := (ok_bufRd hc hi hl).1 hok
    rw [memRead_ok hd (lt_size_of_bufInRange hr hk)]
    simp only
    split
    · exact ⟨h, .of_label rfl⟩
    · exact h
  · trivial

/-! ## Every command but the raw field writes -/

/-- What `SeqRun.ok` says of the local `cb` of a channel command. -/
theorem cb_of_onLabels {idx : BitVec 8} {i : Fin 8} {ls : List Label} (hi : chanIdx? idx = some i)
    (hok : onLabels idx r ls = true) : r.cb = BitVec.ofNat 32 (chanBase i) :=
  ((onLabels_eq_true hi r ls).1 hok).1

theorem microOf_grants (hc : r.cmd = c) (hraw : isRawWrite c = false) (hok : r.ok s = true) (h : Granted s₀ c s)
    (hh : Holding s₀ c r) : Grants s₀ c (microOf c r s) := by
  cases c with
  | fldWr f idx value => simp [isRawWrite] at hraw
  | fldMod f idx value => simp [isRawWrite] at hraw
  | fldRd f idx =>
    simp only [microOf, onField]
    cases fldLoc f idx with
    | none => trivial
    | some l =>
      simp only [fldRdMicro]
      split
      · exact rdThen_grants_any h fun _ _ hs => hs
      · trivial
  | ctrlReset => exact ctrlReset_grants h hh hc hok
  | ctrlEnable =>
    simp only [microOf, ctrlEnableMicro]
    split
    · exact modRead_grants h rfl
    · exact wrDone_grants regAt_offCtl (by simp) (by simp) h _
    · trivial
  | ctrlDisable =>
    simp only [microOf, ctrlDisableMicro]
    split
    · exact modRead_grants h rfl
    · exact wrDone_grants regAt_offCtl (by simp) (by simp) h _
    · trivial
  | newChannel idx slave dir irq size dev tmo =>
    simp only [microOf, onChan]
    cases hi : chanIdx? idx with
    | none => trivial
    | some i => exact newChannel_grants rfl hi h hh ((ok_newChannel hc hi).1 hok).2.1
  | isComplete idx =>
    simp only [microOf, onChan]
    cases chanIdx? idx with
    | none => trivial
    | some i =>
      simp only [isCompleteMicro]
      split
      · exact rdThen_grants_any h fun _ _ hs => hs
      · trivial
  | clrComplete idx =>
    simp only [microOf, onChan]
    cases chanIdx? idx with
    | none => trivial
    | some i =>
      simp only [clrCompleteMicro]
      split
      · exact wrDone_grants regAt_offStat (by simp) (by simp) h _
      · trivial
  | setMask idx masked =>
    simp only [microOf, onChan]
    cases chanIdx? idx with
    | none => trivial
    | some i =>
      simp only [setMaskMicro]
      split
      · exact modRead_grants_mask h rfl
      · rename_i hl
        exact wrThen_grants_mask h (fun e => hh.1 (by rw [hl]; rfl) (gie_of_ins_mask i.isLt e)) fun _ hs => hs
      · trivial
  | chActivate idx =>
    simp only [microOf, onChan]
    cases hi : chanIdx? idx with
    | none => trivial
    | some i =>
      simp only [SeqRun.ok, hc] at hok
      simp only [chActivateMicro]
      split
      · exact modRead_grants h rfl
      · exact wrDone_grants (regAt_cb (cb_of_onLabels hi hok) .ctl) (by simp) (by simp) h _
      · trivial
  | chDeactivate idx =>
    simp only [microOf, onChan]
    cases hi : chanIdx? idx with
    | none => trivial
    | some i =>
      simp only [SeqRun.ok, hc] at hok
      simp only [chDeactivateMicro]
      split
      · exact modRead_grants h rfl
      · exact wrDone_grants (regAt_cb (cb_of_onLabels hi hok) .ctl) (by simp) (by simp) h _
      · trivial
  | chIsRunning idx =>
    simp only [microOf, onChan]
    cases chanIdx? idx with
    | none => trivial
    | some i =>
      simp only [chIsRunningMicro]
      split
      · exact rdThen_grants_any h fun _ _ hs => hs
      · trivial
  | bufWr idx off data =>
    simp only [microOf, onChan]
    cases hi : chanIdx? idx with
    | none => trivial
    | some i => exact bufWr_grants h hc hi hok
  | bufRd idx off n =>
    simp only [microOf, onChan]
    cases hi : chanIdx? idx with
    | none => trivial
    | some i => exact bufRd_grants h hc hi hok
  | handleIrq =>
    simp only [microOf, handleIrqMicro]
    split
    · exact modRead_grants h rfl
    · exact wrThen_grants regAt_offStat (by simp) (by simp) h fun _ hs => hs
    · trivial

end

/-! ## A whole command -/

/-- Two assertions established by one micro-step hold together. -/
theorem Micro.Holds.and {I J : SeqRun → State → Prop} {D E : Resp → State → Prop} {m : Micro}
    (h : m.Holds I D (fun _ => True) (fun _ => True)) (h' : m.Holds J E (fun _ => True) (fun _ => True)) :
    m.Holds (fun r s => I r s ∧ J r s) (fun q s => D q s ∧ E q s) (fun _ => True) (fun _ => True) := by
  cases m with
  | goto r s => exact ⟨h, h'⟩
  | spin r s => exact ⟨h, h'⟩
  | done q s => exact ⟨h, h'⟩
  | stop x => trivial
  | fault x => trivial

theorem true_accessClosed : AccessClosed fun _ => True :=
  ⟨fun _ _ _ _ => trivial, fun _ _ _ _ _ _ _ => trivial, fun _ _ _ _ _ => trivial, fun _ _ _ _ _ _ _ _ _ => trivial,
    fun _ _ _ _ _ _ _ _ _ _ _ => trivial⟩

/-- The assertion at every position of a command that is no raw field write: a position the command has, nothing done
that it may not do, and a word in hand that it may put back. -/
theorem drive_granted (s₀ : State) {c : Instr} (hraw : isRawWrite c = false) (n : Nat) (r : SeqRun) (s : State)
    (hc : r.cmd = c) (hok : r.ok s = true) (h : Granted s₀ c s) (hh : Holding s₀ c r) :
    Ends (Granted s₀ c) (fun _ => True) (fun _ => True) (drive (microOf c) n r s) := by
  refine drive_ends
    (I := fun r s => (True ∧ r.cmd = c ∧ r.ok s = true) ∧ Granted s₀ c s ∧ Holding s₀ c r)
    (D := fun _ s => True ∧ Granted s₀ c s)
    (fun r s t hI hb => ?_) (fun r s hI => ?_) (fun r s hI => hI.2.1) (fun q s hD => hD.2)
    n r s ⟨⟨trivial, hc, hok⟩, h, hh⟩
  · obtain ⟨⟨-, hc, hok⟩, h, hh⟩ := hI
    exact ⟨⟨trivial, hc, by rwa [SeqRun.ok_congr hb.desc]⟩, hb.granted h, hh⟩
  · obtain ⟨⟨-, hc, hok⟩, h, hh⟩ := hI
    have hstay := microOf_stays true_accessClosed trivial hok
    rw [hc] at hstay
    exact hstay.and (microOf_grants hc hraw hok h hh)

theorem firstLabels_put_nothing : ∀ l ∈ firstLabels, (l.putsMask || l.putsBind) = false := by decide

theorem exec_granted {c : Instr} (hraw : isRawWrite c = false) (s : State) :
    Ends (Granted s c) (fun _ => True) (fun _ => True) (exec c s) := by
  have hs : Granted s c s := ⟨id, .refl c _⟩
  rcases exec_cases_ok c s with he | he | ⟨vals, he⟩ | ⟨lbl, cb, he, hl, hok⟩ <;> rw [he]
  · exact hs
  · trivial
  · exact hs
  · refine drive_granted s hraw _ _ s rfl hok hs (.of_label ?_)
    exact firstLabels_put_nothing lbl hl

/-- Settles O33: what `Granted` says of the state in which the command rests or responds. -/
theorem whoWritesBoundBitsAndGie : Obligations.WhoWritesBoundBitsAndGie := by
  intro s t c hexec hraw
  have h := exec_granted hraw s
  rwa [hexec] at h

end Sys2Proof.Machine
end

section
/-! SUPPORT. No rule reads the fault flags (10_state.md R25): setting flags beforehand or afterwards is the same, for every
operation of the model in turn, up to the step. -/

namespace Sys2Proof.Machine

open Sys2Proof.Config

/-! ## Flags set beside a state -/

/-- The state with the fault flags `a` and `b` set beside its own. -/
def State.orFlags (a b : Bool) (s : State) : State :=
  { s with fltContract := a || s.fltContract, fltIllegal := b || s.fltIllegal }

/-- A micro-step's outcome with every state changed by `f`. -/
def Micro.map (f : State → State) : Micro → Micro
  | .goto r s => .goto r (f s)
  | .spin r s => .spin r (f s)
  | .done q s => .done q (f s)
  | .stop x => .stop x
  | .fault x => .fault x

/-- The outcome of a step with the next state changed by `f`. -/
def mapNext (f : State → State) : Out → Out
  | .next s => .next (f s)
  | .fault x => .fault x
  | .refused x => .refused x

/-- The turns' outcome with its state changed by `f`. -/
def Turned.map (f : State → State) : Turned → Turned
  | .go s => .go (f s)
  | .rest s => .rest (f s)

section
variable {a b : Bool}

/-! ## One operation -/

theorem readVal_orFlags (s : State) (g : Reg) : (s.orFlags a b).readVal g = s.readVal g := by
  cases g <;> rfl

theorem writeReg_orFlags (s : State) (v : Word) (g : Reg) :
    (s.orFlags a b).writeReg v g = (s.writeReg v g).map (State.orFlags a b) := by
  cases g with
  | dmaCtl =>
    have hg : (s.orFlags a b).glb = s.glb := rfl
    simp only [State.writeReg, hg]
    cases s.glb.writeCtl v <;> rfl
  | chan i r =>
    cases r with
    | ctl =>
      have hc : (s.orFlags a b).chan i = s.chan i := rfl
      simp only [State.writeReg, State.writeChReg, hc]
      split <;> rfl
    | _ => rfl
  | _ => rfl

theorem setFault_orFlags (s : State) (x : Violation) :
    (s.orFlags a b).setFault x = (s.setFault x).orFlags a b := by
  cases x <;> simp [State.setFault, State.orFlags]

theorem raise_orFlags (s : State) (x : Violation) : (s.orFlags a b).raise x = (s.raise x).orFlags a b := by
  rw [State.raise, setFault_orFlags]
  rfl

/-! ## The other agents -/

theorem engMove_orFlags (s : State) (m : EngMove) :
    (s.orFlags a b).engMove m = (s.engMove m).orFlags a b := by
  have he : (s.orFlags a b).engEnabled m = s.engEnabled m := by cases m <;> rfl
  unfold State.engMove
  rw [he]
  split
  · cases m <;> rfl
  · rfl

theorem irqAccept_orFlags (s : State) (k : Nat) (p : IrqPort) (q : Packet) (rest : List Packet) :
    (s.orFlags a b).irqAccept k p q rest = (s.irqAccept k p q rest).orFlags a b := by
  unfold State.irqAccept
  split
  · rfl
  · rw [setFault_orFlags]
    rfl

theorem irqStep_orFlags (s : State) (k : Nat) : (s.orFlags a b).irqStep k = (s.irqStep k).orFlags a b := by
  have hi : (s.orFlags a b).irqh = s.irqh := rfl
  unfold State.irqStep
  rw [hi]
  cases s.irqh[k]? with
  | none => rfl
  | some port =>
    simp only
    split
    · rfl
    · exact irqAccept_orFlags s k port _ _
    · rfl
    · rfl

theorem runTurns_orFlags : ∀ (p : List Turn) (s : State),
    runTurns p (s.orFlags a b) = (runTurns p s).map (State.orFlags a b)
  | [], _ => rfl
  | .seq :: _, _ => rfl
  | .rest :: _, _ => rfl
  | .eng m :: p, s => by rw [runTurns, runTurns, engMove_orFlags, runTurns_orFlags p]
  | .irqh k :: p, s => by rw [runTurns, runTurns, irqStep_orFlags, runTurns_orFlags p]

theorem idleTurn_orFlags (s : State) : (s.orFlags a b).idleTurn = s.idleTurn.orFlags a b := by
  have hp : (s.orFlags a b).plan = s.plan := rfl
  unfold State.idleTurn
  rw [hp]
  split
  · rfl
  · rfl
  · rfl
  · rename_i m p _
    exact engMove_orFlags (a := a) (b := b) { s with plan := p } m
  · rename_i k p _
    exact irqStep_orFlags (a := a) (b := b) { s with plan := p } k

/-! ## Micro-steps -/

/-- What follows an access does not read the flags either. -/
theorem rdThen_orFlags {off : Nat} {s : State} {k : Word → State → Micro}
    (hk : ∀ t s, k t (s.orFlags a b) = (k t s).map (State.orFlags a b)) :
    rdThen off (s.orFlags a b) k = (rdThen off s k).map (State.orFlags a b) := by
  unfold rdThen rd32
  cases regAt off with
  | none => rfl
  | some g =>
    simp only [readVal_orFlags]
    exact hk _ ((s.tick g.readDraws).log _)

theorem wrThen_orFlags {off : Nat} {v : Word} {s : State} {k : State → Micro}
    (hk : ∀ s, k (s.orFlags a b) = (k s).map (State.orFlags a b)) :
    wrThen off v (s.orFlags a b) k = (wrThen off v s k).map (State.orFlags a b) := by
  cases hg : regAt off with
  | none =>
    simp only [wrThen, wr32, hg]
    rfl
  | some g =>
    cases hw : s.writeReg v g with
    | error x =>
      rw [wrThen_of_error hg hw, wrThen_of_error hg (x := x) (by rw [writeReg_orFlags, hw]; rfl)]
      rfl
    | ok t =>
      rw [wrThen_of_ok hg hw, wrThen_of_ok hg (t := t.orFlags a b) (by rw [writeReg_orFlags, hw]; rfl)]
      exact hk (t.log _)

/-- A read and the next position. -/
theorem rdGoto_orFlags (off : Nat) (r : Word → SeqRun) (s : State) :
    (rdThen off (s.orFlags a b) fun t s => .goto (r t) s) =
      (rdThen off s fun t s => .goto (r t) s).map (State.orFlags a b) :=
  rdThen_orFlags fun _ _ => rfl

/-- A read and the response. -/
theorem rdDone_orFlags (off : Nat) (q : Word → Resp) (s : State) :
    (rdThen off (s.orFlags a b) fun t s => .done (q t) s) =
      (rdThen off s fun t s => .done (q t) s).map (State.orFlags a b) :=
  rdThen_orFlags fun _ _ => rfl

/-- A write and the next position. -/
theorem wrGoto_orFlags (off : Nat) (v : Word) (r : SeqRun) (s : State) :
    (wrThen off v (s.orFlags a b) fun s => .goto r s) =
      (wrThen off v s fun s => .goto r s).map (State.orFlags a b) :=
  wrThen_orFlags fun _ => rfl

/-- A write and the response. -/
theorem wrDone_orFlags (off : Nat) (v : Word) (q : Resp) (s : State) :
    (wrThen off v (s.orFlags a b) fun s => .done q s) =
      (wrThen off v s fun s => .done q s).map (State.orFlags a b) :=
  wrThen_orFlags fun _ => rfl

theorem modGoto_orFlags (off hi lo : Nat) (v : Word) (r : SeqRun) (next : Label) (s : State) :
    modGoto off hi lo v r next (s.orFlags a b) = (modGoto off hi lo v r next s).map (State.orFlags a b) :=
  wrThen_orFlags fun _ => rfl

theorem modDone_orFlags (off hi lo : Nat) (v : Word) (r : SeqRun) (s : State) :
    modDone off hi lo v r (s.orFlags a b) = (modDone off hi lo v r s).map (State.orFlags a b) :=
  wrThen_orFlags fun _ => rfl

theorem ctrlReset_orFlags (r : SeqRun) (s : State) :
    ctrlResetMicro r (s.orFlags a b) = (ctrlResetMicro r s).map (State.orFlags a b) := by
  unfold ctrlResetMicro
  split
  case h_1 | h_3 | h_5 | h_7 | h_10 | h_12 | h_14 => exact rdGoto_orFlags _ _ _
  case h_2 | h_4 | h_6 | h_8 | h_13 | h_15 => exact modGoto_orFlags _ _ _ _ _ _ _
  case h_9 | h_11 => exact wrGoto_orFlags _ _ _ _
  case h_16 => exact wrDone_orFlags _ _ _ _
  case h_17 => rfl

/-- The allocator's answer does not go by the flags (R84). -/
theorem constructAlloc_orFlags (dir : Bool) (size : Word) (r : SeqRun) (s : State) :
    constructAlloc dir size r (s.orFlags a b) = (constructAlloc dir size r s).map (State.orFlags a b) := by
  have ha : (s.orFlags a b).allocAnswer = s.allocAnswer := rfl
  unfold constructAlloc allocReq
  simp only [ha]
  cases s.allocAnswer with
  | none => rfl
  | some ba =>
    simp only
    split <;> rfl

theorem construct_orFlags (dir : Bool) (size dev : Word) (next : Label) (r : SeqRun) (s : State) :
    constructMicro dir size dev next r (s.orFlags a b) =
      (constructMicro dir size dev next r s).map (State.orFlags a b) := by
  unfold constructMicro
  split
  case h_1 => exact constructAlloc_orFlags dir size r s
  case h_2 | h_3 | h_6 | h_8 | h_14 => exact rdGoto_orFlags _ _ _
  case h_5 =>
    refine rdThen_orFlags fun t s => ?_
    split <;> rfl
  case h_4 | h_7 | h_9 | h_15 => exact modGoto_orFlags _ _ _ _ _ _ _
  case h_10 | h_11 | h_12 | h_13 => exact wrGoto_orFlags _ _ _ _
  case h_16 => rfl

theorem newChannel_orFlags (slave : BitVec 8) (dir irq : Bool) (size dev : Word) (i : Fin 8) (r : SeqRun)
    (s : State) : newChannelMicro slave dir irq size dev i r (s.orFlags a b) =
      (newChannelMicro slave dir irq size dev i r s).map (State.orFlags a b) := by
  unfold newChannelMicro
  split
  case h_1 =>
    refine rdThen_orFlags fun t s => ?_
    split <;> rfl
  case h_2 | h_4 | h_6 | h_8 => exact rdGoto_orFlags _ _ _
  case h_3 | h_5 => exact modGoto_orFlags _ _ _ _ _ _ _
  case h_7 => exact wrThen_orFlags fun _ => rfl
  case h_9 => exact modDone_orFlags _ _ _ _ _ _
  case h_10 => exact construct_orFlags _ _ _ _ _ _

theorem bufWr_orFlags (i : Fin 8) (off : Word) (data : List Byte) (r : SeqRun) (s : State) :
    bufWrMicro i off data r (s.orFlags a b) = (bufWrMicro i off data r s).map (State.orFlags a b) := by
  have hd : (s.orFlags a b).desc i = s.desc i := rfl
  unfold bufWrMicro
  split
  · rename_i k _
    unfold memWrite
    rw [hd]
    cases s.desc i with
    | none => rfl
    | some d =>
      by_cases ho : off.toNat + k < d.size.toNat
      · simp only [ho, if_true]
        split <;> rfl
      · simp only [ho, if_false]
        rfl
  · rfl

theorem bufRd_orFlags (i : Fin 8) (off : Word) (n : BitVec 16) (r : SeqRun) (s : State) :
    bufRdMicro i off n r (s.orFlags a b) = (bufRdMicro i off n r s).map (State.orFlags a b) := by
  have hd : (s.orFlags a b).desc i = s.desc i := rfl
  unfold bufRdMicro
  split
  · rename_i k _
    unfold memRead
    rw [hd]
    cases s.desc i with
    | none => rfl
    | some d =>
      by_cases ho : off.toNat + k < d.size.toNat
      · simp only [ho, if_true]
        split <;> rfl
      · simp only [ho, if_false]
        rfl
  · rfl

theorem microOf_orFlags (c : Instr) (r : SeqRun) (s : State) :
    microOf c r (s.orFlags a b) = (microOf c r s).map (State.orFlags a b) := by
  cases c with
  | fldRd f idx =>
    simp only [microOf, onField]
    cases fldLoc f idx with
    | none => rfl
    | some l =>
      simp only [fldRdMicro]
      split
      · exact rdDone_orFlags _ _ _
      · rfl
  | fldWr f idx value =>
    simp only [microOf, onField]
    cases fldLoc f idx with
    | none => rfl
    | some l =>
      simp only [fldWrMicro]
      split
      · exact wrDone_orFlags _ _ _ _
      · rfl
  | fldMod f idx value =>
    simp only [microOf, onField]
    cases fldLoc f idx with
    | none => rfl
    | some l =>
      simp only [fldModMicro]
      split
      · exact rdGoto_orFlags _ _ _
      · exact modDone_orFlags _ _ _ _ _ _
      · rfl
  | ctrlReset => exact ctrlReset_orFlags r s
  | ctrlEnable =>
    simp only [microOf, ctrlEnableMicro]
    split
    · exact rdGoto_orFlags _ _ _
    · exact modDone_orFlags _ _ _ _ _ _
    · rfl
  | ctrlDisable =>
    simp only [microOf, ctrlDisableMicro]
    split
    · exact rdGoto_orFlags _ _ _
    · exact modDone_orFlags _ _ _ _ _ _
    · rfl
  | newChannel idx slave dir irq size dev tmo =>
    simp only [microOf, onChan]
    cases chanIdx? idx with
    | none => rfl
    | some i => exact newChannel_orFlags _ _ _ _ _ _ _ _
  | isComplete idx =>
    simp only [microOf, onChan]
    cases chanIdx? idx with
    | none => rfl
    | some i =>
      simp only [isCompleteMicro]
      split
      · exact rdDone_orFlags _ _ _
      · rfl
  | clrComplete idx =>
    simp only [microOf, onChan]
    cases chanIdx? idx with
    | none => rfl
    | some i =>
      simp only [clrCompleteMicro]
      split
      · exact wrDone_orFlags _ _ _ _
      · rfl
  | setMask idx masked =>
    simp only [microOf, onChan]
    cases chanIdx? idx with
    | none => rfl
    | some i =>
      simp only [setMaskMicro]
      split
      · exact rdGoto_orFlags _ _ _
      · exact modDone_orFlags _ _ _ _ _ _
      · rfl
  | chActivate idx =>
    simp only [microOf, onChan]
    cases chanIdx? idx with
    | none => rfl
    | some i =>
      simp only [chActivateMicro]
      split
      · exact rdGoto_orFlags _ _ _
      · exact modDone_orFlags _ _ _ _ _ _
      · rfl
  | chDeactivate idx =>
    simp only [microOf, onChan]
    cases chanIdx? idx with
    | none => rfl
    | some i =>
      simp only [chDeactivateMicro]
      split
      · exact rdGoto_orFlags _ _ _
      · exact modDone_orFlags _ _ _ _ _ _
      · rfl
  | chIsRunning idx =>
    simp only [microOf, onChan]
    cases chanIdx? idx with
    | none => rfl
    | some i =>
      simp only [chIsRunningMicro]
      split
      · exact rdDone_orFlags _ _ _
      · rfl
  | bufWr idx off data =>
    simp only [microOf, onChan]
    cases chanIdx? idx with
    | none => rfl
    | some i => exact bufWr_orFlags _ _ _ _ _
  | bufRd idx off n =>
    simp only [microOf, onChan]
    cases chanIdx? idx with
    | none => rfl
    | some i => exact bufRd_orFlags _ _ _ _ _
  | handleIrq =>
    simp only [microOf, handleIrqMicro]
    split
    · exact rdGoto_orFlags _ _ _
    · exact wrDone_orFlags _ _ _ _
    · rfl

/-! ## Commands and steps -/

theorem drive_orFlags {f : SeqRun → State → Micro}
    (hf : ∀ r s, f r (s.orFlags a b) = (f r s).map (State.orFlags a b)) :
    ∀ (n : Nat) (r : SeqRun) (s : State),
      drive f n r (s.orFlags a b) = mapNext (State.orFlags a b) (drive f n r s)
  | 0, _, _ => rfl
  | n + 1, r, s => by
    have hp : (s.orFlags a b).plan = s.plan := rfl
    unfold drive
    rw [hp, runTurns_orFlags]
    cases runTurns s.plan s with
    | rest s' => rfl
    | go s' =>
      simp only [Turned.map, hf]
      cases f r s' with
      | goto r' t => exact drive_orFlags hf n r' t
      | spin r' t =>
        have ht : (t.orFlags a b).plan = t.plan := rfl
        simp only [Micro.map, ht]
        split
        · rfl
        · exact drive_orFlags hf n r' t
      | done q t => rfl
      | stop x => rfl
      | fault x => rfl

/-- How a command begins goes by its operands and the descriptors, never by the flags (R252). -/
theorem opening_orFlags (c : Instr) (s : State) (o : Opening) :
    o.out c (s.orFlags a b) = mapNext (State.orFlags a b) (o.out c s) := by
  cases o with
  | contract =>
    simp only [Opening.out, raise_orFlags]
    rfl
  | noChannel => rfl
  | answer vals => rfl
  | run lbl cb => exact drive_orFlags (microOf_orFlags c) (budget c s) _ s

theorem exec_orFlags (c : Instr) (s : State) :
    exec c (s.orFlags a b) = mapNext (State.orFlags a b) (exec c s) := by
  obtain ⟨o, -, ho⟩ := exec_opening c s
  rw [ho s fun _ => rfl, ho (s.orFlags a b) fun _ => rfl, opening_orFlags]

theorem accept_orFlags (p : Packet) (s : State) :
    accept p (s.orFlags a b) = mapNext (State.orFlags a b) (accept p s) := by
  unfold accept
  split
  · exact exec_orFlags _ s
  · rw [raise_orFlags]
    rfl

theorem step_orFlags (s : State) : step (s.orFlags a b) = mapNext (State.orFlags a b) (step s) := by
  cases hseq : s.seq with
  | busy r =>
    rw [step_of_busy hseq, step_of_busy (s := s.orFlags a b) hseq]
    exact drive_orFlags (microOf_orFlags r.cmd) (budget r.cmd s) r s
  | idle =>
    cases hin : s.cmdIn with
    | cons p rest =>
      rw [step_of_idle hseq hin, step_of_idle (s := s.orFlags a b) hseq hin]
      exact accept_orFlags (a := a) (b := b) p { s with cmdIn := rest }
    | nil =>
      rw [step_of_waiting hseq hin, step_of_waiting (s := s.orFlags a b) hseq hin, idleTurn_orFlags]
      rfl

end

/-- Settles O25: the flags `a`, `b` of the one machine are the other's, set beside it. -/
theorem faultFlagsAreNeverRead : Obligations.FaultFlagsAreNeverRead := by
  intro s a b
  have h := step_orFlags (a := a) (b := b) { s with fltContract := false, fltIllegal := false }
  simp only [State.orFlags, Bool.or_false] at h
  rw [h]
  cases step { s with fltContract := false, fltIllegal := false } <;> rfl

end Sys2Proof.Machine
end

section
/-! SUPPORT. The register space, access by access (20_memory.md R76 to R80): which bits the word of each register
holds, what a read of each gives, and the writes of DMA_STAT and DMA_CTL; and the IDLE machine with nothing waiting
(R291). -/

namespace Sys2Proof.Machine

open Sys2Proof.Config

/-! ## An IDLE machine with nothing waiting (R291) -/

theorem idleTurn_nil {s : State} (h : s.plan = []) : s.idleTurn = s := by
  unfold State.idleTurn
  rw [h]

/-- A turn of an idle machine is the move of the agent whose turn it is; a turn of SEQ, or a rest, does nothing. -/
theorem idleTurn_cons {s : State} {x : Turn} {p : List Turn} (h : s.plan = x :: p) :
    s.idleTurn = ({ s with plan := p } : State).otherTurn x := by
  unfold State.idleTurn
  rw [h]
  cases x <;> rfl

/-- Settles O7. -/
theorem idleMachineWaits : Obligations.IdleMachineWaits := by
  refine ⟨fun s hs hc hp => ?_, fun s x p hs hc hp => ?_, ?_⟩
  · rw [step_of_waiting hs hc, idleTurn_nil hp]
  · rw [step_of_waiting hs hc, idleTurn_cons hp]
  · rw [step_of_waiting rfl rfl, idleTurn_nil rfl]

/-! ## The bits of the register words (R31 to R48, R50) -/

/-- A word whose bits are clear wherever `m` has a one. -/
theorem and_eq_zero_of_getLsbD {w m : Word} (h : ∀ j : Fin 32, m.getLsbD j = true → w.getLsbD j = false) :
    w &&& m = 0#32 := by
  apply BitVec.eq_of_getLsbD_eq
  intro j hj
  have hj' := h ⟨j, hj⟩
  rw [BitVec.getLsbD_and, BitVec.getLsbD_zero]
  cases hm : m.getLsbD j with
  | false => rw [Bool.and_false]
  | true => rw [hj' hm, Bool.false_and]

theorem encCtl_reserved (en srst : Bool) : encCtl en srst >>> 2 = 0#32 := by
  revert en srst
  decide

theorem encChctl_reserved (en srst dir : Bool) : encChctl en srst dir >>> 3 = 0#32 := by
  revert en srst dir
  decide

/-- Only the bits at multiples of 4 can be set in the status word (R34). -/
theorem statWord_reserved (done : BitVec 8) : statWord done &&& 0xEEEEEEEE#32 = 0#32 := by
  refine and_eq_zero_of_getLsbD fun j hj => ?_
  have hmod : (j.val % 4 == 0) = false := by
    revert j
    decide
  rw [statWord_getLsbD, hmod, Bool.and_false, Bool.false_and]

theorem statWord_flag (done : BitVec 8) (j : Fin 8) : (statWord done).getLsbD (4 * j) = done.getLsbD j := by
  rw [statWord_getLsbD]
  simp [show 4 * j.val < 32 by omega]

theorem maskWord_reserved (chm : BitVec 8) (gie : Bool) : maskWord chm gie &&& 0x7FFFFF00#32 = 0#32 := by
  refine and_eq_zero_of_getLsbD fun j hj => ?_
  have hplace : 8 ≤ j.val ∧ j.val ≠ 31 := by
    revert j
    decide
  rw [maskWord_getLsbD, BitVec.getLsbD_of_ge chm j hplace.1, decide_eq_false hplace.2]
  rfl

theorem maskWord_chm (chm : BitVec 8) (gie : Bool) (j : Fin 8) : (maskWord chm gie).getLsbD j = chm.getLsbD j := by
  rw [maskWord_getLsbD, decide_eq_false (show j.val ≠ 31 by omega), Bool.false_and, Bool.or_false]

theorem bindWord_reserved (bound : BitVec 8) : bound.setWidth 32 &&& 0xFFFFFF00#32 = 0#32 := by
  refine and_eq_zero_of_getLsbD fun j hj => ?_
  have hplace : 8 ≤ j.val := by
    revert j
    decide
  rw [BitVec.getLsbD_setWidth, BitVec.getLsbD_of_ge bound j hplace, Bool.and_false]

theorem bindWord_bound (bound : BitVec 8) (j : Fin 8) : (bound.setWidth 32).getLsbD j = bound.getLsbD j := by
  rw [BitVec.getLsbD_setWidth, decide_eq_true (show j.val < 32 by omega), Bool.true_and]

theorem encTmo_thresh (thresh : BitVec 30) (en : Bool) : (encTmo thresh en).extractLsb' 0 30 = thresh := by
  apply BitVec.eq_of_getLsbD_eq
  intro j hj
  simp [encTmo_getLsbD, hj, show j ≠ 31 by omega]

theorem encTmo_reserved (thresh : BitVec 30) (en : Bool) : (encTmo thresh en).getLsbD 30 = false := by
  rw [encTmo_getLsbD, BitVec.getLsbD_of_ge thresh 30 (Nat.le_refl 30)]
  rfl

theorem encTmo_en (thresh : BitVec 30) (en : Bool) : (encTmo thresh en).getLsbD 31 = en := by
  rw [encTmo_getLsbD, BitVec.getLsbD_of_ge thresh 31 (by decide)]
  simp

/-! ## What a read returns (R76) -/

/-- A read of a register that takes no free value only logs the access. -/
theorem rd32_of_stored {off : Nat} {g : Reg} (h : regAt off = some g) (hd : g.readDraws = 0) (ag : Agent) (s : State) :
    rd32 ag off s = .ok (s.readVal g, s.log (.rd ag off (s.readVal g))) := by
  rw [rd32_of_regAt h, hd, State.tick_zero]

/-- The register of a channel block at an offset given as a sum of its own. -/
theorem regAt_of_block {off : Nat} {i : Fin 8} (r : ChReg) (h : off = 0x40 + 0x40 * i.val + r.off) :
    regAt off = some (.chan i r) :=
  h ▸ regAt_block i r

/-- A read of a channel register that stores its word. -/
theorem rd32_chan {off : Nat} {i : Fin 8} (r : ChReg) (h : off = 0x40 + 0x40 * i.val + r.off) (hd : r.draws = false)
    (ag : Agent) (s : State) :
    rd32 ag off s = .ok (s.readVal (.chan i r), s.log (.rd ag off (s.readVal (.chan i r)))) :=
  rd32_of_stored (regAt_of_block r h) (by rw [Reg.readDraws, hd]; rfl) ag s

/-- Settles O14. -/
theorem registerReadsReturnStoredBits : Obligations.RegisterReadsReturnStoredBits := by
  intro s ag i c reads
  have hblock : ∀ r : ChReg, 0x40 + r.off + 0x40 * i.val = 0x40 + 0x40 * i.val + r.off := fun r => by omega
  refine ⟨⟨_, rd32_of_stored regAt_offCtl rfl ag s, encCtl_getLsbD_zero _ _, encCtl_getLsbD_one _ _,
      encCtl_reserved _ _⟩,
    rd32_of_stored regAt_offChselL rfl ag s, rd32_of_stored regAt_offChselH rfl ag s,
    ⟨_, rd32_of_stored regAt_offStat rfl ag s, statWord_reserved _, statWord_flag _⟩,
    ⟨_, rd32_of_stored regAt_offMask rfl ag s, maskWord_reserved _ _, maskWord_gie _ _, maskWord_chm _ _⟩,
    ⟨_, rd32_of_stored regAt_offBind rfl ag s, bindWord_reserved _, bindWord_bound _⟩,
    rd32_of_stored regAt_offCap rfl ag s,
    rd32_chan .addrUp (hblock _) rfl ag s, rd32_chan .addrLo (hblock _) rfl ag s,
    rd32_chan .devAddr (hblock _) rfl ag s, rd32_chan .xferSize (hblock _) rfl ag s,
    ⟨_, rd32_chan .ctl (hblock _) rfl ag s, encChctl_getLsbD_zero _ _ _, encChctl_getLsbD_one _ _ _,
      encChctl_getLsbD_two _ _ _, encChctl_reserved _ _ _⟩,
    ⟨_, rd32_chan .tmo (hblock _) rfl ag s, encTmo_thresh _ _, encTmo_reserved _ _, encTmo_en _ _⟩,
    fun off hoff => ?_,
    ⟨_, _, rd32_of_regAt (regAt_of_block .sts (hblock _)) ag s, encChsts_reserved _ _⟩,
    fun off hoff => rd32_of_stored hoff rfl ag s⟩
  rcases List.mem_pair.1 hoff with rfl | rfl
  · exact ⟨_, _, rd32_of_regAt (regAt_of_block .curUp (hblock _)) ag s⟩
  · exact ⟨_, _, rd32_of_regAt (regAt_of_block .curLo (hblock _)) ag s⟩

/-! ## DMA_STAT (R80) -/

theorem writeStat_getLsbD (g : Globals) (v : Word) (j : Fin 8) :
    (g.writeStat v).done.getLsbD j = (g.done.getLsbD j && !v.getLsbD (4 * j)) := by
  rw [Globals.writeStat, BitVec.getLsbD_and, BitVec.getLsbD_not, decodeStatus_getLsbD, decide_eq_true j.isLt,
    Bool.true_and, Bool.true_and]

/-- Both writes together clear the flags that either names. -/
theorem writeStat_writeStat (g : Globals) (v w : Word) :
    (g.writeStat v).writeStat w = { g with done := g.done &&& (~~~decodeStatus v &&& ~~~decodeStatus w) } := by
  simp only [Globals.writeStat, BitVec.and_assoc]

/-- Settles O18. -/
theorem statusWriteOnlyClears : Obligations.StatusWriteOnlyClears := by
  refine ⟨fun s ag v => ⟨_, wr32_of_regAt regAt_offStat ag v s, writeStat_getLsbD s.glb v, rfl⟩,
    fun g v w => ?_⟩
  rw [writeStat_writeStat, writeStat_writeStat, BitVec.and_comm (~~~decodeStatus v)]

/-! ## DMA_CTL (R78) -/

theorem ctlEvent_iff (g : Globals) (v : Word) : g.ctlEvent v = true ↔ g.srst = false ∧ v.getLsbD 1 = true := by
  simp only [Globals.ctlEvent, Bool.and_eq_true, Bool.not_eq_true']

theorem quiesced_iff (g : Globals) (v : Word) : g.quiesced v = true ↔
    g.en = false ∧ v.getLsbD 0 = false ∧ g.bound = 0#8 ∧ g.chselL = 0#32 ∧ g.chselH = 0#32 := by
  simp only [Globals.quiesced, Bool.and_eq_true, Bool.not_eq_true', beq_iff_eq, and_assoc]
  rfl

/-- Settles O16. -/
theorem globalControlWrite : Obligations.GlobalControlWrite := by
  intro s ag v event quiesced
  refine ⟨fun h => ?_, fun ⟨hevent, hquiet⟩ => ?_⟩
  · have hdef : s.glb.ctlEvent v = false ∨ s.glb.quiesced v = true :=
      h.imp (fun he => Bool.eq_false_iff.2 (he ∘ (ctlEvent_iff _ _).1)) (quiesced_iff _ _).2
    rw [wr32_of_regAt regAt_offCtl, writeReg_dmaCtl_ok hdef]
    rfl
  · have hnot : s.glb.quiesced v = false := Bool.eq_false_iff.2 (hquiet ∘ (quiesced_iff _ _).1)
    rw [wr32_of_regAt regAt_offCtl, writeReg_dmaCtl_error ((ctlEvent_iff _ _).2 hevent) hnot]
    rfl

end Sys2Proof.Machine
end

section
/-! SUPPORT. Register writes field by field (20_memory.md R77, R79): the plain stores of a channel block as one
function of the channel, what every write but CH_CTL's leaves alone, and the CH_CTL write as one equation. -/

namespace Sys2Proof.Machine

open Sys2Proof.Config

/-! ## The words that a write stores (R77) -/

theorem maskWord_of_write (v : Word) : maskWord (v.setWidth 8) (v.getLsbD 31) = v &&& 0x800000FF#32 := by
  apply BitVec.eq_of_getLsbD_eq
  intro j hj
  have hm : ∀ k : Fin 32, (0x800000FF#32).getLsbD k = (decide (k.val < 8) || decide (k.val = 31)) := by decide
  rw [maskWord_getLsbD, BitVec.getLsbD_setWidth, BitVec.getLsbD_and, hm ⟨j, hj⟩]
  by_cases h : j = 31
  · subst h
    simp
  · simp [h, Bool.and_comm]

theorem bindWord_of_write (v : Word) : (v.setWidth 8).setWidth 32 = v &&& 0x000000FF#32 := by
  apply BitVec.eq_of_getLsbD_eq
  intro j hj
  have hm : ∀ k : Fin 32, (0x000000FF#32).getLsbD k = decide (k.val < 8) := by decide
  rw [BitVec.getLsbD_setWidth, BitVec.getLsbD_setWidth, BitVec.getLsbD_and, hm ⟨j, hj⟩, decide_eq_true hj,
    Bool.true_and, Bool.and_comm]

theorem encTmo_of_write (v : Word) : encTmo (v.setWidth 30) (v.getLsbD 31) = v &&& 0xBFFFFFFF#32 := by
  apply BitVec.eq_of_getLsbD_eq
  intro j hj
  have hm : ∀ k : Fin 32, (0xBFFFFFFF#32).getLsbD k = (decide (k.val < 30) || decide (k.val = 31)) := by decide
  rw [encTmo_getLsbD, BitVec.getLsbD_setWidth, BitVec.getLsbD_and, hm ⟨j, hj⟩]
  by_cases h : j = 31
  · subst h
    simp
  · simp [h, Bool.and_comm]

/-! ## The plain stores of a channel block (R77, R51) -/

/-- The channel after a write of one of its registers but CH_CTL: the read-only ones ignore it. -/
def Chan.store (c : Chan) (v : Word) : ChReg → Chan
  | .addrUp => { c with addrUp := v }
  | .addrLo => { c with addrLo := v }
  | .devAddr => { c with devAddr := v }
  | .xferSize => { c with xferSize := v }
  | .tmo => { c with thresh := v.setWidth 30, tmoEn := v.getLsbD tmoEnBit }
  | .ctl | .curUp | .curLo | .sts => c

/-- `Chan.store` is what the model's write does. -/
theorem writeChReg_eq_store {r : ChReg} (h : r ≠ .ctl) (s : State) (i : Fin 8) (v : Word) :
    s.writeChReg i v r = .ok (s.setChan i ((s.chan i).store v r)) := by
  cases r with
  | ctl => exact absurd rfl h
  | curUp | curLo | sts => exact congrArg Except.ok (s.setChan_self i).symm
  | addrUp | addrLo | devAddr | xferSize | tmo => rfl

/-- A store into one register of the block is read back in no other. -/
theorem readReg_store_of_ne {r r' : ChReg} (h : r' ≠ r) (c : Chan) (v d : Word) :
    (c.store v r).readReg d r' = c.readReg d r' := by
  cases r with
  | ctl | curUp | curLo | sts => rfl
  | addrUp | addrLo | devAddr | xferSize | tmo => cases r' <;> first | rfl | contradiction

theorem store_desc (c : Chan) (v : Word) (r : ChReg) : (c.store v r).desc = c.desc := by
  cases r <;> rfl

theorem store_disPending (c : Chan) (v : Word) (r : ChReg) : (c.store v r).disPending = c.disPending := by
  cases r <;> rfl

theorem store_armed (c : Chan) (v : Word) (r : ChReg) : (c.store v r).armed = c.armed := by
  cases r <;> rfl

/-! ## What a write of any register but CH_CTL leaves alone -/

/-- A write of DMA_CTL that has a meaning stores its two bits (R78). -/
theorem writeReg_dmaCtl_of_ok {s t : State} {v : Word} (hw : s.writeReg v .dmaCtl = .ok t) :
    t = { s with glb := { s.glb with en := v.getLsbD 0, srst := v.getLsbD 1 } } := by
  by_cases hdef : s.glb.ctlEvent v = false ∨ s.glb.quiesced v = true
  · rw [writeReg_dmaCtl_ok hdef] at hw
    cases hw
    rfl
  · rw [not_or, Bool.not_eq_false, Bool.not_eq_true] at hdef
    rw [writeReg_dmaCtl_error hdef.1 hdef.2] at hw
    cases hw

/-- What a write of any register but CH_CTL is: a change of the global registers other than DMA_BIND, the write of
DMA_BIND with its descriptors, or a plain store into one channel. -/
theorem writeReg_cases {s t : State} {v : Word} {g : Reg} (hw : s.writeReg v g = .ok t)
    (hctl : ∀ i, g ≠ .chan i .ctl) :
    (g ≠ .dmaBind ∧ ∃ gl, t = { s with glb := gl }) ∨ (g = .dmaBind ∧ t = s.writeBind v) ∨
      ∃ i r, g = .chan i r ∧ t = s.setChan i ((s.chan i).store v r) := by
  cases g with
  | dmaCtl =>
    exact .inl ⟨by simp, _, writeReg_dmaCtl_of_ok hw⟩
  | dmaBind =>
    cases hw
    exact .inr (.inl ⟨rfl, rfl⟩)
  | chan i r =>
    have hr : r ≠ .ctl := fun h => hctl i (h ▸ rfl)
    rw [writeReg_chan, writeChReg_eq_store hr] at hw
    cases hw
    exact .inr (.inr ⟨i, r, rfl, rfl⟩)
  | chselL | chselH | dmaStat | dmaMask | dmaCap | reserved =>
    cases hw
    exact .inl ⟨by simp, _, rfl⟩

/-- No write but CH_CTL's takes a free value. -/
theorem writeReg_draws {s t : State} {v : Word} {g : Reg} (hw : s.writeReg v g = .ok t)
    (hctl : ∀ i, g ≠ .chan i .ctl) : t.draws = s.draws := by
  rcases writeReg_cases hw hctl with ⟨-, gl, rfl⟩ | ⟨-, rfl⟩ | ⟨i, r, -, rfl⟩ <;> rfl

/-- Only a write of DMA_BIND drops descriptors, those whose bit is 0 (R57, R77). -/
theorem writeReg_desc {s t : State} {v : Word} {g : Reg} (hw : s.writeReg v g = .ok t)
    (hctl : ∀ i, g ≠ .chan i .ctl) (j : Fin 8) :
    t.desc j = if g = .dmaBind ∧ v.getLsbD j = false then none else s.desc j := by
  rcases writeReg_cases hw hctl with ⟨hg, gl, rfl⟩ | ⟨rfl, rfl⟩ | ⟨i, r, rfl, rfl⟩
  · rw [if_neg fun h => hg h.1]
    rfl
  · have hbit : (v.setWidth 8).getLsbD j = v.getLsbD j := by
      rw [BitVec.getLsbD_setWidth, decide_eq_true j.isLt, Bool.true_and]
    rw [State.desc, State.writeBind_chan, hbit]
    cases v.getLsbD j with
    | true => simp [State.desc]
    | false => simp
  · rw [if_neg (by simp), State.desc, State.setChan_chan]
    split
    · rename_i hij
      rw [store_desc, hij, State.desc]
    · rfl

/-- No write but CH_CTL's moves a hidden bit (R55). -/
theorem writeReg_hidden {s t : State} {v : Word} {g : Reg} (hw : s.writeReg v g = .ok t)
    (hctl : ∀ i, g ≠ .chan i .ctl) (j : Fin 8) :
    (t.chan j).disPending = (s.chan j).disPending ∧ (t.chan j).armed = (s.chan j).armed := by
  rcases writeReg_cases hw hctl with ⟨-, gl, rfl⟩ | ⟨-, rfl⟩ | ⟨i, r, -, rfl⟩
  · exact ⟨rfl, rfl⟩
  · rw [State.writeBind_chan]
    split <;> exact ⟨rfl, rfl⟩
  · rw [State.setChan_chan]
    split
    · rename_i hij
      rw [store_disPending, store_armed, hij]
      exact ⟨rfl, rfl⟩
    · exact ⟨rfl, rfl⟩

/-! ## What other registers read after a write -/

theorem readVal_log (s : State) (a : Access) (g : Reg) : (s.log a).readVal g = s.readVal g := by
  cases g <;> rfl

theorem readVal_setChan_self (s : State) (i : Fin 8) (c : Chan) (r : ChReg) :
    (s.setChan i c).readVal (.chan i r) = c.readReg (draw s.draws) r := by
  rw [State.readVal, State.setChan_chan_self]
  rfl

/-- A change of one channel is read in that channel's registers only. -/
theorem readVal_setChan_of_ne {s : State} {i : Fin 8} {g : Reg} (h : ∀ r, g ≠ .chan i r) (c : Chan) :
    (s.setChan i c).readVal g = s.readVal g := by
  cases g with
  | chan j r =>
    have hij : i ≠ j := fun e => h r (e ▸ rfl)
    rw [State.readVal, s.setChan_chan_ne hij]
    rfl
  | _ => rfl

/-- The descriptor is no register. -/
theorem readVal_writeBind {s : State} {g : Reg} (h : g ≠ .dmaBind) (v : Word) :
    (s.writeBind v).readVal g = s.readVal g := by
  cases g with
  | dmaBind => exact absurd rfl h
  | chan j r =>
    rw [State.readVal, State.writeBind_chan]
    split
    · rfl
    · cases r <;> rfl
  | _ => rfl

/-- A write of any register but CH_CTL leaves what the other registers read (R77). -/
theorem readVal_writeReg_of_ne {s t : State} {v : Word} {g g' : Reg} (hw : s.writeReg v g = .ok t)
    (hctl : ∀ i, g ≠ .chan i .ctl) (h : g' ≠ g) : t.readVal g' = s.readVal g' := by
  cases g with
  | dmaCtl =>
    rw [writeReg_dmaCtl_of_ok hw]
    cases g' <;> first | rfl | contradiction
  | dmaBind =>
    cases hw
    exact readVal_writeBind h v
  | chan i r =>
    have hr : r ≠ .ctl := fun e => hctl i (e ▸ rfl)
    rw [writeReg_chan, writeChReg_eq_store hr] at hw
    cases hw
    by_cases hg : ∃ r', g' = .chan i r'
    · obtain ⟨r', rfl⟩ := hg
      rw [readVal_setChan_self, readReg_store_of_ne fun e => h (congrArg (Reg.chan i) e)]
      rfl
    · exact readVal_setChan_of_ne (fun r' e => hg ⟨r', e⟩) _
  | chselL | chselH | dmaStat | dmaMask | dmaCap | reserved =>
    cases hw
    cases g' <;> first | rfl | contradiction

/-- Every write but DMA_CTL's and CH_CTL's has a meaning (R77). -/
theorem writeDefined_of_ne {g : Reg} (hctl : g ≠ .dmaCtl) (hch : ∀ i, g ≠ .chan i .ctl) (s : State) (v : Word) :
    s.writeDefined v g = true := by
  cases g with
  | dmaCtl => exact absurd rfl hctl
  | chan i r =>
    cases r with
    | ctl => exact absurd rfl (hch i)
    | _ => rfl
  | _ => rfl

/-- Settles O15: one conjunct per lemma above, and the word read back register by register. -/
theorem registerWritesStoreAndPreserve : Obligations.RegisterWritesStoreAndPreserve := by
  intro s ag off v g hg hctl hstat hch
  obtain ⟨t, hw⟩ := writeReg_of_defined (writeDefined_of_ne hctl hch s v)
  refine ⟨t.log (.wr ag off v), by rw [wr32_of_regAt hg, hw]; rfl, ?_,
    fun g' hne => (readVal_log t _ g').trans (readVal_writeReg_of_ne hw hch hne), writeReg_desc (t := t) hw hch,
    writeReg_hidden (t := t) hw hch, ?_⟩
  · rw [readVal_log]
    cases g with
    | dmaCtl => exact absurd rfl hctl
    | dmaStat => exact absurd rfl hstat
    | dmaMask =>
      cases hw
      exact maskWord_of_write v
    | dmaBind =>
      cases hw
      exact bindWord_of_write v
    | chselL | chselH | dmaCap | reserved =>
      cases hw
      rfl
    | chan i r =>
      have hr : r ≠ .ctl := fun e => hch i (e ▸ rfl)
      rw [writeReg_chan, writeChReg_eq_store hr] at hw
      cases hw
      rw [readVal_setChan_self]
      cases r with
      | ctl => exact absurd rfl hr
      | tmo => exact encTmo_of_write v
      | _ => rfl
  · have hf := writeReg_frame hw
    rw [writeReg_draws hw hch] at hf
    rw [hf]
    rfl

/-! ## CH_CTL (R79) -/

theorem ctlUnspecified_iff (c : Chan) (v : Word) : c.ctlUnspecified v = true ↔
    ((c.srst = false ∧ v.getLsbD 1 = true) ∧ (c.en = true ∨ v.getLsbD 0 = true)) ∨
      (v.getLsbD 0 = true ∧ v.getLsbD 1 = true ∧ c.en = false) := by
  simp only [Chan.ctlUnspecified, Bool.or_eq_true, Bool.and_eq_true, Bool.not_eq_true', and_assoc]

theorem chanCtlEvent_iff (c : Chan) (v : Word) : c.ctlEvent v = true ↔ c.srst = false ∧ v.getLsbD 1 = true := by
  simp only [Chan.ctlEvent, Bool.and_eq_true, Bool.not_eq_true']

/-- Whether a disable is pending after steps 1 to 3 of a CH_CTL write: a clear enable bit asks for one
where the channel is enabled, a set one leaves one pending only where the free value lets it lose the race. -/
def Chan.pendingAfter (c : Chan) (v d : Word) : Bool :=
  if v.getLsbD 0 then c.en && c.disPending && d.getLsbD 0 else c.en || c.disPending

theorem pendingAfter_of_set {v : Word} (h : v.getLsbD 0 = true) (c : Chan) (d : Word) :
    c.pendingAfter v d = (c.en && c.disPending && d.getLsbD 0) := by
  rw [Chan.pendingAfter, if_pos h]

theorem pendingAfter_of_clear {v : Word} (h : v.getLsbD 0 = false) (c : Chan) (d : Word) :
    c.pendingAfter v d = (c.en || c.disPending) := by
  rw [Chan.pendingAfter, h, if_neg Bool.false_ne_true]

/-- Steps 1 to 3 of a CH_CTL write, field by field. -/
theorem ctlStore_eq (c : Chan) (v d : Word) :
    c.ctlStore v d =
      { c with
        dir := v.getLsbD 2
        srst := v.getLsbD 1
        en := c.en || v.getLsbD 0
        armed := c.armed || (v.getLsbD 0 && !c.en)
        disPending := c.pendingAfter v d
        desc := if v.getLsbD 0 = true ∧ c.en = false then c.desc.map Desc.activate else c.desc } := by
  obtain ⟨addrUp, addrLo, devAddr, xferSize, en, srst, dir, thresh, tmoEn, disPending, armed, desc⟩ := c
  unfold Chan.ctlStore Chan.pendingAfter
  cases hv : v.getLsbD 0 <;> cases en <;> cases disPending <;> simp [chDirBit]

theorem ctlAfter_of_event {c : Chan} {v : Word} (h : c.ctlEvent v = true) (n : Nat) :
    c.ctlAfter v n = (c.ctlStore v (draw n)).softReset (n + 1) := by
  rw [Chan.ctlAfter, if_pos h]

theorem ctlAfter_of_not_event {c : Chan} {v : Word} (h : c.ctlEvent v ≠ true) (n : Nat) :
    c.ctlAfter v n = c.ctlStore v (draw n) := by
  rw [Chan.ctlAfter, if_neg h]

/-- Settles O17: `ctlStore_eq` gives every field, and at a soft-reset event step 4 clears the hidden bits. -/
theorem channelControlWrite : Obligations.ChannelControlWrite := by
  intro s ag i v c off en srst event unspecified
  have hoff : 0x58 + 0x40 * i.val = 0x40 + 0x40 * i.val + 0x18 := by omega
  have hreg : regAt off = some (.chan i .ctl) := regAt_of_block .ctl hoff
  refine ⟨fun h => ?_, fun h => ⟨c.ctlAfter v s.draws, s.draws + c.ctlDraws v, ?_, ?_⟩⟩
  · rw [wr32_of_regAt hreg, writeReg_chan, writeChReg_ctl_error ((ctlUnspecified_iff c v).2 h)]
    rfl
  · have hdef : c.ctlUnspecified v = false := Bool.eq_false_iff.2 (h ∘ (ctlUnspecified_iff c v).1)
    rw [wr32_of_regAt hreg, writeReg_chan, writeChReg_ctl_ok hdef]
    rfl
  · by_cases hevent : c.ctlEvent v = true
    · rw [ctlAfter_of_event hevent, ctlStore_eq]
      exact ⟨rfl, rfl, rfl, fun hnot => absurd ((chanCtlEvent_iff c v).1 hevent) hnot, fun _ => ⟨rfl, rfl⟩⟩
    · rw [ctlAfter_of_not_event hevent, ctlStore_eq]
      refine ⟨rfl, rfl, rfl, fun _ => ⟨rfl, rfl, rfl, rfl, rfl, rfl, rfl, rfl, fun hv hen => ?_, fun hv _ hp => ?_,
        fun hv hen => ?_, fun hv hen => ?_⟩, fun he => absurd ((chanCtlEvent_iff c v).2 he) hevent⟩
      · exact (pendingAfter_of_set hv c _).trans (by rw [hen, Bool.false_and, Bool.false_and])
      · exact (pendingAfter_of_set hv c _).trans (by rw [hp, Bool.and_false, Bool.false_and])
      · exact (pendingAfter_of_clear hv c _).trans (by rw [hen, Bool.true_or])
      · exact (pendingAfter_of_clear hv c _).trans (by rw [hen, Bool.false_or])

end Sys2Proof.Machine
end

section
/-! SUPPORT. BUF_WR and BUF_RD as whole commands (41_channel.md R166, R167; 20_memory.md R86, R87): the induction over
their bytes, whatever the other agents do between them, and that no command adds a rest to the schedule. -/

namespace Sys2Proof.Machine

open Sys2Proof.Config

/-! ## The schedule only shrinks (R82) -/

/-- The turns taken leave a rest in the schedule only where there was one. -/
theorem runTurns_noRest : ∀ (p : List Turn) (s : State), Turn.rest ∉ p → (runTurns p s).state.NoRest
  | [], _, h => h
  | .seq :: _, _, h => fun hr => h (List.mem_cons_of_mem _ hr)
  | .rest :: _, _, h => absurd List.mem_cons_self h
  | .eng m :: p, s, h => runTurns_noRest p (s.engMove m) fun hr => h (List.mem_cons_of_mem _ hr)
  | .irqh k :: p, s, h => runTurns_noRest p (s.irqStep k) fun hr => h (List.mem_cons_of_mem _ hr)

/-- No micro-step reads or writes the schedule. -/
theorem noRest_stepClosed : StepClosed State.NoRest where
  read _ _ _ h := h
  write _ _ _ _ _ h hw := by
    rw [writeReg_frame hw]
    exact h
  alloc _ _ _ _ h := h
  memWrite _ _ _ _ _ h _ := h
  attach _ _ _ _ _ _ _ _ _ h hw := by
    rw [writeReg_frame hw]
    exact h

/-- Wherever the driver gets with a command, it has put no rest into the schedule. -/
theorem drive_noRest (c : Instr) : ∀ (n : Nat) (r : SeqRun) (s : State), s.NoRest →
    Ends State.NoRest (fun _ => True) (fun _ => True) (drive (microOf c) n r s)
  | 0, _, _, h => h
  | n + 1, r, s, h => by
    have ht := runTurns_noRest s.plan s h
    rw [drive]
    cases hr : runTurns s.plan s with
    | rest s' =>
      rw [hr] at ht
      exact ht
    | go s' =>
      replace ht : s'.NoRest := by
        rw [hr] at ht
        exact ht
      have hk := microOf_keeps (r := r) noRest_stepClosed ht c
      simp only
      cases hm : microOf c r s' with
      | goto r' t =>
        rw [hm] at hk
        exact drive_noRest c n r' t hk.1
      | spin r' t =>
        rw [hm] at hk
        simp only
        split
        · exact hk.1
        · exact drive_noRest c n r' t hk.1
      | done q t =>
        rw [hm] at hk
        exact hk
      | stop x => trivial
      | fault x => trivial

/-- No command adds a rest to the schedule. -/
theorem exec_noRest {c : Instr} {s t : State} (h : exec c s = .next t) (hn : s.NoRest) : t.NoRest := by
  have key : Ends State.NoRest (fun _ => True) (fun _ => True) (exec c s) := by
    rcases exec_cases c s with he | he | ⟨vals, he⟩ | ⟨lbl, cb, he⟩ <;> rw [he]
    · rw [ends_next, State.NoRest, State.raise_plan]
      exact hn
    · trivial
    · exact hn
    · rw [start_eq]
      exact drive_noRest c _ _ _ hn
  rw [h] at key
  exact key

/-! ## The bytes of a range (R87) -/

/-- `m'` is `m` with the first `k` bytes of `data` written from offset `o` on. -/
def Memory.Patched (m m' : Memory) (o : Nat) (data : List Byte) (k : Nat) : Prop :=
  Memory.wf m' = true ∧
    ∀ a, Memory.read m' a = if o ≤ a ∧ a < o + k then data.getD (a - o) 0 else Memory.read m a

theorem Memory.patched_zero {m : Memory} (h : Memory.wf m = true) (o : Nat) (data : List Byte) :
    Memory.Patched m m o data 0 :=
  ⟨h, fun a => by rw [if_neg (by omega)]⟩

/-- One byte more. -/
theorem Memory.Patched.succ {m m' : Memory} {o k : Nat} {data : List Byte} (h : Memory.Patched m m' o data k) :
    Memory.Patched m (m'.write (o + k) (data.getD k 0)) o data (k + 1) := by
  obtain ⟨hwf, hread⟩ := h
  refine ⟨Memory.wf_write _ _ hwf, fun a => ?_⟩
  rw [Memory.read_write _ _ _ _ hwf, hread]
  by_cases ha : a = o + k
  · subst ha
    rw [if_pos rfl, if_pos (by omega), Nat.add_sub_cancel_left]
  · rw [if_neg ha]
    congr 1
    exact propext (by omega)

/-- The `n` bytes from offset `o` on, in ascending order. -/
def Memory.bytes (m : Memory) (o n : Nat) : List Byte := (List.range n).map fun k => Memory.read m (o + k)

theorem Memory.bytes_succ (m : Memory) (o n : Nat) : m.bytes o (n + 1) = m.bytes o n ++ [Memory.read m (o + n)] := by
  rw [Memory.bytes, List.range_succ, List.map_append]
  rfl

/-- The patched bytes are the data. -/
theorem Memory.Patched.bytes_eq {m m' : Memory} {o : Nat} {data : List Byte}
    (h : Memory.Patched m m' o data data.length) : m'.bytes o data.length = data := by
  refine List.ext_getElem (by simp [Memory.bytes]) fun k _ hk => ?_
  simp only [Memory.bytes, List.getElem_map, List.getElem_range]
  rw [h.2, if_pos (by omega), Nat.add_sub_cancel_left, List.getD_eq_getElem _ _ hk]

/-! ## Commands on the bytes of a buffer -/

/-- A channel command on a Channel that exists. -/
theorem withHandle_of_desc {s : State} {idx : BitVec 8} {i : Fin 8} {d : Desc} (hi : idx.toNat = i.val)
    (hd : s.desc i = some d) (k : Fin 8 → Desc → Out) : withHandle idx s k = k i d := by
  rw [withHandle, withIndex, chanIdx?_of_eq hi]
  simp only [hd]

/-- How many of `n` byte steps SEQ has left. -/
def SeqRun.bytesLeft (n : Nat) (r : SeqRun) : Nat :=
  match r.step with
  | .W k | .V k => n - k
  | _ => 0

/-- `drive_total` from a command's first label on: its budget covers one micro-step per byte (`budget`). -/
theorem start_total {f : SeqRun → State → Micro} {I : SeqRun → State → Prop} {D : Resp → State → Prop}
    (μ : SeqRun → Nat) {cmd : Instr} {lbl : Label} {cb : Nat} {s : State}
    (hother : ∀ r s t, I r s → Between s t → I r t)
    (hstep : ∀ r s, I r s → (f r s).Advances I D μ (μ r) s.plan) (hn : s.NoRest)
    (hI : I (SeqRun.init cmd lbl cb) s) (hμ : μ (SeqRun.init cmd lbl cb) ≤ payload cmd) :
    ∃ q t, start f cmd lbl cb s = .next (t.respond q) ∧ D q t := by
  rw [start_eq]
  exact drive_total hother hstep _ _ s hI hn (by omega)

/-! ## BUF_WR (R166) -/

section
variable {s : State} {idx : BitVec 8} {i : Fin 8} {d : Desc} {off : Word} {data : List Byte}

/-- The first `k` bytes are in the buffer of channel `i`, and no response has been sent since `s`. -/
def Written (s : State) (i : Fin 8) (d : Desc) (off : Word) (data : List Byte) (k : Nat) (t : State) : Prop :=
  (∃ m, t.desc i = some { d with buf := m } ∧ Memory.Patched d.buf m off.toNat data k) ∧ t.cmdOut = s.cmdOut

/-- SEQ stands before the next byte of BUF_WR. -/
def Writing (s : State) (i : Fin 8) (d : Desc) (off : Word) (data : List Byte) (r : SeqRun) (t : State) : Prop :=
  ∃ k, r.step = .W k ∧ k < data.length ∧ Written s i d off data k t

theorem Between.writing {r : SeqRun} {t u : State} (hb : Between t u) (h : Writing s i d off data r t) :
    Writing s i d off data r u := by
  obtain ⟨k, hl, hk, ⟨m, hm, hp⟩, ho⟩ := h
  exact ⟨k, hl, hk, ⟨m, (hb.desc i).trans hm, hp⟩, hb.cmdOut.trans ho⟩

/-- A byte step of BUF_WR goes on to the next byte, or responds after the last. -/
theorem bufWrMicro_advances (hr : off.toNat + data.length ≤ d.size.toNat) {r : SeqRun} {t : State}
    (h : Writing s i d off data r t) :
    (bufWrMicro i off data r t).Advances (Writing s i d off data)
      (fun q t => q = .ok [] ∧ Written s i d off data data.length t) (SeqRun.bytesLeft data.length)
      (r.bytesLeft data.length) t.plan := by
  obtain ⟨k, hl, hk, ⟨m, hm, hp⟩, ho⟩ := h
  have hw := memWrite_ok (b := data.getD k 0) hm (show off.toNat + k < d.size.toNat by omega)
  have hdesc : State.desc (State.log (t.setChan i { t.chan i with
      desc := some { d with buf := m.write (off.toNat + k) (data.getD k 0) } })
      (.memWr i (off.toNat + k) (data.getD k 0))) i =
        some { d with buf := m.write (off.toNat + k) (data.getD k 0) } := by
    rw [State.desc, State.log_chan, State.setChan_chan_self]
  simp only [bufWrMicro, hl, hw]
  by_cases hnext : k + 1 < data.length
  · rw [if_pos hnext]
    refine ⟨⟨k + 1, rfl, hnext, ⟨_, hdesc, hp.succ⟩, ho⟩, ?_, rfl⟩
    simp only [SeqRun.bytesLeft, hl]
    omega
  · rw [if_neg hnext]
    have hlast : data.length = k + 1 := by omega
    exact ⟨rfl, ⟨_, hdesc, hlast ▸ hp.succ⟩, ho⟩

/-- BUF_WR responds OK with its bytes in the buffer, whatever the other agents do. -/
theorem exec_bufWr_written (hn : s.NoRest) (hi : idx.toNat = i.val) (hd : s.desc i = some d)
    (hwf : Memory.wf d.buf = true) (hr : off.toNat + data.length ≤ d.size.toNat) :
    ∃ t, exec (.bufWr idx off data) s = .next (t.respond (.ok [])) ∧ Written s i d off data data.length t := by
  have h0 : Written s i d off data 0 s := ⟨⟨d.buf, hd, Memory.patched_zero hwf _ _⟩, rfl⟩
  have hrange : bufInRange off data.length d = true := decide_eq_true hr
  simp only [exec, execBufWr]
  rw [withHandle_of_desc hi hd, if_pos hrange]
  by_cases hlen : data.length = 0
  · rw [if_pos hlen]
    exact ⟨s, rfl, hlen ▸ h0⟩
  · rw [if_neg hlen]
    obtain ⟨q, t, he, rfl, hw⟩ := start_total (I := Writing s i d off data)
      (cmd := .bufWr idx off data) (lbl := .W 0) (cb := chanBase i) (SeqRun.bytesLeft data.length)
      (fun _ _ _ h hb => hb.writing h) (fun _ _ => bufWrMicro_advances hr) hn
      ⟨0, rfl, Nat.pos_of_ne_zero hlen, h0⟩ (Nat.le_refl _)
    exact ⟨t, he, hw⟩

end

/-! ## BUF_RD of a buffer whose bytes are stable (R167) -/

section
variable {s : State} {idx : BitVec 8} {i : Fin 8} {d : Desc} {off : Word} {n : BitVec 16}

theorem byteAt_of_not_free (h : d.free = false) (o : Nat) (fv : Word) : d.byteAt o fv = Memory.read d.buf o := by
  rw [Desc.byteAt, h]
  rfl

/-- SEQ stands before the next byte of BUF_RD, with the bytes before it in its local `r`. -/
def Reading (s : State) (i : Fin 8) (d : Desc) (off : Word) (n : Nat) (r : SeqRun) (t : State) : Prop :=
  ∃ k, r.step = .V k ∧ k < n ∧ r.r = d.buf.bytes off.toNat k ∧ t.desc i = some d ∧ t.cmdOut = s.cmdOut

theorem Between.reading {m : Nat} {r : SeqRun} {t u : State} (hb : Between t u) (h : Reading s i d off m r t) :
    Reading s i d off m r u := by
  obtain ⟨k, hl, hk, hbytes, hd, ho⟩ := h
  exact ⟨k, hl, hk, hbytes, (hb.desc i).trans hd, hb.cmdOut.trans ho⟩

/-- A byte step of BUF_RD goes on to the next byte, or responds after the last with all of them. -/
theorem bufRdMicro_advances (hfree : d.free = false) (hr : off.toNat + n.toNat ≤ d.size.toNat) {r : SeqRun}
    {t : State} (h : Reading s i d off n.toNat r t) :
    (bufRdMicro i off n r t).Advances (Reading s i d off n.toNat)
      (fun q t => q = .ok (packBytes (d.buf.bytes off.toNat n.toNat)) ∧ t.cmdOut = s.cmdOut)
      (SeqRun.bytesLeft n.toNat) (r.bytesLeft n.toNat) t.plan := by
  obtain ⟨k, hl, hk, hbytes, hd, ho⟩ := h
  have hm := memRead_ok hd (show off.toNat + k < d.size.toNat by omega)
  rw [byteAt_of_not_free hfree] at hm
  simp only [bufRdMicro, hl, hm, hbytes, ← Memory.bytes_succ]
  by_cases hnext : k + 1 < n.toNat
  · rw [if_pos hnext]
    refine ⟨⟨k + 1, rfl, hnext, rfl, hd, ho⟩, ?_, rfl⟩
    simp only [SeqRun.bytesLeft, hl]
    omega
  · rw [if_neg hnext]
    have hlast : n.toNat = k + 1 := by omega
    exact ⟨by rw [hlast], ho⟩

/-- BUF_RD responds with the bytes of its range, whatever the other agents do. -/
theorem exec_bufRd_bytes (hn : s.NoRest) (hi : idx.toNat = i.val) (hd : s.desc i = some d) (hfree : d.free = false)
    (hr : off.toNat + n.toNat ≤ d.size.toNat) :
    ∃ t : State, exec (.bufRd idx off n) s = .next (t.respond (.ok (packBytes (d.buf.bytes off.toNat n.toNat)))) ∧
      t.cmdOut = s.cmdOut := by
  have hrange : bufInRange off n.toNat d = true := decide_eq_true hr
  simp only [exec, execBufRd]
  rw [withHandle_of_desc hi hd, if_pos hrange]
  by_cases hlen : n.toNat = 0
  · rw [if_pos hlen, hlen]
    exact ⟨s, rfl, rfl⟩
  · rw [if_neg hlen]
    obtain ⟨q, t, he, rfl, ho⟩ := start_total (I := Reading s i d off n.toNat)
      (cmd := .bufRd idx off n) (lbl := .V 0) (cb := chanBase i) (SeqRun.bytesLeft n.toNat)
      (fun _ _ _ h hb => hb.reading h) (fun _ _ => bufRdMicro_advances (s := s) hfree hr) hn
      ⟨0, rfl, Nat.pos_of_ne_zero hlen, rfl, hd, rfl⟩ (Nat.le_refl _)
    exact ⟨t, he, ho⟩

end

/-! ## What is written is read back (R87, R167) -/

theorem packet_ok (vals : List Word) : (Resp.ok vals).packet = 0#32 :: vals := by
  simp [Resp.packet, Resp.rc]

/-- A buffer's bytes are stable unless it is a device-to-memory buffer that has been activated (R236). -/
theorem free_eq_false {d : Desc} (h : d.dir = false ∨ d.streamed = false) : d.free = false := by
  rcases h with h | h <;> simp [Desc.free, h]

/-- Settles O57: the bytes that `exec_bufWr_written` leaves are those that `exec_bufRd_bytes` collects. -/
theorem bufferRoundTrip : Obligations.BufferRoundTrip := by
  intro s idx off data n i d hn hi hd hwf hr hlen hstable
  obtain ⟨t, ht, ⟨m, hm, hp⟩, hto⟩ := exec_bufWr_written hn hi hd hwf hr
  have hfree : Desc.free { d with buf := m } = false := free_eq_false hstable
  obtain ⟨u, hu, huo⟩ := exec_bufRd_bytes (s := t.respond (.ok [])) (off := off) (n := n) (exec_noRest ht hn) hi hm
    hfree (hlen ▸ hr)
  refine ⟨_, _, ht, hu, ?_⟩
  rw [hlen, hp.bytes_eq, State.respond_cmdOut, huo, State.respond_cmdOut, hto, packet_ok, packet_ok,
    List.append_assoc]
  rfl

end Sys2Proof.Machine
end

section
/-! SUPPORT. The packet codec as one statement for each of its parts (30_encoding.md R100 to R109): a header word is its
three fields, a row of R104 fixes some of their bits at zero, the bytes of a packet are its data words without the
unused bytes, and a field operand is a listed FID with a legal index. -/

namespace Sys2Proof

open Laws

/-! ## Zero bits (R101) -/

theorem high_eq_zero_of_and {m n : Nat} {x : BitVec (m + n)} (h : x &&& (BitVec.allOnes m ++ 0#n) = 0#(m + n)) :
    x.extractLsb' n m = 0#m := by
  have := congrArg (BitVec.extractLsb' n m) h
  rwa [BitVec.extractLsb'_and, BitVec.extractLsb'_append_eq_left, BitVec.and_allOnes, ← BitVec.zero_append_zero,
    BitVec.extractLsb'_append_eq_left] at this

theorem extractLsb'_one {w : Nat} (x : BitVec w) (j : Nat) : x.extractLsb' j 1 = BitVec.ofBool (x.getLsbD j) := by
  apply BitVec.eq_of_getLsbD_eq
  intro i hi
  obtain rfl : i = 0 := by omega
  simp

/-! ## The header word (R100) -/

theorem header_parts (w : Word) : header (w.extractLsb' 24 8) (hdrIdx w) (hdrN w) = w := by
  rw [header, hdrIdx, hdrN,
    BitVec.extractLsb'_append_extractLsb'_eq_extractLsb' (start₂ := 24) (start₁ := 16) (len₁ := 8) rfl]
  exact BitVec.extractLsb'_append_extractLsb' (w := 16) (len := 16)

theorem header_getLsbD {j : Nat} (h : j < 16) (opc idx : BitVec 8) (imm : BitVec 16) :
    (header opc idx imm).getLsbD j = imm.getLsbD j := by
  rw [header, BitVec.getLsbD_append, if_pos h]

theorem hdrN_getLsbD {j : Nat} (h : j < 16) (w : Word) : (hdrN w).getLsbD j = w.getLsbD j := by
  simp [hdrN, h]

theorem hdrN_low (w : Word) : (hdrN w).extractLsb' 0 8 = hdrLow w := by
  rw [← header_low (w.extractLsb' 24 8) (hdrIdx w), header_parts]

/-! ## The rows by name (R104) -/

/-- The OPC of a row. -/
def Op.opc : Op → BitVec 8
  | .fldRd => 0x01 | .fldWr => 0x02 | .fldMod => 0x03 | .ctrlReset => 0x10 | .ctrlEnable => 0x11
  | .ctrlDisable => 0x12 | .newChannel => 0x13 | .isComplete => 0x14 | .clrComplete => 0x15 | .setMask => 0x16
  | .chActivate => 0x20 | .chDeactivate => 0x21 | .chIsRunning => 0x22 | .bufWr => 0x24 | .bufRd => 0x25
  | .handleIrq => 0x30

/-- The bits of IDX that a row fixes at zero. -/
def Op.idxMask : Op → BitVec 8
  | .ctrlReset | .ctrlEnable | .ctrlDisable | .handleIrq => 0xFF
  | .fldRd | .fldWr | .fldMod | .newChannel | .isComplete | .clrComplete | .setMask | .chActivate | .chDeactivate
  | .chIsRunning | .bufWr | .bufRd => 0

/-- The bits of IMM16 that a row fixes at zero. -/
def Op.immMask : Op → BitVec 16
  | .fldRd | .fldWr | .fldMod => 0xFF00
  | .newChannel => 0xFC00
  | .setMask => 0xFFFE
  | .bufWr | .bufRd => 0
  | .ctrlReset | .ctrlEnable | .ctrlDisable | .handleIrq | .isComplete | .clrComplete | .chActivate | .chDeactivate
  | .chIsRunning => 0xFFFF

/-- The row of the opcode map that a name stands for. -/
def Op.row (op : Op) : OpRow := ⟨op, header op.opc 0 0, header 0xFF op.idxMask op.immMask⟩

theorem Op.row_mem (op : Op) : op.row ∈ opTable := by
  cases op <;> decide

theorem row_of_mem : ∀ r ∈ opTable, r = r.op.row := by decide

theorem selectOp_eq_some_iff {w : Word} {op : Op} : selectOp w = some op ↔ w &&& op.row.mask = op.row.pattern := by
  refine ⟨fun h => ?_, selectOp_of_match w op.row op.row_mem⟩
  obtain ⟨r, hr, rfl⟩ := Option.map_eq_some_iff.mp h
  rw [← row_of_mem r (List.mem_of_find?_eq_some hr)]
  simpa using List.find?_some hr

theorem selectOp_eq_none_iff {w : Word} : selectOp w = none ↔ ∀ r ∈ opTable, w &&& r.mask ≠ r.pattern := by
  simp [selectOp]

/-- The rows that a header matches are the one it selects. -/
theorem exists_row_iff {w : Word} {P : Op → Prop} :
    (∃ r ∈ opTable, w &&& r.mask = r.pattern ∧ P r.op) ↔ ∃ op, selectOp w = some op ∧ P op := by
  constructor
  · rintro ⟨r, hr, hm, hp⟩
    exact ⟨r.op, selectOp_of_match w r hr hm, hp⟩
  · rintro ⟨op, hs, hp⟩
    exact ⟨op.row, op.row_mem, selectOp_eq_some_iff.mp hs, hp⟩

/-- What a row says of its header: the OPC is the row's, and the fixed bits of IDX and IMM16 are zero. -/
theorem header_of_selectOp {w : Word} {op : Op} (h : selectOp w = some op) :
    header op.opc (hdrIdx w) (hdrN w) = w ∧ hdrIdx w &&& op.idxMask = 0 ∧ hdrN w &&& op.immMask = 0 := by
  have hm : header (w.extractLsb' 24 8) (hdrIdx w) (hdrN w) &&& header 0xFF op.idxMask op.immMask =
      header op.opc 0 0 := by
    rw [header_parts]
    exact selectOp_eq_some_iff.mp h
  rw [header_and] at hm
  have hopc := congrArg (BitVec.extractLsb' 24 8) hm
  rw [header_opc, header_opc, show (0xFF : BitVec 8) = BitVec.allOnes 8 from rfl, BitVec.and_allOnes] at hopc
  have hidx := congrArg hdrIdx hm
  have himm := congrArg hdrN hm
  rw [header_idx, header_idx] at hidx
  rw [header_imm, header_imm] at himm
  exact ⟨hopc ▸ header_parts w, hidx, himm⟩

/-! ## IMM16, format by format (R101) -/

/-- Format F: bits 15:8 zero, the FID in bits 7:0. -/
theorem imm_of_field {w : Word} (h : hdrN w &&& 0xFF00#16 = 0#16) : 0#8 ++ hdrLow w = hdrN w := by
  rw [← high_eq_zero_of_and (m := 8) (n := 8) h, ← hdrN_low]
  exact BitVec.extractLsb'_append_extractLsb' (w := 8) (len := 8)

/-- Format N: SLAVE, DIR, IRQ, and bits 15:10 zero. -/
theorem imm_of_newChannel {w : Word} (h : hdrN w &&& 0xFC00#16 = 0#16) :
    newChannelImm (hdrLow w) (w.getLsbD 8) (w.getLsbD 9) = hdrN w := by
  rw [newChannelImm, ← high_eq_zero_of_and (m := 6) (n := 10) h, ← hdrN_low, ← hdrN_getLsbD (by omega),
    ← hdrN_getLsbD (by omega), ← extractLsb'_one, ← extractLsb'_one,
    BitVec.extractLsb'_append_extractLsb'_eq_extractLsb' (start₂ := 10) (start₁ := 9) (len₁ := 1) rfl,
    BitVec.extractLsb'_append_extractLsb'_eq_extractLsb' (start₂ := 9) (start₁ := 8) (len₁ := 1) rfl]
  exact BitVec.extractLsb'_append_extractLsb' (w := 8) (len := 8)

/-- SET_MASK: the flag in bit 0, bits 15:1 zero. -/
theorem imm_of_setMask {w : Word} (h : hdrN w &&& 0xFFFE#16 = 0#16) : 0#15 ++ BitVec.ofBool (w.getLsbD 0) = hdrN w := by
  rw [← high_eq_zero_of_and (m := 15) (n := 1) h, ← hdrN_getLsbD (by omega), ← extractLsb'_one]
  exact BitVec.extractLsb'_append_extractLsb' (w := 15) (len := 1)

theorem newChannelImm_slave (slave : BitVec 8) (dir irq : Bool) :
    (newChannelImm slave dir irq).extractLsb' 0 8 = slave :=
  BitVec.extractLsb'_append_eq_right

theorem newChannelImm_dir (slave : BitVec 8) (dir irq : Bool) : (newChannelImm slave dir irq).getLsbD 8 = dir := by
  rw [newChannelImm]
  simp only [BitVec.getLsbD_append]
  simp

theorem newChannelImm_irq (slave : BitVec 8) (dir irq : Bool) : (newChannelImm slave dir irq).getLsbD 9 = irq := by
  rw [newChannelImm]
  simp only [BitVec.getLsbD_append]
  simp

/-! ## Bytes and words (R102) -/

theorem bytesOfWord_wordOfBytes (a b c d : Byte) : bytesOfWord (wordOfBytes a b c d) = [a, b, c, d] := by
  have hb : (wordOfBytes a b c d).extractLsb' 8 8 = b :=
    (BitVec.extractLsb'_append_eq_of_le (by decide)).trans BitVec.extractLsb'_append_eq_right
  have hc : (wordOfBytes a b c d).extractLsb' 16 8 = c :=
    (BitVec.extractLsb'_append_eq_of_le (by decide)).trans <|
      (BitVec.extractLsb'_append_eq_of_le (by decide)).trans BitVec.extractLsb'_append_eq_right
  have hd : (wordOfBytes a b c d).extractLsb' 24 8 = d :=
    (BitVec.extractLsb'_append_eq_of_le (by decide)).trans <|
      (BitVec.extractLsb'_append_eq_of_le (by decide)).trans BitVec.extractLsb'_append_eq_left
  rw [bytesOfWord, hb, hc, hd]
  exact congrArg (· :: [b, c, d]) BitVec.extractLsb'_append_eq_right

theorem wordOfBytes_bytesOfWord (w : Word) :
    wordOfBytes (w.extractLsb' 0 8) (w.extractLsb' 8 8) (w.extractLsb' 16 8) (w.extractLsb' 24 8) = w := by
  rw [wordOfBytes,
    BitVec.extractLsb'_append_extractLsb'_eq_extractLsb' (start₂ := 24) (start₁ := 16) (len₁ := 8) rfl,
    BitVec.extractLsb'_append_extractLsb'_eq_extractLsb' (start₂ := 16) (start₁ := 8) (len₁ := 8) rfl]
  exact BitVec.extractLsb'_append_extractLsb' (w := 24) (len := 8)

theorem unpackBytes_cons (w : Word) (ws : List Word) : unpackBytes (w :: ws) = bytesOfWord w ++ unpackBytes ws := rfl

theorem unpackBytes_length (ws : List Word) : (unpackBytes ws).length = 4 * ws.length := by
  induction ws with
  | nil => rfl
  | cons w ws ih =>
    rw [unpackBytes_cons, List.length_append, ih, List.length_cons, bytesOfWord]
    simp only [List.length_cons, List.length_nil]
    omega

/-- Unpacking packed bytes gives the bytes and then only zeros. -/
theorem unpackBytes_packBytes (bs : List Byte) : ∃ n, unpackBytes (packBytes bs) = bs ++ List.replicate n 0#8 := by
  induction bs using packBytes.induct with
  | case1 a b c d rest ih =>
    obtain ⟨n, hn⟩ := ih
    exact ⟨n, by rw [packBytes, unpackBytes_cons, bytesOfWord_wordOfBytes, hn]; rfl⟩
  | case2 a b c => exact ⟨1, by rw [packBytes, unpackBytes_cons, bytesOfWord_wordOfBytes]; rfl⟩
  | case3 a b => exact ⟨2, by rw [packBytes, unpackBytes_cons, bytesOfWord_wordOfBytes]; rfl⟩
  | case4 a => exact ⟨3, by rw [packBytes, unpackBytes_cons, bytesOfWord_wordOfBytes]; rfl⟩
  | case5 => exact ⟨0, rfl⟩

/-- Packing the first `n` bytes of some words gives the words back, if these bytes reach the last word and only zeros
follow them. -/
theorem packBytes_take_unpackBytes (ws : List Word) : ∀ n : Nat, ws.length = wordsFor n →
    (∀ b ∈ (unpackBytes ws).drop n, b = 0#8) → packBytes ((unpackBytes ws).take n) = ws := by
  induction ws with
  | nil => intro n _ _; simp [unpackBytes, packBytes]
  | cons w ws ih =>
    intro n hlen hz
    simp only [List.length_cons, wordsFor] at hlen
    rw [unpackBytes_cons, bytesOfWord] at hz ⊢
    match n, hlen, hz with
    | 0, hlen, _ => omega
    | n + 4, hlen, hz =>
      simp only [List.cons_append, List.nil_append, List.take_succ_cons, List.drop_succ_cons, packBytes] at hz ⊢
      rw [wordOfBytes_bytesOfWord, ih n (by unfold wordsFor; omega) hz]
    | 1, hlen, hz | 2, hlen, hz | 3, hlen, hz =>
      obtain rfl : ws = [] := List.length_eq_zero_iff.mp (by omega)
      simp only [unpackBytes, List.flatMap_nil, List.append_nil, List.drop_succ_cons, List.drop_zero,
        List.forall_mem_cons, List.not_mem_nil, IsEmpty.forall_iff, implies_true, and_true] at hz
      conv_rhs => rw [← wordOfBytes_bytesOfWord w]
      simp [packBytes, unpackBytes, hz]

/-! ## Field operands (R108, R109) -/

theorem fldOfFid_eq_some_iff {b : BitVec 8} {f : Fld} : fldOfFid b = some f ↔ f.fid = b := by
  constructor
  · intro h
    simpa using List.find?_some h
  · rintro rfl
    cases f <;> decide

theorem fldOfFid_eq_none_iff {b : BitVec 8} : fldOfFid b = none ↔ ∀ f : Fld, f.fid ≠ b := by
  simp only [Option.eq_none_iff_forall_ne_some, ne_eq, fldOfFid_eq_some_iff]

theorem decodeField_eq_ok_iff {w : Word} {p : Fld × BitVec 8} :
    decodeField w = .ok p ↔ p.1.fid = hdrLow w ∧ p.2 = hdrIdx w ∧ fieldIdxOk p.1 p.2 = true := by
  obtain ⟨f, idx⟩ := p
  rw [← fldOfFid_eq_some_iff, decodeField]
  cases fldOfFid (hdrLow w) with
  | none => simp
  | some g =>
    by_cases hg : fieldIdxOk g (hdrIdx w) = true
    · simp only [if_pos hg, Except.ok.injEq, Prod.mk.injEq, Option.some.injEq]
      exact ⟨fun ⟨hf, hi⟩ => ⟨hf, hi.symm, hf ▸ hi ▸ hg⟩, fun ⟨hf, hi, _⟩ => ⟨hf, hi.symm⟩⟩
    · simp only [if_neg hg, reduceCtorEq, false_iff, Option.some.injEq]
      rintro ⟨rfl, rfl, h⟩
      exact hg h

/-- The field operands of format F are illegal: an unlisted FID, or a global field with a non-zero index (R109). -/
def FieldIllegal (w : Word) : Prop :=
  (∀ f : Fld, f.fid ≠ hdrLow w) ∨ ∃ f : Fld, f.fid = hdrLow w ∧ f.isCh = false ∧ hdrIdx w ≠ 0

theorem decodeField_error_iff {w : Word} : (∃ e, decodeField w = .error e) ↔ FieldIllegal w := by
  simp only [FieldIllegal, ← fldOfFid_eq_none_iff, ← fldOfFid_eq_some_iff, decodeField]
  cases fldOfFid (hdrLow w) with
  | none => simp
  | some f => by_cases hf : f.isCh = true <;> by_cases hi : hdrIdx w = 0#8 <;> simp [fieldIdxOk, hf, hi]

end Sys2Proof
end

section
/-! SUPPORT. The two directions of the codec and the list of illegal packets (30_encoding.md R101 to R104, R109), each
from the header, the length and one case per row of R104. -/

namespace Sys2Proof

open Laws

/-! ## A packet that decodes: header, length, operands (R109, R257) -/

theorem decode_of_selectOp {w : Word} {ws : List Word} {op : Op} (hop : selectOp w = some op)
    (hlen : ws.length + 1 = packetWords op w) : decode (w :: ws) = decodeOperands op w ws := by
  simp only [decode, hop, if_pos hlen]

theorem decode_eq_ok {p : Packet} {c : Instr} (h : decode p = .ok c) : ∃ w ws op, p = w :: ws ∧
    selectOp w = some op ∧ ws.length + 1 = packetWords op w ∧ decodeOperands op w ws = .ok c := by
  cases p with
  | nil => cases h
  | cons w ws =>
    cases hop : selectOp w with
    | none => simp [decode, hop] at h
    | some op =>
      by_cases hlen : ws.length + 1 = packetWords op w
      · rw [decode_of_selectOp hop hlen] at h
        exact ⟨w, ws, op, rfl, hop, hlen, h⟩
      · simp [decode, hop, hlen] at h

/-! ## Decoding what was encoded (R101 to R104) -/

/-- `OneRow` of every command. -/
theorem oneRow (c : Instr) : OneRow.Statement c := by
  cases c with
  | fldRd f idx => exact OneRow.fldRd f idx
  | fldWr f idx v => exact OneRow.fldWr f idx v
  | fldMod f idx v => exact OneRow.fldMod f idx v
  | ctrlReset => exact OneRow.ctrlReset
  | ctrlEnable => exact OneRow.ctrlEnable
  | ctrlDisable => exact OneRow.ctrlDisable
  | newChannel idx slave dir irq size dev tmo => exact OneRow.newChannel idx slave dir irq size dev tmo
  | isComplete idx => exact OneRow.isComplete idx
  | clrComplete idx => exact OneRow.clrComplete idx
  | setMask idx masked => exact OneRow.setMask idx masked
  | chActivate idx => exact OneRow.chActivate idx
  | chDeactivate idx => exact OneRow.chDeactivate idx
  | chIsRunning idx => exact OneRow.chIsRunning idx
  | bufWr idx off data => exact OneRow.bufWr idx off data
  | bufRd idx off n => exact OneRow.bufRd idx off n
  | handleIrq => exact OneRow.handleIrq

theorem decodeField_header {f : Fld} {idx : BitVec 8} (h : fieldIdxOk f idx = true) (opc : BitVec 8) :
    decodeField (header opc idx (0#8 ++ f.fid)) = .ok (f, idx) :=
  decodeField_eq_ok_iff.mpr
    ⟨by rw [header_low]; exact BitVec.extractLsb'_append_eq_right.symm, by rw [header_idx], h⟩

theorem decodeOperands_newChannel (idx slave : BitVec 8) (dir irq : Bool) (size dev : Word) (tmo : BitVec 30) :
    decodeOperands .newChannel (header 0x13 idx (newChannelImm slave dir irq)) [size, dev, 0#2 ++ tmo] =
      .ok (.newChannel idx slave dir irq size dev tmo) := by
  have hres : (0#2 ++ tmo : Word).extractLsb' 30 2 = 0#2 := BitVec.extractLsb'_append_eq_left
  have htmo : (0#2 ++ tmo : Word).extractLsb' 0 30 = tmo := BitVec.extractLsb'_append_eq_right
  simp only [decodeOperands, if_pos hres, htmo, header_idx, header_low, newChannelImm_slave]
  rw [header_getLsbD (by omega), header_getLsbD (by omega), newChannelImm_dir, newChannelImm_irq]

theorem decodeOperands_setMask (idx : BitVec 8) (masked : Bool) (ws : List Word) :
    decodeOperands .setMask (header 0x16 idx (0#15 ++ BitVec.ofBool masked)) ws = .ok (.setMask idx masked) := by
  rw [decodeOperands, header_idx, header_getLsbD (by omega)]
  cases masked <;> rfl

theorem decodeOperands_bufWr {data : List Byte} (h : data.length < 2 ^ 16) (idx : BitVec 8) (off : Word) :
    decodeOperands .bufWr (header 0x24 idx (BitVec.ofNat 16 data.length)) (off :: packBytes data) =
      .ok (.bufWr idx off data) := by
  obtain ⟨n, hn⟩ := unpackBytes_packBytes data
  have hlen : (BitVec.ofNat 16 data.length).toNat = data.length := Nat.mod_eq_of_lt h
  simp [decodeOperands, header_idx, header_imm, hlen, hn]

theorem decodeOperands_encode {c : Instr} (h : c.wf = true) {w : Word} {ws : List Word} (he : encode c = w :: ws) :
    decodeOperands (OneRow.opOf c) w ws = .ok c := by
  cases c with
  | fldRd f idx | fldWr f idx v | fldMod f idx v =>
    obtain ⟨rfl, rfl⟩ := List.cons.inj he
    simp only [OneRow.opOf, decodeOperands, decodeField_header h, Except.map]
  | newChannel idx slave dir irq size dev tmo =>
    obtain ⟨rfl, rfl⟩ := List.cons.inj he
    exact decodeOperands_newChannel idx slave dir irq size dev tmo
  | setMask idx masked =>
    obtain ⟨rfl, rfl⟩ := List.cons.inj he
    exact decodeOperands_setMask idx masked []
  | bufWr idx off data =>
    obtain ⟨rfl, rfl⟩ := List.cons.inj he
    exact decodeOperands_bufWr (of_decide_eq_true h) idx off
  | ctrlReset | ctrlEnable | ctrlDisable | handleIrq => rfl
  | isComplete idx | clrComplete idx | chActivate idx | chDeactivate idx | chIsRunning idx | bufRd idx off n =>
    obtain ⟨rfl, rfl⟩ := List.cons.inj he
    simp only [OneRow.opOf, decodeOperands, header_idx, header_imm]

/-- Settles O1: the packet has the header and length of the command's row (`oneRow`), and its operands are read back. -/
theorem decodeEncodeRoundTrip : Obligations.DecodeEncodeRoundTrip := by
  intro c h
  obtain ⟨w, ws, he, hop, hlen⟩ := oneRow c h
  rw [he, decode_of_selectOp hop hlen, decodeOperands_encode h he]

/-! ## Encoding what was decoded (R102, R103, R109) -/

theorem header_of_immMask {w : Word} {op : Op} (hop : selectOp w = some op) (h : op.immMask = BitVec.allOnes 16) :
    header op.opc (hdrIdx w) 0 = w := by
  obtain ⟨hw, _, himm⟩ := header_of_selectOp hop
  rw [h, BitVec.and_allOnes] at himm
  rwa [himm] at hw

theorem header_of_idxMask {w : Word} {op : Op} (hop : selectOp w = some op) (h : op.immMask = BitVec.allOnes 16)
    (h' : op.idxMask = BitVec.allOnes 8) : header op.opc 0 0 = w := by
  obtain ⟨_, hidx, _⟩ := header_of_selectOp hop
  rw [h', BitVec.and_allOnes] at hidx
  rw [← hidx]
  exact header_of_immMask hop h

theorem header_of_decodeField {w : Word} {op : Op} {c : Instr} {k : Fld × BitVec 8 → Instr}
    (hop : selectOp w = some op) (hm : op.immMask = 0xFF00) (h : (decodeField w).map k = .ok c) :
    ∃ f idx, c = k (f, idx) ∧ fieldIdxOk f idx = true ∧ header op.opc idx (0#8 ++ f.fid) = w := by
  obtain ⟨hw, _, himm⟩ := header_of_selectOp hop
  rw [hm] at himm
  cases hd : decodeField w with
  | error e => simp [hd, Except.map] at h
  | ok p =>
    obtain ⟨hfid, hidx, hok⟩ := decodeField_eq_ok_iff.mp hd
    simp only [hd, Except.map, Except.ok.injEq] at h
    exact ⟨p.1, p.2, h.symm, hok, by rw [hfid, hidx, imm_of_field himm, hw]⟩

theorem decodeOperands_newChannel_iff {w size dev tmo : Word} {c : Instr} :
    decodeOperands .newChannel w [size, dev, tmo] = .ok c ↔ tmo.extractLsb' 30 2 = 0#2 ∧
      c = .newChannel (hdrIdx w) (hdrLow w) (w.getLsbD 8) (w.getLsbD 9) size dev (tmo.extractLsb' 0 30) := by
  simp only [decodeOperands]
  split
  · simp [*, eq_comm]
  · simp [*]

theorem decodeOperands_bufWr_iff {w off : Word} {dws : List Word} {c : Instr} :
    decodeOperands .bufWr w (off :: dws) = .ok c ↔ (∀ b ∈ (unpackBytes dws).drop (hdrN w).toNat, b = 0#8) ∧
      c = .bufWr (hdrIdx w) off ((unpackBytes dws).take (hdrN w).toNat) := by
  simp only [decodeOperands, List.all_eq_true, beq_iff_eq]
  split
  · next hz => exact ⟨fun h => ⟨hz, (Except.ok.inj h).symm⟩, fun h => congrArg _ h.2.symm⟩
  · next hz => simp only [reduceCtorEq, hz, false_and]

/-- The count of BUF_WR is the number of bytes it carries. -/
theorem length_take_unpackBytes {dws : List Word} {n : Nat} (h : dws.length = wordsFor n) :
    ((unpackBytes dws).take n).length = n := by
  rw [List.length_take, unpackBytes_length, h, wordsFor]
  omega

theorem encode_of_bufWr {w off : Word} {dws : List Word} {c : Instr} (hop : selectOp w = some .bufWr)
    (hlen : dws.length = wordsFor (hdrN w).toNat) (h : decodeOperands .bufWr w (off :: dws) = .ok c) :
    c.wf = true ∧ encode c = w :: off :: dws := by
  obtain ⟨hw, _, _⟩ := header_of_selectOp hop
  obtain ⟨hz, rfl⟩ := decodeOperands_bufWr_iff.mp h
  have hn := length_take_unpackBytes hlen
  refine ⟨decide_eq_true (hn.trans_lt (hdrN w).isLt), ?_⟩
  rw [encode, hn, BitVec.ofNat_toNat, BitVec.setWidth_eq, packBytes_take_unpackBytes dws _ hlen hz]
  exact congrArg (· :: off :: dws) hw

theorem encode_of_newChannel {w size dev tmo : Word} {c : Instr} (hop : selectOp w = some .newChannel)
    (h : decodeOperands .newChannel w [size, dev, tmo] = .ok c) : c.wf = true ∧ encode c = [w, size, dev, tmo] := by
  obtain ⟨hw, _, himm⟩ := header_of_selectOp hop
  obtain ⟨hz, rfl⟩ := decodeOperands_newChannel_iff.mp h
  have htmo : 0#2 ++ tmo.extractLsb' 0 30 = tmo := by
    rw [← hz]
    exact BitVec.extractLsb'_append_extractLsb' (w := 2) (len := 30)
  rw [encode, imm_of_newChannel himm, htmo]
  exact ⟨rfl, congrArg (· :: [size, dev, tmo]) hw⟩

/-- The operands that a row's decoder accepts are those of a well-formed command whose packet is the one decoded. -/
theorem encode_of_decodeOperands {op : Op} {w : Word} {ws : List Word} {c : Instr} (hop : selectOp w = some op)
    (hlen : ws.length + 1 = packetWords op w) (h : decodeOperands op w ws = .ok c) :
    c.wf = true ∧ encode c = w :: ws := by
  obtain ⟨hw, _, himm⟩ := header_of_selectOp hop
  cases op with
  | fldRd =>
    obtain rfl : ws = [] := List.length_eq_zero_iff.mp (Nat.succ.inj hlen)
    obtain ⟨f, idx, rfl, hok, hh⟩ := header_of_decodeField hop rfl h
    exact ⟨hok, congrArg ([·]) hh⟩
  | fldWr | fldMod =>
    obtain ⟨v, rfl⟩ := List.length_eq_one_iff.mp (Nat.succ.inj hlen)
    obtain ⟨f, idx, rfl, hok, hh⟩ := header_of_decodeField hop rfl h
    exact ⟨hok, congrArg ([·, v]) hh⟩
  | ctrlReset | ctrlEnable | ctrlDisable | handleIrq =>
    obtain rfl : ws = [] := List.length_eq_zero_iff.mp (Nat.succ.inj hlen)
    cases h
    have hh := header_of_idxMask hop rfl rfl
    exact ⟨rfl, congrArg ([·]) hh⟩
  | isComplete | clrComplete | chActivate | chDeactivate | chIsRunning =>
    obtain rfl : ws = [] := List.length_eq_zero_iff.mp (Nat.succ.inj hlen)
    cases h
    have hh := header_of_immMask hop rfl
    exact ⟨rfl, congrArg ([·]) hh⟩
  | setMask =>
    obtain rfl : ws = [] := List.length_eq_zero_iff.mp (Nat.succ.inj hlen)
    cases h
    rw [encode, imm_of_setMask himm]
    exact ⟨rfl, congrArg ([·]) hw⟩
  | newChannel =>
    obtain ⟨size, dev, tmo, rfl⟩ := List.length_eq_three.mp (Nat.succ.inj hlen)
    exact encode_of_newChannel hop h
  | bufRd =>
    obtain ⟨off, rfl⟩ := List.length_eq_one_iff.mp (Nat.succ.inj hlen)
    cases h
    exact ⟨rfl, congrArg ([·, off]) hw⟩
  | bufWr =>
    cases ws with
    | nil => cases h
    | cons off dws =>
      simp only [List.length_cons, packetWords] at hlen
      exact encode_of_bufWr hop (by omega) h

/-- Settles O2: a packet that decodes has the header and length of its row, and `encode_of_decodeOperands` puts its
operands back. -/
theorem encodeDecodeCanonical : Obligations.EncodeDecodeCanonical := by
  intro p c h
  obtain ⟨w, ws, op, rfl, hop, hlen, hc⟩ := decode_eq_ok h
  exact encode_of_decodeOperands hop hlen hc

/-! ## The packets that decode to nothing (R109) -/

/-- The operands of a packet with a legal header and length are illegal (R109). -/
def OperandsIllegal (w : Word) (ws : List Word) (op : Op) : Prop :=
  (op ∈ [Op.fldRd, Op.fldWr, Op.fldMod] ∧ FieldIllegal w) ∨
  (op = .newChannel ∧ ∃ w₃, ws[2]? = some w₃ ∧ w₃.extractLsb' 30 2 ≠ 0#2) ∨
  (op = .bufWr ∧ ∃ k b, (hdrN w).toNat ≤ k ∧ (unpackBytes (ws.drop 1))[k]? = some b ∧ b ≠ 0#8)

theorem error_iff_ne_ok {ε α : Type} {x : Except ε α} : (∃ e, x = .error e) ↔ ∀ a, x ≠ .ok a := by
  cases x <;> simp

theorem map_error_iff {ε α β : Type} {x : Except ε α} {k : α → β} :
    (∃ e, x.map k = .error e) ↔ ∃ e, x = .error e := by
  cases x <;> simp [Except.map]

theorem exists_mem_drop_iff {α : Type} {P : α → Prop} {xs : List α} {n : Nat} :
    (∃ x ∈ xs.drop n, P x) ↔ ∃ k x, n ≤ k ∧ xs[k]? = some x ∧ P x := by
  simp only [List.mem_iff_getElem?, List.getElem?_drop]
  constructor
  · rintro ⟨x, ⟨k, hk⟩, hx⟩
    exact ⟨n + k, x, Nat.le_add_right n k, hk, hx⟩
  · rintro ⟨k, x, hn, hk, hx⟩
    exact ⟨x, ⟨k - n, by rwa [Nat.add_sub_cancel' hn]⟩, hx⟩

theorem decodeOperands_error_iff {op : Op} {w : Word} {ws : List Word} (hlen : ws.length + 1 = packetWords op w) :
    (∃ e, decodeOperands op w ws = .error e) ↔ OperandsIllegal w ws op := by
  cases op with
  | fldRd => simp [OperandsIllegal, decodeOperands, map_error_iff, decodeField_error_iff]
  | fldWr | fldMod =>
    obtain ⟨v, rfl⟩ := List.length_eq_one_iff.mp (Nat.succ.inj hlen)
    simp [OperandsIllegal, decodeOperands, map_error_iff, decodeField_error_iff]
  | newChannel =>
    obtain ⟨size, dev, tmo, rfl⟩ := List.length_eq_three.mp (Nat.succ.inj hlen)
    simp [OperandsIllegal, error_iff_ne_ok, decodeOperands_newChannel_iff]
  | bufWr =>
    cases ws with
    | nil => simp only [List.length_nil, packetWords] at hlen; omega
    | cons off dws =>
      have hbytes := exists_mem_drop_iff (P := (· ≠ 0#8)) (xs := unpackBytes dws) (n := (hdrN w).toNat)
      simpa [OperandsIllegal, error_iff_ne_ok, decodeOperands_bufWr_iff] using hbytes
  | bufRd =>
    obtain ⟨off, rfl⟩ := List.length_eq_one_iff.mp (Nat.succ.inj hlen)
    simp [OperandsIllegal, decodeOperands]
  | ctrlReset | ctrlEnable | ctrlDisable | handleIrq | isComplete | clrComplete | setMask | chActivate | chDeactivate
  | chIsRunning => simp [OperandsIllegal, decodeOperands]

theorem decode_error_iff {w : Word} {ws : List Word} : (∃ e, decode (w :: ws) = .error e) ↔
    selectOp w = none ∨
      ∃ op, selectOp w = some op ∧ (ws.length + 1 ≠ packetWords op w ∨ OperandsIllegal w ws op) := by
  cases hop : selectOp w with
  | none => simp [decode, hop]
  | some op =>
    by_cases hlen : ws.length + 1 = packetWords op w
    · rw [decode_of_selectOp hop hlen, decodeOperands_error_iff hlen]
      simp [hlen]
    · simp [decode, hop, hlen]

/-- Settles O3, row by row in `decodeOperands_error_iff`. -/
theorem illegalPacketsAsListed : Obligations.IllegalPacketsAsListed := by
  intro p
  cases p with
  | nil => simp [decode]
  | cons w ws =>
    rw [decode_error_iff, selectOp_eq_none_iff, ← exists_row_iff]
    simp only [reduceCtorEq, false_or, List.cons.injEq, OperandsIllegal, FieldIllegal]
    constructor
    · exact fun h => ⟨w, ws, ⟨rfl, rfl⟩, h⟩
    · rintro ⟨_, _, ⟨rfl, rfl⟩, h⟩
      exact h

/-! ## Words written out (R101 to R108) -/

/-- Settles O4, each packet by evaluation. -/
theorem sampleWordsDecode : Obligations.SampleWordsDecode := by
  and_intros <;> decide

end Sys2Proof
end

section
/-! SUPPORT. The register-field codec and the field descriptor function (30_encoding.md R108, R120, R121, R127). -/

namespace Sys2Proof.Machine

open Sys2Proof.Config

/-! ## Field insert and extract (R120, R121) -/

section

variable {hi lo hi' lo' : Nat} (w v : Word)

/-- What is extracted after an insert is the value cut to the field. -/
theorem ext_ins_self (h : lo ≤ hi) (h' : hi ≤ 31) : ext (ins w hi lo v) hi lo = v &&& fieldOnes hi lo := by
  apply BitVec.eq_of_getLsbD_eq
  intro j _
  rw [ext_getLsbD h', ins_getLsbD h h', BitVec.getLsbD_and, fieldOnes_getLsbD h', Bool.and_comm]
  by_cases hj : j ≤ hi - lo
  · rw [if_pos (by omega), Nat.add_sub_cancel_left]
    simp [hj, Nat.lt_succ_of_le hj]
  · simp [hj, show ¬ j < hi - lo + 1 by omega]

/-- An insert leaves every disjoint field as it is. -/
theorem ext_ins_disjoint (h : lo ≤ hi) (h' : hi ≤ 31) (hle : lo' ≤ hi') (hle' : hi' ≤ 31)
    (hd : hi' < lo ∨ hi < lo') : ext (ins w hi lo v) hi' lo' = ext w hi' lo' := by
  apply BitVec.eq_of_getLsbD_eq
  intro j _
  rw [ext_getLsbD hle', ext_getLsbD hle', ins_getLsbD h h']
  by_cases hj : j ≤ hi' - lo'
  · rw [if_neg (by omega)]
  · simp [hj]

/-- Inserting what was extracted changes nothing. -/
theorem ins_ext_self (h : lo ≤ hi) (h' : hi ≤ 31) : ins w hi lo (ext w hi lo) = w := by
  apply BitVec.eq_of_getLsbD_eq
  intro j _
  rw [ins_getLsbD h h', ext_getLsbD h']
  split
  · next hj =>
    rw [Nat.add_sub_cancel' hj.1]
    simp [show j - lo ≤ hi - lo by omega]
  · rfl

end

/-- Settles O9, bit by bit. -/
theorem fieldInsertTruncatesAndPreserves : Obligations.FieldInsertTruncatesAndPreserves :=
  fun w v _ _ h h' => ⟨ext_ins_self w v h h', fun _ _ hle hle' hd => ext_ins_disjoint w v h h' hle hle' hd,
    ins_ext_self w h h'⟩

/-! ## Field places (R108, R127) -/

theorem fldLoc_of_lt {f : Fld} {idx : BitVec 8} (hf : f.isCh = true) (h : idx.toNat < 8) :
    fldLoc f idx = fldChan idx.toNat f := by
  rw [fldLoc, if_pos hf, chanIdx?_of_lt h]

theorem fldLoc_of_ge {f : Fld} {idx : BitVec 8} (hf : f.isCh = true) (h : 8 ≤ idx.toNat) : fldLoc f idx = none := by
  rw [fldLoc, if_pos hf, chanIdx?_of_ge h]

theorem fldLoc_global {f : Fld} (hf : f.isCh = false) (idx : BitVec 8) : fldLoc f idx = fldGlobal f := by
  simp [fldLoc, hf]

theorem fldGlobal_isNone (f : Fld) : (fldGlobal f).isNone = f.isCh := by
  cases f <;> rfl

theorem fldChan_isNone (i : Nat) (f : Fld) : (fldChan i f).isNone = !f.isCh := by
  cases f <;> rfl

/-- A place is missing exactly for a channel's field at an index of 8 or more (R127). -/
theorem fldLoc_eq_none_iff (f : Fld) (idx : BitVec 8) : fldLoc f idx = none ↔ f.isCh = true ∧ 8 ≤ idx.toNat := by
  rw [← Option.isNone_iff_eq_none]
  cases hf : f.isCh with
  | false => simp [fldLoc_global hf, fldGlobal_isNone, hf]
  | true =>
    by_cases h : idx.toNat < 8
    · simp [fldLoc_of_lt hf h, fldChan_isNone, hf, h]
    · simp [fldLoc_of_ge hf (Nat.le_of_not_lt h), Nat.le_of_not_lt h]

theorem chOff_eq (i : Nat) (r : ChReg) : chOff i r = 0x40 + 0x40 * i + r.off := by
  rw [chOff, chanBase, Nat.mul_comm]

theorem selOff_eq (i : Nat) : selOff i = if i < 4 then 0x04 else 0x28 := by
  rw [selOff]
  exact if_congr (by omega) rfl rfl

/-- Settles O13: a global field by its row, a channel field by its row at a legal index. -/
theorem fieldPlacesAsListed : Obligations.FieldPlacesAsListed := by
  refine ⟨rfl, rfl, rfl, rfl, rfl, rfl, rfl, rfl, rfl, rfl, fun idx h => ?_, fldLoc_eq_none_iff⟩
  have hrow (f : Fld) (hf : f.isCh = true) : fldLoc f idx = fldChan idx.toNat f := fldLoc_of_lt hf h
  and_intros <;> rw [hrow _ rfl] <;> simp only [fldChan, chOff_eq, selOff_eq] <;> rfl

end Sys2Proof.Machine
end

section
/-! SUPPORT. The Register Model commands (40_register_model.md R142 to R144) as whole commands: FLD_RD is one read,
FLD_WR one write, FLD_MOD a read and a write with any moves of the other agents between them; and the two hazards of
FLD_MOD (R146). -/

namespace Sys2Proof.Machine

open Sys2Proof.Config

/-! ## A field without a place (R127, R252) -/

section

variable {f : Fld} {idx : BitVec 8} (h : fldLoc f idx = none) (value : Word) (s : State)
include h

theorem exec_fldRd_of_none : exec (.fldRd f idx) s = .next s.contractTaken := by
  simp only [exec, execFldRd, h]
  rfl

theorem exec_fldWr_of_none : exec (.fldWr f idx value) s = .next s.contractTaken := by
  simp only [exec, execFldWr, h]
  rfl

theorem exec_fldMod_of_none : exec (.fldMod f idx value) s = .next s.contractTaken := by
  simp only [exec, execFldMod, h]
  rfl

end

/-! ## A field with a place (R142 to R144) -/

section

variable {f : Fld} {idx : BitVec 8} {l : FieldLoc} {g : Reg} {value : Word} {s t : State} {x : Refusal}
  {p p₁ p₂ q : List Turn} (hl : fldLoc f idx = some l) (hg : regAt l.off = some g)
include hl

theorem exec_fldRd_eq_start : exec (.fldRd f idx) s = start (fldRdMicro l) (.fldRd f idx) .F1 0 s := by
  simp only [exec, execFldRd, hl]

theorem exec_fldWr_eq_start :
    exec (.fldWr f idx value) s = start (fldWrMicro l value) (.fldWr f idx value) .F1 0 s := by
  simp only [exec, execFldWr, hl]

theorem exec_fldMod_eq_start :
    exec (.fldMod f idx value) s = start (fldModMicro l value) (.fldMod f idx value) .F1 0 s := by
  simp only [exec, execFldMod, hl]

include hg

/-- FLD_RD: one read, after the moves `p` (R142). -/
theorem exec_fldRd_reads (hp : s.seqAfter p q) :
    exec (.fldRd f idx) s = .next
      ((({ s.others p with plan := q }.tick g.readDraws).log (.rd .seq l.off ((s.others p).readVal g))).respond
        (.ok [ext ((s.others p).readVal g) l.hi l.lo])) := by
  rw [exec_fldRd_eq_start hl, start_eq]
  exact drive_one_read (a := fun v => .ok [ext v l.hi l.lo]) hp hg fun _ => rfl

/-- FLD_WR where its write has a meaning (R143). -/
theorem exec_fldWr_writes (hp : s.seqAfter p q) (hw : (s.others p).writeReg (ins 0 l.hi l.lo value) g = .ok t) :
    exec (.fldWr f idx value) s =
      .next (({ t with plan := q }.log (.wr .seq l.off (ins 0 l.hi l.lo value))).respond (.ok [])) := by
  rw [exec_fldWr_eq_start hl, start_eq]
  exact drive_one_write hp hg (fun _ => rfl) hw

/-- FLD_WR where its write has none (R258). -/
theorem exec_fldWr_refused (hp : s.seqAfter p q)
    (hw : (s.others p).writeReg (ins 0 l.hi l.lo value) g = .error x) : exec (.fldWr f idx value) s = .refused x := by
  rw [exec_fldWr_eq_start hl, start_eq]
  exact drive_one_write_refused hp hg (fun _ => rfl) hw

end

/-- The state in which step M2 of `MOD` writes: after the moves `p₁`, the read, and the moves `p₂` (R141). -/
def State.atModWrite (s : State) (p₁ p₂ : List Turn) (off : Nat) (g : Reg) : State :=
  (((s.others p₁).tick g.readDraws).log (.rd .seq off ((s.others p₁).readVal g))).others p₂

section

variable {f : Fld} {idx : BitVec 8} {l : FieldLoc} {g : Reg} {value : Word} {s t : State} {x : Refusal}
  {p₁ p₂ q : List Turn} (hl : fldLoc f idx = some l) (hg : regAt l.off = some g) (hp : s.seqAfterTwice p₁ p₂ q)
include hl hg hp

/-- FLD_MOD where its write has a meaning (R144). -/
theorem exec_fldMod_writes
    (hw : (s.atModWrite p₁ p₂ l.off g).writeReg (ins ((s.others p₁).readVal g) l.hi l.lo value) g = .ok t) :
    exec (.fldMod f idx value) s = .next
      (({ t with plan := q }.log (.wr .seq l.off (ins ((s.others p₁).readVal g) l.hi l.lo value))).respond
        (.ok [])) := by
  rw [exec_fldMod_eq_start hl, start_eq]
  exact drive_read_write (w := fun v => ins v l.hi l.lo value) (a := fun _ => .ok []) (next := .F2) hp hg
    (fun _ => rfl) (fun _ _ => rfl) hw

/-- FLD_MOD where its write has none (R258). -/
theorem exec_fldMod_refused
    (hw : (s.atModWrite p₁ p₂ l.off g).writeReg (ins ((s.others p₁).readVal g) l.hi l.lo value) g = .error x) :
    exec (.fldMod f idx value) s = .refused x := by
  rw [exec_fldMod_eq_start hl, start_eq]
  exact drive_read_write_refused (w := fun v => ins v l.hi l.lo value) (a := fun _ => .ok []) (next := .F2) hp hg
    (fun _ => rfl) (fun _ _ => rfl) hw

end

/-- Settles O35: the command is its one read. -/
theorem fieldReadReturnsField : Obligations.FieldReadReturnsField :=
  fun s _ _ => ⟨fun hf hidx => exec_fldRd_of_none (fldLoc_of_ge hf hidx) s,
    fun _ _ _ _ hl hg hp => exec_fldRd_reads hl hg hp⟩

/-- A write that has a meaning, as an access of SEQ. -/
theorem wr32_of_writeReg {off : Nat} {g : Reg} {v : Word} {s t : State} (hg : regAt off = some g)
    (hw : s.writeReg v g = .ok t) : wr32 .seq off v s = .ok (t.log (.wr .seq off v)) := by
  rw [wr32_of_regAt hg, hw]
  rfl

/-- Settles O36: the command is its one write, and that write has a meaning exactly where `writeDefined` says. -/
theorem fieldWriteZeroesTheRest : Obligations.FieldWriteZeroesTheRest := by
  intro s f idx value
  refine ⟨fun hf hidx => exec_fldWr_of_none (fldLoc_of_ge hf hidx) value s,
    fun l g p q hl hg hp => ⟨fun hdef => ?_, fun hundef => ?_⟩⟩
  · obtain ⟨t, hw⟩ := writeReg_of_defined hdef
    exact ⟨_, wr32_of_writeReg hg hw, exec_fldWr_writes hl hg hp hw⟩
  · obtain ⟨x, hw⟩ := writeReg_of_not_defined hundef
    exact ⟨x, exec_fldWr_refused hl hg hp hw⟩

/-- Settles O37: the command is its read and its write, as in O36. -/
theorem fieldModifyReadsThenWrites : Obligations.FieldModifyReadsThenWrites := by
  intro s f idx value
  refine ⟨fun hf hidx => exec_fldMod_of_none (fldLoc_of_ge hf hidx) value s,
    fun l g p₁ p₂ q hl hg hp => ⟨fun hdef => ?_, fun hundef => ?_⟩⟩
  · obtain ⟨t, hw⟩ := writeReg_of_defined hdef
    exact ⟨_, wr32_of_writeReg hg hw, exec_fldMod_writes hl hg hp hw⟩
  · obtain ⟨x, hw⟩ := writeReg_of_not_defined hundef
    exact ⟨x, exec_fldMod_refused hl hg hp hw⟩

/-! ## The hazards of `MOD` (R146) -/

theorem fldLoc_chan {f : Fld} {idx : BitVec 8} {i : Fin 8} (hf : f.isCh = true) (hi : idx.toNat = i.val) :
    fldLoc f idx = fldChan i f := by
  rw [fldLoc_of_lt hf (hi ▸ i.isLt), hi]

/-- What `MOD` on one completion flag writes back: bit 0 of the value at that flag, every other flag as it was read. -/
theorem ins_statWord_flag (d : BitVec 8) (i j : Fin 8) (value : Word) :
    (ins (statWord d) (doneBit i) (doneBit i) value).getLsbD (4 * j) =
      if j = i then value.getLsbD 0 else d.getLsbD j := by
  rw [ins_getLsbD (Nat.le_refl _) (by simp only [doneBit, statStride]; omega), statWord_flag]
  by_cases h : j = i
  · subst h
    simp [doneBit, statStride]
  · have hne : ¬ (doneBit i ≤ 4 * j ∧ 4 * j.val ≤ doneBit i) := by
      simp only [doneBit, statStride]
      omega
    rw [if_neg hne, if_neg h]

/-- Settles O38: a 1 read back at a flag is a 1 written to it, which clears it. -/
theorem modifyOfStatusLosesFlags : Obligations.ModifyOfStatusLosesFlags := by
  intro s idx i value p₁ p₂ q hi hp s₁ s₂
  have hflag (j : Fin 8) := writeStat_getLsbD s₂.glb (ins (statWord s₁.glb.done) (doneBit i) (doneBit i) value) j
  simp only [ins_statWord_flag] at hflag
  refine ⟨_, exec_fldMod_writes (fldLoc_chan rfl hi) regAt_offStat hp (writeReg_dmaStat _ _), ?_, fun j hj => ?_⟩
  · exact (hflag i).trans (by rw [if_pos rfl]; rfl)
  · exact (hflag j).trans (by rw [if_neg hj]; rfl)

/-- A one-bit field takes bit 0 of the value and no other. -/
theorem ins_bit_eq {k : Nat} (hk : k ≤ 31) (w v : Word) : ins w k k v = ins w k k (bitW (v.getLsbD 0)) := by
  apply BitVec.eq_of_getLsbD_eq
  intro j _
  rw [ins_getLsbD (Nat.le_refl k) hk, ins_getLsbD (Nat.le_refl k) hk]
  split
  · next hj =>
    rw [show j - k = 0 by omega, bitW_getLsbD]
    simp
  · rfl

/-- A CH_CTL write of a set enable bit and a clear soft-reset bit to a disabled channel activates it (R79). -/
theorem ctlAfter_activates {c : Chan} (hen : c.en = false) (dir : Bool) (n : Nat) :
    (c.ctlAfter (encChctl true false dir) n).en = true ∧ (c.ctlAfter (encChctl true false dir) n).armed = true ∧
      (c.ctlAfter (encChctl true false dir) n).dir = dir := by
  have hevent : c.ctlEvent (encChctl true false dir) ≠ true := by
    rw [ne_eq, chanCtlEvent_iff, encChctl_getLsbD_one]
    simp
  rw [ctlAfter_of_not_event hevent, ctlStore_eq, encChctl_getLsbD_zero, encChctl_getLsbD_two, hen]
  simp

theorem ctlUnspecified_of_srst_clear (c : Chan) (en dir : Bool) : c.ctlUnspecified (encChctl en false dir) = false := by
  rw [Bool.eq_false_iff, ne_eq, ctlUnspecified_iff, encChctl_getLsbD_one]
  simp

/-- The same as a register write: it has a meaning, and the channel ends enabled and armed. -/
theorem writeReg_ctl_activates {s : State} {i : Fin 8} (hen : (s.chan i).en = false) (dir : Bool) :
    ∃ t, s.writeReg (encChctl true false dir) (.chan i .ctl) = .ok t ∧
      (t.chan i).en = true ∧ (t.chan i).armed = true ∧ (t.chan i).dir = dir := by
  refine ⟨_, writeChReg_ctl_ok (ctlUnspecified_of_srst_clear _ true dir), ?_⟩
  rw [State.tick_chan, State.setChan_chan_self]
  exact ctlAfter_activates hen dir s.draws

/-- Where ENG may disable a channel by itself, the channel is disabled after that move, taken or not (R233). -/
theorem engMove_selfDisable_en {s : State} (hsw : s.sw.selfDisable = true) (i : Fin 8) :
    ((s.engMove (.selfDisable i)).chan i).en = false := by
  unfold State.engMove
  split
  · rw [State.engEffect, State.engDisable_chan, if_pos rfl]
  · next h => simpa [State.engEnabled, hsw] using h

/-- Settles O39: the word read has the enable bit set, so the write of the direction sets it again. -/
theorem modifyCanReactivateChannel : Obligations.ModifyCanReactivateChannel := by
  intro s idx i value hi hen hsrst hsw hplan
  have hp : s.seqAfterTwice [] [.eng (.selfDisable i)] [] :=
    ⟨[.eng (.selfDisable i), .seq], ⟨by simp, .inl hplan⟩, by simp [Turn.other], .inl rfl⟩
  have hread : (s.others []).readVal (.chan i .ctl) = encChctl true false (s.chan i).dir := by
    rw [others_nil, State.readVal, Chan.readReg, hen, hsrst]
  have hword : ins ((s.others []).readVal (.chan i .ctl)) chDirBit chDirBit value =
      encChctl true false (value.getLsbD 0) := by
    rw [hread, ins_bit_eq (by decide), ins_encChctl_dir]
  have hoff : ((s.atModWrite [] [.eng (.selfDisable i)] (chOff i .ctl) (.chan i .ctl)).chan i).en = false :=
    engMove_selfDisable_en (s := (s.tick 0).log _) hsw i
  obtain ⟨t, hw, hres⟩ := writeReg_ctl_activates hoff (value.getLsbD 0)
  rw [← hword] at hw
  exact ⟨_, exec_fldMod_writes (fldLoc_chan rfl hi) (regAt_chOff i .ctl) hp hw, hres⟩

end Sys2Proof.Machine
end

section
/-! SUPPORT. The validator (41_channel.md R160), the channel-handle precondition (R169), and CH_ACTIVATE,
CH_DEACTIVATE and CH_IS_RUNNING as whole commands (R163 to R165): one access of CH_CTL or two, with any moves of the
other agents before and between them. -/

namespace Sys2Proof.Machine

open Sys2Proof.Config

/-! ## The validator (R160) -/

/-- The two lowest bits are clear exactly at the multiples of 4. -/
theorem extractLsb'_zero_two_iff {w : Nat} (x : BitVec w) : x.extractLsb' 0 2 = 0#2 ↔ x.toNat % 4 = 0 := by
  rw [← BitVec.toNat_inj, BitVec.extractLsb'_toNat, Nat.shiftRight_zero]
  rfl

theorem valid_iff (ba : BusAddr) (size : Word) :
    valid ba size = true ↔ ba.toNat % 4 = 0 ∧ size.toNat % 4 = 0 ∧ 4 ≤ size.toNat := by
  simp only [valid, addrOk, sizeOk, Bool.and_eq_true, beq_iff_eq, decide_eq_true_eq]

/-- Settles O11: of the multiples of 4 only zero is below 4. -/
theorem validatorChecksAlignmentAndMinimum : Obligations.ValidatorChecksAlignmentAndMinimum := by
  intro ba size
  have hsize : size ≠ 0#32 ↔ size.toNat ≠ 0 := (BitVec.toNat_ne_iff_ne (y := 0#32)).symm
  refine ⟨valid_iff ba size, (valid_iff ba size).trans (and_congr (extractLsb'_zero_two_iff ba).symm ?_)⟩
  rw [extractLsb'_zero_two_iff, hsize]
  omega

/-! ## The channel-handle precondition (R169) -/

/-- A channel command checks its index first, then its Channel, and has no other effect before. -/
theorem exec_of_needsChannel {c : Instr} (h : needsChannel c = true) (s : State) :
    ∃ idx k, targetOf c = chanIdx? idx ∧ exec c s = withHandle idx s k := by
  cases c with
  | chActivate idx | chDeactivate idx | chIsRunning idx | bufWr idx _ _ | bufRd idx _ _ => exact ⟨idx, _, rfl, rfl⟩
  | _ => simp [needsChannel] at h

theorem withHandle_of_index {idx : BitVec 8} (h : chanIdx? idx = none) (s : State) (k : Fin 8 → Desc → Out) :
    withHandle idx s k = .next s.contractTaken := by
  simp only [withHandle, withIndex, h]
  rfl

theorem withHandle_of_no_desc {idx : BitVec 8} {i : Fin 8} {s : State} (h : chanIdx? idx = some i)
    (hd : s.desc i = none) (k : Fin 8 → Desc → Out) : withHandle idx s k = .refused .noChannel := by
  simp only [withHandle, withIndex, h, hd]

/-- Settles O32. -/
theorem channelCommandsNeedChannel : Obligations.ChannelCommandsNeedChannel := by
  intro s c hc
  obtain ⟨idx, k, htarget, hexec⟩ := exec_of_needsChannel hc s
  rw [htarget, hexec]
  exact ⟨fun h => withHandle_of_index h s k, fun i h hd => withHandle_of_no_desc h hd k⟩

/-! ## CH_CTL under the block offset (R74, R75) -/

theorem chanBase_eq (i : Fin 8) : chanBase i = 0x40 + 0x40 * i.val := by
  simp only [chanBase, chTableOff, chStride]
  omega

theorem ctlOff_eq (i : Fin 8) : chanBase i + choCtl = 0x58 + 0x40 * i.val := by
  rw [chanBase_eq, choCtl]
  omega

theorem readVal_ctl (s : State) (i : Fin 8) :
    s.readVal (.chan i .ctl) = encChctl (s.chan i).en (s.chan i).srst (s.chan i).dir := rfl

/-! ## CH_IS_RUNNING (R165) -/

theorem bitW_encChctl_en (en srst dir : Bool) :
    bitW ((encChctl en srst dir).getLsbD chEnBit) = if en then 1 else 0 := by
  rw [encChctl_getLsbD_zero]
  rfl

/-- Settles O54: the command is its one read. -/
theorem isRunningReadsLiveBit : Obligations.IsRunningReadsLiveBit := by
  intro s idx i p q hi hsome hp s₁ c
  obtain ⟨d, hd⟩ := Option.isSome_iff_exists.1 hsome
  simp only [exec, execChIsRunning]
  rw [withHandle_of_desc hi hd, start_eq,
    drive_one_read (a := fun t => .ok [bitW (t.getLsbD chEnBit)]) hp (regAt_ctl i)
      (fun t => by simp only [chIsRunningMicro, SeqRun.init_step, SeqRun.init_cb, chanBase_toNat]),
    readVal_ctl, bitW_encChctl_en, ctlOff_eq]
  rfl

/-! ## CH_ACTIVATE and CH_DEACTIVATE: `MOD` of the enable bit (R163, R164) -/

/-- The state in which the second access of `MOD` on CH_CTL acts. -/
def State.atCtlWrite (s : State) (p₁ p₂ : List Turn) (i : Fin 8) : State :=
  ((s.others p₁).log (.rd .seq (0x58 + 0x40 * i.val)
    (encChctl ((s.others p₁).chan i).en (s.chan i).srst (s.chan i).dir))).others p₂

/-- Up to then only the other agents have moved channel `i`, and they leave its soft-reset bit alone. -/
theorem atCtlWrite_srst (s : State) (p₁ p₂ : List Turn) (i : Fin 8) :
    ((s.atCtlWrite p₁ p₂ i).chan i).srst = (s.chan i).srst :=
  ((others_between p₂ _).chan_srst i).trans ((others_between p₁ s).chan_srst i)

theorem atCtlWrite_dir (s : State) (p₁ p₂ : List Turn) (i : Fin 8) :
    ((s.atCtlWrite p₁ p₂ i).chan i).dir = (s.chan i).dir :=
  ((others_between p₂ _).chan_dir i).trans ((others_between p₁ s).chan_dir i)

theorem atCtlWrite_en {s : State} {p₁ p₂ : List Turn} {i : Fin 8} (h : (s.chan i).en = false) :
    ((s.atCtlWrite p₁ p₂ i).chan i).en = false :=
  Bool.eq_false_iff.2 fun hen =>
    Bool.eq_false_iff.1 h ((others_between p₁ s).en i ((others_between p₂ (State.log (s.others p₁) _)).en i hen))

/-- The register as the first access reads it. -/
theorem readVal_ctl_others (s : State) (p : List Turn) (i : Fin 8) :
    (s.others p).readVal (.chan i .ctl) = encChctl ((s.others p).chan i).en (s.chan i).srst (s.chan i).dir := by
  rw [readVal_ctl, (others_between p s).chan_srst, (others_between p s).chan_dir]

/-- A CH_CTL write that leaves the soft-reset bit and the direction as they are is no event: its enable bit decides. -/
theorem ctlAfter_of_en (c : Chan) (b : Bool) (n : Nat) :
    c.ctlAfter (encChctl b c.srst c.dir) n =
      { c with
        en := c.en || b
        armed := c.armed || (b && !c.en)
        disPending := c.pendingAfter (encChctl b c.srst c.dir) (draw n)
        desc := if b = true ∧ c.en = false then c.desc.map Desc.activate else c.desc } := by
  have hevent : c.ctlEvent (encChctl b c.srst c.dir) ≠ true := by
    rw [ne_eq, chanCtlEvent_iff, encChctl_getLsbD_one]
    simp +contextual
  rw [ctlAfter_of_not_event hevent, ctlStore_eq, encChctl_getLsbD_zero, encChctl_getLsbD_one, encChctl_getLsbD_two]

/-- Such a write has no meaning exactly where it would activate a channel with its soft-reset bit set. -/
theorem ctlUnspecified_of_en (c : Chan) (b : Bool) :
    c.ctlUnspecified (encChctl b c.srst c.dir) = (b && c.srst && !c.en) := by
  rw [Bool.eq_iff_iff, ctlUnspecified_iff, encChctl_getLsbD_zero, encChctl_getLsbD_one]
  cases c.srst <;> simp

/-- A set enable bit activates a channel that is not active; on an active one it can only cancel a pending disable
(R79, R163). -/
theorem ctlAfter_of_activate (c : Chan) (n : Nat) :
    c.ctlAfter (encChctl true c.srst c.dir) n =
      if c.en then { c with disPending := c.disPending && (draw n).getLsbD 0 }
      else { c with en := true, armed := true, disPending := false, desc := c.desc.map Desc.activate } := by
  rw [ctlAfter_of_en, pendingAfter_of_set (encChctl_getLsbD_zero _ _ _)]
  cases c.en
  · simp
  · simp

/-- A clear enable bit asks for the disable of an active channel and leaves any other alone (R79, R164). -/
theorem ctlAfter_of_deactivate (c : Chan) (n : Nat) :
    c.ctlAfter (encChctl false c.srst c.dir) n = if c.en then { c with disPending := true } else c := by
  rw [ctlAfter_of_en, pendingAfter_of_clear (encChctl_getLsbD_zero _ _ _)]
  obtain ⟨addrUp, addrLo, devAddr, xferSize, en, srst, dir, thresh, tmoEn, disPending, armed, desc⟩ := c
  cases en
  · simp
  · simp

section

variable {f : SeqRun → State → Micro} {cmd : Instr} {l l' : Label} {b : Bool} {s : State} {p₁ p₂ q : List Turn}
  {i : Fin 8} (h1 : ∀ r t, r.step = l → f r t = modRead (r.cb.toNat + choCtl) r l' t)
  (h2 : ∀ r t, r.step = l' → f r t = modDone (r.cb.toNat + choCtl) chEnBit chEnBit (bitW b) r t)
  (hp : s.seqAfterTwice p₁ p₂ q)
include h1 h2 hp

/-- `MOD` of the enable bit where its write has a meaning. -/
theorem start_modEn (hdef : (b && (s.chan i).srst && !((s.atCtlWrite p₁ p₂ i).chan i).en) = false) :
    let t := s.atCtlWrite p₁ p₂ i
    ∃ n m, start f cmd l (chanBase i) s = .next
      (({ t.setChan i ((t.chan i).ctlAfter (encChctl b (t.chan i).srst (t.chan i).dir) n) with
          plan := q, draws := m }.log
        (.wr .seq (0x58 + 0x40 * i.val) (encChctl b (s.chan i).srst (s.chan i).dir))).respond (.ok [])) := by
  intro t
  rw [← atCtlWrite_srst s p₁ p₂, ← ctlUnspecified_of_en, atCtlWrite_srst, atCtlWrite_dir] at hdef
  have hw := writeChReg_ctl_ok hdef
  refine ⟨t.draws, t.draws + (t.chan i).ctlDraws (encChctl b (s.chan i).srst (s.chan i).dir), ?_⟩
  rw [start_eq, drive_read_write (w := fun v => ins v chEnBit chEnBit (bitW b)) (a := fun _ => .ok []) (next := l')
      hp (regAt_ctl i) (fun t => by rw [h1 _ _ rfl, SeqRun.init_cb, chanBase_toNat])
      (fun v t => by rw [h2 _ _ rfl, modDone, modWrite, SeqRun.init_cb, chanBase_toNat])
      (by rw [readVal_ctl_others, ins_encChctl_en, ctlOff_eq]; exact hw),
    readVal_ctl_others, ins_encChctl_en, ctlOff_eq, atCtlWrite_srst, atCtlWrite_dir]
  rfl

/-- `MOD` of the enable bit where its write has none (R258). -/
theorem start_modEn_refused (hundef : (b && (s.chan i).srst && !((s.atCtlWrite p₁ p₂ i).chan i).en) = true) :
    start f cmd l (chanBase i) s = .refused .chCtlUnspecified := by
  rw [← atCtlWrite_srst s p₁ p₂, ← ctlUnspecified_of_en, atCtlWrite_srst, atCtlWrite_dir] at hundef
  have hw := writeChReg_ctl_error hundef
  rw [start_eq, drive_read_write_refused (w := fun v => ins v chEnBit chEnBit (bitW b)) (a := fun _ => .ok [])
      (next := l') hp (regAt_ctl i) (fun t => by rw [h1 _ _ rfl, SeqRun.init_cb, chanBase_toNat])
      (fun v t => by rw [h2 _ _ rfl, modDone, modWrite, SeqRun.init_cb, chanBase_toNat])
      (by rw [readVal_ctl_others, ins_encChctl_en, ctlOff_eq]; exact hw)]

end

/-! Each of the two commands is the two accesses of a `MOD`. -/

theorem chActivateMicro_A1 {r : SeqRun} (h : r.step = .A1) (s : State) :
    chActivateMicro r s = modRead (r.cb.toNat + choCtl) r .A2 s := by
  simp only [chActivateMicro, h]

theorem chActivateMicro_A2 {r : SeqRun} (h : r.step = .A2) (s : State) :
    chActivateMicro r s = modDone (r.cb.toNat + choCtl) chEnBit chEnBit (bitW true) r s := by
  simp only [chActivateMicro, h]
  rfl

theorem chDeactivateMicro_D1 {r : SeqRun} (h : r.step = .D1) (s : State) :
    chDeactivateMicro r s = modRead (r.cb.toNat + choCtl) r .D2 s := by
  simp only [chDeactivateMicro, h]

theorem chDeactivateMicro_D2 {r : SeqRun} (h : r.step = .D2) (s : State) :
    chDeactivateMicro r s = modDone (r.cb.toNat + choCtl) chEnBit chEnBit (bitW false) r s := by
  simp only [chDeactivateMicro, h]
  rfl

/-- Settles O53: the write of a clear enable bit always has a meaning. -/
theorem deactivateRequestsDisable : Obligations.DeactivateRequestsDisable := by
  intro s idx i p₁ p₂ q hi hsome hp s₁ off s₂ c
  obtain ⟨d, hd⟩ := Option.isSome_iff_exists.1 hsome
  obtain ⟨n, m, he⟩ := start_modEn (cmd := .chDeactivate idx) (i := i) (fun _ t h => chDeactivateMicro_D1 h t)
    (fun _ t h => chDeactivateMicro_D2 h t) hp rfl
  rw [ctlAfter_of_deactivate] at he
  refine ⟨m, ?_⟩
  simp only [exec, execChDeactivate]
  rw [withHandle_of_desc hi hd]
  exact he

section

variable {s : State} {idx : BitVec 8} {i : Fin 8} {p₁ p₂ q : List Turn} (hi : idx.toNat = i.val)
  (hsome : (s.desc i).isSome = true) (hp : s.seqAfterTwice p₁ p₂ q)
include hi hsome hp

/-- CH_ACTIVATE, unless it finds a set soft-reset bit on a channel that is not active (R163, R79). -/
theorem exec_chActivate_writes (hok : (s.chan i).srst = true → ((s.atCtlWrite p₁ p₂ i).chan i).en = true) :
    let t := s.atCtlWrite p₁ p₂ i
    ∃ (x : Bool) (n : Nat), exec (.chActivate idx) s = .next
      (({ t.setChan i (if (t.chan i).en then { t.chan i with disPending := (t.chan i).disPending && x }
            else { t.chan i with
              en := true, armed := true, disPending := false, desc := (t.chan i).desc.map Desc.activate }) with
          plan := q, draws := n }.log
        (.wr .seq (0x58 + 0x40 * i.val) (encChctl true (s.chan i).srst (s.chan i).dir))).respond (.ok [])) := by
  obtain ⟨d, hd⟩ := Option.isSome_iff_exists.1 hsome
  have hdef : (true && (s.chan i).srst && !((s.atCtlWrite p₁ p₂ i).chan i).en) = false := by
    cases hs : (s.chan i).srst
    · rfl
    · rw [hok hs]
      rfl
  obtain ⟨n, m, he⟩ := start_modEn (cmd := .chActivate idx) (fun _ t h => chActivateMicro_A1 h t)
    (fun _ t h => chActivateMicro_A2 h t) hp hdef
  rw [ctlAfter_of_activate] at he
  refine ⟨(draw n).getLsbD 0, m, ?_⟩
  simp only [exec, execChActivate]
  rw [withHandle_of_desc hi hd]
  exact he

/-- CH_ACTIVATE there (R79, R258). -/
theorem exec_chActivate_refused (hsrst : (s.chan i).srst = true)
    (hen : ((s.atCtlWrite p₁ p₂ i).chan i).en = false) : exec (.chActivate idx) s = .refused .chCtlUnspecified := by
  obtain ⟨d, hd⟩ := Option.isSome_iff_exists.1 hsome
  simp only [exec, execChActivate]
  rw [withHandle_of_desc hi hd]
  exact start_modEn_refused (fun _ t h => chActivateMicro_A1 h t) (fun _ t h => chActivateMicro_A2 h t) hp
    (by rw [hsrst, hen]; rfl)

end

/-- Without a rest in the schedule SEQ gets its two turns. -/
theorem State.NoRest.seqAfterTwice {s : State} (h : s.NoRest) : ∃ p₁ p₂ q, s.seqAfterTwice p₁ p₂ q := by
  obtain ⟨p₁, r, h₁, hr, -⟩ := seqTurn_of_noRest h
  obtain ⟨p₂, q, h₂, -, -⟩ := seqTurn_of_noRest hr
  exact ⟨p₁, p₂, q, r, h₁, h₂⟩

/-- Settles O52, by the soft-reset bit and the enable bit that the write finds. -/
theorem activateEnablesChannel : Obligations.ActivateEnablesChannel := by
  intro s idx i hi hsome
  refine ⟨fun hsrst p₁ p₂ q hp => ?_, fun hsrst p₁ p₂ q hp => ?_, fun hsrst hen hn => ?_⟩
  · have h := exec_chActivate_writes hi hsome hp fun h => by simp [hsrst] at h
    simpa only [State.atCtlWrite, hsrst] using h
  · have ht : s.atCtlWrite p₁ p₂ i = State.others (State.log (s.others p₁) (.rd .seq (0x58 + 0x40 * i.val)
        (encChctl ((s.others p₁).chan i).en true (s.chan i).dir))) p₂ := by rw [State.atCtlWrite, hsrst]
    simp only [← ht]
    refine ⟨fun hen => ?_, exec_chActivate_refused hi hsome hp hsrst⟩
    have h := exec_chActivate_writes hi hsome hp fun _ => hen
    simpa only [hen, if_true, hsrst] using h
  · obtain ⟨p₁, p₂, q, hp⟩ := hn.seqAfterTwice
    exact exec_chActivate_refused hi hsome hp hsrst (atCtlWrite_en hen)

end Sys2Proof.Machine
end

section
/-! SUPPORT. BUF_WR and BUF_RD as whole commands with their frame (41_channel.md R166, R167; 20_memory.md R86, R87):
what the buffer holds and what is read, that nothing else changes but what the other agents change, and SEQ's
accesses. -/

namespace Sys2Proof.Machine

open Sys2Proof.Config

/-! ## The other agents' moves, and none under a quiet schedule -/

/-- Only the other agents have moved from `s` to `t`, and under a quiet schedule nobody has. -/
structure Moved (s t : State) : Prop where
  between : Between s t
  quiet : s.Quiet → t.Quiet ∧ t = { s with plan := t.plan }

/-- The state SEQ finds when its turn comes. -/
theorem moved_of_seqAfter {s : State} {p q : List Turn} (h : s.seqAfter p q) :
    Moved s { s.others p with plan := q } := by
  refine ⟨(others_between p s).withPlan q, fun hquiet => ?_⟩
  obtain ⟨hother, hplan⟩ := h
  have hmem : (∀ x ∈ p, x ∈ s.plan) ∧ ∀ x ∈ q, x ∈ s.plan := by
    rcases hplan with hplan | ⟨hplan, rfl⟩
    · exact ⟨fun x hx => by simp [hplan, hx], fun x hx => by simp [hplan, hx]⟩
    · exact ⟨fun x hx => hplan ▸ hx, by simp⟩
  have hp : p = [] := List.eq_nil_iff_forall_not_mem.2 fun x hx => by
    have := hother x hx
    rw [hquiet x (hmem.1 x hx)] at this
    cases this
  subst hp
  exact ⟨fun x hx => hquiet x (hmem.2 x hx), rfl⟩

/-- `drive_total` for an assertion that also says what a quiet schedule leaves alone. -/
theorem drive_total_moved {f : SeqRun → State → Micro} {I : SeqRun → State → Prop} {D : Resp → State → Prop}
    {μ : SeqRun → Nat}
    (hmoved : ∀ r s t, I r s → Moved s t → I r t)
    (hstep : ∀ r s, I r s → (f r s).Advances I D μ (μ r) s.plan) :
    ∀ (n : Nat) (r : SeqRun) (s : State), I r s → s.NoRest → μ r < n →
      ∃ q t, drive f n r s = .next (t.respond q) ∧ D q t
  | 0, _, _, _, _, h => absurd h (Nat.not_lt_zero _)
  | n + 1, r, s, hI, hn, hμ => by
    obtain ⟨p, q, hp, hq, -⟩ := seqTurn_of_noRest hn
    have hs := hstep r _ (hmoved r s _ hI (moved_of_seqAfter hp))
    cases hf : f r { s.others p with plan := q } with
    | goto r' s' =>
      rw [hf] at hs
      obtain ⟨hI', hlt, hplan⟩ := hs
      rw [drive_seqTurn_goto hp hf]
      exact drive_total_moved hmoved hstep n r' s' hI' (by rw [State.NoRest, hplan]; exact hq) (by omega)
    | done a s' =>
      rw [hf] at hs
      exact ⟨a, s', drive_seqTurn_done hp hf, hs⟩
    | spin r' s' | stop x | fault x =>
      rw [hf] at hs
      exact hs.elim

/-- The same from a command's first label on, with one micro-step per byte. -/
theorem start_total_moved {f : SeqRun → State → Micro} {I : SeqRun → State → Prop} {D : Resp → State → Prop}
    (μ : SeqRun → Nat) {cmd : Instr} {lbl : Label} {cb : Nat} {s : State}
    (hmoved : ∀ r s t, I r s → Moved s t → I r t)
    (hstep : ∀ r s, I r s → (f r s).Advances I D μ (μ r) s.plan) (hn : s.NoRest)
    (hI : I (SeqRun.init cmd lbl cb) s) (hμ : μ (SeqRun.init cmd lbl cb) ≤ payload cmd) :
    ∃ q t, start f cmd lbl cb s = .next (t.respond q) ∧ D q t := by
  rw [start_eq]
  exact drive_total_moved hmoved hstep _ _ s hI hn (by omega)

/-! ## The state without what the other agents may change -/

theorem Between.still {s t : State} (h : Between s t) : t.still = s.still := by
  have hchans : t.chans.map Chan.still = s.chans.map Chan.still := by
    ext i hi : 1
    simpa [State.chan] using h.chan_still ⟨i, hi⟩
  have hglb : ({ t.glb with done := 0 } : Globals) = { s.glb with done := 0 } := by rw [h.glb]
  simp only [State.still, hchans, hglb, h.seq, h.fltContract, h.sw, h.cmdIn, h.cmdOut, h.allocs]

theorem still_desc (s : State) (i : Fin 8) : s.still.desc i = s.desc i := by
  simp [State.desc, State.chan, State.still, Chan.still]

theorem still_attach (s : State) (i : Fin 8) (d : Desc) : (s.attach i d).still = s.still.attach i d := by
  simp [State.attach, State.still, State.setChan, State.chan, Vector.map_set, Chan.still]

theorem attach_attach (s : State) (i : Fin 8) (d d' : Desc) : (s.attach i d).attach i d' = s.attach i d' := by
  simp [State.attach]

theorem attach_desc (s : State) (i : Fin 8) (d : Desc) : (s.attach i d).desc i = some d := by
  simp [State.desc, State.attach]

/-- Attaching the descriptor a channel has changes nothing. -/
theorem attach_self {s : State} {i : Fin 8} {d : Desc} (h : s.desc i = some d) : s.attach i d = s := by
  rw [State.attach, ← h]
  exact s.setChan_self i

/-- A command that began in `s` has made of it `e`, but for the other agents' moves; under a quiet schedule there are
none. -/
structure Follows (s e t : State) : Prop where
  still : t.still = e.still
  quiet : s.Quiet → t.Quiet ∧ t.sameMachine e

section

variable {s e t u : State}

theorem Follows.refl (s : State) : Follows s s s := ⟨rfl, fun h => ⟨h, rfl⟩⟩

theorem Follows.moved (h : Follows s e t) (hm : Moved t u) : Follows s e u := by
  refine ⟨hm.between.still.trans h.still, fun hs => ?_⟩
  obtain ⟨hquiet, hsame⟩ := h.quiet hs
  obtain ⟨hu, hplan⟩ := hm.quiet hquiet
  refine ⟨hu, ?_⟩
  rw [State.sameMachine_iff] at hsame ⊢
  rw [hplan]
  exact hsame

/-- Neither the access log nor the counter of free values is looked at. -/
theorem Follows.log (h : Follows s e t) (n : Nat) (a : Access) : Follows s e ((t.tick n).log a) :=
  ⟨h.still, fun hs => ⟨(h.quiet hs).1, (State.sameMachine_iff _ _).2 ((State.sameMachine_iff t e).1 (h.quiet hs).2)⟩⟩

theorem Follows.attach (h : Follows s e t) (i : Fin 8) (d : Desc) : Follows s (e.attach i d) (t.attach i d) := by
  refine ⟨by rw [still_attach, h.still, still_attach], fun hs => ⟨(h.quiet hs).1, ?_⟩⟩
  rw [(h.quiet hs).2]
  rfl

theorem Follows.respond (h : Follows s e t) (q : Resp) : Follows s (e.respond q) (t.respond q) := by
  refine ⟨?_, fun hs => ⟨(h.quiet hs).1, ?_⟩⟩
  · have : (t.still.respond q) = (e.still.respond q) := by rw [h.still]
    exact this
  · rw [(h.quiet hs).2]
    rfl

theorem Follows.desc (h : Follows s e t) (i : Fin 8) : t.desc i = e.desc i := by
  rw [← still_desc, h.still, still_desc]

end

theorem seqLog_log {a : Access} (h : a.bySeq = true) (s : State) : (s.log a).seqLog = s.seqLog ++ [a] := by
  rw [State.seqLog, State.log_bus, List.filter_append, List.filter_cons_of_pos h]
  rfl

/-! ## BUF_WR (R166) -/

section

variable {s : State} {idx : BitVec 8} {i : Fin 8} {d : Desc} {off : Word} {data : List Byte}

/-- SEQ's first `k` accesses in a BUF_WR. -/
def byteWrites (i : Fin 8) (off : Word) (data : List Byte) (k : Nat) : List Access :=
  (List.range k).map fun j => .memWr i (off.toNat + j) (data.getD j 0)

/-- The first `k` bytes are in the buffer of channel `i`, one access each, and nothing else has changed. -/
def Stored (s : State) (i : Fin 8) (d : Desc) (off : Word) (data : List Byte) (k : Nat) (t : State) : Prop :=
  ∃ m, Follows s (s.attach i { d with buf := m }) t ∧ Memory.Patched d.buf m off.toNat data k ∧
    t.seqLog = s.seqLog ++ byteWrites i off data k

/-- SEQ stands before the next byte of BUF_WR. -/
def Storing (s : State) (i : Fin 8) (d : Desc) (off : Word) (data : List Byte) (r : SeqRun) (t : State) : Prop :=
  ∃ k, r.step = .W k ∧ k < data.length ∧ Stored s i d off data k t

theorem stored_zero (hd : s.desc i = some d) (hwf : Memory.wf d.buf = true) : Stored s i d off data 0 s := by
  refine ⟨d.buf, ?_, Memory.patched_zero hwf _ _, (List.append_nil _).symm⟩
  rw [attach_self hd]
  exact .refl s

theorem Storing.moved {r : SeqRun} {t u : State} (h : Storing s i d off data r t) (hm : Moved t u) :
    Storing s i d off data r u := by
  obtain ⟨k, hl, hk, m, hf, hp, hlog⟩ := h
  exact ⟨k, hl, hk, m, hf.moved hm, hp, hm.between.seqLog.trans hlog⟩

/-- One byte more. -/
theorem Stored.succ {k : Nat} {t : State} (hr : off.toNat + k < d.size.toNat) (h : Stored s i d off data k t) :
    ∃ u, memWrite i (off.toNat + k) (data.getD k 0) t = .ok u ∧ Stored s i d off data (k + 1) u ∧
      u.plan = t.plan := by
  obtain ⟨m, hf, hp, hlog⟩ := h
  refine ⟨_, memWrite_ok ((hf.desc i).trans (attach_desc s i _)) hr, ⟨m.write (off.toNat + k) (data.getD k 0), ?_,
    hp.succ, ?_⟩, rfl⟩
  · have := (hf.attach i { d with buf := m.write (off.toNat + k) (data.getD k 0) }).log 0
      (.memWr i (off.toNat + k) (data.getD k 0))
    rwa [attach_attach] at this
  · rw [seqLog_log rfl, byteWrites, List.range_succ, List.map_append, ← List.append_assoc]
    exact congrArg (· ++ _) hlog

theorem bufWrMicro_stores (hr : off.toNat + data.length ≤ d.size.toNat) {r : SeqRun} {t : State}
    (h : Storing s i d off data r t) :
    (bufWrMicro i off data r t).Advances (Storing s i d off data)
      (fun q t => q = .ok [] ∧ Stored s i d off data data.length t) (SeqRun.bytesLeft data.length)
      (r.bytesLeft data.length) t.plan := by
  obtain ⟨k, hl, hk, hstored⟩ := h
  obtain ⟨u, hw, hu, hplan⟩ := hstored.succ (by omega)
  simp only [bufWrMicro, hl, hw]
  by_cases hnext : k + 1 < data.length
  · rw [if_pos hnext]
    refine ⟨⟨k + 1, rfl, hnext, hu⟩, ?_, hplan⟩
    simp only [SeqRun.bytesLeft, hl]
    omega
  · rw [if_neg hnext]
    have hlast : data.length = k + 1 := by omega
    exact ⟨rfl, hlast ▸ hu⟩

theorem exec_bufWr_stores (hn : s.NoRest) (hi : idx.toNat = i.val) (hd : s.desc i = some d)
    (hwf : Memory.wf d.buf = true) (hr : off.toNat + data.length ≤ d.size.toNat) :
    ∃ t, exec (.bufWr idx off data) s = .next (t.respond (.ok [])) ∧ Stored s i d off data data.length t := by
  have h0 : Stored s i d off data 0 s := stored_zero hd hwf
  have hrange : bufInRange off data.length d = true := decide_eq_true hr
  simp only [exec, execBufWr]
  rw [withHandle_of_desc hi hd, if_pos hrange]
  by_cases hlen : data.length = 0
  · rw [if_pos hlen]
    exact ⟨s, rfl, hlen ▸ h0⟩
  · rw [if_neg hlen]
    obtain ⟨q, t, he, rfl, hs⟩ := start_total_moved (I := Storing s i d off data)
      (cmd := .bufWr idx off data) (lbl := .W 0) (cb := chanBase i) (SeqRun.bytesLeft data.length)
      (fun _ _ _ h hm => h.moved hm) (fun _ _ => bufWrMicro_stores hr) hn
      ⟨0, rfl, Nat.pos_of_ne_zero hlen, h0⟩ (Nat.le_refl _)
    exact ⟨t, he, hs⟩

end

/-- Settles O55. -/
theorem bufferWriteStoresBytes : Obligations.BufferWriteStoresBytes := by
  intro s idx off data i d hn hi hd hwf hr
  obtain ⟨t, he, m, hf, ⟨hm, hread⟩, hlog⟩ := exec_bufWr_stores hn hi hd hwf hr
  have hresp := hf.respond (.ok [])
  exact ⟨_, m, he, hresp.still, fun hq => (hresp.quiet hq).2, hread, hm, hlog⟩

/-! ## BUF_RD (R167) -/

section

variable {s : State} {idx : BitVec 8} {i : Fin 8} {d : Desc} {off : Word} {n : BitVec 16}

/-- A byte is free in a device-to-memory buffer that has been activated (R86, R236). -/
theorem byteAt_eq (d : Desc) (o : Nat) (fv : Word) :
    d.byteAt o fv = if d.dir = true ∧ d.streamed = true then fv.setWidth 8 else Memory.read d.buf o := by
  simp [Desc.byteAt, Desc.free]

/-- The first `k` bytes that a BUF_RD begun in `s` reads: each takes one free value. -/
def bytesRead (s : State) (d : Desc) (off : Word) (k : Nat) : List Byte :=
  (List.range k).map fun j => d.byteAt (off.toNat + j) (draw (s.draws + j))

/-- SEQ's first `k` accesses in it. -/
def byteReads (s : State) (i : Fin 8) (d : Desc) (off : Word) (k : Nat) : List Access :=
  (List.range k).map fun j => .memRd i (off.toNat + j) (d.byteAt (off.toNat + j) (draw (s.draws + j)))

/-- `k` bytes have been read, and nothing has changed. -/
def Fetched (s : State) (i : Fin 8) (d : Desc) (off : Word) (k : Nat) (t : State) : Prop :=
  Follows s s t ∧ t.draws = s.draws + k ∧ t.seqLog = s.seqLog ++ byteReads s i d off k

/-- SEQ stands before the next byte of BUF_RD, with the bytes before it in its local `r`. -/
def Fetching (s : State) (i : Fin 8) (d : Desc) (off : Word) (n : Nat) (r : SeqRun) (t : State) : Prop :=
  ∃ k, r.step = .V k ∧ k < n ∧ r.r = bytesRead s d off k ∧ Fetched s i d off k t

theorem Fetching.moved {m : Nat} {r : SeqRun} {t u : State} (h : Fetching s i d off m r t) (hm : Moved t u) :
    Fetching s i d off m r u := by
  obtain ⟨k, hl, hk, hbytes, hf, hdraws, hlog⟩ := h
  exact ⟨k, hl, hk, hbytes, hf.moved hm, hm.between.draws.trans hdraws, hm.between.seqLog.trans hlog⟩

/-- One byte more. -/
theorem Fetched.succ {k : Nat} {t : State} (hd : s.desc i = some d) (hr : off.toNat + k < d.size.toNat)
    (h : Fetched s i d off k t) :
    ∃ u, memRead i (off.toNat + k) t = .ok (d.byteAt (off.toNat + k) (draw (s.draws + k)), u) ∧
      Fetched s i d off (k + 1) u ∧ u.plan = t.plan := by
  obtain ⟨hf, hdraws, hlog⟩ := h
  refine ⟨_, by rw [memRead_ok ((hf.desc i).trans hd) hr, hdraws], ⟨hf.log 1 _, ?_, ?_⟩, rfl⟩
  · rw [State.log_draws, State.tick_draws, hdraws, Nat.add_assoc]
  · rw [seqLog_log rfl, byteReads, List.range_succ, List.map_append, ← List.append_assoc]
    exact congrArg (· ++ _) hlog

theorem bytesRead_succ (s : State) (d : Desc) (off : Word) (k : Nat) :
    bytesRead s d off (k + 1) = bytesRead s d off k ++ [d.byteAt (off.toNat + k) (draw (s.draws + k))] := by
  rw [bytesRead, List.range_succ, List.map_append]
  rfl

theorem bufRdMicro_fetches (hd : s.desc i = some d) (hr : off.toNat + n.toNat ≤ d.size.toNat) {r : SeqRun} {t : State}
    (h : Fetching s i d off n.toNat r t) :
    (bufRdMicro i off n r t).Advances (Fetching s i d off n.toNat)
      (fun q t => q = .ok (packBytes (bytesRead s d off n.toNat)) ∧ Fetched s i d off n.toNat t)
      (SeqRun.bytesLeft n.toNat) (r.bytesLeft n.toNat) t.plan := by
  obtain ⟨k, hl, hk, hbytes, hfetched⟩ := h
  obtain ⟨u, hm, hu, hplan⟩ := hfetched.succ hd (by omega)
  simp only [bufRdMicro, hl, hm, hbytes, ← bytesRead_succ]
  by_cases hnext : k + 1 < n.toNat
  · rw [if_pos hnext]
    refine ⟨⟨k + 1, rfl, hnext, rfl, hu⟩, ?_, hplan⟩
    simp only [SeqRun.bytesLeft, hl]
    omega
  · rw [if_neg hnext]
    have hlast : n.toNat = k + 1 := by omega
    exact ⟨by rw [hlast], hlast ▸ hu⟩

theorem exec_bufRd_fetches (hn : s.NoRest) (hi : idx.toNat = i.val) (hd : s.desc i = some d)
    (hr : off.toNat + n.toNat ≤ d.size.toNat) :
    ∃ t : State, exec (.bufRd idx off n) s = .next (t.respond (.ok (packBytes (bytesRead s d off n.toNat)))) ∧
      Fetched s i d off n.toNat t := by
  have h0 : Fetched s i d off 0 s := ⟨.refl s, rfl, (List.append_nil _).symm⟩
  have hrange : bufInRange off n.toNat d = true := decide_eq_true hr
  simp only [exec, execBufRd]
  rw [withHandle_of_desc hi hd, if_pos hrange]
  by_cases hlen : n.toNat = 0
  · rw [if_pos hlen, hlen]
    exact ⟨s, rfl, h0⟩
  · rw [if_neg hlen]
    obtain ⟨q, t, he, rfl, hf⟩ := start_total_moved (I := Fetching s i d off n.toNat)
      (cmd := .bufRd idx off n) (lbl := .V 0) (cb := chanBase i) (SeqRun.bytesLeft n.toNat)
      (fun _ _ _ h hm => h.moved hm) (fun _ _ => bufRdMicro_fetches hd hr) hn
      ⟨0, rfl, Nat.pos_of_ne_zero hlen, rfl, h0⟩ (Nat.le_refl _)
    exact ⟨t, he, hf⟩

/-- The log records the bytes that are answered. -/
theorem byteReads_eq (s : State) (i : Fin 8) (d : Desc) (off : Word) (n : Nat) :
    byteReads s i d off n =
      (List.range n).map fun k => .memRd i (off.toNat + k) ((bytesRead s d off n).getD k 0) := by
  refine List.map_congr_left fun k hk => ?_
  rw [bytesRead, List.getD_eq_getElem _ _ (by simpa using hk), List.getElem_map, List.getElem_range]

end

/-- Settles O56. -/
theorem bufferReadReturnsBytes : Obligations.BufferReadReturnsBytes := by
  intro s idx off n i d hn hi hd hr bytes
  have hbytes : bytes = bytesRead s d off n.toNat := by simp only [bytes, bytesRead, byteAt_eq]
  obtain ⟨t, he, hf, -, hlog⟩ := exec_bufRd_fetches hn hi hd hr
  rw [byteReads_eq] at hlog
  rw [hbytes]
  have hresp := hf.respond (.ok (packBytes (bytesRead s d off n.toNat)))
  exact ⟨_, he, hresp.still, fun hq => (hresp.quiet hq).2, hlog⟩

end Sys2Proof.Machine
end

section
/-! SUPPORT. NEW_CHANNEL on a stale channel (41_channel.md R161, R162; 42_controller.md R193): turn by turn of SEQ up to
the spin of K3, what ENG's acknowledge does there, and from there to the response. -/

namespace Sys2Proof.Machine

open Sys2Proof.Config

/-! ## Turns of SEQ that come at once -/

/-- `k` accesses of SEQ take a command from `r`, `s` to `r'`, `s'` without a response. -/
structure Reaches (f : SeqRun → State → Micro) (k : Nat) (r : SeqRun) (s : State) (r' : SeqRun) (s' : State) :
    Prop where
  drive : ∀ n, drive f (n + k) r s = drive f n r' s'
  bus : s'.bus.length = s.bus.length + k
  cmdOut : s'.cmdOut = s.cmdOut
  cmd : r'.cmd = r.cmd

/-- Where nobody else moves before them, SEQ's next `k` turns lead to `P`, and they alone are gone from the schedule. -/
def Leads (f : SeqRun → State → Micro) (k : Nat) (r : SeqRun) (s : State) (P : SeqRun → State → Prop) : Prop :=
  (∀ x ∈ s.plan.take k, x = Turn.seq) → ∃ r' s', Reaches f k r s r' s' ∧ s'.plan = s.plan.drop k ∧ P r' s'

section

variable {f : SeqRun → State → Micro} {r r' r'' : SeqRun} {s s' s'' : State} {P Q : SeqRun → State → Prop}

theorem Reaches.trans {j k : Nat} (h : Reaches f j r s r' s') (h' : Reaches f k r' s' r'' s'') :
    Reaches f (j + k) r s r'' s'' where
  drive n := by
    rw [show n + (j + k) = n + k + j by omega, h.drive, h'.drive]
  bus := by rw [h'.bus, h.bus, Nat.add_assoc]
  cmdOut := h'.cmdOut.trans h.cmdOut
  cmd := h'.cmd.trans h.cmd

theorem Leads.bind {j k n : Nat} (h : Leads f j r s P) (h' : ∀ r' s', P r' s' → Leads f k r' s' Q)
    (hn : j + k = n := by rfl) : Leads f n r s Q := by
  subst hn
  intro hplan
  rw [List.take_add] at hplan
  obtain ⟨r₁, s₁, h₁, hp₁, hP⟩ := h fun x hx => hplan x (List.mem_append_left _ hx)
  obtain ⟨r₂, s₂, h₂, hp₂, hQ⟩ := h' r₁ s₁ hP fun x hx => hplan x (List.mem_append_right _ (hp₁ ▸ hx))
  exact ⟨r₂, s₂, h₁.trans h₂, by rw [hp₂, hp₁, List.drop_drop], hQ⟩

theorem Leads.mono {k : Nat} (h : Leads f k r s P) (h' : ∀ r' s', P r' s' → Q r' s') : Leads f k r s Q := by
  intro hplan
  obtain ⟨r₁, s₁, h₁, hp₁, hP⟩ := h hplan
  exact ⟨r₁, s₁, h₁, hp₁, h' r₁ s₁ hP⟩

theorem leads_zero (h : P r s) : Leads f 0 r s P :=
  fun _ => ⟨r, s, ⟨fun _ => rfl, rfl, rfl, rfl⟩, rfl, h⟩

/-- The schedule gives SEQ its turn at once. -/
theorem seqAfter_nil (h : ∀ x ∈ s.plan.take 1, x = Turn.seq) : s.seqAfter [] (s.plan.drop 1) := by
  refine ⟨by simp, ?_⟩
  cases hp : s.plan with
  | nil => exact .inr ⟨rfl, rfl⟩
  | cons x p =>
    rw [h x (by simp [hp])]
    exact .inl rfl

theorem leads_goto (hf : f r { s with plan := s.plan.drop 1 } = .goto r' s') (hplan : s'.plan = s.plan.drop 1)
    (hbus : s'.bus.length = s.bus.length + 1) (hout : s'.cmdOut = s.cmdOut) (hcmd : r'.cmd = r.cmd) (h : P r' s') :
    Leads f 1 r s P :=
  fun hseq => ⟨r', s', ⟨fun _ => drive_seqTurn_goto (seqAfter_nil hseq) hf, hbus, hout, hcmd⟩, hplan, h⟩

/-- A turn of the spin while the schedule holds more (R162). -/
theorem leads_spin (hf : f r { s with plan := s.plan.drop 1 } = .spin r' s') (hplan : s'.plan = s.plan.drop 1)
    (hmore : 1 < s.plan.length) (hbus : s'.bus.length = s.bus.length + 1) (hout : s'.cmdOut = s.cmdOut)
    (hcmd : r'.cmd = r.cmd) (h : P r' s') : Leads f 1 r s P := by
  refine fun hseq => ⟨r', s', ⟨fun n => ?_, hbus, hout, hcmd⟩, hplan, h⟩
  have hne : s'.plan ≠ [] := by
    rw [hplan, ne_eq, List.drop_eq_nil_iff]
    omega
  rw [drive, runTurns_seqTurn (seqAfter_nil hseq), others_nil]
  simp only [hf, if_neg hne]

end

/-! ## Where NEW_CHANNEL stands -/

/-- What NEW_CHANNEL works on: the address it was given, the answers that wait, its channel and the global registers. -/
structure View where
  ba : BusAddr
  allocs : List (Option BusAddr)
  chan : Chan
  glb : Globals

/-- SEQ stands at label `l` of a NEW_CHANNEL on channel `i` with `v` before it, and the other channels are as in
`s₀`. -/
structure At (s₀ : State) (i : Fin 8) (l : Label) (v : View) (r : SeqRun) (s : State) : Prop where
  step : r.step = l
  cb : r.cb.toNat = chanBase i
  ba : r.ba = v.ba
  allocs : s.allocs = v.allocs
  chan : s.chan i = v.chan
  rest : ∀ j, j ≠ i → s.chan j = s₀.chan j
  glb : s.glb = v.glb

section

variable {f : SeqRun → State → Micro} {s₀ s t : State} {i : Fin 8} {l l₁ l' : Label} {v : View} {r r' : SeqRun}
  {off : Nat} {g : Reg} {w : Word}

/-- A read and what SEQ goes on with. -/
theorem leads_read (h : At s₀ i l v r s) (hg : regAt off = some g) {k : Word → State → Micro}
    (hf : ∀ t, f r t = rdThen off t k) (hk : ∀ t, k (s.readVal g) t = .goto r' t) (hcmd : r'.cmd = r.cmd)
    (hstep : r'.step = l') (hcb : r'.cb = r.cb) (hba : r'.ba = r.ba) :
    Leads f 1 r s fun r₁ s₁ => r₁ = r' ∧ At s₀ i l' v r₁ s₁ := by
  refine leads_goto (r' := r')
    (s' := ({ s with plan := s.plan.drop 1 }.tick g.readDraws).log (.rd .seq off (s.readVal g)))
    ?_ rfl List.length_append rfl hcmd
    ⟨rfl, hstep, hcb ▸ h.cb, hba.trans h.ba, h.allocs, h.chan, h.rest, h.glb⟩
  rw [hf, rdThen_of_regAt hg, readVal_withPlan]
  exact hk _

/-- Step M1 of `MOD`. -/
theorem leads_modRead (h : At s₀ i l v r s) (hg : regAt off = some g) (hf : ∀ t, f r t = modRead off r l' t) :
    Leads f 1 r s fun r₁ s₁ => r₁.t = s.readVal g ∧ At s₀ i l' v r₁ s₁ :=
  (leads_read h hg hf (r' := { r with t := s.readVal g, step := l' }) (fun _ => rfl) rfl rfl rfl rfl).mono
    fun _ _ ⟨heq, hat⟩ => ⟨heq ▸ rfl, hat⟩

/-- A write that leaves the other channels alone. -/
theorem leads_write (h : At s₀ i l v r s) (hg : regAt off = some g) (hf : ∀ t, f r t = wrGoto off w r l' t)
    (hw : s.writeReg w g = .ok t) (hrest : ∀ j, j ≠ i → t.chan j = s.chan j) :
    Leads f 1 r s (At s₀ i l' { v with chan := t.chan i, glb := t.glb }) := by
  have hframe := writeReg_frame hw
  refine leads_goto (r' := { r with step := l' }) (s' := State.log { t with plan := s.plan.drop 1 } (.wr .seq off w))
    ?_ rfl ?_ ?_ rfl ⟨rfl, h.cb, h.ba, ?_, rfl, fun j hj => (hrest j hj).trans (h.rest j hj), rfl⟩
  · rw [hf, wrGoto, wrThen_of_ok hg (t := { t with plan := s.plan.drop 1 })]
    rw [writeReg_withPlan, hw]
    rfl
  · rw [State.log_bus, hframe, List.length_append]
    rfl
  · rw [State.log_cmdOut, hframe]
  · rw [State.log_allocs, hframe]
    exact h.allocs

theorem leads_write_ctl (h : At s₀ i l v r s) (hf : ∀ t, f r t = wrGoto (r.cb.toNat + choCtl) w r l' t)
    (hdef : v.chan.ctlUnspecified w = false) :
    Leads f 1 r s fun r₁ s₁ => ∃ n, At s₀ i l' { v with chan := v.chan.ctlAfter w n } r₁ s₁ := by
  have hw := writeChReg_ctl_ok (s := s) (i := i) (v := w) (by rw [h.chan]; exact hdef)
  refine (leads_write h (g := .chan i .ctl) (h.cb ▸ regAt_ctl i) hf hw fun j hj => ?_).mono
    fun r₁ s₁ hat => ⟨s.draws, ?_⟩
  · exact s.setChan_chan_ne (Ne.symm hj) _
  · rwa [State.tick_chan, State.setChan_chan_self, State.tick_glb, State.setChan_glb, h.chan, h.glb] at hat

theorem leads_write_store {x : ChReg} (h : At s₀ i l v r s) (hf : ∀ t, f r t = wrGoto (r.cb.toNat + x.off) w r l' t)
    (hx : x ≠ .ctl) : Leads f 1 r s (At s₀ i l' { v with chan := v.chan.store w x }) := by
  have hw := writeChReg_eq_store hx s i w
  refine (leads_write h (g := .chan i x) (h.cb ▸ regAt_chOff i x) hf hw fun j hj => ?_).mono fun r₁ s₁ hat => ?_
  · exact s.setChan_chan_ne (Ne.symm hj) _
  · rwa [State.setChan_chan_self, State.setChan_glb, h.chan, h.glb] at hat

theorem leads_write_glb {gl : Globals} (h : At s₀ i l v r s) (hg : regAt off = some g)
    (hf : ∀ t, f r t = wrGoto off w r l' t) (hw : s.writeReg w g = .ok { s with glb := gl }) :
    Leads f 1 r s (At s₀ i l' { v with glb := gl }) :=
  (leads_write h hg hf hw fun _ _ => rfl).mono fun r₁ s₁ hat => by
    have hchan : State.chan { s with glb := gl } i = v.chan := h.chan
    rwa [hchan] at hat

/-- Step M2 of `MOD` is a plain write of the word held with its field replaced. -/
theorem modGoto_eq_wrGoto (off hi lo : Nat) (x : Word) (r : SeqRun) (next : Label) (s : State) :
    modGoto off hi lo x r next s = wrGoto off (ins r.t hi lo x) r next s := rfl

/-- `MOD` of a field of CH_CTL (R141, R79). -/
theorem leads_mod_ctl {hi lo : Nat} {x : Word} (h : At s₀ i l v r s)
    (hf : ∀ t, f r t = modRead (r.cb.toNat + choCtl) r l₁ t)
    (hf₁ : ∀ r t, r.step = l₁ → f r t = modGoto (r.cb.toNat + choCtl) hi lo x r l' t)
    (hw : ins (encChctl v.chan.en v.chan.srst v.chan.dir) hi lo x = w) (hdef : v.chan.ctlUnspecified w = false) :
    Leads f 2 r s fun r₁ s₁ => ∃ n, At s₀ i l' { v with chan := v.chan.ctlAfter w n } r₁ s₁ := by
  have hread : s.readVal (.chan i .ctl) = encChctl v.chan.en v.chan.srst v.chan.dir := by rw [readVal_ctl, h.chan]
  refine (leads_modRead h (g := .chan i .ctl) (h.cb ▸ regAt_ctl i) hf).bind (k := 1) fun r₁ s₁ ⟨ht, hat⟩ => ?_
  refine leads_write_ctl hat (fun t => ?_) hdef
  rw [hf₁ r₁ t hat.step, modGoto_eq_wrGoto, ht, hread, hw]

/-- `MOD` of a field of a global register. -/
theorem leads_mod_glb {hi lo : Nat} {x : Word} {gl : Globals} (h : At s₀ i l v r s) (hg : regAt off = some g)
    (hf : ∀ t, f r t = modRead off r l₁ t) (hf₁ : ∀ r t, r.step = l₁ → f r t = modGoto off hi lo x r l' t)
    (hw : ∀ t : State, t.glb = v.glb → t.writeReg (ins (s.readVal g) hi lo x) g = .ok { t with glb := gl }) :
    Leads f 2 r s (At s₀ i l' { v with glb := gl }) := by
  refine (leads_modRead h hg hf).bind (k := 1) fun r₁ s₁ ⟨ht, hat⟩ => ?_
  refine leads_write_glb hat hg (fun t => ?_) (hw s₁ hat.glb)
  rw [hf₁ r₁ t hat.step, modGoto_eq_wrGoto, ht]

end

/-! ## Opening (R193, R161) -/

/-- Step M2 on DMA_CTL.EN with 0: no soft-reset event, for the bit goes back as it was read (R78). -/
theorem writeReg_dmaCtl_disable (s : State) :
    s.writeReg (ins (encCtl s.glb.en s.glb.srst) ctlEnBit ctlEnBit 0) .dmaCtl =
      .ok { s with glb := { s.glb with en := false } } := by
  have hword : ins (encCtl s.glb.en s.glb.srst) ctlEnBit ctlEnBit 0 = encCtl false s.glb.srst :=
    ins_encCtl_en s.glb.en s.glb.srst false
  rw [hword, writeReg_dmaCtl_ok (.inl ?_), encCtl_getLsbD_zero, encCtl_getLsbD_one]
  rw [Bool.eq_false_iff, ne_eq, ctlEvent_iff, encCtl_getLsbD_one]
  simp

section

variable {s₀ s : State} {i : Fin 8} {v : View} {r : SeqRun} (slave : BitVec 8) (dir irq : Bool) (size dev : Word)

/-- N1 on an unbound index. -/
theorem newChannel_N1 (h : At s₀ i .N1 v r s) (hbound : v.glb.bound.getLsbD i = false) :
    Leads (newChannelMicro slave dir irq size dev i) 1 r s (At s₀ i .N2 v) := by
  have hbit : (s.readVal .dmaBind).getLsbD i = false := by
    rw [State.readVal, h.glb, bindWord_bound]
    exact hbound
  refine (leads_read h regAt_offBind (fun t => by simp only [newChannelMicro, h.step]; rfl)
    (r' := { r with t := s.readVal .dmaBind, b := s.readVal .dmaBind, step := .N2 }) (fun t => ?_) rfl rfl rfl
    rfl).mono fun _ _ hat => hat.2
  simp only [hbit, Bool.false_eq_true, if_false]

/-- N2 and N3: the controller is disabled. -/
theorem newChannel_N2 (h : At s₀ i .N2 v r s) :
    Leads (newChannelMicro slave dir irq size dev i) 2 r s (At s₀ i .C1 { v with glb := { v.glb with en := false } }) :=
  leads_mod_glb (l₁ := .N3) h regAt_offCtl (fun t => by simp only [newChannelMicro, h.step])
    (fun r t hl => by simp only [newChannelMicro, hl]; rfl) fun t ht => by
      rw [State.readVal, h.glb, ← ht]
      exact writeReg_dmaCtl_disable t

/-- C1: the allocator's answer passes the validator. -/
theorem newChannel_C1 {ba : BusAddr} {answers : List (Option BusAddr)} (h : At s₀ i .C1 v r s)
    (hallocs : v.allocs = some ba :: answers) (hvalid : valid ba size = true) :
    Leads (newChannelMicro slave dir irq size dev i) 1 r s (At s₀ i .C2 { v with ba := ba, allocs := answers }) := by
  have hready : ({ s with plan := s.plan.drop 1 } : State).allocs = some ba :: answers := h.allocs.trans hallocs
  refine leads_goto (r' := { r with ba := ba, step := .C2 })
    (s' := State.log { s with plan := s.plan.drop 1, allocs := answers, draws := s.draws + 1 }
      (.alloc size bufAlign dir (some ba)))
    ?_ rfl List.length_append rfl rfl ⟨rfl, h.cb, rfl, rfl, h.chan, h.rest, h.glb⟩
  simp only [newChannelMicro, constructMicro, h.step, constructAlloc, allocReq_ready hready, hvalid, if_true]

/-- C2 on a stale channel. -/
theorem newChannel_C2_stale (h : At s₀ i .C2 v r s) (hen : v.chan.en = true) :
    Leads (newChannelMicro slave dir irq size dev i) 1 r s (At s₀ i .K1 v) := by
  have hbit : (s.readVal (.chan i .ctl)).getLsbD chEnBit = true := by
    rw [readVal_ctl, encChctl_getLsbD_zero, h.chan, hen]
  refine (leads_read h (g := .chan i .ctl) (h.cb ▸ regAt_ctl i)
    (fun t => by simp only [newChannelMicro, constructMicro, h.step]; rfl)
    (r' := { r with t := s.readVal (.chan i .ctl), step := .K1 }) (fun t => ?_) rfl rfl rfl rfl).mono
    fun _ _ hat => hat.2
  simp only [hbit, if_true]

/-- K1 and K2: the disable is requested. -/
theorem newChannel_K1 (h : At s₀ i .K1 v r s) (hen : v.chan.en = true) :
    Leads (newChannelMicro slave dir irq size dev i) 2 r s
      (At s₀ i .K3 { v with chan := { v.chan with disPending := true } }) := by
  have hdef : v.chan.ctlUnspecified (encChctl false v.chan.srst v.chan.dir) = false := ctlUnspecified_of_en _ _
  refine (leads_mod_ctl (l₁ := .K2) (l' := .K3) h (fun t => by simp only [newChannelMicro, constructMicro, h.step])
    (fun r t hl => by simp only [newChannelMicro, constructMicro, hl]; rfl)
    (ins_encChctl_en _ _ _ false) hdef).mono fun r₁ s₁ ⟨n, hat⟩ => ?_
  rwa [ctlAfter_of_deactivate, if_pos hen] at hat

/-- Up to the spin on a stale channel: seven accesses. -/
theorem newChannel_to_spin {ba : BusAddr} {answers : List (Option BusAddr)} (h : At s₀ i .N1 v r s)
    (hbound : v.glb.bound.getLsbD i = false) (hen : v.chan.en = true) (hallocs : v.allocs = some ba :: answers)
    (hvalid : valid ba size = true) :
    Leads (newChannelMicro slave dir irq size dev i) 7 r s
      (At s₀ i .K3 { ba := ba, allocs := answers, chan := { v.chan with disPending := true },
                     glb := { v.glb with en := false } }) :=
  (newChannel_N1 slave dir irq size dev h hbound).bind fun _ _ h =>
  (newChannel_N2 slave dir irq size dev h).bind fun _ _ h =>
  (newChannel_C1 slave dir irq size dev h hallocs hvalid).bind fun _ _ h =>
  (newChannel_C2_stale slave dir irq size dev h hen).bind fun _ _ h =>
  newChannel_K1 slave dir irq size dev h hen

/-! ## The spin (R162) -/

/-- A read of K3 that finds the enable bit set. -/
theorem newChannelMicro_spins (hl : r.step = .K3) (hcb : r.cb.toNat = chanBase i) (hen : (s.chan i).en = true) :
    newChannelMicro slave dir irq size dev i r s =
      .spin { r with t := encChctl true (s.chan i).srst (s.chan i).dir }
        (s.log (.rd .seq (0x58 + 0x40 * i.val) (encChctl true (s.chan i).srst (s.chan i).dir))) := by
  have hread : s.readVal (.chan i .ctl) = encChctl true (s.chan i).srst (s.chan i).dir := by rw [readVal_ctl, hen]
  simp only [newChannelMicro, constructMicro, hl]
  rw [hcb, rdThen_of_regAt (regAt_ctl i), hread, encChctl_getLsbD_zero, if_pos rfl, ctlOff_eq]
  rfl

/-- Reads of the spin change nothing, while the schedule holds more. -/
theorem newChannel_spins (hen : v.chan.en = true) : ∀ (k : Nat) (r : SeqRun) (s : State), At s₀ i .K3 v r s →
    k < s.plan.length → Leads (newChannelMicro slave dir irq size dev i) k r s (At s₀ i .K3 v)
  | 0, _, _, h, _ => leads_zero h
  | k + 1, r, s, h, hk => by
    have hen' : (State.chan { s with plan := s.plan.drop 1 } i).en = true := (congrArg Chan.en h.chan).trans hen
    refine (leads_spin (P := fun r' s' => At s₀ i .K3 v r' s' ∧ s'.plan = s.plan.drop 1)
      (newChannelMicro_spins slave dir irq size dev h.step h.cb hen') rfl (by omega) List.length_append rfl rfl
      ⟨⟨h.step, h.cb, h.ba, h.allocs, h.chan, h.rest, h.glb⟩, rfl⟩).bind (fun r' s' ⟨h', hp⟩ =>
        newChannel_spins hen k r' s' h' ?_) (Nat.add_comm 1 k)
    rw [hp, List.length_drop]
    omega

/-- A channel after ENG has acknowledged its disable (R231). -/
def Chan.acked (c : Chan) : Chan := { c with en := false, disPending := false, armed := false }

/-- The acknowledge ends the spin: the next read finds the enable bit clear. -/
theorem newChannel_acked (h : At s₀ i .K3 v r s) (hpending : v.chan.disPending = true)
    (hplan : s.plan = [.eng (.ackDisable i)]) :
    ∃ r' s', Reaches (newChannelMicro slave dir irq size dev i) 1 r s r' s' ∧ s'.plan = [] ∧
      At s₀ i .K4 { v with chan := v.chan.acked } r' s' := by
  have hturn : s.seqAfter [.eng (.ackDisable i)] [] := ⟨by simp [Turn.other], .inr ⟨hplan, rfl⟩⟩
  have hmove : s.others [.eng (.ackDisable i)] = s.engDisable i := by
    have : s.engEnabled (.ackDisable i) = true := (congrArg Chan.disPending h.chan).trans hpending
    rw [others_cons, others_nil, State.otherTurn, State.engMove, if_pos this, State.engEffect]
  have hchan : (s.engDisable i).chan i = v.chan.acked := by
    rw [State.engDisable_chan, if_pos rfl, h.chan]
    rfl
  have hread : (s.engDisable i).readVal (.chan i .ctl) = encChctl false v.chan.srst v.chan.dir := by
    rw [readVal_ctl, hchan]
    rfl
  refine ⟨{ r with t := encChctl false v.chan.srst v.chan.dir, step := .K4 },
    State.log { s.engDisable i with plan := [] }
      (.rd .seq (chanBase i + choCtl) (encChctl false v.chan.srst v.chan.dir)),
    ⟨fun n => drive_seqTurn_goto hturn ?_, List.length_append, rfl, rfl⟩, rfl,
    rfl, h.cb, h.ba, h.allocs, hchan, fun j hj => ?_, h.glb⟩
  · simp only [newChannelMicro, constructMicro, h.step]
    rw [h.cb, rdThen_of_regAt (regAt_ctl i), hmove, readVal_withPlan, hread, encChctl_getLsbD_zero,
      if_neg Bool.false_ne_true]
    rfl
  · exact (s.engDisable_chan i j).trans ((if_neg (Ne.symm hj)).trans (h.rest j hj))

end

/-! ## After the spin: the soft reset (R162, R79) -/

/-- ENG holds nothing of the channel (R59, R55). -/
def Chan.Quiescent (c : Chan) : Prop := c.en = false ∧ c.disPending = false ∧ c.armed = false

theorem acked_quiescent (c : Chan) : c.acked.Quiescent := ⟨rfl, rfl, rfl⟩

/-- On such a channel a CH_CTL write with the enable bit clear has a meaning. -/
theorem ctlUnspecified_of_quiescent {c : Chan} (h : c.Quiescent) (srst dir : Bool) :
    c.ctlUnspecified (encChctl false srst dir) = false := by
  rw [Bool.eq_false_iff, ne_eq, ctlUnspecified_iff, encChctl_getLsbD_zero, h.1]
  simp

/-- It leaves the channel so, whether it is a soft-reset event or not. -/
theorem ctlAfter_quiescent {c : Chan} (h : c.Quiescent) (srst dir : Bool) (n : Nat) :
    (c.ctlAfter (encChctl false srst dir) n).Quiescent ∧ (c.ctlAfter (encChctl false srst dir) n).srst = srst := by
  obtain ⟨hen, hpend, harm⟩ := h
  by_cases hevent : c.ctlEvent (encChctl false srst dir) = true
  · rw [ctlAfter_of_event hevent, ctlStore_eq]
    exact ⟨⟨by simp [Chan.softReset, hen], rfl, rfl⟩, encChctl_getLsbD_one _ _ _⟩
  · rw [ctlAfter_of_not_event hevent, ctlStore_eq, pendingAfter_of_clear (encChctl_getLsbD_zero _ _ _),
      encChctl_getLsbD_zero, encChctl_getLsbD_one, hen, hpend, harm]
    exact ⟨⟨rfl, rfl, rfl⟩, rfl⟩

/-- With both soft-reset bits clear such a write stores its direction and nothing else. -/
theorem ctlAfter_dir {c : Chan} (h : c.Quiescent) (hsrst : c.srst = false) (dir : Bool) (n : Nat) :
    c.ctlAfter (encChctl false false dir) n = { c with dir := dir } := by
  have hevent : c.ctlEvent (encChctl false false dir) ≠ true := by
    rw [ne_eq, chanCtlEvent_iff, encChctl_getLsbD_one]
    simp
  rw [ctlAfter_of_not_event hevent, ctlStore_eq, pendingAfter_of_clear (encChctl_getLsbD_zero _ _ _),
    encChctl_getLsbD_zero, encChctl_getLsbD_one, encChctl_getLsbD_two]
  obtain ⟨addrUp, addrLo, devAddr, xferSize, en, srst, dir', thresh, tmoEn, disPending, armed, desc⟩ := c
  obtain ⟨rfl, rfl, rfl⟩ : en = false ∧ disPending = false ∧ armed = false := h
  obtain rfl : srst = false := hsrst
  rfl

/-- `MOD` of the soft-reset bit of such a channel. -/
theorem leads_mod_srst {f : SeqRun → State → Micro} {s₀ s : State} {i : Fin 8} {l l₁ l' : Label} {v : View} {r : SeqRun}
    {b : Bool} (h : At s₀ i l v r s) (hc : v.chan.Quiescent)
    (hf : ∀ t, f r t = modRead (r.cb.toNat + choCtl) r l₁ t)
    (hf₁ : ∀ r t, r.step = l₁ → f r t = modGoto (r.cb.toNat + choCtl) chSrstBit chSrstBit (bitW b) r l' t) :
    Leads f 2 r s fun r' s' => ∃ c : Chan, c.Quiescent ∧ c.srst = b ∧ At s₀ i l' { v with chan := c } r' s' := by
  have hword : ins (encChctl v.chan.en v.chan.srst v.chan.dir) chSrstBit chSrstBit (bitW b) =
      encChctl false b v.chan.dir := by
    rw [hc.1]
    exact ins_encChctl_srst _ _ _ b
  refine (leads_mod_ctl h hf hf₁ hword (ctlUnspecified_of_quiescent hc b _)).mono fun r₁ s₁ ⟨n, hat⟩ => ?_
  obtain ⟨hq, hsrst⟩ := ctlAfter_quiescent hc b v.chan.dir n
  exact ⟨_, hq, hsrst, hat⟩

/-! ## Construction and binding (R161, R193) -/

/-- The registers ChConstruct stores from C3 on (R161). -/
def Chan.configured (c : Chan) (ba : BusAddr) (size dev : Word) (dir : Bool) : Chan :=
  { c with addrLo := addrLoOf ba, addrUp := addrUpOf ba, devAddr := dev, xferSize := size, dir := dir }

/-- What NEW_CHANNEL leaves of a reset channel: everything is given but CH_TMO (R168). -/
theorem configured_of_quiescent {c : Chan} (h : c.Quiescent) (hsrst : c.srst = false) (ba : BusAddr) (size dev : Word)
    (dir : Bool) (d : Option Desc) :
    { c.configured ba size dev dir with desc := d } =
      { addrUp := addrUpOf ba, addrLo := addrLoOf ba, devAddr := dev, xferSize := size, en := false, srst := false,
        dir := dir, thresh := c.thresh, tmoEn := c.tmoEn, disPending := false, armed := false, desc := d } := by
  obtain ⟨hen, hpend, harm⟩ := h
  simp only [Chan.configured, hen, hpend, harm, hsrst]

/-- The channel-selection register of channel `i` rewritten by `w` (R123). -/
def Globals.withSel (g : Globals) (i : Nat) (w : Word → Word) : Globals :=
  { g with chselL := if i < 4 then w g.chselL else g.chselL, chselH := if i < 4 then g.chselH else w g.chselH }

section

variable {s₀ s : State} {i : Fin 8} {v : View} {r : SeqRun} (slave : BitVec 8) (dir irq : Bool) (size dev : Word)

/-- K4 to K7: the soft-reset bit set and cleared. -/
theorem newChannel_K4 (h : At s₀ i .K4 v r s) (hc : v.chan.Quiescent) :
    Leads (newChannelMicro slave dir irq size dev i) 4 r s fun r' s' =>
      ∃ c : Chan, c.Quiescent ∧ c.srst = false ∧ At s₀ i .C3 { v with chan := c } r' s' :=
  (leads_mod_srst (b := true) (l₁ := .K5) (l' := .K6) h hc
    (fun t => by simp only [newChannelMicro, constructMicro, h.step])
    (fun r t hl => by simp only [newChannelMicro, constructMicro, hl]; rfl)).bind fun _ _ ⟨c, hq, _, h⟩ =>
  leads_mod_srst (v := { v with chan := c }) (b := false) (l₁ := .K7) (l' := .C3) h hq
    (fun t => by simp only [newChannelMicro, constructMicro, h.step])
    (fun r t hl => by simp only [newChannelMicro, constructMicro, hl]; rfl)

/-- C3 to C6: the four plain registers. -/
theorem newChannel_C3 (h : At s₀ i .C3 v r s) :
    Leads (newChannelMicro slave dir irq size dev i) 4 r s
      (At s₀ i .C7 { v with chan := v.chan.configured v.ba size dev v.chan.dir }) :=
  (leads_write_store (x := .addrLo) (w := addrLoOf v.ba) (l' := .C4) h
    (fun t => by simp only [newChannelMicro, constructMicro, h.step, h.ba]; rfl) (by decide)).bind fun _ _ h =>
  (leads_write_store (x := .addrUp) (w := addrUpOf v.ba) (l' := .C5) h
    (fun t => by simp only [newChannelMicro, constructMicro, h.step, h.ba]; rfl) (by decide)).bind fun _ _ h =>
  (leads_write_store (x := .devAddr) (w := dev) (l' := .C6) h
    (fun t => by simp only [newChannelMicro, constructMicro, h.step]; rfl) (by decide)).bind fun _ _ h =>
  leads_write_store (x := .xferSize) (w := size) (l' := .C7) h
    (fun t => by simp only [newChannelMicro, constructMicro, h.step]; rfl) (by decide)

/-- C7 and C8: the direction. -/
theorem newChannel_C7 (h : At s₀ i .C7 v r s) (hc : v.chan.Quiescent) (hsrst : v.chan.srst = false) :
    Leads (newChannelMicro slave dir irq size dev i) 2 r s
      (At s₀ i .N5 { v with chan := { v.chan with dir := dir } }) :=
  (leads_mod_ctl (l₁ := .C8) (l' := .N5) h (fun t => by simp only [newChannelMicro, constructMicro, h.step])
    (fun r t hl => by simp only [newChannelMicro, constructMicro, hl]; rfl)
    (by rw [hc.1, hsrst]; exact ins_encChctl_dir _ _ _ dir)
    (ctlUnspecified_of_quiescent hc false dir)).mono fun r₁ s₁ ⟨n, hat⟩ => by rwa [ctlAfter_dir hc hsrst] at hat

/-- N5 and N6: the peripheral select. -/
theorem newChannel_N5 (h : At s₀ i .N5 v r s) (hslave : slave.toNat < 32) :
    Leads (newChannelMicro slave dir irq size dev i) 2 r s (At s₀ i .N7 { v with
      glb := v.glb.withSel i fun w =>
        ins w (8 * (i.val % 4) + 7) (8 * (i.val % 4)) (0x80#32 ||| slave.setWidth 32) }) := by
  refine leads_mod_glb (l₁ := .N6) h (regAt_selOff i) (fun t => by simp only [newChannelMicro, h.step])
    (fun r t hl => by simp only [newChannelMicro, hl]; rfl) fun t ht => ?_
  rw [selField_of_slave slave (by omega)]
  by_cases hi : i.val < 4
  · rw [if_pos (by omega), State.readVal, h.glb, writeReg_chselL, ht, Globals.withSel, if_pos hi, if_pos hi]
    rfl
  · rw [if_neg (by omega), State.readVal, h.glb, writeReg_chselH, ht, Globals.withSel, if_neg hi, if_neg hi]
    rfl

/-- N7 and N8: the bound bit, and the descriptor with its zeroed buffer. No other channel loses its descriptor, for
those that have one are bound. -/
theorem newChannel_N7 (h : At s₀ i .N7 v r s)
    (hown : ∀ j, j ≠ i → v.glb.bound.getLsbD j = false → (s₀.chan j).desc = none) :
    Leads (newChannelMicro slave dir irq size dev i) 2 r s (At s₀ i .N9 { v with
      chan := { v.chan with desc := some (Desc.fresh v.ba size dir) }
      glb := { v.glb with bound := withBit v.glb.bound i true } }) := by
  refine (leads_modRead (l' := .N8) h regAt_offBind (fun t => by simp only [newChannelMicro, h.step])).bind (k := 1)
    fun r₁ s₁ ⟨ht, h₁⟩ => ?_
  have hword : ins r₁.t i i 1 = (withBit v.glb.bound i true).setWidth 32 := by
    rw [ht, State.readVal, h.glb]
    exact ins_bound _ _ true
  have hlow : (ins r₁.t i i 1).setWidth 8 = withBit v.glb.bound i true := by
    rw [hword, BitVec.setWidth_setWidth_of_le _ (by decide), BitVec.setWidth_eq]
  refine leads_goto (r' := { r₁ with step := .N9 })
    (s' := (State.log (State.writeBind { s₁ with plan := s₁.plan.drop 1 } (ins r₁.t i i 1))
      (.wr .seq offBind (ins r₁.t i i 1))).attach i (Desc.fresh r₁.ba size dir))
    ?_ rfl List.length_append rfl rfl ⟨rfl, h₁.cb, h₁.ba, h₁.allocs, ?_, fun j hj => ?_, ?_⟩
  · simp only [newChannelMicro, h₁.step]
    rw [modWrite, wrThen_of_ok regAt_offBind (writeReg_dmaBind _ _)]
  · rw [State.attach_chan, if_pos rfl, State.log_chan, State.writeBind_chan, h₁.ba]
    split
    · exact congrArg (fun c : Chan => { c with desc := some (Desc.fresh v.ba size dir) }) h₁.chan
    · exact congrArg (fun c : Chan => { c with desc := some (Desc.fresh v.ba size dir) }) h₁.chan
  · have hj' : ¬ j.val = i.val := fun he => hj (Fin.ext he)
    rw [State.attach_chan, if_neg (Ne.symm hj), State.log_chan, State.writeBind_chan, hlow, withBit_getLsbD, if_neg hj',
      ← h₁.rest j hj]
    split
    · rfl
    · next hb =>
      have hnone := hown j hj (Bool.eq_false_iff.2 hb)
      rw [← h₁.rest j hj] at hnone
      rw [← hnone]
      rfl
  · rw [State.attach_glb, State.log_glb, State.writeBind_glb, hlow]
    exact congrArg (fun g : Globals => { g with bound := withBit v.glb.bound i true }) h₁.glb

/-- From the acknowledge to the last `MOD`: fourteen accesses. -/
theorem newChannel_after_spin (h : At s₀ i .K4 v r s) (hc : v.chan.Quiescent) (hslave : slave.toNat < 32)
    (hown : ∀ j, j ≠ i → v.glb.bound.getLsbD j = false → (s₀.chan j).desc = none) :
    Leads (newChannelMicro slave dir irq size dev i) 14 r s fun r' s' => ∃ c : Chan, c.Quiescent ∧ c.srst = false ∧
      At s₀ i .N9
        { v with
          chan := { c.configured v.ba size dev dir with desc := some (Desc.fresh v.ba size dir) }
          glb := { v.glb.withSel i fun w =>
              ins w (8 * (i.val % 4) + 7) (8 * (i.val % 4)) (0x80#32 ||| slave.setWidth 32) with
            bound := withBit v.glb.bound i true } } r' s' :=
  (newChannel_K4 slave dir irq size dev h hc).bind fun _ _ ⟨c, hq, hsrst, h⟩ =>
  (newChannel_C3 slave dir irq size dev h).bind fun _ _ h =>
  (newChannel_C7 slave dir irq size dev h hq hsrst).bind fun _ _ h =>
  (newChannel_N5 slave dir irq size dev h hslave).bind fun _ _ h =>
  (newChannel_N7 slave dir irq size dev h hown).mono fun _ _ h => ⟨c, hq, hsrst, h⟩

/-- N9 and N10: the mask bit, and the response. -/
theorem newChannel_responds (h : At s₀ i .N9 v r s) (hplan : s.plan = []) :
    ∃ t : State, (∀ n, drive (newChannelMicro slave dir irq size dev i) (n + 2) r s = .next (t.respond (.ok []))) ∧
      t.bus.length = s.bus.length + 2 ∧ t.cmdOut = s.cmdOut ∧ t.chan i = v.chan ∧
      (∀ j, j ≠ i → t.chan j = s₀.chan j) ∧ t.glb = { v.glb with chm := withBit v.glb.chm i (!irq) } := by
  obtain ⟨r₁, s₁, hreach, hp₁, ht, h₁⟩ := leads_modRead (f := newChannelMicro slave dir irq size dev i) (l' := .N10) h
    regAt_offMask (fun t => by simp only [newChannelMicro, h.step]) (by simp [hplan])
  have hword : ins r₁.t i i (bitW (if irq then !chmMasked else chmMasked)) =
      maskWord (withBit v.glb.chm i (!irq)) v.glb.gie := by
    rw [ht, State.readVal, h.glb, ins_maskWord]
    cases irq <;> rfl
  have hwrite : s₁.writeReg (maskWord (withBit v.glb.chm i (!irq)) v.glb.gie) .dmaMask =
      .ok { s₁ with glb := { v.glb with chm := withBit v.glb.chm i (!irq) } } := by
    rw [writeReg_dmaMask, h₁.glb, Globals.writeMask, maskWord_setWidth, maskWord_gie]
  refine ⟨State.log { s₁ with glb := { v.glb with chm := withBit v.glb.chm i (!irq) } }
    (.wr .seq offMask (maskWord (withBit v.glb.chm i (!irq)) v.glb.gie)), fun n => ?_, ?_, hreach.cmdOut, h₁.chan,
    h₁.rest, rfl⟩
  · rw [show n + 2 = n + 1 + 1 by omega, hreach.drive]
    refine drive_done (by rw [hp₁, hplan]; rfl) ?_
    simp only [newChannelMicro, h₁.step]
    rw [modDone, modWrite, hword, wrThen_of_ok regAt_offMask hwrite]
  · rw [State.log_bus, List.length_append, hreach.bus]
    rfl

end

/-! ## The whole command -/

section

variable {s : State} {idx slave : BitVec 8} {i : Fin 8} (dir irq : Bool) (size dev : Word) (tmo : BitVec 30)

theorem exec_newChannel_start (hi : idx.toNat = i.val) (hslave : slave.toNat < 32) (s : State) :
    exec (.newChannel idx slave dir irq size dev tmo) s =
      drive (newChannelMicro slave dir irq size dev i) (s.plan.length + 128)
        (SeqRun.init (.newChannel idx slave dir irq size dev tmo) .N1 (chanBase i)) s := by
  have hlegal : ¬ nSlave ≤ slave.toNat := Nat.not_le.2 hslave
  simp only [exec, execNewChannel, withIndex, chanIdx?_of_eq hi, if_neg hlegal]
  exact start_eq _ _ _ _ _

/-- Where a NEW_CHANNEL starts. -/
theorem at_init (s : State) (i : Fin 8) (c : Instr) :
    At s i .N1 { ba := 0, allocs := s.allocs, chan := s.chan i, glb := s.glb } (SeqRun.init c .N1 (chanBase i)) s :=
  ⟨rfl, by rw [SeqRun.init_cb, chanBase_toNat], rfl, rfl, rfl, fun _ _ => rfl, rfl⟩

end

/-- Settles O46: seven accesses to the spin, `k` reads there, the acknowledge, and the sixteen that follow. -/
theorem newChannelResetsStaleChannel : Obligations.NewChannelResetsStaleChannel := by
  intro s idx slave i dir irq size dev tmo ba answers k hinv hplan hi hslave hbound hen hallocs hvalid sel'
  have hown : ∀ j, j ≠ i → s.glb.bound.getLsbD j = false → (s.chan j).desc = none := by
    intro j _ hb
    have := hinv.desc j
    rw [State.boundBit, hb] at this
    exact Option.eq_none_iff_forall_ne_some.2 fun d hd => by simp [State.desc, hd] at this
  obtain ⟨r₁, s₁, hr₁, hp₁, h₁⟩ := newChannel_to_spin slave dir irq size dev
    (at_init s i (.newChannel idx slave dir irq size dev tmo)) hbound hen hallocs hvalid (by
      simp [hplan, List.replicate_add])
  have hp₁' : s₁.plan = List.replicate k .seq ++ [.eng (.ackDisable i)] := by
    rw [hp₁, hplan, List.replicate_add, List.append_assoc]
    rfl
  obtain ⟨r₂, s₂, hr₂, hp₂, h₂⟩ := newChannel_spins slave dir irq size dev hen k r₁ s₁ h₁ (by simp [hp₁'])
    (by simp [hp₁'])
  obtain ⟨r₃, s₃, hr₃, hp₃, h₃⟩ := newChannel_acked slave dir irq size dev h₂ rfl (by simp [hp₂, hp₁'])
  obtain ⟨r₄, s₄, hr₄, hp₄, c, hq, hsrst, h₄⟩ := newChannel_after_spin slave dir irq size dev h₃
    (acked_quiescent _) hslave hown (by simp [hp₃])
  obtain ⟨t, ht, htbus, htout, htchan, htrest, htglb⟩ :=
    newChannel_responds slave dir irq size dev h₄ (by simp [hp₄, hp₃])
  have hr := ((hr₁.trans hr₂).trans hr₃).trans hr₄
  refine ⟨t.respond (.ok []), c.thresh, c.tmoEn, ?_, ?_, htrest, ?_, rfl, ?_, ?_⟩
  · have hfuel : s.plan.length + 128 = 112 + 2 + (7 + k + 1 + 14) := by
      rw [hplan, List.length_append, List.length_replicate]
      simp only [List.length_cons, List.length_nil]
      omega
    rw [exec_newChannel_start dir irq size dev tmo hi hslave, hfuel, hr.drive, ht]
  · exact htchan.trans (configured_of_quiescent hq hsrst _ _ _ _ _)
  · rw [State.respond_glb, htglb]
    rfl
  · rw [State.respond_cmdOut, htout, hr.cmdOut, packet_ok]
  · rw [State.respond_bus, htbus, hr.bus]
    omega

/-- Settles O47: the same seven accesses, and the spin with nothing left in the schedule. -/
theorem spinWithoutAcknowledgeNeverResponds : Obligations.SpinWithoutAcknowledgeNeverResponds := by
  refine ⟨fun s idx slave i dir irq size dev tmo ba answers hplan hi hslave hbound hen hallocs hvalid => ?_, ?_⟩
  · obtain ⟨r₁, s₁, hr₁, hp₁, h₁⟩ := newChannel_to_spin slave dir irq size dev
      (at_init s i (.newChannel idx slave dir irq size dev tmo)) hbound hen hallocs hvalid (by simp [hplan])
    have hp₁' : s₁.plan = [] := by simp [hp₁, hplan]
    have hspin := newChannelMicro_spins slave dir irq size dev h₁.step h₁.cb ((congrArg Chan.en h₁.chan).trans hen)
    have hfuel : s.plan.length + 128 = 120 + 1 + 7 := by rw [hplan]; rfl
    have hexec := exec_newChannel_start dir irq size dev tmo hi hslave s
    rw [hfuel, hr₁.drive, drive_spin hp₁' hspin hp₁'] at hexec
    have hcb : r₁.cb.toNat = 0x40 + 0x40 * i.val := h₁.cb.trans (chanBase_eq i)
    exact ⟨_, _, hexec, State.suspend_seq _ _, h₁.step, hr₁.cmd, hcb, hp₁', hr₁.cmdOut, h₁.chan, h₁.glb⟩
  · intro s r i idx slave dir irq size dev tmo hbusy hcmd hi hl hcb hen hplan w
    have hspin := newChannelMicro_spins slave dir irq size dev hl (hcb.trans (chanBase_eq i).symm) hen
    have hmicro : microOf r.cmd = newChannelMicro slave dir irq size dev i := by
      rw [hcmd]
      simp only [microOf, onChan, chanIdx?_of_eq hi]
    have hfuel : budget r.cmd s = 127 + 1 := by rw [budget, hplan, hcmd]; rfl
    rw [step_of_busy hbusy, resume, hmicro, hfuel]
    exact drive_spin hplan hspin hplan

end Sys2Proof.Machine
end

section
/-! SUPPORT. The Controller commands of one access or one `MOD` (42_controller.md R191, R192, R194 to R196), and
NEW_CHANNEL on a bound index (R198 (b)): each is its one or two accesses, with any moves of the other agents before and
between them. -/

namespace Sys2Proof.Machine

open Sys2Proof.Config

/-! ## IS_COMPLETE and CLR_COMPLETE (R194, R195, R254) -/

/-- The bit of the status word that IS_COMPLETE answers with. -/
theorem bitW_statWord_flag (done : BitVec 8) (i : Fin 8) :
    bitW ((statWord done).getLsbD (doneBit i)) = if done.getLsbD i then 1 else 0 := by
  rw [show doneBit i = 4 * i.val from rfl, statWord_flag]
  rfl

/-- Settles O49: the command is its one read. -/
theorem isCompleteReadsFlag : Obligations.IsCompleteReadsFlag := by
  intro s idx
  constructor
  · intro hidx
    simp only [exec, execIsComplete, chanIdx?_of_ge hidx]
  · intro i p q hi hp s₁
    simp only [exec, execIsComplete, chanIdx?_of_eq hi]
    rw [start_eq, drive_one_read (a := fun t => .ok [bitW (t.getLsbD (doneBit i))]) hp regAt_offStat fun _ => rfl,
      State.readVal, bitW_statWord_flag]
    rfl

/-- Writing the clear word of one channel clears that channel's flag and no other (R124, R80). -/
theorem writeStat_encStatClear (g : Globals) (i : Fin 8) :
    g.writeStat (encStatClear i) = { g with done := withBit g.done i false } := by
  rw [Globals.writeStat, decodeStatus_encStatClear, withBit]
  simp

/-- Settles O50: the command is its one write. -/
theorem clearCompleteClearsOneFlag : Obligations.ClearCompleteClearsOneFlag := by
  intro s idx
  constructor
  · intro hidx
    simp only [exec, execClrComplete, chanIdx?_of_ge hidx]
  · intro i p q hi hp s₁
    simp only [exec, execClrComplete, chanIdx?_of_eq hi]
    rw [start_eq, drive_one_write (a := .ok []) (v := encStatClear i) hp regAt_offStat (fun _ => rfl)
      (writeReg_dmaStat _ _), writeStat_encStatClear]
    rfl

/-! ## SET_MASK (R196) -/

/-- Step M2 on a mask bit: the bit becomes `b`, GIE and the other mask bits go back as they were read (R125). -/
theorem writeReg_dmaMask_bit {s : State} {chm : BitVec 8} {gie : Bool} (hgie : s.glb.gie = gie)
    (i : Fin 8) (b : Bool) :
    s.writeReg (ins (maskWord chm gie) i i (bitW b)) .dmaMask =
      .ok { s with glb := { s.glb with chm := withBit chm i b } } := by
  rw [ins_maskWord, writeReg_dmaMask, Globals.writeMask, maskWord_setWidth, maskWord_gie, ← hgie]

/-- The word of DMA_MASK as the other agents leave it. -/
theorem readVal_dmaMask_others (s : State) (p : List Turn) :
    (s.others p).readVal .dmaMask = maskWord s.glb.chm s.glb.gie := by
  rw [State.readVal, (others_between p s).glb_chm, (others_between p s).glb_gie]

/-- Settles O51: the command is the two accesses of a `MOD`. -/
theorem setMaskChangesOneBit : Obligations.SetMaskChangesOneBit := by
  intro s idx masked
  constructor
  · intro hidx
    simp only [exec, execSetMask, withIndex, chanIdx?_of_ge hidx]
    rfl
  · intro i p₁ p₂ q hi hp s₁ s₂ chm
    have hgie : s₂.glb.gie = s.glb.gie := (others_between p₂ s₁).glb_gie.trans (others_between p₁ s).glb_gie
    have hw := writeReg_dmaMask_bit (chm := s.glb.chm) hgie i masked
    have hbit : (if masked then chmMasked else !chmMasked) = masked := by cases masked <;> rfl
    simp only [exec, execSetMask, withIndex, chanIdx?_of_eq hi]
    rw [start_eq, drive_read_write (w := fun v => ins v i i (bitW masked)) (a := fun _ => .ok []) (next := .S2)
      hp regAt_offMask (fun _ => rfl) (fun _ _ => by simp only [setMaskMicro, hbit]; rfl)
        (by rw [readVal_dmaMask_others]; exact hw),
      readVal_dmaMask_others, ins_maskWord]

/-! ## CTRL_ENABLE and CTRL_DISABLE (R191, R192) -/

/-- Step M2 on DMA_CTL.EN: no soft-reset event, for SRST goes back as it was read (R78). -/
theorem writeReg_dmaCtl_en {s : State} {en srst : Bool} (hsrst : s.glb.srst = srst) (b : Bool) :
    s.writeReg (ins (encCtl en srst) ctlEnBit ctlEnBit (bitW b)) .dmaCtl =
      .ok { s with glb := { s.glb with en := b } } := by
  rw [ins_encCtl_en, writeReg_dmaCtl_ok (.inl ?_), encCtl_getLsbD_zero, encCtl_getLsbD_one, ← hsrst]
  rw [Bool.eq_false_iff, ne_eq, ctlEvent_iff, encCtl_getLsbD_one, hsrst]
  simp

/-- The word of DMA_CTL as the other agents leave it. -/
theorem readVal_dmaCtl_others (s : State) (p : List Turn) :
    (s.others p).readVal .dmaCtl = encCtl s.glb.en s.glb.srst := by
  rw [State.readVal, (others_between p s).glb_en, (others_between p s).glb_srst]

/-- A command that is `MOD` of DMA_CTL.EN. -/
theorem start_modCtlEn {f : SeqRun → State → Micro} {cmd : Instr} {s : State} {p₁ p₂ q : List Turn} {b : Bool}
    (hp : s.seqAfterTwice p₁ p₂ q) (h1 : ∀ r t, r.step = .E1 → f r t = modRead offCtl r .E2 t)
    (h2 : ∀ r t, r.step = .E2 → f r t = modDone offCtl ctlEnBit ctlEnBit (bitW b) r t) :
    let s₂ := ((s.others p₁).log (.rd .seq 0x00 (encCtl s.glb.en s.glb.srst))).others p₂
    start f cmd .E1 0 s = .next
      (({ s₂ with glb := { s₂.glb with en := b }, plan := q }.log
        (.wr .seq 0x00 (encCtl b s.glb.srst))).respond (.ok [])) := by
  intro s₂
  have hsrst : s₂.glb.srst = s.glb.srst := (others_between p₂ _).glb_srst.trans (others_between p₁ s).glb_srst
  have hw := writeReg_dmaCtl_en (en := s.glb.en) hsrst b
  rw [start_eq, drive_read_write (w := fun v => ins v ctlEnBit ctlEnBit (bitW b)) (a := fun _ => .ok [])
    (next := .E2) hp regAt_offCtl (fun _ => h1 _ _ rfl) (fun _ _ => h2 _ _ rfl)
    (by rw [readVal_dmaCtl_others]; exact hw), readVal_dmaCtl_others, ins_encCtl_en]

/-- Settles O42: both commands are `MOD` of one bit. -/
theorem controllerEnableAndDisable : Obligations.ControllerEnableAndDisable := by
  intro s p₁ p₂ q b hp
  cases b with
  | true =>
    exact start_modCtlEn (f := ctrlEnableMicro) (cmd := .ctrlEnable) hp
      (fun _ _ h => by simp only [ctrlEnableMicro, h]) (fun _ _ h => by simp only [ctrlEnableMicro, h]; rfl)
  | false =>
    exact start_modCtlEn (f := ctrlDisableMicro) (cmd := .ctrlDisable) hp
      (fun _ _ h => by simp only [ctrlDisableMicro, h]) (fun _ _ h => by simp only [ctrlDisableMicro, h]; rfl)

/-! ## NEW_CHANNEL on a bound index (R198 (b)) -/

/-- The word of DMA_BIND as the other agents leave it. -/
theorem readVal_dmaBind_others (s : State) (p : List Turn) :
    (s.others p).readVal .dmaBind = s.glb.bound.setWidth 32 := by
  rw [State.readVal, (others_between p s).glb_bound]

/-- Settles O44: the read of N1 finds the bound bit set. -/
theorem newChannelOnBoundIndexAnswersNone : Obligations.NewChannelOnBoundIndexAnswersNone := by
  intro s idx slave i dir irq size dev tmo p q hi hslave hbound hp t
  refine ⟨?_, ?_⟩
  · rw [exec_newChannel_start dir irq size dev tmo hi hslave]
    refine drive_seqTurn_done (n := s.plan.length + 127) hp ?_
    simp only [newChannelMicro, SeqRun.init_step]
    rw [rdThen_of_regAt regAt_offBind, readVal_withPlan, readVal_dmaBind_others, bindWord_bound]
    exact if_pos hbound
  · rw [State.respond_cmdOut, State.log_cmdOut]
    exact congrArg (· ++ _) (others_between p s).cmdOut

end Sys2Proof.Machine
end

section
/-! SUPPORT. What a command leaves alone of a channel it does not name (42_controller.md R193; 41_channel.md R163, R166):
its accesses are of the global block, of its own channel's block and of its own buffer, and the one write of DMA_BIND puts
back every bound bit that was read, so that no other channel loses its descriptor. -/

namespace Sys2Proof.Machine

open Sys2Proof.Config

/-! ## A channel that is left alone -/

/-- Channel `j` is as in `s₀`, but that ENG may have cleared its enable bit and its hidden bits. -/
def Spared (s₀ : State) (j : Fin 8) (s : State) : Prop :=
  (s.chan j).still = (s₀.chan j).still ∧
    ((s.chan j).en = true → (s₀.chan j).en = true) ∧
    ((s.chan j).armed = true → (s₀.chan j).armed = true) ∧
    ((s.chan j).disPending = true → (s₀.chan j).disPending = true)

theorem Spared.refl (s : State) (j : Fin 8) : Spared s j s := ⟨rfl, id, id, id⟩

section
variable {s₀ s t : State} {j : Fin 8}

theorem Spared.of_chan (h : Spared s₀ j s) (hc : t.chan j = s.chan j) : Spared s₀ j t := by
  unfold Spared
  rw [hc]
  exact h

theorem Between.spared (hb : Between s t) (h : Spared s₀ j s) : Spared s₀ j t := by
  obtain ⟨hstill, hen, harm, hdis⟩ := h
  exact ⟨(hb.chan_still j).trans hstill, fun e => hen (hb.en j e), fun e => harm (hb.armed j e),
    fun e => hdis (hb.disPending j e)⟩

theorem Spared.desc (h : Spared s₀ j s) : (s.chan j).desc = (s₀.chan j).desc :=
  have hdesc : (s.chan j).still.desc = (s₀.chan j).still.desc := by rw [h.1]
  hdesc

/-- A write of any register but DMA_BIND and those of channel `j` leaves channel `j` as it is (R77 to R80). -/
theorem writeReg_chan_of_ne {v : Word} {g : Reg} (hw : s.writeReg v g = .ok t) (hbind : g ≠ .dmaBind)
    (hchan : ∀ x, g ≠ .chan j x) : t.chan j = s.chan j := by
  by_cases hctl : ∃ i, g = .chan i .ctl
  · obtain ⟨i, rfl⟩ := hctl
    have hij : i ≠ j := fun e => hchan .ctl (e ▸ rfl)
    simp only [State.writeReg, State.writeChReg] at hw
    split at hw
    · cases hw
    · cases hw
      exact s.setChan_chan_ne hij _
  · rcases writeReg_cases hw fun i e => hctl ⟨i, e⟩ with ⟨-, gl, rfl⟩ | ⟨e, -⟩ | ⟨i, x, rfl, rfl⟩
    · rfl
    · exact absurd e hbind
    · exact s.setChan_chan_ne (fun e => hchan x (by rw [e])) _

/-! ## One micro-step -/

/-- A micro-step that leaves channel `j` alone. -/
def Spares (s₀ : State) (j : Fin 8) (m : Micro) : Prop :=
  m.Holds (fun _ s => Spared s₀ j s) (fun _ s => Spared s₀ j s) (fun _ => True) (fun _ => True)

variable {r : SeqRun} {off : Nat} {g : Reg} {v : Word}

theorem rdThen_spares {k : Word → State → Micro} (h : Spared s₀ j s)
    (hk : ∀ w t, Spared s₀ j t → Spares s₀ j (k w t)) : Spares s₀ j (rdThen off s k) := by
  unfold rdThen rd32
  cases regAt off with
  | none => trivial
  | some g => exact hk _ _ (h.of_chan rfl)

theorem modRead_spares {next : Label} (h : Spared s₀ j s) : Spares s₀ j (modRead off r next s) :=
  rdThen_spares h fun _ _ hs => hs

theorem wrThen_spares {k : State → Micro} (hg : regAt off = some g) (hbind : g ≠ .dmaBind)
    (hchan : ∀ x, g ≠ .chan j x) (h : Spared s₀ j s) (hk : ∀ t, Spared s₀ j t → Spares s₀ j (k t)) :
    Spares s₀ j (wrThen off v s k) := by
  cases hw : s.writeReg v g with
  | error x => simp [wrThen_of_error hg hw, Spares]
  | ok t =>
    have hchan' : t.chan j = s.chan j := writeReg_chan_of_ne hw hbind hchan
    rw [wrThen_of_ok hg hw]
    exact hk _ (h.of_chan hchan')

theorem wrGoto_spares {next : Label} (hg : regAt off = some g) (hbind : g ≠ .dmaBind)
    (hchan : ∀ x, g ≠ .chan j x) (h : Spared s₀ j s) : Spares s₀ j (wrGoto off v r next s) :=
  wrThen_spares hg hbind hchan h fun _ hs => hs

theorem wrDone_spares {a : Resp} (hg : regAt off = some g) (hbind : g ≠ .dmaBind)
    (hchan : ∀ x, g ≠ .chan j x) (h : Spared s₀ j s) : Spares s₀ j (wrThen off v s fun t => .done a t) :=
  wrThen_spares hg hbind hchan h fun _ hs => hs

/-- A register of another channel's block. -/
theorem chanReg_ne {i : Fin 8} (hij : i ≠ j) (x y : ChReg) : Reg.chan i x ≠ .chan j y :=
  fun e => hij (Reg.chan.inj e).1

/-- A write of a register of another channel's block, which SEQ's local `cb` points at. -/
theorem wrGoto_block_spares {i : Fin 8} {next : Label} (hcb : r.cb = BitVec.ofNat 32 (chanBase i)) (x : ChReg)
    (hij : i ≠ j) (h : Spared s₀ j s) : Spares s₀ j (wrGoto (r.cb.toNat + x.off) v r next s) :=
  wrGoto_spares (regAt_cb hcb x) (by simp) (chanReg_ne hij x) h

/-! ## NEW_CHANNEL (R193, R161, R162) -/

theorem construct_spares {i : Fin 8} (hcb : r.cb = BitVec.ofNat 32 (chanBase i)) (hij : i ≠ j) (h : Spared s₀ j s)
    (dir : Bool) (size dev : Word) : Spares s₀ j (constructMicro dir size dev .N5 r s) := by
  unfold constructMicro
  split
  case h_1 =>
    unfold constructAlloc allocReq
    cases s.allocAnswer with
    | none => exact h
    | some ba =>
      simp only
      split
      · exact h
      · exact h
  case h_2 => exact rdThen_spares h fun _ _ hs => hs
  case h_5 =>
    refine rdThen_spares h fun t s' hs => ?_
    split
    · exact hs
    · exact hs
  case h_3 | h_6 | h_8 | h_14 => exact modRead_spares h
  case h_4 | h_7 | h_9 | h_15 => exact wrGoto_block_spares hcb .ctl hij h
  case h_10 => exact wrGoto_block_spares hcb .addrLo hij h
  case h_11 => exact wrGoto_block_spares hcb .addrUp hij h
  case h_12 => exact wrGoto_block_spares hcb .devAddr hij h
  case h_13 => exact wrGoto_block_spares hcb .xferSize hij h
  case h_16 => trivial

/-- Of the bound bits NEW_CHANNEL clears none. -/
theorem MayRebind.keeps {idx slave : BitVec 8} {dir irq : Bool} {size dev : Word} {tmo : BitVec 30} {b b' : BitVec 8}
    (h : MayRebind (.newChannel idx slave dir irq size dev tmo) b b') (hb : b.getLsbD j = true) :
    b'.getLsbD j = true := by
  by_contra hne
  rcases h j (fun e => hne (e.trans hb)) with ⟨-, hc⟩ | ⟨hb', -⟩
  · cases hc
  · exact hne hb'

theorem newChannel_spares {idx slave : BitVec 8} {dir irq : Bool} {size dev : Word} {tmo : BitVec 30} {i : Fin 8}
    (hown : (s₀.chan j).desc ≠ none → s₀.boundBit j = true)
    (hh : Holding s₀ (.newChannel idx slave dir irq size dev tmo) r) (hcb : r.cb = BitVec.ofNat 32 (chanBase i))
    (hij : i ≠ j) (h : Spared s₀ j s) : Spares s₀ j (newChannelMicro slave dir irq size dev i r s) := by
  unfold newChannelMicro
  split
  case h_1 =>
    refine rdThen_spares h fun t s' hs => ?_
    split
    · exact hs
    · exact hs
  case h_2 | h_4 | h_6 | h_8 => exact modRead_spares h
  case h_3 => exact wrGoto_spares regAt_offCtl (by simp) (by simp) h
  case h_5 => exact wrGoto_spares (regAt_selOff _) (selReg_ne _).2 (by intro x; split <;> simp) h
  case h_7 hl =>
    have hputs : MayRebind _ s₀.glb.bound (r.t.setWidth 8) := hh.2 (by rw [hl]; rfl)
    rw [modWrite, wrThen_of_ok regAt_offBind (writeReg_dmaBind _ _)]
    refine h.of_chan ?_
    rw [State.attach_chan, if_neg hij, State.log_chan, State.writeBind_chan]
    split
    · rfl
    · next hclear =>
      have hnone : (s₀.chan j).desc = none := by
        by_contra hsome
        refine hclear ?_
        have hword : (ins r.t i i 1).setWidth 8 = withBit (r.t.setWidth 8) i true := ins_bit_setWidth r.t i true
        rw [hword, withBit_getLsbD]
        split
        · rfl
        · exact hputs.keeps (hown hsome)
      rw [← h.desc] at hnone
      rw [← hnone]
  case h_9 => exact wrDone_spares regAt_offMask (by simp) (by simp) h
  case h_10 => exact construct_spares hcb hij h _ _ _

/-! ## Every command but CTRL_RESET and the raw field writes -/

/-- The bytes of another buffer. -/
theorem bufWr_spares {idx : BitVec 8} {off : Word} {data : List Byte} {i : Fin 8} (hc : r.cmd = .bufWr idx off data)
    (hi : chanIdx? idx = some i) (hok : r.ok s = true) (hij : i ≠ j) (h : Spared s₀ j s) :
    Spares s₀ j (bufWrMicro i off data r s) := by
  unfold bufWrMicro
  split
  · next k hl =>
    obtain ⟨hk, d, hd, hr⟩ := (ok_bufWr hc hi hl).1 hok
    rw [memWrite_ok hd (lt_size_of_bufInRange hr hk)]
    simp only
    split
    · exact h.of_chan (s.setChan_chan_ne hij _)
    · exact h.of_chan (s.setChan_chan_ne hij _)
  · trivial

theorem bufRd_spares {idx : BitVec 8} {off : Word} {n : BitVec 16} {i : Fin 8} (hc : r.cmd = .bufRd idx off n)
    (hi : chanIdx? idx = some i) (hok : r.ok s = true) (h : Spared s₀ j s) :
    Spares s₀ j (bufRdMicro i off n r s) := by
  unfold bufRdMicro
  split
  · next k hl =>
    obtain ⟨⟨hk, d, hd, hr⟩, -⟩ := (ok_bufRd hc hi hl).1 hok
    rw [memRead_ok hd (lt_size_of_bufInRange hr hk)]
    simp only
    split
    · exact h.of_chan rfl
    · exact h.of_chan rfl
  · trivial

theorem microOf_spares {c : Instr} (hreset : c ≠ .ctrlReset) (hraw : isRawWrite c = false)
    (hj : targetOf c ≠ some j) (hown : (s₀.chan j).desc ≠ none → s₀.boundBit j = true) (hc : r.cmd = c)
    (hok : r.ok s = true) (hh : Holding s₀ c r) (h : Spared s₀ j s) : Spares s₀ j (microOf c r s) := by
  cases c with
  | ctrlReset => exact absurd rfl hreset
  | fldWr f idx value | fldMod f idx value => simp [isRawWrite] at hraw
  | fldRd f idx =>
    simp only [microOf, onField]
    cases fldLoc f idx with
    | none => trivial
    | some l =>
      simp only [fldRdMicro]
      split
      · exact rdThen_spares h fun _ _ hs => hs
      · trivial
  | ctrlEnable | ctrlDisable =>
    simp only [microOf, ctrlEnableMicro, ctrlDisableMicro]
    split
    · exact modRead_spares h
    · exact wrDone_spares regAt_offCtl (by simp) (by simp) h
    · trivial
  | handleIrq =>
    simp only [microOf, handleIrqMicro]
    split
    · exact modRead_spares h
    · exact wrDone_spares regAt_offStat (by simp) (by simp) h
    · trivial
  | newChannel idx slave dir irq size dev tmo =>
    simp only [microOf, onChan]
    cases hi : chanIdx? idx with
    | none => trivial
    | some i =>
      have hij : i ≠ j := fun e => hj (by rw [targetOf, hi, e])
      exact newChannel_spares hown hh ((ok_newChannel hc hi).1 hok).2.1 hij h
  | isComplete idx =>
    simp only [microOf, onChan]
    cases chanIdx? idx with
    | none => trivial
    | some i =>
      simp only [isCompleteMicro]
      split
      · exact rdThen_spares h fun _ _ hs => hs
      · trivial
  | clrComplete idx =>
    simp only [microOf, onChan]
    cases chanIdx? idx with
    | none => trivial
    | some i =>
      simp only [clrCompleteMicro]
      split
      · exact wrDone_spares regAt_offStat (by simp) (by simp) h
      · trivial
  | setMask idx masked =>
    simp only [microOf, onChan]
    cases chanIdx? idx with
    | none => trivial
    | some i =>
      simp only [setMaskMicro]
      split
      · exact modRead_spares h
      · exact wrDone_spares regAt_offMask (by simp) (by simp) h
      · trivial
  | chActivate idx | chDeactivate idx =>
    simp only [microOf, onChan]
    cases hi : chanIdx? idx with
    | none => trivial
    | some i =>
      have hij : i ≠ j := fun e => hj (by rw [targetOf, hi, e])
      simp only [SeqRun.ok, hc] at hok
      simp only [chActivateMicro, chDeactivateMicro]
      split
      · exact modRead_spares h
      · exact wrDone_spares (regAt_cb (cb_of_onLabels hi hok) .ctl) (by simp) (chanReg_ne hij _) h
      · trivial
  | chIsRunning idx =>
    simp only [microOf, onChan]
    cases chanIdx? idx with
    | none => trivial
    | some i =>
      simp only [chIsRunningMicro]
      split
      · exact rdThen_spares h fun _ _ hs => hs
      · trivial
  | bufWr idx off data =>
    simp only [microOf, onChan]
    cases hi : chanIdx? idx with
    | none => trivial
    | some i => exact bufWr_spares hc hi hok (fun e => hj (by rw [targetOf, hi, e])) h
  | bufRd idx off n =>
    simp only [microOf, onChan]
    cases hi : chanIdx? idx with
    | none => trivial
    | some i => exact bufRd_spares hc hi hok h

end

/-! ## A whole command -/

/-- An assertion kept at every position beside those of `drive_granted`. -/
theorem drive_spared {s₀ : State} {j : Fin 8} {c : Instr} (hreset : c ≠ .ctrlReset) (hraw : isRawWrite c = false)
    (hj : targetOf c ≠ some j) (hown : (s₀.chan j).desc ≠ none → s₀.boundBit j = true) (n : Nat) (r : SeqRun)
    (s : State) (hc : r.cmd = c) (hok : r.ok s = true) (hg : Granted s₀ c s) (hh : Holding s₀ c r)
    (h : Spared s₀ j s) : Ends (Spared s₀ j) (fun _ => True) (fun _ => True) (drive (microOf c) n r s) := by
  refine drive_ends
    (I := fun r s => ((True ∧ r.cmd = c ∧ r.ok s = true) ∧ Granted s₀ c s ∧ Holding s₀ c r) ∧ Spared s₀ j s)
    (D := fun _ s => (True ∧ Granted s₀ c s) ∧ Spared s₀ j s)
    (fun r s t hI hb => ?_) (fun r s hI => ?_) (fun _ _ hI => hI.2) (fun _ _ hD => hD.2)
    n r s ⟨⟨⟨trivial, hc, hok⟩, hg, hh⟩, h⟩
  · obtain ⟨⟨⟨-, hc, hok⟩, hg, hh⟩, h⟩ := hI
    exact ⟨⟨⟨trivial, hc, by rwa [SeqRun.ok_congr hb.desc]⟩, hb.granted hg, hh⟩, hb.spared h⟩
  · obtain ⟨⟨⟨-, hc, hok⟩, hg, hh⟩, h⟩ := hI
    have hstay := microOf_stays true_accessClosed trivial hok
    rw [hc] at hstay
    exact (hstay.and (microOf_grants hc hraw hok hg hh)).and
      (microOf_spares hreset hraw hj hown hc hok hh h)

/-- R57: a channel with a descriptor is bound. -/
theorem State.Inv.bound_of_desc {s : State} (h : s.Inv) {j : Fin 8} (hd : (s.chan j).desc ≠ none) :
    s.boundBit j = true := by
  obtain ⟨d, hd⟩ := Option.ne_none_iff_exists'.1 hd
  have hall := h.desc j
  rw [State.desc, hd, Option.all_some, Bool.and_eq_true] at hall
  exact hall.1

/-- Settles O34: what `Spared` says of the state in which the command rests or responds. -/
theorem commandsLeaveOtherChannels : Obligations.CommandsLeaveOtherChannels := by
  intro s t c j hinv hexec hreset hraw hj
  suffices h : Ends (Spared s j) (fun _ => True) (fun _ => True) (exec c s) by rwa [hexec] at h
  have hs := Spared.refl s j
  rcases exec_cases_ok c s with he | he | ⟨vals, he⟩ | ⟨lbl, cb, he, hl, hok⟩ <;> rw [he]
  · exact hs.of_chan (s.setFault_chan .contract j)
  · trivial
  · exact hs
  · exact drive_spared hreset hraw hj (fun hd => hinv.bound_of_desc hd) _ _ s rfl hok ⟨id, .refl c _⟩
      (.of_label (firstLabels_put_nothing lbl hl)) hs

end Sys2Proof.Machine
end

section
/-! SUPPORT. Commands of many accesses under any schedule (20_memory.md R82): rules for one access, and for the two of a
`MOD`, that lead a command to its response with the other agents' moves before each access; and what such a command has
made of the state it began in, told by the state SEQ alone would have made. -/

namespace Sys2Proof.Machine

open Sys2Proof.Config

/-! ## The other agents' moves before an access -/

/-- The schedule holds no move of ENG. -/
def State.EngFree (s : State) : Prop := ∀ m, Turn.eng m ∉ s.plan

/-- SEQ has waited from `s` to `t` for its turn. Where ENG does not move, no channel does, and no flag is set. -/
structure Waited (s t : State) : Prop extends Moved s t where
  engFree : s.EngFree → t.EngFree ∧ t.chans = s.chans ∧ ∀ i, t.doneFlag i = true → s.doneFlag i = true
  noRest : s.NoRest → t.NoRest

theorem others_of_no_eng : ∀ (p : List Turn) (s : State), (∀ m, Turn.eng m ∉ p) →
    (s.others p).chans = s.chans ∧ ∀ i, (s.others p).doneFlag i = true → s.doneFlag i = true
  | [], _, _ => ⟨rfl, fun _ h => h⟩
  | x :: p, s, h => by
    have hx : (s.otherTurn x).chans = s.chans ∧ ∀ i, (s.otherTurn x).doneFlag i = true → s.doneFlag i = true := by
      cases x with
      | eng m => exact absurd List.mem_cons_self (h m)
      | seq | rest => exact ⟨rfl, fun _ h => h⟩
      | irqh k =>
        obtain ⟨d, f, ports, b, he, hd, -⟩ := irqStep_cases s k
        rw [State.otherTurn, he]
        exact ⟨rfl, hd⟩
    obtain ⟨hchans, hdone⟩ := others_of_no_eng p (s.otherTurn x) fun m hm => h m (List.mem_cons_of_mem _ hm)
    exact ⟨hchans.trans hx.1, fun i hi => hx.2 i (hdone i hi)⟩

theorem waited_of_seqAfter {s : State} {p q : List Turn} (h : s.seqAfter p q) :
    Waited s { s.others p with plan := q } := by
  have hmem : (∀ x ∈ p, x ∈ s.plan) ∧ ∀ x ∈ q, x ∈ s.plan := by
    rcases h.2 with hplan | ⟨hplan, rfl⟩
    · exact ⟨fun x hx => by simp [hplan, hx], fun x hx => by simp [hplan, hx]⟩
    · exact ⟨fun x hx => hplan ▸ hx, by simp⟩
  refine ⟨moved_of_seqAfter h, fun hfree => ⟨fun m hm => hfree m (hmem.2 _ hm), ?_⟩, fun hn hr => hn (hmem.2 _ hr)⟩
  exact others_of_no_eng p s fun m hm => hfree m (hmem.1 _ hm)

/-! ## A command that comes to its response -/

/-- From `r`, `s` the command responds within `k` micro-steps, with `Q` of the response and the state before it. -/
def Responds (f : SeqRun → State → Micro) (k : Nat) (r : SeqRun) (s : State) (Q : Resp → State → Prop) : Prop :=
  s.NoRest → ∀ n, k ≤ n → ∃ q t, drive f n r s = .next (t.respond q) ∧ Q q t

section

variable {f : SeqRun → State → Micro} {k k' : Nat} {r r' : SeqRun} {s : State} {Q : Resp → State → Prop}

theorem Responds.mono (h : Responds f k r s Q) (hk : k ≤ k') : Responds f k' r s Q :=
  fun hn n hle => h hn n (hk.trans hle)

theorem responds_goto
    (h : ∀ t, Waited s t → ∃ r' s', f r t = .goto r' s' ∧ s'.plan = t.plan ∧ Responds f k r' s' Q) :
    Responds f (k + 1) r s Q := by
  intro hn n hle
  obtain ⟨p, q, hp, -⟩ := seqTurn_of_noRest hn
  have hw : Waited s { s.others p with plan := q } := waited_of_seqAfter hp
  obtain ⟨r', s', hf, hplan, hr⟩ := h _ hw
  obtain ⟨n, rfl⟩ : ∃ m, n = m + 1 := ⟨n - 1, by omega⟩
  rw [drive_seqTurn_goto hp hf]
  have hrest : s'.NoRest := by
    rw [State.NoRest, hplan]
    exact hw.noRest hn
  exact hr hrest n (by omega)

theorem responds_done (h : ∀ t, Waited s t → ∃ q s', f r t = .done q s' ∧ Q q s') : Responds f (k + 1) r s Q := by
  intro hn n hle
  obtain ⟨p, q, hp, -⟩ := seqTurn_of_noRest hn
  obtain ⟨a, s', hf, hQ⟩ := h _ (waited_of_seqAfter hp)
  obtain ⟨n, rfl⟩ : ∃ m, n = m + 1 := ⟨n - 1, by omega⟩
  exact ⟨a, s', drive_seqTurn_done hp hf, hQ⟩

end

/-! ## One access -/

/-- An assertion on SEQ's accesses so far and the state that the other agents' moves keep, and that an access keeps in
so far as it is recorded. -/
structure Framed (I : List Access → State → Prop) : Prop where
  waited : ∀ a t u, I a t → Waited t u → I a u
  logged : ∀ a t n x, x.bySeq = true → I a t → I (a ++ [x]) ((t.tick n).log x)

section

variable {f : SeqRun → State → Micro} {n : Nat} {r r' : SeqRun} {s : State} {Q : Resp → State → Prop}
  {I I' : List Access → State → Prop} {a : List Access} {off hi lo : Nat} {g : Reg} {v w x : Word} {l₁ l' : Label}

theorem responds_read (hI : Framed I) (h : I a s) (hg : regAt off = some g) {k : Word → State → Micro}
    (hf : ∀ t, f r t = rdThen off t k) (hv : ∀ t, I a t → t.readVal g = v) (hk : ∀ t, k v t = .goto r' t)
    (next : ∀ t, I (a ++ [.rd .seq off v]) t → Responds f n r' t Q) : Responds f (n + 1) r s Q := by
  refine responds_goto fun t hw => ?_
  have ht := hI.waited a s t h hw
  refine ⟨r', (t.tick g.readDraws).log (.rd .seq off v), ?_, rfl, next _ (hI.logged a t _ _ rfl ht)⟩
  rw [hf, rdThen_of_regAt hg, hv t ht, hk]

theorem responds_write (hI : Framed I) (hI' : Framed I') (h : I a s) (hg : regAt off = some g)
    (hf : ∀ t, f r t = wrThen off w t fun u => .goto r' u)
    (hw : ∀ t, I a t → ∃ u, t.writeReg w g = .ok u ∧ I' a u)
    (next : ∀ t, I' (a ++ [.wr .seq off w]) t → Responds f n r' t Q) : Responds f (n + 1) r s Q := by
  refine responds_goto fun t hwait => ?_
  obtain ⟨u, hu, hIu⟩ := hw t (hI.waited a s t h hwait)
  refine ⟨r', u.log (.wr .seq off w), by rw [hf, wrThen_of_ok hg hu], ?_, next _ (hI'.logged a u 0 _ rfl hIu)⟩
  rw [State.log_plan, writeReg_frame hu]

/-- Step M2 or a plain write as the last micro-step. -/
theorem responds_write_done (hI : Framed I) (hI' : Framed I') (h : I a s) (hg : regAt off = some g) {q : Resp}
    (hf : ∀ t, f r t = wrThen off w t fun u => .done q u)
    (hw : ∀ t, I a t → ∃ u, t.writeReg w g = .ok u ∧ I' a u)
    (hQ : ∀ t, I' (a ++ [.wr .seq off w]) t → Q q t) : Responds f (n + 1) r s Q := by
  refine responds_done fun t hwait => ?_
  obtain ⟨u, hu, hIu⟩ := hw t (hI.waited a s t h hwait)
  exact ⟨q, u.log (.wr .seq off w), by rw [hf, wrThen_of_ok hg hu], hQ _ (hI'.logged a u 0 _ rfl hIu)⟩

/-- Step M1 of `MOD` (R141). -/
theorem responds_modRead (hI : Framed I) (h : I a s) (hg : regAt off = some g) (hf : ∀ t, f r t = modRead off r l' t)
    (hv : ∀ t, I a t → t.readVal g = v)
    (next : ∀ t, I (a ++ [.rd .seq off v]) t → Responds f n { r with t := v, step := l' } t Q) :
    Responds f (n + 1) r s Q :=
  responds_read hI h hg hf hv (fun _ => rfl) next

/-- Both steps of `MOD` (R141). -/
theorem responds_mod (hI : Framed I) (hI' : Framed I') (h : I a s) (hg : regAt off = some g)
    (hf : ∀ t, f r t = modRead off r l₁ t)
    (hf₁ : ∀ t, f { r with t := v, step := l₁ } t = modGoto off hi lo x { r with t := v, step := l₁ } l' t)
    (hv : ∀ t, I a t → t.readVal g = v) (hword : ins v hi lo x = w)
    (hw : ∀ b t, I b t → ∃ u, t.writeReg w g = .ok u ∧ I' b u)
    (next : ∀ t, I' (a ++ [.rd .seq off v] ++ [.wr .seq off w]) t → Responds f n { r with t := v, step := l' } t Q) :
    Responds f (n + 2) r s Q :=
  responds_modRead (n := n + 1) hI h hg hf hv fun t ht =>
    responds_write hI hI' ht hg (fun u => by rw [hf₁, modGoto_eq_wrGoto, hword]; rfl) (fun u => hw _ u) next

end

/-! ## What SEQ alone would have made of the state -/

/-- A command that began in `s` has made `a` its accesses, and has made of the state what SEQ alone would have made,
`e`, but for the other agents' moves. -/
structure Tracks (s e : State) (a : List Access) (t : State) : Prop extends Follows s e t where
  chan : ∀ j, Spared e j t
  engFree : s.EngFree → t.EngFree ∧ t.chans = e.chans
  seqLog : t.seqLog = s.seqLog ++ a

section

variable {s e t : State} {a : List Access}

theorem Tracks.refl (s : State) : Tracks s s [] s :=
  ⟨.refl s, fun j => .refl s j, fun h => ⟨h, rfl⟩, (List.append_nil _).symm⟩

theorem tracks_framed (s e : State) : Framed (Tracks s e) where
  waited a t u h hw := by
    refine ⟨h.toFollows.moved hw.toMoved, fun j => hw.between.spared (h.chan j), fun hs => ?_,
      hw.between.seqLog.trans h.seqLog⟩
    obtain ⟨hfree, hchans⟩ := h.engFree hs
    obtain ⟨hfree', hchans', -⟩ := hw.engFree hfree
    exact ⟨hfree', hchans'.trans hchans⟩
  logged a t n x hx h := by
    refine ⟨h.toFollows.log n x, fun j => (h.chan j).of_chan rfl, h.engFree, ?_⟩
    rw [seqLog_log hx, ← List.append_assoc, ← h.seqLog]
    rfl

/-! ### What is read of the registers that the other agents leave alone -/

theorem Tracks.glb (h : Tracks s e a t) : { t.glb with done := 0 } = { e.glb with done := 0 } :=
  congrArg State.glb h.still

theorem Tracks.of_glb {α : Type} (h : Tracks s e a t) (F : Globals → α) (hF : ∀ g, F { g with done := 0 } = F g) :
    F t.glb = F e.glb := by
  rw [← hF t.glb, h.glb, hF]

theorem Tracks.glb_en (h : Tracks s e a t) : t.glb.en = e.glb.en := h.of_glb Globals.en fun _ => rfl
theorem Tracks.glb_srst (h : Tracks s e a t) : t.glb.srst = e.glb.srst := h.of_glb Globals.srst fun _ => rfl
theorem Tracks.glb_chselL (h : Tracks s e a t) : t.glb.chselL = e.glb.chselL := h.of_glb Globals.chselL fun _ => rfl
theorem Tracks.glb_chselH (h : Tracks s e a t) : t.glb.chselH = e.glb.chselH := h.of_glb Globals.chselH fun _ => rfl
theorem Tracks.glb_chm (h : Tracks s e a t) : t.glb.chm = e.glb.chm := h.of_glb Globals.chm fun _ => rfl
theorem Tracks.glb_gie (h : Tracks s e a t) : t.glb.gie = e.glb.gie := h.of_glb Globals.gie fun _ => rfl
theorem Tracks.glb_bound (h : Tracks s e a t) : t.glb.bound = e.glb.bound := h.of_glb Globals.bound fun _ => rfl

theorem Tracks.readVal_dmaCtl (h : Tracks s e a t) : t.readVal .dmaCtl = encCtl e.glb.en e.glb.srst := by
  rw [State.readVal, h.glb_en, h.glb_srst]

theorem Tracks.readVal_dmaMask (h : Tracks s e a t) : t.readVal .dmaMask = maskWord e.glb.chm e.glb.gie := by
  rw [State.readVal, h.glb_chm, h.glb_gie]

theorem Tracks.readVal_dmaBind (h : Tracks s e a t) : t.readVal .dmaBind = e.glb.bound.setWidth 32 := by
  rw [State.readVal, h.glb_bound]

/-! ### SEQ's own changes -/

/-- A change of the global registers that does not look at the completion flags but to change them. -/
theorem Tracks.setGlb (h : Tracks s e a t) (F : Globals → Globals)
    (hF : ∀ g d, { F { g with done := d } with done := 0 } = { F g with done := 0 }) :
    Tracks s { e with glb := F e.glb } a { t with glb := F t.glb } := by
  refine ⟨⟨?_, fun hs => ⟨(h.quiet hs).1, ?_⟩⟩, fun j => h.chan j, h.engFree, h.seqLog⟩
  · have hglb : ({ F t.glb with done := 0 } : Globals) = { F e.glb with done := 0 } := by
      rw [← hF t.glb 0, h.glb, hF]
    have hset : ({ t.still with glb := { F t.glb with done := 0 } } : State) =
        { e.still with glb := { F e.glb with done := 0 } } := by rw [h.still, hglb]
    exact hset
  · rw [(h.quiet hs).2]
    rfl

/-- A change of channel `i` that neither looks at what ENG may clear nor changes it. -/
theorem Tracks.setChan (h : Tracks s e a t) (i : Fin 8) (F : Chan → Chan)
    (hF : ∀ c b x y, F { c with en := b, disPending := x, armed := y } =
      { F c with en := b, disPending := x, armed := y }) :
    Tracks s (e.setChan i (F (e.chan i))) a (t.setChan i (F (t.chan i))) := by
  have hstill : ∀ c, (F c).still = F c.still := fun c => (hF c _ _ _).symm
  have heta : ∀ c, F c = { F c with en := c.en, disPending := c.disPending, armed := c.armed } :=
    fun c => hF c c.en c.disPending c.armed
  refine ⟨⟨?_, fun hs => ⟨(h.quiet hs).1, ?_⟩⟩, fun j => ?_, fun hs => ?_, h.seqLog⟩
  · have hcommute : ∀ u : State, (u.setChan i (F (u.chan i))).still = u.still.setChan i (F (u.still.chan i)) := by
      intro u
      simp [State.still, State.setChan, State.chan, Vector.map_set, hstill]
    rw [hcommute, hcommute, h.still]
  · rw [(h.quiet hs).2]
    rfl
  · unfold Spared
    rw [State.setChan_chan, State.setChan_chan]
    split
    · obtain ⟨hs, hen, harm, hdis⟩ := h.chan i
      rw [hstill, hstill, hs, heta (t.chan i), heta (e.chan i)]
      exact ⟨rfl, hen, harm, hdis⟩
    · exact h.chan j
  · obtain ⟨hfree, hchans⟩ := h.engFree hs
    exact ⟨hfree, by simp only [State.setChan_chans, State.chan, hchans]⟩

/-- A write of DMA_BIND, with the descriptors it drops (R77). -/
theorem Tracks.writeBind (h : Tracks s e a t) (v : Word) : Tracks s (e.writeBind v) a (t.writeBind v) := by
  refine ⟨⟨?_, fun hs => ⟨(h.quiet hs).1, ?_⟩⟩, fun j => ?_, fun hs => ?_, h.seqLog⟩
  · have hcommute : ∀ u : State, (u.writeBind v).still = u.still.writeBind v := by
      intro u
      have hchans : (dropUnbound (v.setWidth 8) u.chans).map Chan.still =
          dropUnbound (v.setWidth 8) (u.chans.map Chan.still) := by
        ext i hi : 1
        simp only [dropUnbound, Vector.getElem_map, Vector.getElem_ofFn, Fin.getElem_fin]
        split
        · rfl
        · rfl
      simp only [State.still, State.writeBind, hchans]
    rw [hcommute, hcommute, h.still]
  · rw [(h.quiet hs).2]
    rfl
  · unfold Spared
    rw [State.writeBind_chan, State.writeBind_chan]
    split
    · exact h.chan j
    · obtain ⟨hs, hlive⟩ := h.chan j
      exact ⟨congrArg (fun c : Chan => { c with desc := none }) hs, hlive⟩
  · obtain ⟨hfree, hchans⟩ := h.engFree hs
    exact ⟨hfree, by rw [State.writeBind_chans, State.writeBind_chans, hchans]⟩

/-- The next of the allocator's answers taken. -/
theorem Tracks.setAllocs (h : Tracks s e a t) (l : List (Option BusAddr)) :
    Tracks s { e with allocs := l } a { t with allocs := l } := by
  refine ⟨⟨?_, fun hs => ⟨(h.quiet hs).1, ?_⟩⟩, fun j => h.chan j, h.engFree, h.seqLog⟩
  · exact congrArg (fun u : State => { u with allocs := l }) h.still
  · rw [(h.quiet hs).2]
    rfl

/-- Free values taken. -/
theorem Tracks.tick (h : Tracks s e a t) (n : Nat) : Tracks s e a (t.tick n) :=
  ⟨⟨h.still, fun hs => ⟨(h.quiet hs).1, (State.sameMachine_iff _ _).2 ((State.sameMachine_iff t e).1 (h.quiet hs).2)⟩⟩,
    h.chan, h.engFree, h.seqLog⟩

end

/-- A command whose micro-steps lead to its response, from its first label on. -/
theorem start_of_responds {f : SeqRun → State → Micro} {k : Nat} {cmd : Instr} {l : Label} {cb : Nat} {s : State}
    {Q : Resp → State → Prop} (h : Responds f k (SeqRun.init cmd l cb) s Q) (hk : k ≤ 128) (hn : s.NoRest) :
    ∃ q t, start f cmd l cb s = .next (t.respond q) ∧ Q q t := by
  rw [start_eq]
  exact h hn _ (by omega)

end Sys2Proof.Machine
end

section
/-! SUPPORT. NEW_CHANNEL on an unbound index without a stale enable, under any schedule (42_controller.md R193, R198;
41_channel.md R161): its accesses in their order up to the response, and the construction that fails. -/

namespace Sys2Proof.Machine

open Sys2Proof.Config

/-! ## What NEW_CHANNEL makes of the state -/

/-- The state `s` with what NEW_CHANNEL on channel `i` works on as `v` has it. -/
def State.viewed (s : State) (i : Fin 8) (v : View) : State :=
  { s.setChan i v.chan with glb := v.glb, allocs := v.allocs }

@[simp] theorem viewed_chan_self (s : State) (i : Fin 8) (v : View) : (s.viewed i v).chan i = v.chan :=
  s.setChan_chan_self i v.chan

theorem viewed_setChan (s : State) (i : Fin 8) (v : View) (c : Chan) :
    (s.viewed i v).setChan i c = s.viewed i { v with chan := c } := by
  simp only [State.viewed, State.setChan, Vector.set_set]

theorem viewed_init (s : State) (i : Fin 8) :
    s.viewed i { ba := 0, allocs := s.allocs, chan := s.chan i, glb := s.glb } = s :=
  s.setChan_self i

/-- SEQ stands at label `l` of a NEW_CHANNEL on channel `i` that began in `s₀`: its accesses are `a`, and it has made
of the state what `v` has. -/
structure Stands (s₀ : State) (i : Fin 8) (l : Label) (v : View) (a : List Access) (r : SeqRun) (s : State) : Prop where
  step : r.step = l
  cb : r.cb.toNat = chanBase i
  ba : r.ba = v.ba
  tracks : Tracks s₀ (s₀.viewed i v) a s

theorem stands_init (s : State) (i : Fin 8) (c : Instr) :
    Stands s i .N1 { ba := 0, allocs := s.allocs, chan := s.chan i, glb := s.glb } []
      (SeqRun.init c .N1 (chanBase i)) s :=
  ⟨rfl, by rw [SeqRun.init_cb, chanBase_toNat], rfl, by rw [viewed_init]; exact .refl s⟩

section

variable {f : SeqRun → State → Micro} {n : Nat} {s₀ s : State} {i : Fin 8} {l l₁ l' : Label} {v v' : View}
  {a : List Access} {r r' : SeqRun} {Q : Resp → State → Prop} {off hi lo : Nat} {g : Reg} {w x y : Word}

/-- `MOD` of a register (R141). -/
theorem Stands.mod (h : Stands s₀ i l v a r s) (hg : regAt off = some g)
    (hf : ∀ t, f r t = modRead off r l₁ t)
    (hf₁ : ∀ r t, r.step = l₁ → r.cb.toNat = chanBase i → f r t = modGoto off hi lo x r l' t)
    (hread : ∀ a t, Tracks s₀ (s₀.viewed i v) a t → t.readVal g = y) (hword : ins y hi lo x = w)
    (hba : v'.ba = v.ba)
    (hw : ∀ a t, Tracks s₀ (s₀.viewed i v) a t → ∃ u, t.writeReg w g = .ok u ∧ Tracks s₀ (s₀.viewed i v') a u)
    (next : ∀ r' t, Stands s₀ i l' v' (a ++ [.rd .seq off y, .wr .seq off w]) r' t → Responds f n r' t Q) :
    Responds f (n + 2) r s Q := by
  refine responds_mod (tracks_framed _ _) (tracks_framed _ _) h.tracks hg hf (fun t => hf₁ _ t rfl h.cb) (hread a) hword
    hw fun t ht => next _ t ⟨rfl, h.cb, h.ba.trans hba.symm, ?_⟩
  rwa [List.append_assoc] at ht

/-- `MOD` of a global register. -/
theorem Stands.mod_glb (h : Stands s₀ i l v a r s) (hg : regAt off = some g)
    (hf : ∀ t, f r t = modRead off r l₁ t)
    (hf₁ : ∀ r t, r.step = l₁ → r.cb.toNat = chanBase i → f r t = modGoto off hi lo x r l' t)
    (hread : ∀ a t, Tracks s₀ (s₀.viewed i v) a t → t.readVal g = y) (hword : ins y hi lo x = w)
    (F : Globals → Globals) (hF : ∀ g d, { F { g with done := d } with done := 0 } = { F g with done := 0 })
    (hw : ∀ a t, Tracks s₀ (s₀.viewed i v) a t → t.writeReg w g = .ok { t with glb := F t.glb })
    (next : ∀ r' t, Stands s₀ i l' { v with glb := F v.glb } (a ++ [.rd .seq off y, .wr .seq off w]) r' t →
      Responds f n r' t Q) : Responds f (n + 2) r s Q :=
  h.mod hg hf hf₁ hread hword (v' := { v with glb := F v.glb }) rfl
    (fun b t ht => ⟨_, hw b t ht, ht.setGlb F hF⟩) next

/-- A plain store into the channel's block (R77). -/
theorem Stands.store {c : ChReg} (h : Stands s₀ i l v a r s)
    (hf : ∀ t, f r t = wrGoto (r.cb.toNat + c.off) w r l' t) (hc : c ≠ .ctl)
    (next : ∀ r' t, Stands s₀ i l' { v with chan := v.chan.store w c } (a ++ [.wr .seq (chanBase i + c.off) w]) r' t →
      Responds f n r' t Q) : Responds f (n + 1) r s Q := by
  have hstore : ∀ (d : Chan) (en pending armed : Bool),
      Chan.store { d with en := en, disPending := pending, armed := armed } w c =
        { d.store w c with en := en, disPending := pending, armed := armed } := by
    intro d en pending armed
    cases c <;> rfl
  refine responds_write (I' := Tracks s₀ (s₀.viewed i { v with chan := v.chan.store w c }))
    (r' := { r with step := l' }) (tracks_framed _ _) (tracks_framed _ _) h.tracks (g := .chan i c) (regAt_chOff i c)
    (fun t => by rw [hf, h.cb]; rfl) (fun t ht => ?_)
    fun t ht => next _ t ⟨rfl, h.cb, h.ba, ht⟩
  refine ⟨_, writeChReg_eq_store hc t i w, ?_⟩
  have hset := ht.setChan i (·.store w c) hstore
  rwa [viewed_chan_self, viewed_setChan] at hset

end

/-! ## CH_CTL of a channel that is not enabled (R79) -/

section

variable {s e t : State} {a : List Access} {i : Fin 8}

theorem Tracks.chan_en (h : Tracks s e a t) (hen : (e.chan i).en = false) : (t.chan i).en = false :=
  Bool.eq_false_iff.2 fun ht => Bool.eq_false_iff.1 hen ((h.chan i).2.1 ht)

/-- The word read is the one SEQ alone would have read. -/
theorem Tracks.readVal_ctl (h : Tracks s e a t) (hen : (e.chan i).en = false) :
    t.readVal (.chan i .ctl) = encChctl false (e.chan i).srst (e.chan i).dir := by
  have hstill : (t.chan i).still = (e.chan i).still := (h.chan i).1
  have hsrst : (t.chan i).srst = (e.chan i).srst := (congrArg Chan.srst hstill :)
  have hdir : (t.chan i).dir = (e.chan i).dir := (congrArg Chan.dir hstill :)
  rw [Machine.readVal_ctl, h.chan_en hen, hsrst, hdir]

/-- A write with the enable bit clear and the soft-reset bit as it is stores its direction and nothing else. -/
theorem ctlAfter_of_disabled {c : Chan} (hen : c.en = false) (dir : Bool) (n : Nat) :
    c.ctlAfter (encChctl false c.srst dir) n = { c with dir := dir } := by
  have hevent : c.ctlEvent (encChctl false c.srst dir) ≠ true := by
    rw [ne_eq, chanCtlEvent_iff, encChctl_getLsbD_one]
    simp +contextual
  rw [ctlAfter_of_not_event hevent, ctlStore_eq, pendingAfter_of_clear (encChctl_getLsbD_zero _ _ _),
    encChctl_getLsbD_zero, encChctl_getLsbD_one, encChctl_getLsbD_two]
  simp [hen]

theorem ctlUnspecified_of_disabled {c : Chan} (hen : c.en = false) (srst dir : Bool) :
    c.ctlUnspecified (encChctl false srst dir) = false := by
  rw [Bool.eq_false_iff, ne_eq, ctlUnspecified_iff, encChctl_getLsbD_zero, hen]
  simp

end

/-! ## The select field (R123) -/

/-- The channel-selection register of channel `i`. -/
def Globals.sel (g : Globals) (i : Nat) : Word := if i < 4 then g.chselL else g.chselH

/-- The field of channel `i` in that word with a slave id put in and enabled. -/
def putSlave (i : Nat) (slave : BitVec 8) (w : Word) : Word :=
  ins w (8 * (i % 4) + 7) (8 * (i % 4)) (0x80#32 ||| slave.setWidth 32)

theorem readVal_sel (s : State) (i : Nat) : s.readVal (if i / 4 = 0 then .chselL else .chselH) = s.glb.sel i := by
  unfold Globals.sel
  by_cases hi : i < 4
  · rw [if_pos (by omega), if_pos hi]
    rfl
  · rw [if_neg (by omega), if_neg hi]
    rfl

theorem writeReg_sel (s : State) (i : Nat) (w : Word → Word) :
    s.writeReg (w (s.glb.sel i)) (if i / 4 = 0 then .chselL else .chselH) =
      .ok { s with glb := s.glb.withSel i w } := by
  unfold Globals.sel Globals.withSel
  by_cases hi : i < 4
  · simp only [if_pos hi, if_pos (show i / 4 = 0 by omega)]
    rfl
  · simp only [if_neg hi, if_neg (show ¬ i / 4 = 0 by omega)]
    rfl

/-! ## The accesses, part by part (R193, R161) -/

section

variable {n : Nat} {s₀ s : State} {i : Fin 8} {v : View} {a : List Access} {r : SeqRun} {Q : Resp → State → Prop}
  {slave : BitVec 8} {dir irq : Bool} {size dev : Word}

/-- N1 to N3 on an unbound index: the controller is disabled. -/
theorem newChannel_disables (h : Stands s₀ i .N1 v a r s) (hbound : v.glb.bound.getLsbD i = false)
    (next : ∀ r' t, Stands s₀ i .C1 { v with glb := { v.glb with en := false } }
      (a ++ [.rd .seq 0x20 (v.glb.bound.setWidth 32), .rd .seq 0x00 (encCtl v.glb.en v.glb.srst),
        .wr .seq 0x00 (encCtl false v.glb.srst)]) r' t →
      Responds (newChannelMicro slave dir irq size dev i) n r' t Q) :
    Responds (newChannelMicro slave dir irq size dev i) (n + 3) r s Q := by
  refine responds_read (n := n + 2) (tracks_framed _ _) h.tracks regAt_offBind
    (fun t => by simp only [newChannelMicro, h.step]; rfl) (fun t ht => ht.readVal_dmaBind)
    (r' := { r with t := v.glb.bound.setWidth 32, b := v.glb.bound.setWidth 32, step := .N2 }) (fun t => ?_) fun t ht => ?_
  · rw [State.viewed, bindWord_bound, if_neg (by rw [hbound]; exact Bool.false_ne_true)]
  · refine Stands.mod_glb (l := .N2) (l₁ := .N3) (l' := .C1) ⟨rfl, h.cb, h.ba, ht⟩ regAt_offCtl (fun t => rfl)
      (fun r t hl _ => by simp only [newChannelMicro, hl]; rfl) (fun a t ht => ht.readVal_dmaCtl)
      (ins_encCtl_en _ _ false) (fun g => { g with en := false }) (fun _ _ => rfl) (fun a t ht => ?_) fun r' t h' => ?_
    · have hw := writeReg_dmaCtl_en (en := v.glb.en) ht.glb_srst false
      rwa [ins_encCtl_en] at hw
    · refine next r' t ?_
      rwa [List.append_assoc] at h'

/-- C1 where the allocator's answer passes the validator. -/
theorem newChannel_allocates {ba : BusAddr} {answers : List (Option BusAddr)} (h : Stands s₀ i .C1 v a r s)
    (hallocs : v.allocs = some ba :: answers) (hvalid : valid ba size = true)
    (next : ∀ r' t, Stands s₀ i .C2 { v with ba := ba, allocs := answers } (a ++ [.alloc size 128 dir (some ba)]) r' t →
      Responds (newChannelMicro slave dir irq size dev i) n r' t Q) :
    Responds (newChannelMicro slave dir irq size dev i) (n + 1) r s Q := by
  refine responds_goto fun t hw => ?_
  have ht := (tracks_framed _ _).waited _ _ _ h.tracks hw
  have hready : t.allocs = some ba :: answers := (congrArg State.allocs ht.still :).trans hallocs
  refine ⟨{ r with ba := ba, step := .C2 }, (State.tick { t with allocs := answers } 1).log
    (.alloc size bufAlign dir (some ba)), ?_, rfl, next _ _ ⟨rfl, h.cb, rfl, ?_⟩⟩
  · simp only [newChannelMicro, constructMicro, h.step, constructAlloc, allocReq_ready hready, hvalid, if_true]
    rfl
  · exact (tracks_framed _ _).logged _ _ 1 _ rfl (ht.setAllocs answers)

/-- C1 where it fails or the validator refuses the answer: NONE (R198 (c), R251). -/
theorem newChannel_fails {x : Option BusAddr} {answers : List (Option BusAddr)} (h : Stands s₀ i .C1 v a r s)
    (hallocs : v.allocs = x :: answers) (hinvalid : ∀ ba, x = some ba → valid ba size = false) :
    Responds (newChannelMicro slave dir irq size dev i) (n + 1) r s fun q t =>
      q = .none ∧ Tracks s₀ (s₀.viewed i { v with allocs := answers }) (a ++ [.alloc size 128 dir x]) t := by
  refine responds_done fun t hw => ?_
  have ht := (tracks_framed _ _).waited _ _ _ h.tracks hw
  have hready : t.allocs = x :: answers := (congrArg State.allocs ht.still :).trans hallocs
  refine ⟨.none, (State.tick { t with allocs := answers } 1).log (.alloc size bufAlign dir x), ?_, rfl,
    (tracks_framed _ _).logged _ _ 1 _ rfl (ht.setAllocs answers)⟩
  simp only [newChannelMicro, constructMicro, h.step, constructAlloc, allocReq_ready hready]
  cases x with
  | none => rfl
  | some ba => simp only [hinvalid ba rfl]; rfl

/-- C2 where the channel is not enabled, so that ChReset is not run. -/
theorem newChannel_finds_clean (h : Stands s₀ i .C2 v a r s) (hen : v.chan.en = false)
    (next : ∀ r' t, Stands s₀ i .C3 v (a ++ [.rd .seq (chanBase i + choCtl) (encChctl false v.chan.srst v.chan.dir)]) r' t →
      Responds (newChannelMicro slave dir irq size dev i) n r' t Q) :
    Responds (newChannelMicro slave dir irq size dev i) (n + 1) r s Q := by
  refine responds_read (tracks_framed _ _) h.tracks (regAt_ctl i)
    (fun t => by simp only [newChannelMicro, constructMicro, h.step, h.cb]; rfl)
    (fun t ht => ht.readVal_ctl (by rw [viewed_chan_self]; exact hen))
    (r' := { r with t := encChctl false v.chan.srst v.chan.dir, step := .C3 }) (fun t => ?_) fun t ht => ?_
  · rw [viewed_chan_self, encChctl_getLsbD_zero, if_neg Bool.false_ne_true]
  · rw [viewed_chan_self] at ht
    exact next _ t ⟨rfl, h.cb, h.ba, ht⟩

/-- C3 to C6: the four plain registers. -/
theorem newChannel_stores (h : Stands s₀ i .C3 v a r s)
    (next : ∀ r' t, Stands s₀ i .C7 { v with chan := v.chan.configured v.ba size dev v.chan.dir }
      (a ++ [.wr .seq (chanBase i + choAddrLo) (addrLoOf v.ba), .wr .seq (chanBase i + choAddrUp) (addrUpOf v.ba),
        .wr .seq (chanBase i + choDevAddr) dev, .wr .seq (chanBase i + choXferSize) size]) r' t →
      Responds (newChannelMicro slave dir irq size dev i) n r' t Q) :
    Responds (newChannelMicro slave dir irq size dev i) (n + 4) r s Q := by
  refine h.store (c := .addrLo) (w := addrLoOf v.ba) (l' := .C4)
    (fun t => by simp only [newChannelMicro, constructMicro, h.step, h.ba]; rfl) (by decide) fun _ _ h => ?_
  refine h.store (c := .addrUp) (w := addrUpOf v.ba) (l' := .C5)
    (fun t => by simp only [newChannelMicro, constructMicro, h.step, h.ba]; rfl) (by decide) fun _ _ h => ?_
  refine h.store (c := .devAddr) (w := dev) (l' := .C6)
    (fun t => by simp only [newChannelMicro, constructMicro, h.step]; rfl) (by decide) fun _ _ h => ?_
  refine h.store (c := .xferSize) (w := size) (l' := .C7)
    (fun t => by simp only [newChannelMicro, constructMicro, h.step]; rfl) (by decide) fun r' t h => ?_
  simp only [List.append_assoc] at h
  exact next r' t h

/-- C7 and C8: the direction. -/
theorem newChannel_directs (h : Stands s₀ i .C7 v a r s) (hen : v.chan.en = false)
    (next : ∀ r' t, Stands s₀ i .N5 { v with chan := { v.chan with dir := dir } }
      (a ++ [.rd .seq (chanBase i + choCtl) (encChctl false v.chan.srst v.chan.dir),
        .wr .seq (chanBase i + choCtl) (encChctl false v.chan.srst dir)]) r' t →
      Responds (newChannelMicro slave dir irq size dev i) n r' t Q) :
    Responds (newChannelMicro slave dir irq size dev i) (n + 2) r s Q := by
  refine h.mod (l₁ := .C8) (v' := { v with chan := { v.chan with dir := dir } }) (regAt_ctl i)
    (fun t => by simp only [newChannelMicro, constructMicro, h.step, h.cb])
    (fun r t hl hcb => by simp only [newChannelMicro, constructMicro, hl, hcb])
    (fun a t ht => by rw [ht.readVal_ctl (by rw [viewed_chan_self]; exact hen), viewed_chan_self])
    (ins_encChctl_dir _ _ _ dir) rfl (fun b t ht => ?_) next
  have hset := ht.setChan i (fun c => { c with dir := dir }) fun _ _ _ _ => rfl
  rw [viewed_chan_self, viewed_setChan] at hset
  have hten : (t.chan i).en = false := ht.chan_en (by rw [viewed_chan_self]; exact hen)
  have hsrst : (t.chan i).srst = v.chan.srst := by
    rw [← viewed_chan_self s₀ i v]
    exact (congrArg Chan.srst (ht.chan i).1 :)
  have hafter : (t.chan i).ctlAfter (encChctl false v.chan.srst dir) t.draws = { t.chan i with dir := dir } := by
    rw [← hsrst]
    exact ctlAfter_of_disabled hten dir _
  have hw := writeChReg_ctl_ok (ctlUnspecified_of_disabled hten v.chan.srst dir)
  rw [hafter] at hw
  exact ⟨_, hw, hset.tick _⟩

/-- N5 and N6: the peripheral select. -/
theorem newChannel_selects (h : Stands s₀ i .N5 v a r s) (hslave : slave.toNat < 32)
    (next : ∀ r' t, Stands s₀ i .N7 { v with glb := v.glb.withSel i (putSlave i slave) }
      (a ++ [.rd .seq (selOff i) (v.glb.sel i), .wr .seq (selOff i) (putSlave i slave (v.glb.sel i))]) r' t →
      Responds (newChannelMicro slave dir irq size dev i) n r' t Q) :
    Responds (newChannelMicro slave dir irq size dev i) (n + 2) r s Q := by
  refine h.mod_glb (l₁ := .N6) (regAt_selOff i) (y := v.glb.sel i) (w := putSlave i slave (v.glb.sel i))
    (fun t => by simp only [newChannelMicro, h.step])
    (fun r t hl _ => by simp only [newChannelMicro, hl]; rfl) (fun a t ht => ?_)
    (by rw [selField_of_slave slave (by omega)]; rfl) (fun g => g.withSel i (putSlave i slave)) (fun _ _ => rfl)
    (fun a t ht => ?_) next
  · have hsel : t.glb.sel i = v.glb.sel i := ht.of_glb (·.sel i) fun _ => rfl
    rw [readVal_sel, hsel]
  · have hsel : t.glb.sel i = v.glb.sel i := ht.of_glb (·.sel i) fun _ => rfl
    rw [← hsel]
    exact writeReg_sel t i _

/-- Where every other channel that is not bound has no descriptor, binding channel `i` drops none (R57, R77). -/
theorem writeBind_attach {s : State} {i : Fin 8} {w : Word} (d : Desc)
    (hown : ∀ j, j ≠ i → (w.setWidth 8).getLsbD j = false → (s.chan j).desc = none) :
    (s.writeBind w).attach i d =
      { s.attach i d with glb := { s.glb with bound := w.setWidth 8 } } := by
  refine State.ext_chan rfl (fun j => ?_) rfl rfl rfl rfl rfl rfl rfl rfl rfl rfl rfl
  have hattach : State.chan { s.attach i d with glb := { s.glb with bound := w.setWidth 8 } } j = (s.attach i d).chan j :=
    rfl
  rw [hattach, State.attach_chan, State.attach_chan, State.writeBind_chan, State.writeBind_chan]
  by_cases hij : i = j
  · rw [if_pos hij, if_pos hij]
    split
    · rfl
    · rfl
  · rw [if_neg hij, if_neg hij]
    split
    · rfl
    · next hb =>
      have hnone := hown j (Ne.symm hij) (Bool.eq_false_iff.2 hb)
      rw [← hnone]

/-- SEQ's part of N8: the bound bit is written and the descriptor attached. -/
theorem Tracks.bind {t : State} (h : Tracks s₀ (s₀.viewed i v) a t) (d : Desc)
    (hown : ∀ j, j ≠ i → v.glb.bound.getLsbD j = false → (s₀.chan j).desc = none) :
    Tracks s₀
      (s₀.viewed i { v with
        chan := { v.chan with desc := some d }
        glb := { v.glb with bound := withBit v.glb.bound i true } })
      a ((t.writeBind ((withBit v.glb.bound i true).setWidth 32)).attach i d) := by
  have hlow : ((withBit v.glb.bound i true).setWidth 32).setWidth 8 = withBit v.glb.bound i true := by
    rw [BitVec.setWidth_setWidth_of_le _ (by decide), BitVec.setWidth_eq]
  have hbind := writeBind_attach (s := s₀.viewed i v) (i := i) (w := (withBit v.glb.bound i true).setWidth 32) d
    fun j hj hb => by
      rw [hlow, withBit_getLsbD, if_neg fun e => hj (Fin.ext e)] at hb
      exact (congrArg Chan.desc (s₀.setChan_chan_ne (Ne.symm hj) v.chan)).trans (hown j hj hb)
  have hset : Tracks s₀ (((s₀.viewed i v).writeBind ((withBit v.glb.bound i true).setWidth 32)).attach i d) a
      ((t.writeBind ((withBit v.glb.bound i true).setWidth 32)).attach i d) :=
    (h.writeBind _).setChan i (fun c => { c with desc := some d }) fun _ _ _ _ => rfl
  rw [hbind, hlow, State.attach, viewed_setChan, viewed_chan_self] at hset
  exact hset

/-- N7 and N8: the bound bit, and the descriptor with its zeroed buffer. -/
theorem newChannel_binds (h : Stands s₀ i .N7 v a r s)
    (hown : ∀ j, j ≠ i → v.glb.bound.getLsbD j = false → (s₀.chan j).desc = none)
    (next : ∀ r' t, Stands s₀ i .N9
      { v with
        chan := { v.chan with desc := some (Desc.fresh v.ba size dir) }
        glb := { v.glb with bound := withBit v.glb.bound i true } }
      (a ++ [.rd .seq 0x20 (v.glb.bound.setWidth 32), .wr .seq 0x20 ((withBit v.glb.bound i true).setWidth 32)]) r' t →
      Responds (newChannelMicro slave dir irq size dev i) n r' t Q) :
    Responds (newChannelMicro slave dir irq size dev i) (n + 2) r s Q := by
  refine responds_modRead (n := n + 1) (l' := .N8) (tracks_framed _ _) h.tracks regAt_offBind
    (fun t => by simp only [newChannelMicro, h.step]) (fun t ht => ht.readVal_dmaBind) fun u hu => ?_
  refine responds_goto fun t hw => ?_
  have hword : ins (v.glb.bound.setWidth 32) i i 1 = (withBit v.glb.bound i true).setWidth 32 := ins_bound _ _ true
  have hput : wrThen offBind (ins (v.glb.bound.setWidth 32) i i 1) t (fun s =>
        .goto { r with t := v.glb.bound.setWidth 32, step := .N9 } (s.attach i (Desc.fresh r.ba size dir))) =
      .goto { r with t := v.glb.bound.setWidth 32, step := .N9 }
        (((t.writeBind ((withBit v.glb.bound i true).setWidth 32)).attach i (Desc.fresh v.ba size dir)).log
          (.wr .seq offBind ((withBit v.glb.bound i true).setWidth 32))) := by
    rw [hword, wrThen_of_ok regAt_offBind (writeReg_dmaBind _ _), h.ba]
    rfl
  have ht := ((tracks_framed _ _).waited _ _ _ hu hw).bind (Desc.fresh v.ba size dir) hown
  have hlog := (tracks_framed _ _).logged _ _ 0
    (.wr .seq offBind ((withBit v.glb.bound i true).setWidth 32)) rfl ht
  rw [List.append_assoc] at hlog
  exact ⟨_, _, hput, rfl, next _ _ ⟨rfl, h.cb, h.ba, hlog⟩⟩

/-- N9 and N10: the mask bit, and the response. -/
theorem newChannel_masks (h : Stands s₀ i .N9 v a r s) :
    Responds (newChannelMicro slave dir irq size dev i) (n + 2) r s fun q t => q = .ok [] ∧
      Tracks s₀ (s₀.viewed i { v with glb := { v.glb with chm := withBit v.glb.chm i (!irq) } })
        (a ++ [.rd .seq 0x0C (maskWord v.glb.chm v.glb.gie),
          .wr .seq 0x0C (maskWord (withBit v.glb.chm i (!irq)) v.glb.gie)]) t := by
  refine responds_modRead (n := n + 1) (l' := .N10) (tracks_framed _ _) h.tracks regAt_offMask
    (fun t => by simp only [newChannelMicro, h.step]) (fun t ht => ht.readVal_dmaMask) fun u hu => ?_
  have hbit : (if irq then !chmMasked else chmMasked) = !irq := by cases irq <;> rfl
  have hF := fun (g : Globals) (d : BitVec 8) =>
    (rfl : ({ g with done := 0, chm := withBit v.glb.chm i (!irq) } : Globals) =
      { g with done := 0, chm := withBit v.glb.chm i (!irq) })
  refine responds_write_done (tracks_framed _ _) (tracks_framed _ _) hu regAt_offMask
    (w := maskWord (withBit v.glb.chm i (!irq)) v.glb.gie) (q := .ok [])
    (I' := Tracks s₀ (s₀.viewed i { v with glb := { v.glb with chm := withBit v.glb.chm i (!irq) } })) (fun t => ?_)
    (fun t ht => ⟨_, ?_, ht.setGlb (fun g => { g with chm := withBit v.glb.chm i (!irq) }) hF⟩) fun t ht => ?_
  · rw [← ins_maskWord, ← hbit]
    rfl
  · rw [← ins_maskWord]
    exact writeReg_dmaMask_bit ht.glb_gie i (!irq)
  · rw [List.append_assoc] at ht
    exact ⟨rfl, ht⟩

end

/-! ## The whole command -/

/-- What NEW_CHANNEL on channel `i` finds, and, where it succeeds, makes of it: the channel configured, selected, bound
and masked, the controller disabled (R193). -/
def State.made (s : State) (i : Fin 8) (slave : BitVec 8) (dir irq : Bool) (size dev : Word) (ba : BusAddr)
    (answers : List (Option BusAddr)) : State :=
  s.viewed i
    { ba := ba
      allocs := answers
      chan := { (s.chan i).configured ba size dev dir with desc := some (Desc.fresh ba size dir) }
      glb := { s.glb.withSel i (putSlave i slave) with
        en := false
        bound := withBit s.glb.bound i true
        chm := withBit s.glb.chm i (!irq) } }

/-- Its seventeen accesses. -/
def State.madeLog (s : State) (i : Fin 8) (slave : BitVec 8) (dir irq : Bool) (size dev : Word) (ba : BusAddr) :
    List Access :=
  [.rd .seq 0x20 (s.glb.bound.setWidth 32),
   .rd .seq 0x00 (encCtl s.glb.en s.glb.srst), .wr .seq 0x00 (encCtl false s.glb.srst),
   .alloc size 128 dir (some ba),
   .rd .seq (chanBase i + choCtl) (encChctl false (s.chan i).srst (s.chan i).dir),
   .wr .seq (chanBase i + choAddrLo) (addrLoOf ba), .wr .seq (chanBase i + choAddrUp) (addrUpOf ba),
   .wr .seq (chanBase i + choDevAddr) dev, .wr .seq (chanBase i + choXferSize) size,
   .rd .seq (chanBase i + choCtl) (encChctl false (s.chan i).srst (s.chan i).dir),
   .wr .seq (chanBase i + choCtl) (encChctl false (s.chan i).srst dir),
   .rd .seq (selOff i) (s.glb.sel i), .wr .seq (selOff i) (putSlave i slave (s.glb.sel i)),
   .rd .seq 0x20 (s.glb.bound.setWidth 32), .wr .seq 0x20 ((withBit s.glb.bound i true).setWidth 32),
   .rd .seq 0x0C (maskWord s.glb.chm s.glb.gie), .wr .seq 0x0C (maskWord (withBit s.glb.chm i (!irq)) s.glb.gie)]

section

variable {s : State} {idx slave : BitVec 8} {i : Fin 8} {dir irq : Bool} {size dev : Word} {tmo : BitVec 30}

theorem exec_newChannel_makes {ba : BusAddr} {answers : List (Option BusAddr)} (hn : s.NoRest)
    (hi : idx.toNat = i.val) (hslave : slave.toNat < 32) (hbound : s.boundBit i = false) (hen : (s.chan i).en = false)
    (hallocs : s.allocs = some ba :: answers) (hvalid : valid ba size = true)
    (hown : ∀ j, j ≠ i → s.glb.bound.getLsbD j = false → (s.chan j).desc = none) :
    ∃ t : State, exec (.newChannel idx slave dir irq size dev tmo) s = .next (t.respond (.ok [])) ∧
      Tracks s (s.made i slave dir irq size dev ba answers) (s.madeLog i slave dir irq size dev ba) t := by
  have hresp : Responds (newChannelMicro slave dir irq size dev i) 17
      (SeqRun.init (.newChannel idx slave dir irq size dev tmo) .N1 (chanBase i)) s fun q t => q = .ok [] ∧
        Tracks s (s.made i slave dir irq size dev ba answers) (s.madeLog i slave dir irq size dev ba) t :=
    newChannel_disables (stands_init s i _) hbound fun _ _ h =>
    newChannel_allocates h hallocs hvalid fun _ _ h =>
    newChannel_finds_clean h hen fun _ _ h =>
    newChannel_stores h fun _ _ h =>
    newChannel_directs h hen fun _ _ h =>
    newChannel_selects h hslave fun _ _ h =>
    newChannel_binds h hown fun _ _ h =>
    newChannel_masks h
  rw [exec_newChannel_start dir irq size dev tmo hi hslave]
  obtain ⟨q, t, he, rfl, ht⟩ := hresp hn (s.plan.length + 128) (by omega)
  exact ⟨t, he, ht⟩

theorem exec_newChannel_answers_none {x : Option BusAddr} {answers : List (Option BusAddr)} (hn : s.NoRest)
    (hi : idx.toNat = i.val) (hslave : slave.toNat < 32) (hbound : s.boundBit i = false)
    (hallocs : s.allocs = x :: answers) (hinvalid : ∀ ba, x = some ba → valid ba size = false) :
    ∃ t : State, exec (.newChannel idx slave dir irq size dev tmo) s = .next (t.respond .none) ∧
      Tracks s { s with glb := { s.glb with en := false }, allocs := answers }
        [.rd .seq 0x20 (s.glb.bound.setWidth 32), .rd .seq 0x00 (encCtl s.glb.en s.glb.srst),
         .wr .seq 0x00 (encCtl false s.glb.srst), .alloc size 128 dir x] t := by
  have hviewed : s.viewed i { ba := 0, allocs := answers, chan := s.chan i, glb := { s.glb with en := false } } =
      { s with glb := { s.glb with en := false }, allocs := answers } := by
    rw [State.viewed, State.setChan_self]
  have hresp := newChannel_disables (n := 1) (slave := slave) (dir := dir) (irq := irq) (size := size) (dev := dev)
    (stands_init s i (.newChannel idx slave dir irq size dev tmo)) hbound fun _ _ h =>
      newChannel_fails (n := 0) h hallocs hinvalid
  rw [exec_newChannel_start dir irq size dev tmo hi hslave]
  obtain ⟨q, t, he, rfl, ht⟩ := hresp hn (s.plan.length + 128) (by omega)
  rw [hviewed] at ht
  exact ⟨t, he, ht⟩

end

/-- Settles O43: the seventeen accesses of `exec_newChannel_makes`; every channel with a descriptor is bound, so N8 drops
none. -/
theorem newChannelBindsChannel : Obligations.NewChannelBindsChannel := by
  intro s idx slave i dir irq size dev tmo ba answers hinv hn hi hslave hbound hen hallocs hvalid c cb sel selOffset sel'
    bound' chm' made
  have hown : ∀ j, j ≠ i → s.glb.bound.getLsbD j = false → (s.chan j).desc = none := by
    intro j _ hb
    by_contra hd
    exact Bool.eq_false_iff.1 hb (hinv.bound_of_desc hd)
  obtain ⟨t, he, ht⟩ := exec_newChannel_makes (irq := irq) (dev := dev) (tmo := tmo) hn hi hslave hbound hen hallocs
    hvalid hown
  have hmade : (s.made i slave dir irq size dev ba answers).respond (.ok []) = made := by
    simp only [State.made, State.viewed, Globals.withSel, made, sel', sel]
    by_cases h4 : i.val < 4
    · simp only [if_pos h4]
      rfl
    · simp only [if_neg h4]
      rfl
  have hresp := ht.toFollows.respond (.ok [])
  rw [hmade] at hresp
  have hchan : (s.made i slave dir irq size dev ba answers).chan i =
      { c.configured ba size dev dir with desc := some (Desc.fresh ba size dir) } := viewed_chan_self s i _
  refine ⟨t.respond (.ok []), he, ?_, hresp.still, fun hq => (hresp.quiet hq).2, fun o => ?_, ?_⟩
  · exact ht.chan_en (by rw [hchan]; exact hen)
  · have hdesc : t.desc i = some (Desc.fresh ba size dir) := (ht.toFollows.desc i).trans (congrArg Chan.desc hchan)
    exact congrArg (Option.map _) hdesc
  · rw [State.seqLog, State.respond_bus]
    refine ht.seqLog.trans (congrArg (s.seqLog ++ ·) ?_)
    rw [State.madeLog, chanBase_eq, selOff_eq]
    rfl

/-- Settles O45: four accesses, the last of them the allocator request. -/
theorem newChannelConstructionFailure : Obligations.NewChannelConstructionFailure := by
  intro s idx slave i dir irq size dev tmo x answers hn hi hslave hbound hallocs hinvalid failed
  obtain ⟨t, he, ht⟩ := exec_newChannel_answers_none (dir := dir) (irq := irq) (dev := dev) (tmo := tmo) hn hi hslave
    hbound hallocs hinvalid
  have hresp : Follows s failed (t.respond .none) := ht.toFollows.respond .none
  refine ⟨t.respond .none, he, hresp.still, fun hq => (hresp.quiet hq).2, ?_, ht.seqLog⟩
  rw [State.respond_cmdOut]
  exact congrArg (· ++ _) (congrArg State.cmdOut ht.still :)

end Sys2Proof.Machine
end

section
/-! SUPPORT. CTRL_RESET under any schedule (42_controller.md R190, R197): the loop channel by channel, what it has made of
the global block, and which completion flags ENG may have set again behind it. -/

namespace Sys2Proof.Machine

open Sys2Proof.Config

/-! ## What CTRL_RESET has made of the state -/

/-- The bound bits of the first `b` channels and the select fields of the first `m` are cleared, with the descriptors
of the channels that were bound; the controller is disabled, and nothing else has changed but in the global block. -/
structure Wiped (s e : State) (b m : Nat) : Prop where
  frame : e = { s with glb := e.glb, chans := e.chans }
  chan : ∀ j, e.chan j = s.chan j ∨ e.chan j = { s.chan j with desc := none }
  unbound : ∀ j, s.boundBit j = true → e.boundBit j = false → (e.chan j).desc = none
  en : e.glb.en = false
  bound : ∀ j, e.glb.bound.getLsbD j = (s.glb.bound.getLsbD j && decide (b ≤ j))
  sel : ∀ j < m, ∀ k < 8, (e.glb.sel j).getLsbD (8 * (j % 4) + k) = false

section

variable {s e : State} {b m n : Nat}

/-- A change of the global block elsewhere. -/
theorem Wiped.setGlb (h : Wiped s e b m) {g : Globals} (hen : g.en = e.glb.en) (hbound : g.bound = e.glb.bound)
    (hl : g.chselL = e.glb.chselL) (hh : g.chselH = e.glb.chselH) : Wiped s { e with glb := g } b m where
  frame := by
    rw [h.frame]
  chan := h.chan
  unbound j hs he := h.unbound j hs (by rwa [State.boundBit, hbound] at he)
  en := hen.trans h.en
  bound j := by
    rw [hbound]
    exact h.bound j
  sel j hj k hk := by
    have hsel : g.sel j = e.glb.sel j := by rw [Globals.sel, Globals.sel, hl, hh]
    rw [hsel]
    exact h.sel j hj k hk

/-- T4, T8, T16: a write of DMA_MASK. -/
theorem Wiped.setMask (h : Wiped s e b m) (w : Word) : Wiped s { e with glb := e.glb.writeMask w } b m :=
  h.setGlb rfl rfl rfl rfl

/-- T9: a write of DMA_STAT. -/
theorem Wiped.setStat (h : Wiped s e b m) (w : Word) : Wiped s { e with glb := e.glb.writeStat w } b m :=
  h.setGlb rfl rfl rfl rfl

/-- The bound bit of the next channel is clear already. -/
theorem Wiped.skip (h : Wiped s e n m) (hbit : s.glb.bound.getLsbD n = false) : Wiped s e (n + 1) m := by
  refine ⟨h.frame, h.chan, h.unbound, h.en, fun j => ?_, h.sel⟩
  rw [h.bound j]
  by_cases hj : j = n
  · rw [hj, hbit]
    rfl
  · rw [show decide (n ≤ j) = decide (n + 1 ≤ j) by simp only [decide_eq_decide]; omega]

/-- T6: the bound bit of the next channel is cleared, and its descriptor is dropped (R77). -/
theorem Wiped.unbind (h : Wiped s e n m) (hn : n < 8) :
    Wiped s (e.writeBind ((withBit e.glb.bound ⟨n, hn⟩ false).setWidth 32)) (n + 1) m := by
  have hlow : ((withBit e.glb.bound ⟨n, hn⟩ false).setWidth 32).setWidth 8 = withBit e.glb.bound ⟨n, hn⟩ false := by
    rw [BitVec.setWidth_setWidth_of_le _ (by decide), BitVec.setWidth_eq]
  refine ⟨?_, fun j => ?_, fun j hs he => ?_, h.en, fun j => ?_, h.sel⟩
  · rw [h.frame]
    rfl
  · rw [State.writeBind_chan]
    split
    · exact h.chan j
    · rcases h.chan j with hj | hj
      · exact .inr (by rw [hj])
      · exact .inr (by rw [hj])
  · have hclear : ¬ (((withBit e.glb.bound ⟨n, hn⟩ false).setWidth 32).setWidth 8).getLsbD j = true :=
      Bool.eq_false_iff.1 he
    rw [State.writeBind_chan, if_neg hclear]
  · rw [State.writeBind_glb, hlow, withBit_getLsbD, h.bound j]
    by_cases hj : j = n
    · rw [if_pos hj, hj]
      simp
    · rw [if_neg hj, show decide (n ≤ j) = decide (n + 1 ≤ j) by simp only [decide_eq_decide]; omega]

/-- The select field of a channel after another's has been rewritten. -/
theorem withSel_sel (g : Globals) (i j : Nat) (w : Word → Word) :
    (g.withSel i w).sel j = if (i < 4 ↔ j < 4) then w (g.sel j) else g.sel j := by
  unfold Globals.withSel Globals.sel
  by_cases hi : i < 4 <;> by_cases hj : j < 4 <;> simp [hi, hj]

/-- T11: the select field of the next channel is cleared. -/
theorem Wiped.deselect (h : Wiped s e b n) :
    Wiped s { e with glb := e.glb.withSel n fun w => ins w (selHi n) (selLo n) 0 } b (n + 1) := by
  refine ⟨?_, h.chan, h.unbound, h.en, h.bound, fun j hj k hk => ?_⟩
  · rw [h.frame]
  · rw [withSel_sel]
    have hbit : (ins (e.glb.sel j) (selHi n) (selLo n) 0).getLsbD (8 * (j % 4) + k) =
        if selLo n ≤ 8 * (j % 4) + k ∧ 8 * (j % 4) + k ≤ selHi n then false
        else (e.glb.sel j).getLsbD (8 * (j % 4) + k) := by
      rw [ins_getLsbD (by simp [selHi]) (by simp only [selHi, selLo]; omega)]
      simp
    by_cases hjn : j = n
    · subst hjn
      rw [if_pos Iff.rfl, hbit, if_pos (by simp only [selHi, selLo]; omega)]
    · have hold := h.sel j (by omega) k hk
      split
      · rw [hbit, hold, ite_self]
      · exact hold

/-- After the loop no channel is bound or selected. -/
theorem Wiped.bound_eq_zero (h : Wiped s e 8 m) : e.glb.bound = 0 := by
  apply BitVec.eq_of_getLsbD_eq
  intro j hj
  rw [h.bound j, decide_eq_false (by omega), Bool.and_false]
  simp

theorem Wiped.chselL_eq_zero (h : Wiped s e b 8) : e.glb.chselL = 0 := by
  apply BitVec.eq_of_getLsbD_eq
  intro k hk
  have hbit := h.sel (k / 8) (by omega) (k % 8) (by omega)
  rw [Globals.sel, if_pos (by omega), show 8 * (k / 8 % 4) + k % 8 = k by omega] at hbit
  rw [hbit]
  simp

theorem Wiped.chselH_eq_zero (h : Wiped s e b 8) : e.glb.chselH = 0 := by
  apply BitVec.eq_of_getLsbD_eq
  intro k hk
  have hbit := h.sel (4 + k / 8) (by omega) (k % 8) (by omega)
  rw [Globals.sel, if_neg (by omega), show 8 * ((4 + k / 8) % 4) + k % 8 = k by omega] at hbit
  rw [hbit]
  simp

end

/-! ## The completion flags behind the loop (R197, R234) -/

/-- The flags of the first `d` channels have been cleared: one that is set again ENG has set on a channel that is armed
and enabled, and where it needs the controller enabled, on one that is. -/
def Spent (s e : State) (d : Nat) (t : State) : Prop :=
  ∀ j : Fin 8, j.val < d → t.doneFlag j = true → ¬ s.EngFree ∧ (e.chan j).en = true ∧ (e.chan j).armed = true ∧
    (e.sw.needsCtlEn = true → e.glb.en = true)

/-- What CTRL_RESET keeps across the other agents' moves. -/
def Clearing (s e : State) (d : Nat) (a : List Access) (t : State) : Prop := Tracks s e a t ∧ Spent s e d t

section

variable {s e t : State} {d n : Nat} {a : List Access}

theorem clearing_framed (s e : State) (d : Nat) : Framed (Clearing s e d) where
  waited a t u h hw := by
    obtain ⟨ht, hs⟩ := h
    refine ⟨(tracks_framed s e).waited a t u ht hw, fun j hj hdone => ?_⟩
    by_cases hfree : s.EngFree
    · exact hs j hj ((hw.engFree (ht.engFree hfree).1).2.2 j hdone)
    · rcases hw.between.done j hdone with hold | ⟨hen, harm, hctl⟩
      · exact hs j hj hold
      · obtain ⟨-, hen', harm', -⟩ := ht.chan j
        have hsw : t.sw = e.sw := (congrArg State.sw ht.still :)
        exact ⟨hfree, hen' hen, harm' harm, fun hneeds => by rw [← ht.glb_en]; exact hctl (by rw [hsw, hneeds])⟩
  logged a t n x hx h := ⟨(tracks_framed s e).logged a t n x hx h.1, h.2⟩

/-- A change of the global block that leaves the completion flags and the enable bit as they are. -/
theorem Clearing.setGlb (h : Clearing s e d a t) (F : Globals → Globals)
    (hF : ∀ g d, { F { g with done := d } with done := 0 } = { F g with done := 0 })
    (hdone : ∀ g, (F g).done = g.done) (hen : (F e.glb).en = e.glb.en) :
    Clearing s { e with glb := F e.glb } d a { t with glb := F t.glb } := by
  refine ⟨h.1.setGlb F hF, fun j hj hflag => ?_⟩
  rw [State.doneFlag, hdone] at hflag
  have hspent := h.2 j hj hflag
  rw [← hen] at hspent
  exact hspent

theorem Clearing.writeBind (h : Clearing s e d a t) (v : Word) :
    Clearing s (e.writeBind v) d a (t.writeBind v) := by
  refine ⟨h.1.writeBind v, fun j hj hflag => ?_⟩
  have hlive : ((e.writeBind v).chan j).en = (e.chan j).en ∧ ((e.writeBind v).chan j).armed = (e.chan j).armed := by
    rw [State.writeBind_chan]
    split
    · exact ⟨rfl, rfl⟩
    · exact ⟨rfl, rfl⟩
  rw [hlive.1, hlive.2]
  exact h.2 j hj hflag

/-- T9: the flag of the next channel. -/
theorem Clearing.clear (h : Clearing s e n a t) (hn : n < 8) :
    Clearing s { e with glb := e.glb.writeStat (encStatClear n) } (n + 1) a
      { t with glb := t.glb.writeStat (encStatClear n) } := by
  refine ⟨h.1.setGlb (·.writeStat (encStatClear n)) fun _ _ => rfl, fun j hj hflag => ?_⟩
  have hstat : t.glb.writeStat (encStatClear n) = { t.glb with done := withBit t.glb.done ⟨n, hn⟩ false } :=
    writeStat_encStatClear t.glb ⟨n, hn⟩
  rw [State.doneFlag, hstat, withBit_getLsbD] at hflag
  by_cases hjn : j.val = n
  · simp [hjn] at hflag
  · rw [if_neg hjn] at hflag
    exact h.2 j (by omega) hflag

end

/-! ## The accesses, part by part (R190) -/

/-- SEQ stands at label `l` of a CTRL_RESET that began in `s`, with loop index `i`, after `k` accesses; bound bits,
completion flags and select fields of the first `b`, `d` and `m` channels have been dealt with. -/
structure Wiping (s : State) (l : Label) (i b d m k : Nat) (r : SeqRun) (t : State) : Prop where
  step : r.step = l
  index : r.i.toNat = i
  reached : ∃ e a, Wiped s e b m ∧ Clearing s e d a t ∧ a.length = k

section

variable {s t : State} {n k K : Nat} {r : SeqRun} {Q : Resp → State → Prop}

/-- T1 to T4: the controller and the interrupt line are disabled. -/
theorem reset_opens (next : ∀ r' t, Wiping s .T5 0 0 0 0 4 r' t → Responds ctrlResetMicro K r' t Q) :
    Responds ctrlResetMicro (K + 4) (SeqRun.init .ctrlReset .T1 0) s Q := by
  have hwiped : Wiped s { s with glb := { s.glb with en := false } } 0 0 :=
    ⟨rfl, fun _ => .inl rfl, fun j hs he => absurd (hs.symm.trans he) (by simp), rfl,
      fun j => by simp, fun j hj => absurd hj (Nat.not_lt_zero j)⟩
  refine responds_mod (n := K + 2) (l₁ := .T2) (l' := .T3) (tracks_framed s s)
    (clearing_framed s { s with glb := { s.glb with en := false } } 0) (Tracks.refl s) regAt_offCtl (fun _ => rfl)
    (fun _ => rfl) (fun t ht => ht.readVal_dmaCtl) (ins_encCtl_en _ _ false) (fun b t ht => ?_) fun t ht => ?_
  · have hw := writeReg_dmaCtl_en (en := s.glb.en) ht.glb_srst false
    rw [ins_encCtl_en] at hw
    exact ⟨_, hw, ht.setGlb (fun g => { g with en := false }) fun _ _ => rfl, fun j hj => absurd hj (Nat.not_lt_zero _)⟩
  · refine responds_mod (n := K) (l₁ := .T4) (l' := .T5) (clearing_framed s _ 0) (clearing_framed s _ 0) ht regAt_offMask
      (fun _ => rfl) (fun _ => rfl) (fun t ht => ht.1.readVal_dmaMask) rfl
      (fun b t ht => ⟨_, writeReg_dmaMask _ _, ht.setGlb (·.writeMask _) (fun _ _ => rfl) (fun _ => rfl) rfl⟩)
      fun t ht => next _ t ⟨rfl, rfl, _, _, hwiped.setMask _, ht, rfl⟩

/-- T5, and T6 where the channel is bound. -/
theorem reset_unbinds (hn : n < 8) (h : Wiping s .T5 n n n n k r t)
    (next : ∀ r' t, Wiping s .T7 n (n + 1) n n (k + 1 + if s.glb.bound.getLsbD n then 1 else 0) r' t →
      Responds ctrlResetMicro K r' t Q) : Responds ctrlResetMicro (K + 2) r t Q := by
  obtain ⟨hl, hi, e, a, hw, hc, hk⟩ := h
  have hbit : (e.glb.bound.setWidth 32).getLsbD r.i.toNat = s.glb.bound.getLsbD n := by
    have := bindWord_bound e.glb.bound ⟨n, hn⟩
    rw [hi, this, hw.bound, decide_eq_true (Nat.le_refl n), Bool.and_true]
  cases hb : s.glb.bound.getLsbD n with
  | false =>
    rw [hb] at hbit next
    refine Responds.mono ?_ (Nat.le_succ (K + 1))
    refine responds_read (r' := { r with t := e.glb.bound.setWidth 32, step := .T7 }) (clearing_framed s e n) hc
      regAt_offBind (fun t => by simp only [ctrlResetMicro, hl]; rfl) (fun t ht => ht.1.readVal_dmaBind)
      (fun t => by simp only [hbit, Bool.false_eq_true, if_false]) fun t ht => ?_
    exact next _ t ⟨rfl, hi, e, _, hw.skip hb, ht, by simp [hk]⟩
  | true =>
    rw [hb] at hbit next
    refine responds_read (n := K + 1) (r' := { r with t := e.glb.bound.setWidth 32, step := .T6 })
      (clearing_framed s e n) hc regAt_offBind (fun t => by simp only [ctrlResetMicro, hl]; rfl)
      (fun t ht => ht.1.readVal_dmaBind) (fun t => by simp only [hbit, if_true]) fun t ht => ?_
    have hword : ins (e.glb.bound.setWidth 32) r.i.toNat r.i.toNat 0 =
        (withBit e.glb.bound ⟨n, hn⟩ false).setWidth 32 := by
      rw [hi]
      exact ins_bound e.glb.bound ⟨n, hn⟩ false
    refine responds_write (r' := { r with t := e.glb.bound.setWidth 32, step := .T7 }) (clearing_framed s e n)
      (clearing_framed s (e.writeBind ((withBit e.glb.bound ⟨n, hn⟩ false).setWidth 32)) n) ht regAt_offBind
      (fun t => by rw [← hword]; rfl) (fun t ht => ⟨_, writeReg_dmaBind _ _, ht.writeBind _⟩) fun t ht => ?_
    exact next _ t ⟨rfl, hi, _, _, hw.unbind hn, ht, by simp [hk]⟩

/-- T7 and T8: the mask bit. -/
theorem reset_masks (h : Wiping s .T7 n (n + 1) n n k r t)
    (next : ∀ r' t, Wiping s .T9 n (n + 1) n n (k + 2) r' t → Responds ctrlResetMicro K r' t Q) :
    Responds ctrlResetMicro (K + 2) r t Q := by
  obtain ⟨hl, hi, e, a, hw, hc, hk⟩ := h
  refine responds_mod (l₁ := .T8) (l' := .T9) (hi := n) (lo := n) (x := bitW chmMasked) (clearing_framed s e n)
    (clearing_framed s _ n) hc regAt_offMask
    (fun t => by simp only [ctrlResetMicro, hl]) (fun t => by simp only [ctrlResetMicro, hi])
    (fun t ht => ht.1.readVal_dmaMask) rfl
    (fun b t ht => ⟨_, writeReg_dmaMask _ _, ht.setGlb (·.writeMask _) (fun _ _ => rfl) (fun _ => rfl) rfl⟩)
    fun t ht => next _ t ⟨rfl, hi, _, _, hw.setMask _, ht, by simp [hk]⟩

/-- T9: the completion flag. -/
theorem reset_clears (hn : n < 8) (h : Wiping s .T9 n (n + 1) n n k r t)
    (next : ∀ r' t, Wiping s .T10 n (n + 1) (n + 1) n (k + 1) r' t → Responds ctrlResetMicro K r' t Q) :
    Responds ctrlResetMicro (K + 1) r t Q := by
  obtain ⟨hl, hi, e, a, hw, hc, hk⟩ := h
  refine responds_write (r' := { r with step := .T10 }) (w := encStatClear n) (clearing_framed s e n)
    (clearing_framed s _ (n + 1)) hc regAt_offStat
    (fun t => by simp only [ctrlResetMicro, hl, hi]; rfl) (fun t ht => ⟨_, writeReg_dmaStat _ _, ht.clear hn⟩)
    fun t ht => next _ t ⟨rfl, hi, _, _, hw.setStat _, ht, by simp [hk]⟩

/-- T10 and T11: the select field, and on to the next channel. -/
theorem reset_deselects (hn : n < 8) (h : Wiping s .T10 n (n + 1) (n + 1) n k r t)
    (next : ∀ r' t, Wiping s (if n + 1 < nCh then .T5 else .T12) (n + 1) (n + 1) (n + 1) (n + 1) (k + 2) r' t →
      Responds ctrlResetMicro K r' t Q) : Responds ctrlResetMicro (K + 2) r t Q := by
  obtain ⟨hl, hi, e, a, hw, hc, hk⟩ := h
  refine responds_modRead (n := K + 1) (l' := .T11) (v := e.glb.sel n) (clearing_framed s e (n + 1)) hc (regAt_selOff n)
    (fun t => by simp only [ctrlResetMicro, hl, hi]) (fun t ht => ?_) fun t ht => ?_
  · rw [readVal_sel]
    exact ht.1.of_glb (·.sel n) fun _ => rfl
  · have hnext : (resetNext { r with t := e.glb.sel n, step := .T11 }).i.toNat = n + 1 := by
      rw [resetNext_i (by exact hi ▸ hn)]
      exact congrArg (· + 1) hi
    refine responds_write (r' := resetNext { r with t := e.glb.sel n, step := .T11 })
      (I' := Clearing s { e with glb := e.glb.withSel n fun w => ins w (selHi n) (selLo n) 0 } (n + 1))
      (w := ins (e.glb.sel n) (selHi n) (selLo n) 0) (clearing_framed s e (n + 1)) (clearing_framed s _ (n + 1)) ht
      (regAt_selOff n) (fun t => by simp only [ctrlResetMicro, hi]; rfl) (fun t ht => ?_) fun t ht => ?_
    · have hsel : t.glb.sel n = e.glb.sel n := ht.1.of_glb (·.sel n) fun _ => rfl
      have hwrite := writeReg_sel t n fun w => ins w (selHi n) (selLo n) 0
      rw [hsel] at hwrite
      exact ⟨_, hwrite, ht.setGlb (fun g => g.withSel n fun w => ins w (selHi n) (selLo n) 0) (fun _ _ => rfl)
        (fun _ => rfl) rfl⟩
    · refine next _ t ⟨?_, hnext, _, _, hw.deselect, ht, by simp [hk]⟩
      rw [resetNext_step, hi]

/-- The state in which CTRL_RESET responds, after `k` accesses. -/
def WipedOut (s : State) (k : Nat) (q : Resp) (t : State) : Prop :=
  q = .ok [] ∧ ∃ e a, Wiped s e 8 8 ∧ (e.glb.srst = false ∧ e.glb.chm = 0xFF#8 ∧ e.glb.gie = false) ∧
    Clearing s e 8 a t ∧ a.length = k

/-- T12 to T16: the global soft reset, whose event finds the controller quiesced (R78), and the mask. -/
theorem reset_closes (h : Wiping s .T12 8 8 8 8 k r t) : Responds ctrlResetMicro 5 r t (WipedOut s (k + 5)) := by
  obtain ⟨hl, -, e, a, hw, hc, hk⟩ := h
  refine responds_mod (n := 3) (l₁ := .T13) (l' := .T14) (w := encCtl false true) (clearing_framed s e 8)
    (clearing_framed s { e with glb := { e.glb with en := false, srst := true } } 8) hc regAt_offCtl
    (fun t => by simp only [ctrlResetMicro, hl]) (fun _ => rfl) (fun t ht => ht.1.readVal_dmaCtl)
    (by rw [hw.en]; exact ins_encCtl_srst _ _ true) (fun b t ht => ?_) fun t ht => ?_
  · have hquiesced : t.glb.quiesced (encCtl false true) = true := by
      rw [quiesced_iff, ht.1.glb_en, ht.1.glb_bound, ht.1.glb_chselL, ht.1.glb_chselH]
      exact ⟨hw.en, rfl, hw.bound_eq_zero, hw.chselL_eq_zero, hw.chselH_eq_zero⟩
    exact ⟨_, writeReg_dmaCtl_ok (.inr hquiesced), ht.setGlb (fun g => { g with en := false, srst := true })
      (fun _ _ => rfl) (fun _ => rfl) hw.en.symm⟩
  · have hw₁ : Wiped s { e with glb := { e.glb with en := false, srst := true } } 8 8 := hw.setGlb hw.en.symm rfl rfl rfl
    refine responds_mod (n := 1) (l₁ := .T15) (l' := .T16) (w := encCtl false false) (clearing_framed s _ 8)
      (clearing_framed s { e with glb := { e.glb with en := false, srst := false } } 8) ht regAt_offCtl
      (fun _ => rfl) (fun _ => rfl) (fun t ht => ht.1.readVal_dmaCtl) (ins_encCtl_srst false true false)
      (fun b t ht => ?_) fun t ht => ?_
    · exact ⟨_, writeReg_dmaCtl_ok (.inl (Bool.and_false _)), ht.setGlb (fun g => { g with en := false, srst := false })
        (fun _ _ => rfl) (fun _ => rfl) rfl⟩
    · have hw₂ : Wiped s { e with glb := { e.glb with en := false, srst := false } } 8 8 :=
        hw.setGlb hw.en.symm rfl rfl rfl
      exact responds_write_done (clearing_framed s _ 8) (clearing_framed s _ 8) ht regAt_offMask (fun _ => rfl)
        (fun t ht => ⟨_, writeReg_dmaMask _ _, ht.setGlb (·.writeMask _) (fun _ _ => rfl) (fun _ => rfl) rfl⟩)
        fun t ht => ⟨rfl, _, _, hw₂.setMask _, ⟨rfl, rfl, rfl⟩, ht, by simp [hk]⟩

/-- T5 to T11, from channel `n` on, and T12 to T16. -/
theorem reset_loops : ∀ (m n : Nat) (r : SeqRun) (t : State), n + m = 8 →
    Wiping s (if n < nCh then .T5 else .T12) n n n n (4 + 6 * n + (List.range n).countP (s.glb.bound.getLsbD ·)) r t →
    Responds ctrlResetMicro (7 * m + 5) r t (WipedOut s (57 + (List.range 8).countP (s.glb.bound.getLsbD ·)))
  | 0, n, r, t, hnm, h => by
    obtain rfl : n = 8 := hnm
    have hout := reset_closes h
    rwa [show 4 + 6 * 8 + (List.range 8).countP (s.glb.bound.getLsbD ·) + 5 =
      57 + (List.range 8).countP (s.glb.bound.getLsbD ·) by omega] at hout
  | m + 1, n, r, t, hnm, h => by
    have hn : n < 8 := by omega
    rw [if_pos (show n < nCh from hn)] at h
    refine reset_unbinds (K := 7 * m + 10) hn h fun r t h => ?_
    refine reset_masks (K := 7 * m + 8) h fun r t h => ?_
    refine reset_clears (K := 7 * m + 7) hn h fun r t h => ?_
    refine reset_deselects (K := 7 * m + 5) hn h fun r t h => reset_loops m (n + 1) r t (by omega) ?_
    have hcount : (List.range (n + 1)).countP (s.glb.bound.getLsbD ·) =
        (List.range n).countP (s.glb.bound.getLsbD ·) + if s.glb.bound.getLsbD n then 1 else 0 := by
      rw [List.range_succ, List.countP_append, List.countP_singleton]
    rw [hcount]
    convert h using 1
    omega

/-- CTRL_RESET completes from every state whose schedule does not cut it. -/
theorem exec_ctrlReset (hn : s.NoRest) : ∃ t, exec .ctrlReset s = .next (t.respond (.ok [])) ∧
    WipedOut s (57 + (List.range 8).countP (s.glb.bound.getLsbD ·)) (.ok []) t := by
  have hresponds := reset_opens (K := 7 * 8 + 5) (s := s) fun r t h => reset_loops 8 0 r t rfl h
  obtain ⟨q, t, hexec, hout⟩ := start_of_responds hresponds (by decide) hn
  obtain rfl : q = .ok [] := hout.1
  exact ⟨t, hexec, hout⟩

/-- Settles O41: the loop adds one access for each channel whose bound bit it reads set. -/
theorem controllerResetAccessCount : Obligations.ControllerResetAccessCount := by
  intro s hn
  obtain ⟨t, hexec, -, e, a, -, -, ⟨ht, -⟩, ha⟩ := exec_ctrlReset hn
  refine ⟨_, hexec, ?_⟩
  have hcount : (List.range 8).countP (s.glb.bound.getLsbD ·) = (List.finRange 8).countP fun i => s.boundBit i := by
    rw [← List.map_coe_finRange_eq_range, List.countP_map]
    rfl
  have hlog : (t.respond (.ok [])).seqLog = s.seqLog ++ a := ht.seqLog
  rw [hlog, List.length_append, ha, hcount, Nat.add_assoc]

/-! ## The state in which CTRL_RESET responds (R197) -/

/-- Every channel has lost its descriptor, and nothing else of it has changed. -/
theorem Wiped.chan_eq {e : State} {m : Nat} (h : Wiped s e 8 m) (hinv : s.Inv) (j : Fin 8) :
    e.chan j = { s.chan j with desc := none } := by
  rcases h.chan j with hj | hj
  · have hnone : (s.chan j).desc = none := by
      by_contra hd
      have hgone := h.unbound j (hinv.bound_of_desc hd) (by rw [State.boundBit, h.bound_eq_zero]; simp)
      exact hd (hj ▸ hgone)
    rw [hj, ← hnone]
  · exact hj

theorem Wiped.chans_eq {e : State} {m : Nat} (h : Wiped s e 8 m) (hinv : s.Inv) :
    e.chans = s.chans.map fun c => { c with desc := none } := by
  ext j hj : 1
  rw [Vector.getElem_map]
  exact h.chan_eq hinv ⟨j, hj⟩

/-- Settles O40: what `Wiped` says after the whole loop, and `Spent` of the completion flags. -/
theorem controllerResetPostState : Obligations.ControllerResetPostState := by
  intro s hinv hn
  obtain ⟨t, hexec, -, e, a, hw, ⟨hsrst, hchm, hgie⟩, ⟨ht, hspent⟩, -⟩ := exec_ctrlReset hn
  have hchans := hw.chans_eq hinv
  have hdone : ∀ j, t.doneFlag j = true → ¬ s.EngFree ∧ (s.chan j).en = true ∧ (s.chan j).armed = true ∧
      (s.sw.needsCtlEn = true → e.glb.en = true) := by
    intro j hj
    have hlate := hspent j j.isLt hj
    rw [hw.chan_eq hinv j, show e.sw = s.sw by rw [hw.frame]] at hlate
    exact hlate
  have hclear : (∀ j, t.doneFlag j = false) → t.glb.done = 0#8 := fun h =>
    BitVec.eq_of_getLsbD_eq fun j hj => (h ⟨j, hj⟩).trans (by simp)
  refine ⟨_, hexec, ?_, ?_, fun hneeds => hclear fun j => ?_, fun j hj => ?_,
    fun hfree => ⟨hclear fun j => ?_, fun j => ?_⟩⟩
  · have hglb : ({ e.glb with done := 0 } : Globals) =
        { en := false, srst := false, chselL := 0, chselH := 0, done := 0, chm := 0xFF, gie := false, bound := 0 } := by
      simp only [hw.en, hsrst, hw.chselL_eq_zero, hw.chselH_eq_zero, hchm, hgie, hw.bound_eq_zero]
      rfl
    rw [(ht.toFollows.respond _).still, hw.frame, hchans]
    simp only [State.still, State.respond, hglb]
  · have hlow : (t.glb.gie == gieEnabled) = false := by
      rw [ht.glb_gie, hgie]
      rfl
    exact Bool.and_eq_false_imp.2 fun h => absurd (hlow.symm.trans h) (by simp)
  · exact Bool.eq_false_iff.2 fun hj => Bool.eq_false_iff.1 hw.en ((hdone j hj).2.2.2 hneeds)
  · obtain ⟨-, hen, harmed, -⟩ := hdone j hj
    exact ⟨hen, harmed⟩
  · exact Bool.eq_false_iff.2 fun hj => (hdone j hj).1 hfree
  · have hlast : (t.respond (.ok [])).chan j = e.chan j := by
      rw [State.chan, State.chan, ← (ht.engFree hfree).2]
      rfl
    rw [hlast, hw.chan_eq hinv j]

end

end Sys2Proof.Machine
end

section
/-! SUPPORT. The status decoder (43_interrupt_handler.md R220): the bitmap as a sum over its bits, and the bits of the
status word that it depends on. -/

namespace Sys2Proof.Machine

open Sys2Proof.Config

/-! ## A word as the sum of its bits -/

theorem toNat_getLsbD {w : Nat} (x : BitVec w) (k : Nat) : (x.getLsbD k).toNat = x.toNat / 2 ^ k % 2 :=
  Nat.toNat_testBit _ _

/-- The low `n` bits of a word, summed by their weights. -/
theorem toNat_mod_eq_sum_bits {w : Nat} (x : BitVec w) : ∀ n : Nat,
    x.toNat % 2 ^ n = ((List.range n).map fun i => (x.getLsbD i).toNat * 2 ^ i).sum
  | 0 => by simp [Nat.mod_one]
  | n + 1 => by
    rw [List.range_succ, List.map_append, List.sum_append, ← toNat_mod_eq_sum_bits x n, Nat.mod_pow_succ,
      List.map_singleton, List.sum_singleton, toNat_getLsbD, Nat.mul_comm (2 ^ n)]

theorem toNat_eq_sum_bits {w : Nat} (x : BitVec w) :
    x.toNat = ((List.range w).map fun i => (x.getLsbD i).toNat * 2 ^ i).sum := by
  rw [← toNat_mod_eq_sum_bits, Nat.mod_eq_of_lt x.isLt]

/-- The form in which the rule takes a bit out of a word: shifted down and masked. -/
theorem toNat_shiftRight_and_one (s : Word) (k : Nat) : ((s >>> k) &&& 1#32).toNat = (s.getLsbD k).toNat := by
  rw [toNat_getLsbD, BitVec.toNat_and, BitVec.toNat_ushiftRight, Nat.shiftRight_eq_div_pow]
  exact Nat.and_one_is_mod _

/-! ## The decoder (R220) -/

/-- The bits of `0x1111_1111` are the ones the decoder reads, so masking with it loses none of them. -/
theorem decodeStatus_and_mask (s : Word) : decodeStatus (s &&& 0x11111111#32) = decodeStatus s := by
  have hmask : ∀ i : Fin 8, (0x11111111#32).getLsbD (4 * i) = true := by decide
  apply BitVec.eq_of_getLsbD_eq
  intro i hi
  rw [decodeStatus_getLsbD, decodeStatus_getLsbD, BitVec.getLsbD_and, hmask ⟨i, hi⟩, Bool.and_true]

theorem decodeStatus_toNat (s : Word) :
    (decodeStatus s).toNat = ((List.range 8).map fun i => ((s >>> (4 * i)) &&& 1#32).toNat * 2 ^ i).sum := by
  rw [toNat_eq_sum_bits]
  refine congrArg List.sum (List.map_congr_left fun i hi => ?_)
  rw [decodeStatus_getLsbD, decide_eq_true (List.mem_range.1 hi), Bool.true_and, toNat_shiftRight_and_one]

/-- Settles O10: the sum is that of the bitmap's own bits; masking to the eight places leaves the bitmap as it is. -/
theorem statusDecoderIsTheSum : Obligations.StatusDecoderIsTheSum := by
  refine ⟨decodeStatus_toNat, fun s s' h => ?_, by decide, by decide, by decide, by decide, by decide, by decide⟩
  rw [← decodeStatus_and_mask s, h, decodeStatus_and_mask]

end Sys2Proof.Machine
end

section
/-! SUPPORT. HANDLE_IRQ on both kinds of port (43_interrupt_handler.md R221, R222): its one read and its one clearing
write, with any moves of the other agents between them. -/

namespace Sys2Proof.Machine

open Sys2Proof.Config

/-- The all-ones write clears every flag, whatever was set (R221, R80). -/
theorem writeStat_all (g : Globals) : g.writeStat statClearAll = { g with done := 0#8 } := by
  rw [Globals.writeStat, decodeStatus_all, show ~~~0xFF#8 = 0#8 by decide, BitVec.and_zero]

/-! ## A service port (R26, R105, R221) -/

section
variable {s : State} {k : Nat} {p : IrqPort}

theorem irqStep_accepts {q : Packet} {rest : List Packet} (hp : s.irqh[k]? = some p) (hrun : p.run = .idle)
    (hin : p.inbox = q :: rest) (hq : decode q = .ok .handleIrq) :
    s.irqStep k = s.setPort k { p with run := .busy .H1 0, inbox := rest } := by
  simp only [State.irqStep, hp, hrun, hin, State.irqAccept, hq]

theorem irqStep_reads {v : Word} (hp : s.irqh[k]? = some p) (hrun : p.run = .busy .H1 v) :
    s.irqStep k = (s.setPort k { p with run := .busy .H2 (statWord s.glb.done) }).log
      (.rd (.irqh k) offStat (statWord s.glb.done)) := by
  simp only [State.irqStep, hp, hrun, State.irqH1, State.readVal]

theorem irqStep_clears {v : Word} (hp : s.irqh[k]? = some p) (hrun : p.run = .busy .H2 v) :
    s.irqStep k = ({ s with glb := { s.glb with done := 0#8 } }.setPort k
      { p with run := .idle, outbox := p.outbox ++ [[0#32, (decodeStatus v).setWidth 32]] }).log
      (.wr (.irqh k) offStat statClearAll) := by
  simp only [State.irqStep, hp, hrun, State.irqH2, writeStat_all, packet_ok]

/-- A port that exists holds what was put there last. -/
theorem getElem?_set_of_port (hp : s.irqh[k]? = some p) (p' : IrqPort) : (s.irqh.set k p')[k]? = some p' :=
  List.getElem?_set_self (List.getElem?_eq_some_iff.1 hp).1

/-- The two turns that take the packet and read the status register. -/
theorem others_accept_read {rest : List Packet} {q : Packet} (hp : s.irqh[k]? = some p) (hrun : p.run = .idle)
    (hin : p.inbox = q :: rest) (hq : decode q = .ok .handleIrq) :
    s.others [.irqh k, .irqh k] =
      { s with
        irqh := s.irqh.set k { run := .busy .H2 (statWord s.glb.done), inbox := rest, outbox := p.outbox }
        bus := s.bus ++ [.rd (.irqh k) offStat (statWord s.glb.done)] } := by
  rw [others_cons, others_cons, others_nil, State.otherTurn, State.otherTurn, irqStep_accepts hp hrun hin hq,
    irqStep_reads (getElem?_set_of_port hp _) rfl]
  simp only [State.log, State.setPort, List.set_set]

end

/-! ## ENG and the service ports -/

/-- ENG neither reads nor writes a service port or the access log. -/
theorem engMove_withPorts (s : State) (m : EngMove) (ports : List IrqPort) (b : List Access) :
    ({ s with irqh := ports, bus := b } : State).engMove m = { s.engMove m with irqh := ports, bus := b } := by
  have he : ({ s with irqh := ports, bus := b } : State).engEnabled m = s.engEnabled m := by cases m <;> rfl
  unfold State.engMove
  rw [he]
  cases s.engEnabled m
  · rfl
  · cases m <;> rfl

theorem others_eng_withPorts : ∀ (ms : List EngMove) (s : State) (ports : List IrqPort) (b : List Access),
    ({ s with irqh := ports, bus := b } : State).others (ms.map Turn.eng) =
      { s.others (ms.map Turn.eng) with irqh := ports, bus := b }
  | [], _, _, _ => rfl
  | m :: ms, s, ports, b => by
    rw [List.map_cons, others_cons, others_cons, State.otherTurn, State.otherTurn, engMove_withPorts,
      others_eng_withPorts ms]

/-- Settles O22: H1 takes the flags as they are, ENG leaves the port with them, and H2 clears every flag. -/
theorem servicePortRunsHandleIrq : Obligations.ServicePortRunsHandleIrq := by
  intro s k port rest ms hport hrun hin mid
  rw [others_append, others_append, others_accept_read hport hrun hin sampleWordsDecode.1, others_eng_withPorts,
    others_cons, others_nil, State.otherTurn, irqStep_clears (getElem?_set_of_port hport _) rfl, decodeStatus_statWord]
  simp only [State.log, State.setPort, List.set_set, List.append_assoc, List.singleton_append]
  rfl

/-! ## The command port (R221, R222) -/

/-- Settles O58: the command is its read and its write. -/
theorem handleIrqReportsAndClears : Obligations.HandleIrqReportsAndClears := by
  intro s p₁ p₂ q hp s₁ s₂
  simp only [exec, execHandleIrq]
  rw [start_eq, drive_read_write (w := fun _ => statClearAll) (a := fun t => .ok [(decodeStatus t).setWidth 32])
    (next := .H2) hp regAt_offStat (fun _ => rfl) (fun _ _ => rfl) (writeReg_dmaStat _ _), writeStat_all,
    State.readVal, decodeStatus_statWord]
  rfl

/-- A completion that ENG can make disarms its channel where ENG is one-shot (R234). -/
theorem engMove_complete_disarms {s : State} {j : Fin 8} (hen : (s.chan j).en = true)
    (harmed : (s.chan j).armed = true) (hctl : s.glb.en = true) (hshot : s.sw.oneShot = true) :
    ((s.engMove (.complete j)).chan j).armed = false := by
  have henabled : s.engEnabled (.complete j) = true := by simp [State.engEnabled, hen, harmed, hctl]
  rw [State.engMove, if_pos henabled, State.engEffect, State.flagDone_chan, State.setChan_chan_self, hshot]
  exact Bool.and_false _

/-- Settles O59: O58 with the completion as the one move between the two accesses. -/
theorem handleIrqCanLoseCompletion : Obligations.HandleIrqCanLoseCompletion := by
  intro s j hen harmed hctl hflag hplan
  have hp : s.seqAfterTwice [] [.eng (.complete j)] [] :=
    ⟨[.eng (.complete j), .seq], ⟨by simp, .inl hplan⟩, by simp [Turn.other], .inl rfl⟩
  refine ⟨_, s.glb.done.setWidth 32, handleIrqReportsAndClears s _ _ _ hp, ?_, ?_, rfl, fun hshot => ?_⟩
  · rw [State.respond_cmdOut, packet_ok, State.log_cmdOut]
    exact congrArg (· ++ _) (others_between _ _).cmdOut
  · exact (bindWord_bound _ j).trans hflag
  · exact engMove_complete_disarms (s := s.log _) hen harmed hctl hshot

end Sys2Proof.Machine
end

section
/-! SUPPORT. The moves of ENG one by one (44_engine_environment.md R231, R233, R234): when each is enabled, what it
leaves alone (R237), and the one way in which a completion flag becomes 1, carried through every step of the machine. -/

namespace Sys2Proof.Machine

/-! ## A move of ENG -/

section
variable {s : State} {m : EngMove} {i : Fin 8}

theorem engMove_of_enabled (h : s.engEnabled m = true) : s.engMove m = s.engEffect m := if_pos h

theorem engMove_of_not_enabled (h : s.engEnabled m ≠ true) : s.engMove m = s := if_neg h

/-- The precondition of a completion (R234). -/
theorem engEnabled_complete_iff : s.engEnabled (.complete i) = true ↔
    (s.chan i).en = true ∧ (s.chan i).armed = true ∧ (s.sw.needsCtlEn = true → s.glb.en = true) := by
  simp only [State.engEnabled, Bool.and_eq_true, Bool.or_eq_true, Bool.not_eq_true', and_assoc]
  cases s.sw.needsCtlEn <;> simp

/-- Whatever ENG does, nothing but completion flags and channels moves (R237). -/
theorem engMove_frame (s : State) (m : EngMove) :
    s.engMove m = { s with glb := { s.glb with done := (s.engMove m).glb.done }, chans := (s.engMove m).chans } := by
  unfold State.engMove
  split
  · cases m <;> rfl
  · rfl

/-- The flags after a move: those before it, and the flag of a completion that could be made (R234, R237). -/
theorem engMove_doneFlag (s : State) (m : EngMove) (j : Fin 8) :
    (s.engMove m).doneFlag j = (s.doneFlag j || (s.engEnabled m && decide (m = .complete j))) := by
  by_cases h : s.engEnabled m = true
  · rw [engMove_of_enabled h, h, Bool.true_and]
    cases m with
    | ackDisable i => exact (Bool.or_false _).symm
    | selfDisable i => exact (Bool.or_false _).symm
    | complete i =>
      rw [State.engEffect, doneFlag_flagDone]
      simp only [EngMove.complete.injEq, eq_comm (a := j)]
      rfl
  · rw [engMove_of_not_enabled h, Bool.eq_false_iff.2 h, Bool.false_and, Bool.or_false]

/-- The channels after a completion that can be made (R234). -/
theorem engMove_complete_chan (h : s.engEnabled (.complete i) = true) (j : Fin 8) :
    (s.engMove (.complete i)).chan j = if i = j then { s.chan i with armed := !s.sw.oneShot } else s.chan j := by
  have harmed : (s.chan i).armed = true := (engEnabled_complete_iff.1 h).2.1
  rw [engMove_of_enabled h, State.engEffect, State.flagDone_chan, State.setChan_chan, harmed, Bool.true_and]

end

/-- Settles O19: each move by its precondition; a completion by the flags, the channels and the frame it has. -/
theorem engineMovesAreExact : Obligations.EngineMovesAreExact := by
  intro s i c off t
  refine ⟨rfl, ?_, fun hen harmed hctl => ?_, fun h => engMove_of_not_enabled fun henabled => ?_⟩
  · have hpre : s.engEnabled (.selfDisable i) = true ↔ s.sw.selfDisable = true ∧ c.en = true := Bool.and_eq_true_iff
    simp only [State.engMove, hpre]
    rfl
  · have henabled : s.engEnabled (.complete i) = true := engEnabled_complete_iff.2 ⟨hen, harmed, hctl⟩
    refine ⟨?_, fun j hj => ?_, ?_, fun j hj => ?_, engMove_frame s _⟩
    · rw [engMove_doneFlag, henabled, decide_eq_true rfl, Bool.true_and, Bool.or_true]
    · have hne : EngMove.complete i ≠ .complete j := fun he => hj (EngMove.complete.inj he).symm
      rw [engMove_doneFlag, decide_eq_false hne, Bool.and_false, Bool.or_false]
    · rw [engMove_complete_chan henabled, if_pos rfl]
    · rw [engMove_complete_chan henabled, if_neg (Ne.symm hj)]
  · obtain ⟨hen, harmed, hctl⟩ := engEnabled_complete_iff.1 henabled
    rcases h with h | h | ⟨hneeds, h⟩
    · exact Bool.eq_false_iff.1 h hen
    · exact Bool.eq_false_iff.1 h harmed
    · exact Bool.eq_false_iff.1 h (hctl hneeds)

/-- Settles O20: any moves are moves `Between`, and one of ENG has its frame and only adds flags. -/
theorem otherAgentsLeaveSoftwareState : Obligations.OtherAgentsLeaveSoftwareState := by
  refine ⟨fun s p => ⟨(others_between p s).still, (others_between p s).en⟩, fun s m => ⟨fun j h => ?_, ?_⟩⟩
  · rw [engMove_doneFlag, h, Bool.true_or]
  · rw [engMove_frame]
    exact ⟨rfl, rfl, rfl, rfl⟩

/-! ## What the turns of a schedule and the micro-steps keep, a step keeps -/

/-- A property of the state and its schedule: as `MachineClosed`, but of the other agents' moves it need be kept only by
those the schedule holds. -/
structure ScheduleClosed (P : State → Prop) : Prop extends StepClosed P where
  turns : ∀ s, P s → P (runTurns s.plan s).state
  idleTurn : ∀ s, P s → P s.idleTurn
  respond : ∀ s q, P s → P (s.respond q)
  suspend : ∀ s r, P s → P (s.suspend r)
  setFault : ∀ s x, P s → P (s.setFault x)
  cmdIn : ∀ s l, P s → P { s with cmdIn := l }

section
variable {P : State → Prop}

theorem drive_keeps_scheduled (hP : ScheduleClosed P) (c : Instr) : ∀ (n : Nat) (r : SeqRun) (s : State), P s →
    Ends P (fun _ => True) (fun _ => True) (drive (microOf c) n r s)
  | 0, r, s, h => hP.suspend s r h
  | n + 1, r, s, h => by
    have ht := hP.turns s h
    rw [drive]
    cases hr : runTurns s.plan s with
    | rest u =>
      rw [hr] at ht
      exact hP.suspend u r ht
    | go u =>
      rw [hr] at ht
      have hk := microOf_keeps (r := r) (s := u) hP.toStepClosed ht c
      simp only
      cases hm : microOf c r u with
      | goto r' v =>
        rw [hm] at hk
        exact drive_keeps_scheduled hP c n r' v hk.1
      | spin r' v =>
        rw [hm] at hk
        simp only
        split
        · exact hP.suspend v r' hk.1
        · exact drive_keeps_scheduled hP c n r' v hk.1
      | done q v =>
        rw [hm] at hk
        exact hP.respond v q hk
      | stop x => trivial
      | fault x => trivial

theorem exec_keeps_scheduled (hP : ScheduleClosed P) (c : Instr) (s : State) (h : P s) :
    Ends P (fun _ => True) (fun _ => True) (exec c s) := by
  rcases exec_cases c s with he | he | ⟨vals, he⟩ | ⟨lbl, cb, he⟩ <;> rw [he]
  · exact hP.respond _ _ (hP.setFault _ _ h)
  · trivial
  · exact hP.respond _ _ h
  · exact drive_keeps_scheduled hP c _ _ _ h

theorem step_keeps_scheduled (hP : ScheduleClosed P) {s t : State} (hs : step s = .next t) (h : P s) : P t := by
  have key : Ends P (fun _ => True) (fun _ => True) (step s) := by
    cases hseq : s.seq with
    | busy r =>
      rw [step_of_busy hseq]
      exact drive_keeps_scheduled hP _ _ _ _ h
    | idle =>
      cases hin : s.cmdIn with
      | nil =>
        rw [step_of_waiting hseq hin]
        exact hP.idleTurn s h
      | cons p rest =>
        rw [step_of_idle hseq hin]
        unfold accept
        split
        · exact exec_keeps_scheduled hP _ _ (hP.cmdIn _ _ h)
        · exact hP.respond _ _ (hP.setFault _ _ (hP.cmdIn _ _ h))
  rw [hs] at key
  exact key

end

/-! ## Completion flags (R234, R80) -/

/-- No write of a register sets a completion flag (R80). -/
theorem writeReg_doneFlag {s t : State} {v : Word} {g : Reg} {i : Fin 8} (hw : s.writeReg v g = .ok t)
    (h : t.doneFlag i = true) : s.doneFlag i = true := by
  cases g with
  | dmaStat =>
    cases hw
    rw [State.doneFlag, writeStat_getLsbD] at h
    exact (Bool.and_eq_true_iff.1 h).1
  | dmaCtl =>
    obtain rfl := writeReg_dmaCtl_of_ok hw
    exact h
  | chan j r =>
    cases r with
    | ctl =>
      simp only [State.writeReg, State.writeChReg] at hw
      split at hw
      · cases hw
      · cases hw
        exact h
    | _ => cases hw; exact h
  | _ => cases hw; exact h

/-- No turn but ENG's completion on the channel sets its flag (R234). -/
theorem otherTurn_doneFlag {s : State} {x : Turn} {i : Fin 8} (hx : x ≠ .eng (.complete i))
    (h : (s.otherTurn x).doneFlag i = true) : s.doneFlag i = true := by
  cases x with
  | seq => exact h
  | rest => exact h
  | eng m =>
    have hm : m ≠ .complete i := fun he => hx (he ▸ rfl)
    rwa [State.otherTurn, engMove_doneFlag, decide_eq_false hm, Bool.and_false, Bool.or_false] at h
  | irqh k =>
    obtain ⟨d, f, ports, b, he, hd, -⟩ := irqStep_cases s k
    rw [State.otherTurn, he] at h
    exact hd i h

/-- Flag `i` is set in `t` only if it was in `s`, and the schedule that `t` still has completes nothing on `i`. -/
def State.Uncompleted (s : State) (i : Fin 8) (t : State) : Prop :=
  Turn.eng (.complete i) ∉ t.plan ∧ (t.doneFlag i = true → s.doneFlag i = true)

theorem runTurns_uncompleted {s : State} {i : Fin 8} : ∀ (p : List Turn) (t : State), Turn.eng (.complete i) ∉ p →
    (t.doneFlag i = true → s.doneFlag i = true) → s.Uncompleted i (runTurns p t).state
  | [], _, hp, h => ⟨hp, h⟩
  | .seq :: _, _, hp, h => ⟨List.not_mem_of_not_mem_cons hp, h⟩
  | .rest :: _, _, hp, h => ⟨List.not_mem_of_not_mem_cons hp, h⟩
  | .eng m :: p, t, hp, h => runTurns_uncompleted p (t.otherTurn (.eng m)) (List.not_mem_of_not_mem_cons hp)
      fun hd => h (otherTurn_doneFlag (List.ne_of_not_mem_cons hp).symm hd)
  | .irqh k :: p, t, hp, h => runTurns_uncompleted p (t.otherTurn (.irqh k)) (List.not_mem_of_not_mem_cons hp)
      fun hd => h (otherTurn_doneFlag (List.ne_of_not_mem_cons hp).symm hd)

theorem idleTurn_uncompleted {s t : State} {i : Fin 8} (h : s.Uncompleted i t) : s.Uncompleted i t.idleTurn := by
  cases hp : t.plan with
  | nil => rwa [idleTurn_nil hp]
  | cons x p =>
    obtain ⟨hplan, hflag⟩ := h
    rw [hp] at hplan
    rw [idleTurn_cons hp]
    refine ⟨?_, fun hd => hflag ?_⟩
    · rw [otherTurn_plan]
      exact List.not_mem_of_not_mem_cons hplan
    · exact otherTurn_doneFlag (s := { t with plan := p }) (List.ne_of_not_mem_cons hplan).symm hd

theorem uncompleted_scheduleClosed (s : State) (i : Fin 8) : ScheduleClosed (s.Uncompleted i) where
  read _ _ _ h := h
  write _ _ _ _ _ h hw :=
    ⟨by rw [State.log_plan, writeReg_frame hw]; exact h.1, fun hd => h.2 (writeReg_doneFlag hw hd)⟩
  alloc _ _ _ _ h := h
  memWrite _ _ _ _ _ h _ := h
  attach _ _ _ _ _ _ _ _ _ h hw :=
    ⟨by rw [State.attach_plan, State.log_plan, writeReg_frame hw]; exact h.1, fun hd => h.2 (writeReg_doneFlag hw hd)⟩
  turns t h := runTurns_uncompleted t.plan t h.1 h.2
  idleTurn _ h := idleTurn_uncompleted h
  respond _ _ h := h
  suspend _ _ h := h
  setFault t x h := by
    rw [State.Uncompleted, State.setFault_plan, State.doneFlag, State.setFault_glb]
    exact h
  cmdIn _ _ h := h

/-- Settles O21: the state itself is `Uncompleted`, and every effect of a step under its schedule keeps it so. -/
theorem onlyCompletionSetsDone : Obligations.OnlyCompletionSetsDone :=
  fun s _ i hstep hplan => (step_keeps_scheduled (uncompleted_scheduleClosed s i) hstep ⟨hplan, id⟩).2

end Sys2Proof.Machine
end

section
/-! SUPPORT. Termination of ChReset's spin under ENG_ACK_FAIR (41_channel.md R162, 44_engine_environment.md R232): a
step that begins at the spin ends with the response, or at the spin with the disable still pending; and no run stands
there for ever. -/

namespace Sys2Proof.Machine

open Sys2Proof.Config

/-! ## A command that may spin -/

/-- What a micro-step of a command that ends but for its spin must establish: it goes to a position nearer the end where
the assertion holds, it spins where `Q` holds should the step of the machine end there, or the command is over. -/
def Micro.Closes (I : SeqRun → State → Prop) (Q : State → Prop) (μ : SeqRun → Nat) (m : Nat) (plan : List Turn) :
    Micro → Prop
  | .goto r s => I r s ∧ μ r < m ∧ s.plan = plan
  | .spin r s => I r s ∧ Q (s.suspend r) ∧ μ r ≤ m ∧ s.plan = plan
  | .done _ _ | .stop _ | .fault _ => True

/-- Without a rest in the schedule such a command ends its step with a response, is refused, or has used up the schedule
at the spin: a read of the spin takes a turn of the schedule, any other micro-step brings the command nearer its end. -/
theorem drive_closes {f : SeqRun → State → Micro} {I : SeqRun → State → Prop} {Q : State → Prop} {μ : SeqRun → Nat}
    (hother : ∀ r s t, I r s → Between s t → I r t)
    (hstep : ∀ r s, I r s → (f r s).Closes I Q μ (μ r) s.plan)
    (hdone : ∀ (a : Resp) (s : State), Q (s.respond a)) :
    ∀ (n : Nat) (r : SeqRun) (s : State), I r s → s.NoRest → μ r + s.plan.length < n →
      Ends Q (fun _ => True) (fun _ => True) (drive f n r s)
  | 0, _, _, _, _, h => absurd h (Nat.not_lt_zero _)
  | n + 1, r, s, hI, hn, hμ => by
    obtain ⟨p, q, hp, hq, hlen⟩ := seqTurn_of_noRest hn
    have hs := hstep r _ (hother r s _ hI ((others_between p s).withPlan q))
    rw [drive, runTurns_seqTurn hp]
    simp only
    cases hf : f r { s.others p with plan := q } with
    | goto r' s' =>
      rw [hf] at hs
      obtain ⟨hI', hlt, hplan : s'.plan = q⟩ := hs
      exact drive_closes hother hstep hdone n r' s' hI' (by rwa [State.NoRest, hplan]) (by rw [hplan]; omega)
    | spin r' s' =>
      rw [hf] at hs
      obtain ⟨hI', hQ, hle, hplan : s'.plan = q⟩ := hs
      simp only
      split
      · exact hQ
      · next hmore =>
        have hshort : q.length < s.plan.length := by
          obtain ⟨-, hsplit | ⟨-, hempty⟩⟩ := hp
          · rw [hsplit, List.length_append, List.length_cons]
            omega
          · exact absurd (hplan.trans hempty) hmore
        exact drive_closes hother hstep hdone n r' s' hI' (by rwa [State.NoRest, hplan]) (by rw [hplan]; omega)
    | done a s' => exact hdone a s'
    | stop x => trivial
    | fault x => trivial

section
variable {I : SeqRun → State → Prop} {Q : State → Prop} {μ : SeqRun → Nat} {m : Nat} {s : State}

theorem rdThen_closes {off : Nat} {k : Word → State → Micro}
    (hk : ∀ t u, u.plan = s.plan → (k t u).Closes I Q μ m s.plan) : (rdThen off s k).Closes I Q μ m s.plan := by
  cases hg : regAt off with
  | none => simp only [rdThen, rd32, hg, Micro.Closes]
  | some g =>
    rw [rdThen_of_regAt hg]
    exact hk _ _ rfl

theorem wrThen_closes {off : Nat} {v : Word} {k : State → Micro}
    (hk : ∀ u, u.plan = s.plan → (k u).Closes I Q μ m s.plan) : (wrThen off v s k).Closes I Q μ m s.plan := by
  cases hg : regAt off with
  | none => simp only [wrThen, wr32, hg, Micro.Closes]
  | some g =>
    cases hw : s.writeReg v g with
    | error x =>
      rw [wrThen_of_error hg hw]
      trivial
    | ok t =>
      rw [wrThen_of_ok hg hw]
      exact hk _ (by rw [State.log_plan, writeReg_frame hw])

end

/-! ## NEW_CHANNEL from the spin on (R193, R161, R162) -/

/-- The labels of NEW_CHANNEL from K3 on, in the order SEQ passes them. -/
def spinOnwards : List Label := newAfterAlloc.dropWhile fun l => l != .K3

/-- How many labels from `l` to the end of NEW_CHANNEL, from the spin on; 0 at every other label. -/
def Label.toGo (l : Label) : Nat := spinOnwards.length - spinOnwards.idxOf l

theorem Label.toGo_le (l : Label) : l.toGo ≤ Label.toGo .K3 := Nat.sub_le_sub_left (Nat.zero_le _) _

/-- The NEW_CHANNEL `c` on channel `i` stands at the spin or behind it; at the spin, a channel still enabled has its
disable pending. -/
structure Winding (c : Instr) (i : Fin 8) (r : SeqRun) (s : State) : Prop where
  cmd : r.cmd = c
  label : 0 < r.step.toGo
  spin : r.step = .K3 → r.cb.toNat = chanBase i ∧ ((s.chan i).en = true → (s.chan i).disPending = true)

/-- SEQ is BUSY at the spin with a command on channel `i` whose disable is pending. -/
def State.Spinning (i : Fin 8) (s : State) : Prop :=
  ∃ r, s.seq = .busy r ∧ r.step = .K3 ∧ targetOf r.cmd = some i ∧ (s.chan i).disPending = true

/-- How a step that begins at the spin leaves SEQ. -/
def State.IdleOrSpinning (i : Fin 8) (s : State) : Prop := s.seq = .idle ∨ s.Spinning i

/-- A micro-step of the command at `r`, `s`, from the spin on. -/
def Micro.Unwinds (c : Instr) (i : Fin 8) (r : SeqRun) (s : State) (m : Micro) : Prop :=
  m.Closes (Winding c i) (State.IdleOrSpinning i) (fun r => r.step.toGo) r.step.toGo s.plan

section
variable {c : Instr} {i : Fin 8} {r : SeqRun} {s t : State} {next : Label}

theorem Between.winding (hb : Between s t) (h : Winding c i r s) : Winding c i r t :=
  ⟨h.cmd, h.label, fun hl => ⟨(h.spin hl).1, fun hen => hb.owed i ((h.spin hl).2 (hb.en i hen)) hen⟩⟩

/-- The command at a later label: behind the spin nothing is asked of the channel. -/
theorem Winding.later (h : Winding c i r s) (hnext : 0 < next.toGo ∧ next.toGo < r.step.toGo) (t : Word) (u : State) :
    Winding c i { r with t := t, step := next } u :=
  ⟨h.cmd, hnext.1, fun (hl : next = .K3) => absurd r.step.toGo_le (Nat.not_le.2 (hl ▸ hnext.2))⟩

theorem modRead_unwinds (h : Winding c i r s) (hnext : 0 < next.toGo ∧ next.toGo < r.step.toGo) (off : Nat) :
    (modRead off r next s).Unwinds c i r s :=
  rdThen_closes fun t u hu => ⟨h.later hnext t u, hnext.2, hu⟩

theorem wrGoto_unwinds (h : Winding c i r s) (hnext : 0 < next.toGo ∧ next.toGo < r.step.toGo) (off : Nat) (v : Word) :
    (wrGoto off v r next s).Unwinds c i r s :=
  wrThen_closes fun u hu => ⟨h.later hnext r.t u, hnext.2, hu⟩

theorem modGoto_unwinds (h : Winding c i r s) (hnext : 0 < next.toGo ∧ next.toGo < r.step.toGo) (off hi lo : Nat)
    (v : Word) : (modGoto off hi lo v r next s).Unwinds c i r s :=
  wrGoto_unwinds h hnext off _

theorem modDone_unwinds (off hi lo : Nat) (v : Word) : (modDone off hi lo v r s).Unwinds c i r s :=
  wrThen_closes (k := fun s => .done (.ok []) s) fun _ _ => trivial

/-- A read of the spin (R162): the enable bit is clear and the command goes on, or the disable is still pending. -/
theorem spin_unwinds (h : Winding c i r s) (hl : r.step = .K3) (ht : targetOf c = some i) :
    (rdThen (r.cb.toNat + choCtl) s fun t s =>
      if t.getLsbD chEnBit then .spin { r with t := t } s
      else .goto { r with t := t, step := .K4 } s).Unwinds c i r s := by
  obtain ⟨hcb, howed⟩ := h.spin hl
  rw [hcb, rdThen_of_regAt (regAt_ctl i), readVal_ctl, encChctl_getLsbD_zero]
  split
  · next hen =>
    refine ⟨⟨h.cmd, h.label, h.spin⟩, .inr ⟨_, rfl, hl, ?_, howed hen⟩, Nat.le_refl _, rfl⟩
    rw [h.cmd, ht]
  · have hnext : 0 < Label.toGo .K4 ∧ Label.toGo .K4 < r.step.toGo := by rw [hl]; decide
    exact ⟨h.later hnext _ _, hnext.2, rfl⟩

theorem construct_unwinds (h : Winding c i r s) (ht : targetOf c = some i) (dir : Bool) (size dev : Word) :
    (constructMicro dir size dev .N5 r s).Unwinds c i r s := by
  unfold constructMicro
  split
  case h_1 hl | h_2 hl | h_3 hl | h_4 hl => exact absurd h.label (by rw [hl]; decide)
  case h_5 hl => exact spin_unwinds h hl ht
  case h_6 hl | h_8 hl | h_14 hl => exact modRead_unwinds h (by rw [hl]; decide) _
  case h_7 hl | h_9 hl | h_15 hl => exact modGoto_unwinds h (by rw [hl]; decide) _ _ _ _
  case h_10 hl | h_11 hl | h_12 hl | h_13 hl => exact wrGoto_unwinds h (by rw [hl]; decide) _ _
  case h_16 => trivial

theorem newChannel_unwinds (h : Winding c i r s) (ht : targetOf c = some i) (slave : BitVec 8) (dir irq : Bool)
    (size dev : Word) : (newChannelMicro slave dir irq size dev i r s).Unwinds c i r s := by
  unfold newChannelMicro
  split
  case h_1 hl | h_2 hl | h_3 hl => exact absurd h.label (by rw [hl]; decide)
  case h_4 hl | h_6 hl | h_8 hl => exact modRead_unwinds h (by rw [hl]; decide) _
  case h_5 hl => exact modGoto_unwinds h (by rw [hl]; decide) _ _ _ _
  case h_7 hl =>
    have hnext : 0 < Label.toGo .N9 ∧ Label.toGo .N9 < r.step.toGo := by rw [hl]; decide
    exact wrThen_closes fun u hu => ⟨h.later hnext r.t _, hnext.2, hu⟩
  case h_9 => exact modDone_unwinds _ _ _ _
  case h_10 => exact construct_unwinds h ht dir size dev

end

/-! ## A step that begins at the spin -/

section
variable {i : Fin 8} {r : SeqRun} {s t : State}

/-- Only NEW_CHANNEL has a spin (R24). -/
theorem newChannel_of_spin (hok : r.ok s = true) (hl : r.step = .K3) (ht : targetOf r.cmd = some i) :
    ∃ idx slave dir irq size dev tmo, r.cmd = .newChannel idx slave dir irq size dev tmo ∧ chanIdx? idx = some i ∧
      r.cb.toNat = chanBase i := by
  cases hc : r.cmd with
  | newChannel idx slave dir irq size dev tmo =>
    have hi : chanIdx? idx = some i := by rwa [hc] at ht
    exact ⟨idx, slave, dir, irq, size, dev, tmo, rfl, hi, by rw [((ok_newChannel hc hi).1 hok).2.1, chanBase_toNat]⟩
  | chActivate idx | chDeactivate idx | chIsRunning idx =>
    have hi : chanIdx? idx = some i := by rwa [hc] at ht
    simp [SeqRun.ok, hc, onLabels_eq_true hi, hl] at hok
  | ctrlReset | ctrlEnable | ctrlDisable | handleIrq =>
    rw [hc] at ht
    cases ht
  | fldRd | fldWr | fldMod | isComplete | clrComplete | setMask | bufWr | bufRd => simp [SeqRun.ok, hc, hl] at hok

theorem State.Spinning.after_step (h : s.Spinning i) (hinv : s.Inv) (hn : s.NoRest) (hs : step s = .next t) :
    t.IdleOrSpinning i := by
  obtain ⟨r, hbusy, hl, ht, hpending⟩ := h
  have hok : r.ok s = true := by
    have := hinv.seq
    rwa [State.seqOk, hbusy] at this
  obtain ⟨idx, slave, dir, irq, size, dev, tmo, hc, hi, hcb⟩ := newChannel_of_spin hok hl ht
  have hmicro : microOf r.cmd = newChannelMicro slave dir irq size dev i := by
    rw [hc]
    simp only [microOf, onChan, hi]
  have hfuel : r.step.toGo + s.plan.length < budget r.cmd s := by
    have hgo : r.step.toGo ≤ 17 := r.step.toGo_le
    rw [budget]
    omega
  have key := drive_closes (I := Winding r.cmd i) (Q := State.IdleOrSpinning i) (μ := fun r => r.step.toGo)
    (fun _ _ _ h hb => hb.winding h) (fun _ _ h => newChannel_unwinds h ht slave dir irq size dev)
    (fun _ _ => .inl rfl) (budget r.cmd s) r s
    ⟨rfl, by rw [hl]; decide, fun _ => ⟨hcb, fun _ => hpending⟩⟩ hn hfuel
  rw [step_of_busy hbusy, resume, hmicro] at hs
  rwa [hs] at key

end

/-! ## Runs (R20) -/

theorem feedPorts_length : ∀ (ps : List IrqPort) (qs : List (List Packet)), (feedPorts ps qs).length = ps.length
  | _ :: ps, _ :: qs => congrArg (· + 1) (feedPorts_length ps qs)
  | [], [] | [], _ :: _ | _ :: _, [] => rfl

/-- What the HOST adds between two steps is no part of the invariant. -/
theorem State.Inv.feed {s : State} (h : s.Inv) (x : HostInput) : (s.feed x).Inv where
  hidden := h.hidden
  desc := h.desc
  seq := h.seq
  ports := by
    rw [State.feed, feedPorts_length]
    exact h.ports

/-- A run that begins at the spin and never leaves BUSY stands at the spin for ever, its disable pending. -/
theorem IsRun.spinning {σ : Nat → State} {i : Fin 8} (hrun : IsRun σ) (hn : ∀ n, (σ n).NoRest) (hinv : (σ 0).Inv)
    (h : (σ 0).Spinning i) (hbusy : ∀ n, (σ n).seq ≠ .idle) : ∀ n, (σ n).Inv ∧ (σ n).Spinning i
  | 0 => ⟨hinv, h⟩
  | n + 1 => by
    obtain ⟨hinv', h'⟩ := hrun.spinning hn hinv h hbusy n
    obtain ⟨t, x, hs, hnext⟩ := hrun n
    have hidle : t.seq ≠ .idle := fun he => hbusy (n + 1) (by rw [hnext]; exact he)
    rw [hnext]
    exact ⟨(stepKeepsInvariant _ t hinv' hs).feed x, (h'.after_step hinv' (hn n) hs).resolve_left hidle⟩

/-- Settles O48: a run that stood at the spin for ever would keep the disable pending, against ENG_ACK_FAIR. -/
theorem spinEndsUnderFairness : Obligations.SpinEndsUnderFairness := by
  intro σ r i hrun hfair hn hinv hbusy hl ht hpending
  by_contra hnever
  have hspin := hrun.spinning hn hinv ⟨r, hbusy, hl, ht, hpending⟩ fun n he => hnever ⟨n, he⟩
  obtain ⟨m, -, hclear⟩ := hfair i 0 hpending
  obtain ⟨-, -, -, -, hstill⟩ := (hspin m).2
  exact Bool.eq_false_iff.1 hclear hstill

end Sys2Proof.Machine
end

section
/-! SUPPORT. The two classes of fault (60_exceptions.md R252, R253), the interrupt line (R261), and what HANDLE_IRQ
leaves of it (R264). -/

namespace Sys2Proof.Machine

open Sys2Proof.Config

/-! ## IllegalCommand (R253) -/

theorem accept_of_error {p : Packet} {e : DecodeError} (h : decode p = .error e) (s : State) :
    accept p s = .next (s.raise .illegal) := by
  simp [accept, h]

/-- A service port accepts nothing but HANDLE_IRQ (R105). -/
theorem irqAccept_of_illegal {q : Packet} (h : decode q ≠ .ok .handleIrq) (s : State) (k : Nat) (p : IrqPort)
    (rest : List Packet) :
    s.irqAccept k p q rest =
      (s.setFault .illegal).setPort k { p with inbox := rest, outbox := p.outbox ++ [Resp.illegal.packet] } := by
  unfold State.irqAccept
  split
  · next hq => exact absurd hq h
  · rfl

/-- Settles O6: the packet is refused where it is accepted, on either kind of port. -/
theorem illegalPacketRaisesIllegalCommand : Obligations.IllegalPacketRaisesIllegalCommand := by
  refine ⟨fun s p rest e hseq hin hp => ?_, fun s k port p rest hport hrun hin hp => ?_⟩
  · rw [step_of_idle hseq hin, accept_of_error hp, hseq]
    rfl
  · simp only [State.irqStep, hport, hrun, hin]
    rw [irqAccept_of_illegal hp, hrun]
    rfl

/-! ## The interrupt line (R261) -/

/-- A source of the line: the flag set and the mask bit clear. -/
theorem irqSource_iff (s : State) (i : Fin 8) :
    s.irqSource i = true ↔ s.doneFlag i = true ∧ s.glb.chm.getLsbD i = false := by
  simp [State.irqSource]

theorem irqOut_iff (s : State) : s.irqOut = true ↔
    s.glb.gie = true ∧ ∃ i : Fin 8, s.doneFlag i = true ∧ s.glb.chm.getLsbD i = false := by
  simp only [State.irqOut, Bool.and_eq_true, beq_iff_eq, List.any_eq_true, List.mem_finRange, true_and, irqSource_iff]

/-- A byte has a bit outside a mask exactly if what the mask leaves of it is not zero. -/
theorem exists_bit_outside_iff (d m : BitVec 8) :
    (∃ i : Fin 8, d.getLsbD i = true ∧ m.getLsbD i = false) ↔ d &&& ~~~m &&& 0xFF#8 ≠ 0#8 := by
  rw [show 0xFF#8 = BitVec.allOnes 8 from rfl, BitVec.and_allOnes, ← not_iff_not, not_not]
  constructor
  · intro h
    refine BitVec.eq_of_getLsbD_eq fun j hj => ?_
    have hbit := not_exists.1 h ⟨j, hj⟩
    simpa [hj] using hbit
  · rintro h ⟨i, hd, hm⟩
    have hbit : (d &&& ~~~m).getLsbD i = false := by rw [h, BitVec.getLsbD_zero]
    rw [BitVec.getLsbD_and, BitVec.getLsbD_not, hd, hm] at hbit
    simp at hbit

/-- Settles O23: the two registers hold the bits of the equation, the completion flags as the decoder reads them. -/
theorem interruptLineEquation : Obligations.InterruptLineEquation := by
  intro s
  refine ⟨irqOut_iff s, ?_⟩
  rw [irqOut_iff, State.readVal, State.readVal, maskWord_gie, maskWord_setWidth, decodeStatus_statWord,
    ← exists_bit_outside_iff]
  rfl

/-! ## HANDLE_IRQ (R264) -/

/-- With no flag set the line is low. -/
theorem irqOut_of_done_eq_zero {s : State} (h : s.glb.done = 0#8) : s.irqOut = false := by
  refine Bool.eq_false_iff.2 fun hout => ?_
  obtain ⟨-, i, hflag, -⟩ := (irqOut_iff s).1 hout
  simp [State.doneFlag, h] at hflag

/-- Settles O60: in the state of O58 every flag is clear. -/
theorem handleIrqLowersLine : Obligations.HandleIrqLowersLine := by
  intro s hn
  obtain ⟨p₁, p₂, q, hp⟩ := hn.seqAfterTwice
  exact ⟨_, handleIrqReportsAndClears s p₁ p₂ q hp, rfl, irqOut_of_done_eq_zero rfl⟩

/-! ## ContractViolation (R252) -/

/-- A command on `n` bytes of a buffer opens by its bounds check (R166, R167). -/
theorem range_opening_cause (c : Instr) (lbl : Label) (cb : Nat) (s : State) (off : Word) (n : Nat) (d : Desc) :
    ∃ o : Opening,
      (if bufInRange off n d then
        if n = 0 then .next (s.respond (.ok [])) else start (microOf c) c lbl cb s
      else raiseContract s) = o.out c s ∧ (o = .contract ↔ d.size.toNat < off.toNat + n) := by
  have hrange : bufInRange off n d = true ↔ ¬ d.size.toNat < off.toNat + n := by simp [bufInRange]
  by_cases hr : bufInRange off n d = true
  · rw [if_pos hr]
    by_cases hn : n = 0
    · exact ⟨.answer [], if_pos hn, by simp [hrange.1 hr]⟩
    · exact ⟨.run lbl cb, if_neg hn, by simp [hrange.1 hr]⟩
  · exact ⟨.contract, if_neg hr, by simp [not_not.1 (mt hrange.2 hr)]⟩

/-- A channel command opens by its index, then by its Channel, then as it goes on (R257). -/
theorem handle_opening_cause {c : Instr} {idx : BitVec 8} {s : State} {k : Fin 8 → Desc → Out}
    (hexec : exec c s = withHandle idx s k) (hindex : chanIdx? idx = none → s.contractCause c = true)
    (hdesc : ∀ i, chanIdx? idx = some i → s.desc i = none → s.contractCause c = false)
    (hk : ∀ i d, chanIdx? idx = some i → s.desc i = some d →
      ∃ o : Opening, k i d = o.out c s ∧ (o = .contract ↔ s.contractCause c = true)) :
    ∃ o : Opening, exec c s = o.out c s ∧ (o = .contract ↔ s.contractCause c = true) := by
  rw [hexec]
  cases hi : chanIdx? idx with
  | none => exact ⟨.contract, withHandle_of_index hi s k, by simp [hindex hi]⟩
  | some i =>
    cases hd : s.desc i with
    | none => exact ⟨.noChannel, withHandle_of_no_desc hi hd k, by simp [hdesc i hi hd]⟩
    | some d =>
      rw [withHandle_of_desc (chanIdx?_eq_some hi) hd]
      exact hk i d hi hd

/-- A command opens with a ContractViolation exactly where one of the listed causes holds. -/
theorem exec_opening_cause (c : Instr) (s : State) :
    ∃ o : Opening, exec c s = o.out c s ∧ (o = .contract ↔ s.contractCause c = true) := by
  cases c with
  | fldRd f idx | fldWr f idx _ | fldMod f idx _ =>
    simp only [exec, execFldRd, execFldWr, execFldMod, State.contractCause, Bool.and_eq_true, decide_eq_true_eq,
      ← fldLoc_eq_none_iff f idx]
    cases hl : fldLoc f idx with
    | none => exact ⟨.contract, rfl, by simp⟩
    | some l => exact ⟨.run .F1 0, by simp only [Opening.out, microOf, onField, hl], by simp⟩
  | ctrlReset => exact ⟨.run .T1 0, rfl, by simp [State.contractCause]⟩
  | ctrlEnable | ctrlDisable => exact ⟨.run .E1 0, rfl, by simp [State.contractCause]⟩
  | handleIrq => exact ⟨.run .H1 0, rfl, by simp [State.contractCause]⟩
  | newChannel idx slave dir irq size dev tmo =>
    simp only [exec, execNewChannel, withIndex, State.contractCause, Bool.or_eq_true, decide_eq_true_eq]
    cases hi : chanIdx? idx with
    | none => exact ⟨.contract, rfl, by simp [chanIdx?_eq_none hi]⟩
    | some i =>
      have hlt : idx.toNat < 8 := chanIdx?_eq_some hi ▸ i.isLt
      by_cases hs : nSlave ≤ slave.toNat
      · exact ⟨.contract, if_pos hs, by simp [show 32 ≤ slave.toNat from hs]⟩
      · refine ⟨.run .N1 (chanBase i), ?_, by simp [show slave.toNat < 32 from Nat.lt_of_not_le hs, hlt]⟩
        simp only [Opening.out, microOf, onChan, hi, if_neg hs]
  | isComplete idx =>
    simp only [exec, execIsComplete, State.contractCause]
    cases hi : chanIdx? idx with
    | none => exact ⟨.answer [0], rfl, by simp⟩
    | some i => exact ⟨.run .P1 0, by simp only [Opening.out, microOf, onChan, hi], by simp⟩
  | clrComplete idx =>
    simp only [exec, execClrComplete, State.contractCause]
    cases hi : chanIdx? idx with
    | none => exact ⟨.answer [], rfl, by simp⟩
    | some i => exact ⟨.run .L1 0, by simp only [Opening.out, microOf, onChan, hi], by simp⟩
  | setMask idx masked =>
    simp only [exec, execSetMask, withIndex, State.contractCause, decide_eq_true_eq]
    cases hi : chanIdx? idx with
    | none => exact ⟨.contract, rfl, by simp [chanIdx?_eq_none hi]⟩
    | some i =>
      have hlt : idx.toNat < 8 := chanIdx?_eq_some hi ▸ i.isLt
      exact ⟨.run .S1 0, by simp only [Opening.out, microOf, onChan, hi], by simp [hlt]⟩
  | chActivate idx | chDeactivate idx | chIsRunning idx =>
    have hcause (i : Fin 8) (hi : chanIdx? idx = some i) : ¬ 8 ≤ idx.toNat := by
      rw [chanIdx?_eq_some hi]
      exact Nat.not_le.2 i.isLt
    refine handle_opening_cause rfl (fun hi => by simp [State.contractCause, chanIdx?_eq_none hi])
      (fun i hi _ => decide_eq_false (hcause i hi)) fun i d hi _ => ?_
    exact ⟨.run _ (chanBase i), by simp only [Opening.out, microOf, onChan, hi]; rfl,
      by simp [State.contractCause, hcause i hi]⟩
  | bufWr idx off data =>
    refine handle_opening_cause rfl (fun hi => by simp [State.contractCause, hi])
      (fun i hi hd => by simp [State.contractCause, hi, hd]) fun i d hi hd => ?_
    have hrange := range_opening_cause (.bufWr idx off data) (.W 0) (chanBase i) s off data.length d
    simpa only [microOf, onChan, State.contractCause, hi, hd, Option.any_some, decide_eq_true_eq] using hrange
  | bufRd idx off n =>
    refine handle_opening_cause rfl (fun hi => by simp [State.contractCause, hi])
      (fun i hi hd => by simp [State.contractCause, hi, hd]) fun i d hi hd => ?_
    have hrange := range_opening_cause (.bufRd idx off n) (.V 0) (chanBase i) s off n.toNat d
    simpa only [microOf, onChan, State.contractCause, hi, hd, Option.any_some, decide_eq_true_eq] using hrange

/-- The flag is as it was in `s`. -/
def State.sameContract (s t : State) : Prop := t.fltContract = s.fltContract

theorem sameContract_stepClosed (s : State) : StepClosed s.sameContract where
  read _ _ _ h := h
  write _ _ _ _ _ h hw := by
    rw [writeReg_frame hw]
    exact h
  alloc _ _ _ _ h := h
  memWrite _ _ _ _ _ h _ := h
  attach _ _ _ _ _ _ _ _ _ h hw := by
    rw [writeReg_frame hw]
    exact h

/-- No micro-step raises the flag, and no other agent does. -/
theorem drive_sameContract (s : State) (c : Instr) (n : Nat) (r : SeqRun) :
    Ends s.sameContract (fun _ => True) (fun _ => True) (drive (microOf c) n r s) := by
  refine drive_ends (I := fun _ t => s.sameContract t) (D := fun _ t => s.sameContract t)
    (fun _ t u h hb => hb.fltContract.trans h) (fun r' t h => ?_) (fun _ _ h => h) (fun _ _ h => h) n r s rfl
  have hk := microOf_keeps (r := r') (sameContract_stepClosed s) h c
  cases hm : microOf c r' t with
  | goto r'' u | spin r'' u =>
    rw [hm] at hk
    exact hk.1
  | done q u =>
    rw [hm] at hk
    exact hk
  | stop x | fault x => trivial

/-- Settles O31: a command's opening alone can raise the flag. -/
theorem contractViolationsAsListed : Obligations.ContractViolationsAsListed := by
  intro s c
  obtain ⟨o, hexec, hcause⟩ := exec_opening_cause c s
  rw [hexec, ← hcause, ← Bool.not_eq_true, ← hcause]
  refine ⟨fun ho => by rw [ho]; rfl, fun ho t ht => ?_⟩
  cases o with
  | contract => exact absurd rfl ho
  | noChannel => cases ht
  | answer vals =>
    cases ht
    rfl
  | run lbl cb =>
    have hkeep := drive_sameContract s c (budget c s) (SeqRun.init c lbl cb)
    rwa [show drive _ _ _ _ = _ from ht] at hkeep

end Sys2Proof.Machine
end

section
/-! SUPPORT. Where a step can stop (60_exceptions.md R258): from a position its command has, a micro-step makes no
access outside the register region (20_memory.md R73) or outside a buffer (R86, R87), so that it never faults and is
refused only where a register write has no meaning (R78, R79). -/

namespace Sys2Proof.Machine

open Sys2Proof.Config

/-! ## One access -/

/-- The situations of R258 that a command can reach. -/
def Refusal.listed (x : Refusal) : Prop := x = .noChannel ∨ x = .chCtlUnspecified ∨ x = .ctlResetUnspecified

/-- A micro-step does not fault, and is refused only in a listed situation. -/
def Micro.StopsAsListed (m : Micro) : Prop :=
  m.Holds (fun _ _ => True) (fun _ _ => True) Refusal.listed (fun _ => False)

/-- A write is refused only where it has no meaning (R78, R79). -/
theorem writeReg_refusal_listed {s : State} {v : Word} {g : Reg} {x : Refusal} (hw : s.writeReg v g = .error x) :
    x.listed := by
  cases g with
  | dmaCtl =>
    simp only [State.writeReg, Globals.writeCtl] at hw
    split at hw
    · cases hw
      exact .inr (.inr rfl)
    · cases hw
  | chan i r =>
    cases r with
    | ctl =>
      simp only [State.writeReg, State.writeChReg] at hw
      split at hw
      · cases hw
        exact .inr (.inl rfl)
      · cases hw
    | _ => cases hw
  | _ => cases hw

section
variable {s : State} {r : SeqRun} {off : Nat} {g : Reg}

theorem rdThen_stops {k : Word → State → Micro} (hg : regAt off = some g) (hk : ∀ t u, (k t u).StopsAsListed) :
    (rdThen off s k).StopsAsListed := by
  rw [rdThen_of_regAt hg]
  exact hk _ _

theorem wrThen_stops {v : Word} {k : State → Micro} (hg : regAt off = some g) (hk : ∀ u, (k u).StopsAsListed) :
    (wrThen off v s k).StopsAsListed := by
  cases hw : s.writeReg v g with
  | error x =>
    rw [wrThen_of_error hg hw]
    exact writeReg_refusal_listed hw
  | ok t =>
    rw [wrThen_of_ok hg hw]
    exact hk _

theorem modRead_stops (hg : regAt off = some g) (next : Label) : (modRead off r next s).StopsAsListed :=
  rdThen_stops hg fun _ _ => trivial

theorem wrGoto_stops (hg : regAt off = some g) (v : Word) (next : Label) : (wrGoto off v r next s).StopsAsListed :=
  wrThen_stops hg fun _ => trivial

theorem modGoto_stops (hg : regAt off = some g) (hi lo : Nat) (v : Word) (next : Label) :
    (modGoto off hi lo v r next s).StopsAsListed :=
  wrGoto_stops hg _ next

theorem wrDone_stops (hg : regAt off = some g) (v : Word) (a : Resp) :
    (wrThen off v s fun s => .done a s).StopsAsListed :=
  wrThen_stops hg fun _ => trivial

theorem modDone_stops (hg : regAt off = some g) (hi lo : Nat) (v : Word) : (modDone off hi lo v r s).StopsAsListed :=
  wrDone_stops hg _ _

theorem rdDone_stops (hg : regAt off = some g) (a : Word → Resp) :
    (rdThen off s fun t s => .done (a t) s).StopsAsListed :=
  rdThen_stops hg fun _ _ => trivial

/-! ## Where the accesses are -/

/-- Every place of a field lies in the region (R108, R73). -/
theorem regAt_of_fldLoc {f : Fld} {idx : BitVec 8} {l : FieldLoc} (hl : fldLoc f idx = some l) :
    ∃ g, regAt l.off = some g := by
  have hglobal : (fldGlobal f).all (fun l => (regAt l.off).isSome) = true := by cases f <;> rfl
  have hchan : ∀ i : Fin 8, (fldChan i f).all (fun l => (regAt l.off).isSome) = true := by cases f <;> decide
  apply Option.isSome_iff_exists.1
  unfold fldLoc at hl
  split at hl
  · split at hl
    · next i _ => simpa [hl] using hchan i
    · cases hl
  · simpa [hl] using hglobal

/-! ## The commands of more than two micro-steps -/

theorem ctrlReset_stops (hc : r.cmd = .ctrlReset) (hok : r.ok s = true) : (ctrlResetMicro r s).StopsAsListed := by
  unfold ctrlResetMicro
  split
  case h_1 | h_12 | h_14 => exact modRead_stops regAt_offCtl _
  case h_2 | h_13 | h_15 => exact modGoto_stops regAt_offCtl _ _ _ _
  case h_3 | h_7 => exact modRead_stops regAt_offMask _
  case h_4 | h_8 => exact modGoto_stops regAt_offMask _ _ _ _
  case h_5 => exact rdThen_stops regAt_offBind fun _ _ => trivial
  case h_6 => exact modGoto_stops regAt_offBind _ _ _ _
  case h_9 => exact wrGoto_stops regAt_offStat _ _
  case h_10 => exact modRead_stops (regAt_selOff _) _
  case h_11 => exact wrThen_stops (regAt_selOff _) fun _ => trivial
  case h_16 => exact wrDone_stops regAt_offMask _ _
  case h_17 => simp_all [ok_ctrlReset hc, resetBefore, resetLoop, resetAfter]

section
variable {idx slave : BitVec 8} {dir irq : Bool} {size dev : Word} {tmo : BitVec 30} {i : Fin 8}

/-- The labels of NEW_CHANNEL that are not its own are those of ChConstruct (R193, R161). -/
theorem construct_stops (hcb : r.cb = BitVec.ofNat 32 (chanBase i))
    (hl : r.step ∈ newBeforeAlloc ∨ r.step ∈ newAfterAlloc)
    (hN : r.step ∉ [Label.N1, .N2, .N3, .N5, .N6, .N7, .N8, .N9, .N10]) :
    (constructMicro dir size dev .N5 r s).StopsAsListed := by
  unfold constructMicro
  split
  case h_1 =>
    unfold constructAlloc
    split
    · trivial
    · split
      · trivial
      · trivial
  case h_2 => exact rdThen_stops (regAt_cb hcb .ctl) fun _ _ => trivial
  case h_5 =>
    refine rdThen_stops (regAt_cb hcb .ctl) fun t _ => ?_
    split
    · trivial
    · trivial
  case h_3 | h_6 | h_8 | h_14 => exact modRead_stops (regAt_cb hcb .ctl) _
  case h_4 | h_7 | h_9 | h_15 => exact modGoto_stops (regAt_cb hcb .ctl) _ _ _ _
  case h_10 => exact wrGoto_stops (regAt_cb hcb .addrLo) _ _
  case h_11 => exact wrGoto_stops (regAt_cb hcb .addrUp) _ _
  case h_12 => exact wrGoto_stops (regAt_cb hcb .devAddr) _ _
  case h_13 => exact wrGoto_stops (regAt_cb hcb .xferSize) _ _
  case h_16 => simp_all [newBeforeAlloc, newAfterAlloc]

theorem newChannel_stops (hc : r.cmd = .newChannel idx slave dir irq size dev tmo) (hi : chanIdx? idx = some i)
    (hok : r.ok s = true) : (newChannelMicro slave dir irq size dev i r s).StopsAsListed := by
  obtain ⟨-, hcb, hl⟩ := (ok_newChannel hc hi).1 hok
  unfold newChannelMicro
  split
  case h_1 =>
    refine rdThen_stops regAt_offBind fun t _ => ?_
    split
    · trivial
    · trivial
  case h_2 => exact modRead_stops regAt_offCtl _
  case h_3 => exact modGoto_stops regAt_offCtl _ _ _ _
  case h_4 => exact modRead_stops (regAt_selOff _) _
  case h_5 => exact modGoto_stops (regAt_selOff _) _ _ _ _
  case h_6 => exact modRead_stops regAt_offBind _
  case h_7 => exact wrThen_stops regAt_offBind fun _ => trivial
  case h_8 => exact modRead_stops regAt_offMask _
  case h_9 => exact modDone_stops regAt_offMask _ _ _
  case h_10 => exact construct_stops hcb (hl.imp_right And.left) (by simp_all)

end

/-- A byte that the checks allowed lies inside the buffer (R166). -/
theorem bufWr_stops {idx : BitVec 8} {off : Word} {data : List Byte} {i : Fin 8} (hc : r.cmd = .bufWr idx off data)
    (hi : chanIdx? idx = some i) (hok : r.ok s = true) : (bufWrMicro i off data r s).StopsAsListed := by
  unfold bufWrMicro
  split
  · next k hl =>
    obtain ⟨hk, d, hd, hr⟩ := (ok_bufWr hc hi hl).1 hok
    rw [memWrite_ok hd (lt_size_of_bufInRange hr hk)]
    simp only
    split
    · trivial
    · trivial
  · simp_all [SeqRun.ok]

theorem bufRd_stops {idx : BitVec 8} {off : Word} {n : BitVec 16} {i : Fin 8} (hc : r.cmd = .bufRd idx off n)
    (hi : chanIdx? idx = some i) (hok : r.ok s = true) : (bufRdMicro i off n r s).StopsAsListed := by
  unfold bufRdMicro
  split
  · next k hl =>
    obtain ⟨⟨hk, d, hd, hr⟩, -⟩ := (ok_bufRd hc hi hl).1 hok
    rw [memRead_ok hd (lt_size_of_bufInRange hr hk)]
    simp only
    split
    · trivial
    · trivial
  · simp_all [SeqRun.ok]

/-! ## Every command -/

/-- From a position its command has, a micro-step stops only as R258 lists. -/
theorem microOf_stops (hok : r.ok s = true) : (microOf r.cmd r s).StopsAsListed := by
  cases hc : r.cmd with
  | fldRd f idx =>
    cases hl : fldLoc f idx with
    | none => simp [SeqRun.ok, hc, hl] at hok
    | some l =>
      obtain ⟨g, hg⟩ := regAt_of_fldLoc hl
      simp only [microOf, onField, hl, fldRdMicro]
      split
      · exact rdDone_stops hg fun t => .ok [ext t l.hi l.lo]
      · simp_all [SeqRun.ok]
  | fldWr f idx value =>
    cases hl : fldLoc f idx with
    | none => simp [SeqRun.ok, hc, hl] at hok
    | some l =>
      obtain ⟨g, hg⟩ := regAt_of_fldLoc hl
      simp only [microOf, onField, hl, fldWrMicro]
      split
      · exact wrDone_stops hg _ _
      · simp_all [SeqRun.ok]
  | fldMod f idx value =>
    cases hl : fldLoc f idx with
    | none => simp [SeqRun.ok, hc, hl] at hok
    | some l =>
      obtain ⟨g, hg⟩ := regAt_of_fldLoc hl
      simp only [microOf, onField, hl, fldModMicro]
      split
      · exact modRead_stops hg _
      · exact modDone_stops hg _ _ _
      · simp_all [SeqRun.ok]
  | ctrlReset => exact ctrlReset_stops hc hok
  | ctrlEnable | ctrlDisable =>
    simp only [microOf, ctrlEnableMicro, ctrlDisableMicro]
    split
    · exact modRead_stops regAt_offCtl _
    · exact modDone_stops regAt_offCtl _ _ _
    · simp_all [SeqRun.ok]
  | newChannel idx slave dir irq size dev tmo =>
    cases hi : chanIdx? idx with
    | none => simp [SeqRun.ok, hc, onLabels, hi] at hok
    | some i =>
      simp only [microOf, onChan, hi]
      exact newChannel_stops hc hi hok
  | isComplete idx =>
    cases hi : chanIdx? idx with
    | none => simp [SeqRun.ok, hc, hi] at hok
    | some i =>
      simp only [microOf, onChan, hi, isCompleteMicro]
      split
      · exact rdDone_stops regAt_offStat fun t => .ok [bitW (t.getLsbD (doneBit i))]
      · simp_all [SeqRun.ok]
  | clrComplete idx =>
    cases hi : chanIdx? idx with
    | none => simp [SeqRun.ok, hc, hi] at hok
    | some i =>
      simp only [microOf, onChan, hi, clrCompleteMicro]
      split
      · exact wrDone_stops regAt_offStat _ _
      · simp_all [SeqRun.ok]
  | setMask idx masked =>
    cases hi : chanIdx? idx with
    | none => simp [SeqRun.ok, hc, hi] at hok
    | some i =>
      simp only [microOf, onChan, hi, setMaskMicro]
      split
      · exact modRead_stops regAt_offMask _
      · exact modDone_stops regAt_offMask _ _ _
      · simp_all [SeqRun.ok]
  | chActivate idx | chDeactivate idx =>
    cases hi : chanIdx? idx with
    | none => simp [SeqRun.ok, hc, onLabels, hi] at hok
    | some i =>
      simp only [SeqRun.ok, hc] at hok
      obtain ⟨hcb, hl⟩ := (onLabels_eq_true hi r _).1 hok
      simp only [microOf, onChan, hi, chActivateMicro, chDeactivateMicro]
      split
      · exact modRead_stops (regAt_cb hcb .ctl) _
      · exact modDone_stops (regAt_cb hcb .ctl) _ _ _
      · simp_all
  | chIsRunning idx =>
    cases hi : chanIdx? idx with
    | none => simp [SeqRun.ok, hc, onLabels, hi] at hok
    | some i =>
      simp only [SeqRun.ok, hc] at hok
      obtain ⟨hcb, hl⟩ := (onLabels_eq_true hi r _).1 hok
      simp only [microOf, onChan, hi, chIsRunningMicro]
      split
      · exact rdDone_stops (regAt_cb hcb .ctl) fun t => .ok [bitW (t.getLsbD chEnBit)]
      · simp_all
  | bufWr idx off data =>
    cases hi : chanIdx? idx with
    | none => cases hl : r.step <;> simp [SeqRun.ok, hc, onBuffer, hi, hl] at hok
    | some i =>
      simp only [microOf, onChan, hi]
      exact bufWr_stops hc hi hok
  | bufRd idx off n =>
    cases hi : chanIdx? idx with
    | none => cases hl : r.step <;> simp [SeqRun.ok, hc, onBuffer, hi, hl] at hok
    | some i =>
      simp only [microOf, onChan, hi]
      exact bufRd_stops hc hi hok
  | handleIrq =>
    simp only [microOf, handleIrqMicro]
    split
    · exact modRead_stops regAt_offStat _
    · exact wrDone_stops regAt_offStat _ _
    · simp_all [SeqRun.ok]

end

/-! ## Every step -/

/-- Where SEQ goes and where it stops, put together. -/
theorem Micro.Holds.stops {I : SeqRun → State → Prop} {D : Resp → State → Prop} {R : Refusal → Prop}
    {F : Fault → Prop} {m : Micro} (h : m.Holds I D R F) (hs : m.StopsAsListed) : m.Holds I D Refusal.listed fun _ => False := by
  cases m with
  | goto | spin | done => exact h
  | stop | fault => exact hs

/-- An outcome is no fault, and a refusal only in a listed situation. -/
def StopsOnlyAsListed (o : Out) : Prop := Ends (fun _ => True) Refusal.listed (fun _ => False) o

theorem drive_stops (n : Nat) (r : SeqRun) (s : State) (hok : r.ok s = true) :
    StopsOnlyAsListed (drive (microOf r.cmd) n r s) := by
  have hclosed : AccessClosed fun _ => True :=
    ⟨fun _ _ _ _ => trivial, fun _ _ _ _ _ _ _ => trivial, fun _ _ _ _ _ => trivial, fun _ _ _ _ _ _ _ _ _ => trivial,
      fun _ _ _ _ _ _ _ _ _ _ _ => trivial⟩
  refine drive_ends (I := fun r' t => True ∧ r'.cmd = r.cmd ∧ r'.ok t = true) (D := fun _ _ => True)
    (fun r' t u h hb => ⟨trivial, h.2.1, by rw [SeqRun.ok_congr hb.desc]; exact h.2.2⟩) (fun r' t h => ?_)
    (fun _ _ _ => trivial) (fun _ _ _ => trivial) n r s ⟨trivial, rfl, hok⟩
  obtain ⟨-, hcmd, hok'⟩ := h
  rw [← hcmd]
  exact (microOf_stays hclosed trivial hok').stops (microOf_stops hok')

theorem exec_stops (c : Instr) (s : State) : StopsOnlyAsListed (exec c s) := by
  rcases exec_cases_ok c s with he | he | ⟨vals, he⟩ | ⟨lbl, cb, he, -, hok⟩ <;> rw [he]
  · trivial
  · exact .inl rfl
  · trivial
  · exact drive_stops (budget c s) (SeqRun.init c lbl cb) s hok

/-- A step begins a command at a position it has, or goes on from one. -/
theorem step_stops {s : State} (h : s.Inv) : StopsOnlyAsListed (step s) := by
  cases hseq : s.seq with
  | busy r =>
    rw [step_of_busy hseq]
    exact drive_stops _ r s (by simpa [State.seqOk, hseq] using h.seq)
  | idle =>
    cases hin : s.cmdIn with
    | nil =>
      rw [step_of_waiting hseq hin]
      trivial
    | cons p rest =>
      rw [step_of_idle hseq hin]
      cases hp : decode p with
      | ok c =>
        rw [accept_of_decode hp]
        exact exec_stops c _
      | error e =>
        rw [accept_of_error hp]
        trivial

/-- Settles O28. -/
theorem stepStopsOnlyAsListed : Obligations.StepStopsOnlyAsListed := by
  intro s hinv
  have h := step_stops hinv
  refine ⟨fun x hx => ?_, fun x hx => ?_⟩
  · rw [hx] at h
    exact h
  · rw [hx] at h
    exact h

end Sys2Proof.Machine
end

section
/-! SUPPORT. A driver command that has what it needs responds, and responds once (60_exceptions.md R250, R256): most
are one access or two; BUF_WR and NEW_CHANNEL come nearer their end with every micro-step. -/

namespace Sys2Proof.Machine

open Sys2Proof.Config

/-! ## One response -/

/-- The command has responded: SEQ is IDLE again. -/
def Finishes (o : Out) : Prop := ∃ t, o = .next t ∧ t.seq = .idle

theorem finishes_respond (t : State) (q : Resp) : Finishes (.next (t.respond q)) := ⟨_, rfl, rfl⟩

/-- A command that leaves SEQ IDLE has sent exactly one response (R23, R110). -/
theorem exec_one_response {c : Instr} {s t : State} (h : exec c s = .next t) (hidle : t.seq = .idle) :
    ∃ q, t.cmdOut = s.cmdOut ++ [q] := by
  rcases exec_cases c s with he | he | ⟨vals, he⟩ | ⟨lbl, cb, he⟩ <;> rw [he] at h
  · cases h
    exact ⟨_, State.raise_cmdOut s .contract⟩
  · cases h
  · cases h
    exact ⟨_, State.respond_cmdOut s _⟩
  · have hends : Ends _ _ _ (start (microOf c) c lbl cb s) :=
      drive_respondedOrBusy s (budget c s) (SeqRun.init c lbl cb)
    rw [h] at hends
    obtain ⟨-, ⟨-, hq⟩ | ⟨r, hbusy, -⟩⟩ := hends
    · exact hq
    · rw [hidle] at hbusy
      cases hbusy

/-! ## BUF_WR (R166) -/

section
variable {s : State} {idx : BitVec 8} {i : Fin 8} {off : Word} {data : List Byte}

/-- SEQ stands before a byte of the range that the checks allowed. -/
def ByteAhead (i : Fin 8) (off : Word) (data : List Byte) (r : SeqRun) (s : State) : Prop :=
  ∃ k, r.step = .W k ∧ k < data.length ∧ ∃ d, s.desc i = some d ∧ bufInRange off data.length d = true

theorem bufWrMicro_finishes {r : SeqRun} (h : ByteAhead i off data r s) :
    (bufWrMicro i off data r s).Advances (ByteAhead i off data) (fun _ _ => True) (SeqRun.bytesLeft data.length)
      (r.bytesLeft data.length) s.plan := by
  obtain ⟨k, hl, hk, d, hd, hr⟩ := h
  simp only [bufWrMicro, hl, memWrite_ok hd (lt_size_of_bufInRange hr hk)]
  by_cases hnext : k + 1 < data.length
  · rw [if_pos hnext]
    refine ⟨⟨k + 1, rfl, hnext, { d with buf := d.buf.write (off.toNat + k) (data.getD k 0) }, ?_, hr⟩, ?_, rfl⟩
    · rw [State.desc, State.log_chan, State.setChan_chan_self]
    · simp only [SeqRun.bytesLeft, hl]
      omega
  · rw [if_neg hnext]
    trivial

theorem exec_bufWr_finishes (hn : s.NoRest) (hi : idx.toNat = i.val) {d : Desc} (hd : s.desc i = some d)
    (hr : bufInRange off data.length d = true) : Finishes (exec (.bufWr idx off data) s) := by
  simp only [exec, execBufWr]
  rw [withHandle_of_desc hi hd, if_pos hr]
  by_cases hlen : data.length = 0
  · rw [if_pos hlen]
    exact finishes_respond s _
  · rw [if_neg hlen]
    obtain ⟨q, t, he, -⟩ := start_total (cmd := .bufWr idx off data) (lbl := .W 0) (cb := chanBase i)
      (D := fun _ _ => True) (SeqRun.bytesLeft data.length)
      (fun _ _ _ ⟨k, hl, hk, d, hd, hr⟩ hb => ⟨k, hl, hk, d, (hb.desc i).trans hd, hr⟩)
      (fun _ _ => bufWrMicro_finishes) hn ⟨0, rfl, Nat.pos_of_ne_zero hlen, d, hd, hr⟩ (Nat.le_refl _)
    rw [he]
    exact finishes_respond t q

end

/-! ## NEW_CHANNEL on a channel that is not enabled (R193, R161) -/

/-- The labels of NEW_CHANNEL but ChReset's, in the order SEQ passes them. -/
def cleanLabels : List Label := newBeforeAlloc ++ .C2 :: newAfterAlloc.dropWhile fun l => l != .C3

/-- How many of these labels from `l` to the end of NEW_CHANNEL; 0 at every other label. -/
def Label.ahead (l : Label) : Nat := cleanLabels.length - cleanLabels.idxOf l

theorem mem_cleanLabels_of_ahead {l : Label} (h : 0 < l.ahead) : l ∈ cleanLabels :=
  List.idxOf_lt_length_iff.1 (Nat.lt_of_sub_pos h)

/-- The word read is what the write at `l` needs to have a meaning: at N3 no soft-reset event (R78), at C8 no request to
enable (R79). -/
def Label.wordFits (l : Label) (t : Word) (s : State) : Prop :=
  match l with
  | .N3 => t.getLsbD ctlSrstBit = s.glb.srst
  | .C8 => t.getLsbD chEnBit = false
  | _ => True

/-- NEW_CHANNEL on channel `i`, which is not enabled, stands at one of these labels. -/
structure Building (i : Fin 8) (r : SeqRun) (s : State) : Prop where
  cb : r.cb.toNat = chanBase i
  label : 0 < r.step.ahead
  en : (s.chan i).en = false
  word : r.step.wordFits r.t s

/-- A micro-step of NEW_CHANNEL at `r`, `s` brings it nearer its end. -/
def Micro.Builds (i : Fin 8) (r : SeqRun) (s : State) (m : Micro) : Prop :=
  m.Advances (Building i) (fun _ _ => True) (fun r => r.step.ahead) r.step.ahead s.plan

theorem store_en (c : Chan) (v : Word) (r : ChReg) : (c.store v r).en = c.en := by
  cases r <;> rfl

/-- A write of any register but CH_CTL leaves every live enable bit. -/
theorem writeReg_en {s t : State} {v : Word} {g : Reg} (hw : s.writeReg v g = .ok t) (hctl : ∀ i, g ≠ .chan i .ctl)
    (j : Fin 8) : (t.chan j).en = (s.chan j).en := by
  rcases writeReg_cases hw hctl with ⟨-, gl, rfl⟩ | ⟨-, rfl⟩ | ⟨i, r, -, rfl⟩
  · rfl
  · rw [State.writeBind_chan]
    split
    · rfl
    · rfl
  · rw [State.setChan_chan]
    split
    · next hij => rw [store_en, hij]
    · rfl

/-- A write of a register in which every word has a meaning. -/
theorem exists_writeReg_ok {g : Reg} (hctl : g ≠ .dmaCtl) (hch : ∀ i, g ≠ .chan i .ctl) (s : State) (v : Word) :
    ∃ u, s.writeReg v g = .ok u ∧ ∀ j, (u.chan j).en = (s.chan j).en := by
  obtain ⟨u, hu⟩ := writeReg_of_defined (writeDefined_of_ne hctl hch s v)
  exact ⟨u, hu, writeReg_en hu hch⟩

/-- A write of CH_CTL with the enable bit clear enables no channel (R79). -/
theorem ctlAfter_en_of_clear {c : Chan} {v : Word} (hv : v.getLsbD 0 = false) (n : Nat) :
    (c.ctlAfter v n).en = c.en := by
  unfold Chan.ctlAfter
  rw [ctlStore_eq, hv]
  split
  · exact Bool.or_false _
  · exact Bool.or_false _

section
variable {i : Fin 8} {r r' : SeqRun} {s t u : State} {off : Nat} {g : Reg} {next : Label} {v : Word}

theorem Between.building (hb : Between s t) (h : Building i r s) : Building i r t := by
  refine ⟨h.cb, h.label, Bool.eq_false_iff.2 fun hen => Bool.eq_false_iff.1 h.en (hb.en i hen), ?_⟩
  have hword := h.word
  unfold Label.wordFits at hword ⊢
  rwa [hb.glb_srst]

theorem goto_builds (h : Building i r s) (hcb : r'.cb = r.cb) (hl : r'.step = next)
    (hnext : 0 < next.ahead ∧ next.ahead < r.step.ahead) (hen : (u.chan i).en = false)
    (hword : next.wordFits r'.t u) (hplan : u.plan = s.plan) : (Micro.goto r' u).Builds i r s := by
  subst hl
  exact ⟨⟨hcb ▸ h.cb, hnext.1, hen, hword⟩, hnext.2, hplan⟩

theorem modRead_builds (h : Building i r s) (hg : regAt off = some g)
    (hnext : 0 < next.ahead ∧ next.ahead < r.step.ahead) (hword : next.wordFits (s.readVal g) s) :
    (modRead off r next s).Builds i r s := by
  rw [modRead, rdThen_of_regAt hg]
  exact goto_builds h rfl rfl hnext h.en hword rfl

/-- A write that enables no channel. -/
theorem wrGoto_builds_of_ok (h : Building i r s) (hg : regAt off = some g) (hw : s.writeReg v g = .ok u)
    (hen : (u.chan i).en = false) (hnext : 0 < next.ahead ∧ next.ahead < r.step.ahead)
    (hword : ∀ u, next.wordFits r.t u) : (wrGoto off v r next s).Builds i r s := by
  rw [wrGoto, wrThen_of_ok hg hw]
  exact goto_builds h rfl rfl hnext hen (hword _) (by rw [State.log_plan, writeReg_frame hw])

theorem wrGoto_builds (h : Building i r s) (hg : regAt off = some g) (hctl : g ≠ .dmaCtl)
    (hch : ∀ i, g ≠ .chan i .ctl) (hnext : 0 < next.ahead ∧ next.ahead < r.step.ahead)
    (hword : ∀ u, next.wordFits r.t u) : (wrGoto off v r next s).Builds i r s := by
  obtain ⟨u, hu, hen⟩ := exists_writeReg_ok hctl hch s v
  exact wrGoto_builds_of_ok h hg hu ((hen i).trans h.en) hnext hword

theorem wrGoto_block_builds {c : ChReg} (h : Building i r s) (hc : c ≠ .ctl)
    (hnext : 0 < next.ahead ∧ next.ahead < r.step.ahead) (hword : ∀ u, next.wordFits r.t u) :
    (wrGoto (r.cb.toNat + c.off) v r next s).Builds i r s :=
  wrGoto_builds h (g := .chan i c) (by rw [h.cb, regAt_chOff]) (by simp) (fun _ hj => hc (Reg.chan.inj hj).2) hnext
    hword

/-- N3: DMA_CTL goes back as read but for EN (R191). -/
theorem disable_builds (h : Building i r s) (hl : r.step = .N3) :
    (modGoto offCtl ctlEnBit ctlEnBit 0 r .C1 s).Builds i r s := by
  have hword : r.t.getLsbD 1 = s.glb.srst := by
    have := h.word
    rwa [hl] at this
  have hevent : s.glb.ctlEvent (ins r.t ctlEnBit ctlEnBit 0) = false := by
    rw [Bool.eq_false_iff, ne_eq, ctlEvent_iff, ins_getLsbD (by decide) (by decide), if_neg (by decide), hword]
    simp +contextual
  exact wrGoto_builds_of_ok h regAt_offCtl (writeReg_dmaCtl_ok (.inl hevent)) h.en (by rw [hl]; decide) fun _ => trivial

/-- C8: CH_CTL goes back as read but for its direction (R161). -/
theorem direct_builds (h : Building i r s) (hl : r.step = .C8) (x : Word) :
    (modGoto (r.cb.toNat + choCtl) chDirBit chDirBit x r .N5 s).Builds i r s := by
  have hbit : (ins r.t chDirBit chDirBit x).getLsbD 0 = false := by
    have hword := h.word
    rw [hl] at hword
    rw [ins_getLsbD (by decide) (by decide), if_neg (by decide)]
    exact hword
  have hdef : (s.chan i).ctlUnspecified (ins r.t chDirBit chDirBit x) = false := by
    rw [Bool.eq_false_iff, ne_eq, ctlUnspecified_iff, hbit, h.en]
    simp
  refine wrGoto_builds_of_ok h (g := .chan i .ctl) (by rw [h.cb, regAt_ctl]) (writeChReg_ctl_ok hdef) ?_
    (by rw [hl]; decide) fun _ => trivial
  rw [State.tick_chan, State.setChan_chan_self, ctlAfter_en_of_clear hbit, h.en]

theorem construct_builds (h : Building i r s) (dir : Bool) (size dev : Word)
    (hN : r.step ∉ [Label.N1, .N2, .N3, .N5, .N6, .N7, .N8, .N9, .N10]) :
    (constructMicro dir size dev .N5 r s).Builds i r s := by
  unfold constructMicro
  split
  case h_1 hl =>
    unfold constructAlloc
    split
    · trivial
    · split
      · next ba u he hvalid =>
        obtain ⟨-, rfl⟩ := Prod.mk.inj he
        exact goto_builds (next := .C2) h rfl rfl (by rw [hl]; decide) h.en trivial rfl
      · trivial
  case h_2 hl =>
    rw [h.cb, rdThen_of_regAt (regAt_ctl i), readVal_ctl, encChctl_getLsbD_zero, h.en]
    exact goto_builds (next := .C3) h rfl rfl (by rw [hl]; decide) h.en trivial rfl
  case h_3 hl | h_4 hl | h_5 hl | h_6 hl | h_7 hl | h_8 hl | h_9 hl => exact absurd h.label (by rw [hl]; decide)
  case h_10 hl => exact wrGoto_block_builds (c := .addrLo) h (by decide) (by rw [hl]; decide) fun _ => trivial
  case h_11 hl => exact wrGoto_block_builds (c := .addrUp) h (by decide) (by rw [hl]; decide) fun _ => trivial
  case h_12 hl => exact wrGoto_block_builds (c := .devAddr) h (by decide) (by rw [hl]; decide) fun _ => trivial
  case h_13 hl => exact wrGoto_block_builds (c := .xferSize) h (by decide) (by rw [hl]; decide) fun _ => trivial
  case h_14 hl =>
    refine modRead_builds h (g := .chan i .ctl) (by rw [h.cb, regAt_ctl]) (by rw [hl]; decide) ?_
    exact (encChctl_getLsbD_zero _ _ _).trans h.en
  case h_15 hl => exact direct_builds h hl _
  case h_16 =>
    have hmem := mem_cleanLabels_of_ahead h.label
    simp_all [cleanLabels, newBeforeAlloc, newAfterAlloc]

theorem newChannel_builds (h : Building i r s) (slave : BitVec 8) (dir irq : Bool) (size dev : Word) :
    (newChannelMicro slave dir irq size dev i r s).Builds i r s := by
  unfold newChannelMicro
  split
  case h_1 hl =>
    rw [rdThen_of_regAt regAt_offBind]
    split
    · trivial
    · exact goto_builds (next := .N2) h rfl rfl (by rw [hl]; decide) h.en trivial rfl
  case h_2 hl => exact modRead_builds h regAt_offCtl (by rw [hl]; decide) (encCtl_getLsbD_one _ _)
  case h_3 hl => exact disable_builds h hl
  case h_4 hl => exact modRead_builds h (regAt_selOff _) (by rw [hl]; decide) trivial
  case h_5 hl =>
    exact wrGoto_builds h (regAt_selOff _) (by split <;> simp) (by split <;> simp) (by rw [hl]; decide) fun _ => trivial
  case h_6 hl => exact modRead_builds h regAt_offBind (by rw [hl]; decide) trivial
  case h_7 hl =>
    rw [modWrite, wrThen_of_ok regAt_offBind (writeReg_dmaBind _ _)]
    refine goto_builds (next := .N9) h rfl rfl (by rw [hl]; decide) ?_ trivial rfl
    rw [State.attach_chan, if_pos rfl]
    exact (writeReg_en (g := .dmaBind) rfl (by simp) i).trans h.en
  case h_8 hl => exact modRead_builds h regAt_offMask (by rw [hl]; decide) trivial
  case h_9 hl =>
    rw [modDone, modWrite, wrThen_of_ok regAt_offMask (writeReg_dmaMask _ _)]
    trivial
  case h_10 => exact construct_builds h dir size dev (by simp_all)

end

theorem exec_newChannel_finishes {s : State} {idx slave : BitVec 8} {i : Fin 8} (dir irq : Bool) (size dev : Word)
    (tmo : BitVec 30) (hn : s.NoRest) (hi : idx.toNat = i.val) (hslave : slave.toNat < 32)
    (hen : (s.chan i).en = false) : Finishes (exec (.newChannel idx slave dir irq size dev tmo) s) := by
  rw [exec_newChannel_start dir irq size dev tmo hi hslave]
  have hgo : Label.ahead .N1 < s.plan.length + 128 := Nat.lt_of_lt_of_le (by decide) (Nat.le_add_left 128 _)
  obtain ⟨q, t, he, -⟩ := drive_total (I := Building i) (D := fun _ _ => True) (μ := fun r => r.step.ahead)
    (fun _ _ _ h hb => hb.building h) (fun _ _ h => newChannel_builds h slave dir irq size dev) (s.plan.length + 128)
    (SeqRun.init (.newChannel idx slave dir irq size dev tmo) .N1 (chanBase i)) s
    ⟨chanBase_toNat i, (by decide : 0 < Label.ahead .N1), hen, trivial⟩ hn hgo
  rw [he]
  exact finishes_respond t q

/-! ## Every driver command -/

theorem State.NoRest.seqAfter {s : State} (h : s.NoRest) : ∃ p q, s.seqAfter p q := by
  obtain ⟨p, q, hp, -⟩ := seqTurn_of_noRest h
  exact ⟨p, q, hp⟩

/-- A driver command that is no ContractViolation ends with SEQ IDLE. -/
theorem exec_finishes {s : State} {c : Instr} (hdriver : isDriver c = true) (hn : s.NoRest) (hready : s.readyFor c)
    (hcause : s.contractCause c = false) : Finishes (exec c s) := by
  obtain ⟨p, q, hp⟩ := hn.seqAfter
  obtain ⟨p₁, p₂, q', hp'⟩ := hn.seqAfterTwice
  cases c with
  | fldRd | fldWr | fldMod => cases hdriver
  | ctrlReset =>
    obtain ⟨t, he, -⟩ := exec_ctrlReset hn
    exact ⟨_, he, rfl⟩
  | ctrlEnable => exact ⟨_, controllerEnableAndDisable s p₁ p₂ q' true hp', rfl⟩
  | ctrlDisable => exact ⟨_, controllerEnableAndDisable s p₁ p₂ q' false hp', rfl⟩
  | handleIrq => exact ⟨_, handleIrqReportsAndClears s p₁ p₂ q' hp', rfl⟩
  | newChannel idx slave dir irq size dev tmo =>
    simp only [State.contractCause, Bool.or_eq_false_iff, decide_eq_false_iff_not, Nat.not_le] at hcause
    obtain ⟨hidx, hslave⟩ := hcause
    obtain ⟨-, -, hen⟩ := hready ⟨idx.toNat, hidx⟩ (chanIdx?_of_lt hidx)
    exact exec_newChannel_finishes dir irq size dev tmo hn rfl hslave (hen _ _ _ _ _ _ _ rfl)
  | isComplete idx =>
    obtain ⟨hfar, hnear⟩ := isCompleteReadsFlag s idx
    by_cases hidx : idx.toNat < 8
    · exact ⟨_, hnear ⟨idx.toNat, hidx⟩ p q rfl hp, rfl⟩
    · exact ⟨_, hfar (Nat.le_of_not_lt hidx), rfl⟩
  | clrComplete idx =>
    obtain ⟨hfar, hnear⟩ := clearCompleteClearsOneFlag s idx
    by_cases hidx : idx.toNat < 8
    · exact ⟨_, hnear ⟨idx.toNat, hidx⟩ p q rfl hp, rfl⟩
    · exact ⟨_, hfar (Nat.le_of_not_lt hidx), rfl⟩
  | setMask idx masked =>
    have hidx : idx.toNat < 8 := Nat.lt_of_not_le (of_decide_eq_false hcause)
    exact ⟨_, (setMaskChangesOneBit s idx masked).2 ⟨idx.toNat, hidx⟩ p₁ p₂ q' rfl hp', rfl⟩
  | chActivate idx =>
    have hidx : idx.toNat < 8 := Nat.lt_of_not_le (of_decide_eq_false hcause)
    obtain ⟨hdesc, hsrst, -⟩ := hready ⟨idx.toNat, hidx⟩ (chanIdx?_of_lt hidx)
    obtain ⟨x, n, he⟩ :=
      (activateEnablesChannel s idx ⟨idx.toNat, hidx⟩ rfl (hdesc rfl)).1 (hsrst idx rfl) p₁ p₂ q' hp'
    exact ⟨_, he, rfl⟩
  | chDeactivate idx =>
    have hidx : idx.toNat < 8 := Nat.lt_of_not_le (of_decide_eq_false hcause)
    obtain ⟨hdesc, -⟩ := hready ⟨idx.toNat, hidx⟩ (chanIdx?_of_lt hidx)
    obtain ⟨n, he⟩ := deactivateRequestsDisable s idx ⟨idx.toNat, hidx⟩ p₁ p₂ q' rfl (hdesc rfl) hp'
    exact ⟨_, he, rfl⟩
  | chIsRunning idx =>
    have hidx : idx.toNat < 8 := Nat.lt_of_not_le (of_decide_eq_false hcause)
    obtain ⟨hdesc, -⟩ := hready ⟨idx.toNat, hidx⟩ (chanIdx?_of_lt hidx)
    exact ⟨_, isRunningReadsLiveBit s idx ⟨idx.toNat, hidx⟩ p q rfl (hdesc rfl) hp, rfl⟩
  | bufWr idx off data =>
    cases hi : chanIdx? idx with
    | none => simp [State.contractCause, hi] at hcause
    | some i =>
      obtain ⟨d, hd⟩ := Option.isSome_iff_exists.1 ((hready i hi).1 rfl)
      simp only [State.contractCause, hi, hd, Option.any_some, decide_eq_false_iff_not, Nat.not_lt] at hcause
      exact exec_bufWr_finishes hn (chanIdx?_eq_some hi) hd (decide_eq_true hcause)
  | bufRd idx off n =>
    cases hi : chanIdx? idx with
    | none => simp [State.contractCause, hi] at hcause
    | some i =>
      obtain ⟨d, hd⟩ := Option.isSome_iff_exists.1 ((hready i hi).1 rfl)
      simp only [State.contractCause, hi, hd, Option.any_some, decide_eq_false_iff_not, Nat.not_lt] at hcause
      obtain ⟨t, he, -⟩ := exec_bufRd_fetches hn (chanIdx?_eq_some hi) hd hcause
      exact ⟨_, he, rfl⟩

/-- Settles O30: a command with a cause of R252 is a ContractViolation, any other finishes; both respond once. -/
theorem driverCommandsRespondOnce : Obligations.DriverCommandsRespondOnce := by
  intro s c hdriver hn hready
  have hfinishes : Finishes (exec c s) := by
    cases hcause : s.contractCause c with
    | true => exact ⟨_, (contractViolationsAsListed s c).1 hcause, rfl⟩
    | false => exact exec_finishes hdriver hn hready hcause
  obtain ⟨t, he, hidle⟩ := hfinishes
  obtain ⟨q, hq⟩ := exec_one_response he hidle
  exact ⟨t, q, he, hidle, hq⟩

end Sys2Proof.Machine
end

section
/-! SUPPORT. Under the launch premise no driver command is refused, wherever a rest of the schedule cuts it
(70_reset_and_hazards.md R297, R298): SEQ reaches a write of DMA_CTL or CH_CTL only with a word, and in a state, that
give it a meaning (R78, R79), and the other agents do not take that away (R20). -/

namespace Sys2Proof.Machine

open Sys2Proof.Config

/-! ## Outcomes and micro-steps -/

/-- The outcome is no refusal. -/
def Unrefused (o : Out) : Prop := Ends (fun _ => True) (fun _ => False) (fun _ => True) o

/-- A micro-step that is not refused and goes on only to positions where `I` holds. -/
def Micro.Goes (I : SeqRun → State → Prop) (m : Micro) : Prop :=
  m.Holds I (fun _ _ => True) (fun _ => False) (fun _ => True)

section
variable {f : SeqRun → State → Micro} {I : SeqRun → State → Prop} {cmd : Instr} {lbl : Label} {cb : Nat} {s : State}

theorem start_unrefused (hother : ∀ r s t, I r s → Between s t → I r t) (hstep : ∀ r s, I r s → (f r s).Goes I)
    (h : I (SeqRun.init cmd lbl cb) s) : Unrefused (start f cmd lbl cb s) :=
  drive_ends hother hstep (fun _ _ _ => trivial) (fun _ _ _ => trivial) _ _ s h

/-- A command of whose positions nothing is asked. -/
theorem start_unrefused_of_forall (hstep : ∀ r s, (f r s).Goes fun _ _ => True) :
    Unrefused (start f cmd lbl cb s) :=
  start_unrefused (fun _ _ _ _ _ => trivial) (fun r s _ => hstep r s) trivial

theorem withIndex_unrefused {idx : BitVec 8} {k : Fin 8 → Out} (hk : ∀ i, chanIdx? idx = some i → Unrefused (k i)) :
    Unrefused (withIndex idx s k) := by
  unfold withIndex
  split
  · trivial
  · next i hi => exact hk i hi

theorem withHandle_unrefused {idx : BitVec 8} {k : Fin 8 → Desc → Out}
    (hdesc : ∀ i, chanIdx? idx = some i → (s.desc i).isSome = true)
    (hk : ∀ i d, chanIdx? idx = some i → Unrefused (k i d)) : Unrefused (withHandle idx s k) := by
  refine withIndex_unrefused fun i hi => ?_
  obtain ⟨d, hd⟩ := Option.isSome_iff_exists.1 (hdesc i hi)
  rw [hd]
  exact hk i d hi

end

/-! ## One access -/

section
variable {I : SeqRun → State → Prop} {r : SeqRun} {s u : State} {off : Nat} {g : Reg} {v : Word}

theorem rdThen_goes {k : Word → State → Micro} (hg : regAt off = some g)
    (hk : (k (s.readVal g) ((s.tick g.readDraws).log (.rd .seq off (s.readVal g)))).Goes I) :
    (rdThen off s k).Goes I := by
  rwa [rdThen_of_regAt hg]

theorem modRead_goes {next : Label} (hg : regAt off = some g)
    (hI : I { r with t := s.readVal g, step := next } ((s.tick g.readDraws).log (.rd .seq off (s.readVal g)))) :
    (modRead off r next s).Goes I :=
  rdThen_goes hg hI

theorem wrThen_goes {k : State → Micro} (hg : regAt off = some g) (hw : s.writeReg v g = .ok u)
    (hk : (k (u.log (.wr .seq off v))).Goes I) : (wrThen off v s k).Goes I := by
  rwa [wrThen_of_ok hg hw]

/-- A write of a register in which every word has a meaning. -/
theorem wrThen_goes_of_ne {k : State → Micro} (hg : regAt off = some g) (hctl : g ≠ .dmaCtl)
    (hch : ∀ i, g ≠ .chan i .ctl)
    (hk : ∀ u : State, (∀ j, (u.chan j).en = (s.chan j).en) → (k (u.log (.wr .seq off v))).Goes I) :
    (wrThen off v s k).Goes I := by
  obtain ⟨u, hw, hen⟩ := exists_writeReg_ok hctl hch s v
  exact wrThen_goes hg hw (hk u hen)

/-- The select registers (R123) are neither DMA_CTL nor a CH_CTL. -/
theorem selReg_ne_ctl (i : Nat) : (if i / 4 = 0 then Reg.chselL else .chselH) ≠ .dmaCtl ∧
    ∀ j, (if i / 4 = 0 then Reg.chselL else .chselH) ≠ .chan j .ctl := by
  split <;> simp

/-- A write of DMA_CTL that puts a new enable bit into a word with the current soft-reset bit is no event (R78). -/
theorem writeReg_dmaCtl_of_srst_kept {t : Word} (ht : t.getLsbD 1 = s.glb.srst) (x : Word) :
    s.writeReg (ins t ctlEnBit ctlEnBit x) .dmaCtl =
      .ok { s with glb := { s.glb with en := x.getLsbD 0, srst := s.glb.srst } } := by
  have hsrst : (ins t ctlEnBit ctlEnBit x).getLsbD 1 = s.glb.srst := by
    rw [ins_getLsbD (by decide) (by decide), if_neg (by decide), ht]
  have hen : (ins t ctlEnBit ctlEnBit x).getLsbD 0 = x.getLsbD 0 := by
    rw [ins_getLsbD (by decide) (by decide), if_pos (by decide), Nat.sub_self]
  have hevent : s.glb.ctlEvent (ins t ctlEnBit ctlEnBit x) = false := by
    rw [Bool.eq_false_iff, ne_eq, ctlEvent_iff, hsrst]
    simp +contextual
  rw [writeReg_dmaCtl_ok (.inl hevent), hsrst, hen]

/-- A CH_CTL write with the enable bit clear has a meaning on a channel that is not enabled, and where it is no event
(R79). -/
theorem ctlUnspecified_of_enable_clear {c : Chan} (hv : v.getLsbD 0 = false) (h : c.en = false ∨ v.getLsbD 1 = c.srst) :
    c.ctlUnspecified v = false := by
  rw [Bool.eq_false_iff, ne_eq, ctlUnspecified_iff, hv]
  rcases h with h | h
  · simp [h]
  · rw [h]
    simp +contextual

/-- A CH_CTL write with the soft-reset bit clear always has a meaning (R79). -/
theorem ctlUnspecified_of_srst_bit_clear {c : Chan} (hv : v.getLsbD 1 = false) : c.ctlUnspecified v = false := by
  rw [Bool.eq_false_iff, ne_eq, ctlUnspecified_iff, hv]
  simp

/-- A CH_CTL write that has a meaning and a clear enable bit leaves the channel's enable bit. -/
theorem writeReg_ctl_of_enable_clear {i : Fin 8} (hv : v.getLsbD 0 = false)
    (hdef : (s.chan i).ctlUnspecified v = false) :
    ∃ u, s.writeReg v (.chan i .ctl) = .ok u ∧ (u.chan i).en = (s.chan i).en := by
  refine ⟨_, writeChReg_ctl_ok hdef, ?_⟩
  rw [State.tick_chan, State.setChan_chan_self, ctlAfter_en_of_clear hv]

end

/-! ## What the positions need -/

/-- The controller is disabled, the first `b` channels are unbound and the select fields of the first `m` are clear:
`Wiped`, said of one state. -/
def State.Swept (s : State) (b m : Nat) : Prop := Wiped s s b m

/-- It goes by four fields of the global block. -/
theorem Wiped.swept {s e t : State} {b m : Nat} (h : Wiped s e b m) (hen : t.glb.en = e.glb.en)
    (hbound : t.glb.bound = e.glb.bound) (hl : t.glb.chselL = e.glb.chselL) (hh : t.glb.chselH = e.glb.chselH) :
    t.Swept b m where
  frame := rfl
  chan _ := .inl rfl
  unbound _ hs ht := absurd (hs.symm.trans ht) (by simp)
  en := hen.trans h.en
  bound j := by
    rw [hbound, h.bound j, Bool.and_assoc, Bool.and_self]
  sel j := by
    rw [show t.glb.sel j = e.glb.sel j by rw [Globals.sel, Globals.sel, hl, hh]]
    exact h.sel j

theorem swept_of_disabled {s : State} (h : s.glb.en = false) : s.Swept 0 0 where
  frame := rfl
  chan _ := .inl rfl
  unbound _ hs ht := absurd (hs.symm.trans ht) (by simp)
  en := h
  bound j := by simp
  sel j hj := absurd hj (Nat.not_lt_zero j)

/-- What a position needs so that the writes of DMA_CTL and of CH_CTL(i) still ahead have a meaning (R78, R79):
CTRL_RESET has swept the controller as far as its loop has come before it sets SRST; NEW_CHANNEL sets SRST, and directs
the channel, on one that is not enabled; CH_ACTIVATE finds SRST clear; a write that only disables, or enables the
controller, puts SRST back as it was read. -/
def SeqRun.fits (i : Fin 8) (r : SeqRun) (s : State) : Prop :=
  match r.step with
  | .T2 | .E2 | .N3 => r.t.getLsbD 1 = s.glb.srst
  | .T3 | .T4 => s.Swept 0 0
  | .T5 => r.i.toNat < 8 ∧ s.Swept r.i.toNat r.i.toNat
  | .T6 => r.i.toNat < 8 ∧ s.Swept r.i.toNat r.i.toNat ∧ r.t = s.glb.bound.setWidth 32
  | .T7 | .T8 | .T9 | .T10 => r.i.toNat < 8 ∧ s.Swept (r.i.toNat + 1) r.i.toNat
  | .T11 => r.i.toNat < 8 ∧ s.Swept (r.i.toNat + 1) r.i.toNat ∧ r.t = s.glb.sel r.i.toNat
  | .T12 => s.Swept 8 8
  | .T13 => s.Swept 8 8 ∧ r.t.getLsbD 0 = false
  | .K2 | .D2 => r.t.getLsbD 1 = (s.chan i).srst
  | .K4 | .K6 | .C3 | .C4 | .C5 | .C6 | .C7 => (s.chan i).en = false
  | .K5 | .K7 | .C8 => (s.chan i).en = false ∧ r.t.getLsbD 0 = false
  | .A1 => (s.chan i).srst = false
  | .A2 => r.t.getLsbD 1 = false
  | _ => True

/-- The same for a command on channel `i`, with its block offset (R23). -/
def SeqRun.fitsBlock (i : Fin 8) (r : SeqRun) (s : State) : Prop := r.cb = BitVec.ofNat 32 (chanBase i) ∧ r.fits i s

section
variable {i : Fin 8} {r : SeqRun} {s t : State}

/-- The other agents leave every position what it needs. -/
theorem Between.fits (hb : Between s t) (h : r.fits i s) : r.fits i t := by
  have hswept : ∀ {b m}, s.Swept b m → t.Swept b m := fun hs =>
    Wiped.swept hs hb.glb_en hb.glb_bound hb.glb_chselL hb.glb_chselH
  have hen : (s.chan i).en = false → (t.chan i).en = false := fun hs =>
    Bool.eq_false_iff.2 fun ht => Bool.eq_false_iff.1 hs (hb.en i ht)
  have hsel : ∀ j, t.glb.sel j = s.glb.sel j := fun j => by
    rw [Globals.sel, Globals.sel, hb.glb_chselL, hb.glb_chselH]
  unfold SeqRun.fits at h ⊢
  rw [hb.glb_srst, hb.glb_bound, hsel, hb.chan_srst i]
  split at h
  case h_1 | h_2 | h_3 | h_15 | h_16 | h_27 | h_28 => exact h
  case h_4 | h_5 | h_13 => exact hswept h
  case h_6 | h_8 | h_9 | h_10 | h_11 => exact ⟨h.1, hswept h.2⟩
  case h_7 | h_12 => exact ⟨h.1, hswept h.2.1, h.2.2⟩
  case h_14 => exact ⟨hswept h.1, h.2⟩
  case h_17 | h_18 | h_19 | h_20 | h_21 | h_22 | h_23 => exact hen h
  case h_24 | h_25 | h_26 => exact ⟨hen h.1, h.2⟩
  case h_29 => trivial

theorem Between.fitsBlock (hb : Between s t) (h : r.fitsBlock i s) : r.fitsBlock i t := ⟨h.1, hb.fits h.2⟩

end

section
variable {f : SeqRun → State → Micro} {cmd : Instr} {lbl : Label} {cb : Nat} {s : State}

/-- A command on no channel's block: any index will do. -/
theorem start_unrefused_of_fits (hstep : ∀ r s, r.fits 0 s → (f r s).Goes (SeqRun.fits 0))
    (h : (SeqRun.init cmd lbl cb).fits 0 s) : Unrefused (start f cmd lbl cb s) :=
  start_unrefused (I := SeqRun.fits 0) (fun _ _ _ hr hb => hb.fits hr) hstep h

theorem start_unrefused_of_fitsBlock {i : Fin 8}
    (hstep : ∀ r s, r.fitsBlock i s → (f r s).Goes (SeqRun.fitsBlock i))
    (h : (SeqRun.init cmd lbl (chanBase i)).fits i s) : Unrefused (start f cmd lbl (chanBase i) s) :=
  start_unrefused (I := SeqRun.fitsBlock i) (fun _ _ _ hr hb => hb.fitsBlock hr) hstep ⟨rfl, h⟩

end

/-! ## CTRL_RESET, CTRL_ENABLE, CTRL_DISABLE (R190, R191, R192) -/

section
variable {i : Fin 8} {r : SeqRun} {s : State}

/-- The end of one turn of the loop: the next channel is swept too. -/
theorem resetNext_fits (hn : r.i.toNat < 8) (h : s.Swept (r.i.toNat + 1) (r.i.toNat + 1)) : (resetNext r).fits i s := by
  unfold SeqRun.fits
  rw [resetNext_step, resetNext_i hn]
  by_cases hlt : r.i.toNat + 1 < nCh
  · rw [if_pos hlt]
    exact ⟨hlt, h⟩
  · rw [if_neg hlt]
    rwa [show r.i.toNat + 1 = 8 from Nat.le_antisymm hn (Nat.le_of_not_lt hlt)] at h

theorem ctrlReset_goes (h : r.fits i s) : (ctrlResetMicro r s).Goes (SeqRun.fits i) := by
  unfold ctrlResetMicro
  split
  case h_1 => exact modRead_goes regAt_offCtl (encCtl_getLsbD_one _ _)
  case h_2 hl =>
    simp only [SeqRun.fits, hl] at h
    exact wrThen_goes regAt_offCtl (writeReg_dmaCtl_of_srst_kept h 0) (swept_of_disabled rfl)
  case h_3 hl =>
    simp only [SeqRun.fits, hl] at h
    exact modRead_goes regAt_offMask (h.swept rfl rfl rfl rfl)
  case h_4 hl =>
    simp only [SeqRun.fits, hl] at h
    exact wrThen_goes regAt_offMask (writeReg_dmaMask _ _) ⟨Nat.zero_lt_succ 7, h.swept rfl rfl rfl rfl⟩
  case h_5 hl =>
    simp only [SeqRun.fits, hl] at h
    obtain ⟨hn, hs⟩ := h
    have hbit : (s.readVal .dmaBind).getLsbD r.i.toNat = s.glb.bound.getLsbD r.i.toNat :=
      bindWord_bound s.glb.bound ⟨r.i.toNat, hn⟩
    refine rdThen_goes regAt_offBind ?_
    cases hb : s.glb.bound.getLsbD r.i.toNat with
    | true =>
      rw [hbit, hb]
      exact ⟨hn, hs.swept rfl rfl rfl rfl, rfl⟩
    | false =>
      rw [hbit, hb]
      exact ⟨hn, (hs.skip hb).swept rfl rfl rfl rfl⟩
  case h_6 hl =>
    simp only [SeqRun.fits, hl] at h
    obtain ⟨hn, hs, ht⟩ := h
    have hword : ins r.t r.i.toNat r.i.toNat 0 = (withBit s.glb.bound ⟨r.i.toNat, hn⟩ false).setWidth 32 := by
      rw [ht]
      exact ins_bound s.glb.bound ⟨r.i.toNat, hn⟩ false
    refine wrThen_goes regAt_offBind (writeReg_dmaBind _ _) ?_
    rw [hword]
    exact ⟨hn, (hs.unbind hn).swept rfl rfl rfl rfl⟩
  case h_7 hl =>
    simp only [SeqRun.fits, hl] at h
    exact modRead_goes regAt_offMask ⟨h.1, h.2.swept rfl rfl rfl rfl⟩
  case h_8 hl =>
    simp only [SeqRun.fits, hl] at h
    exact wrThen_goes regAt_offMask (writeReg_dmaMask _ _) ⟨h.1, h.2.swept rfl rfl rfl rfl⟩
  case h_9 hl =>
    simp only [SeqRun.fits, hl] at h
    exact wrThen_goes regAt_offStat (writeReg_dmaStat _ _) ⟨h.1, h.2.swept rfl rfl rfl rfl⟩
  case h_10 hl =>
    simp only [SeqRun.fits, hl] at h
    exact modRead_goes (regAt_selOff _) ⟨h.1, h.2.swept rfl rfl rfl rfl, readVal_sel s _⟩
  case h_11 hl =>
    simp only [SeqRun.fits, hl] at h
    obtain ⟨hn, hs, ht⟩ := h
    have hw := writeReg_sel s r.i.toNat fun w => ins w (selHi r.i.toNat) (selLo r.i.toNat) 0
    rw [modWrite, ht]
    exact wrThen_goes (regAt_selOff _) hw (resetNext_fits hn (hs.deselect.swept rfl rfl rfl rfl))
  case h_12 hl =>
    simp only [SeqRun.fits, hl] at h
    exact modRead_goes regAt_offCtl ⟨h.swept rfl rfl rfl rfl, (encCtl_getLsbD_zero _ _).trans h.en⟩
  case h_13 hl =>
    simp only [SeqRun.fits, hl] at h
    obtain ⟨hs, ht⟩ := h
    have hquiesced : s.glb.quiesced (ins r.t ctlSrstBit ctlSrstBit 1) = true := by
      rw [quiesced_iff, ins_getLsbD (by decide) (by decide), if_neg (by decide)]
      exact ⟨hs.en, ht, hs.bound_eq_zero, hs.chselL_eq_zero, hs.chselH_eq_zero⟩
    exact wrThen_goes regAt_offCtl (writeReg_dmaCtl_ok (.inr hquiesced)) trivial
  case h_14 => exact modRead_goes regAt_offCtl trivial
  case h_15 =>
    have hevent : s.glb.ctlEvent (ins r.t ctlSrstBit ctlSrstBit 0) = false := by
      rw [Bool.eq_false_iff, ne_eq, ctlEvent_iff, ins_getLsbD (by decide) (by decide), if_pos (by decide)]
      simp
    exact wrThen_goes regAt_offCtl (writeReg_dmaCtl_ok (.inl hevent)) trivial
  case h_16 => exact wrThen_goes regAt_offMask (writeReg_dmaMask _ _) trivial
  case h_17 => trivial

theorem ctrlEnable_goes (h : r.fits i s) : (ctrlEnableMicro r s).Goes (SeqRun.fits i) := by
  unfold ctrlEnableMicro
  split
  · exact modRead_goes regAt_offCtl (encCtl_getLsbD_one _ _)
  · next hl =>
    simp only [SeqRun.fits, hl] at h
    exact wrThen_goes regAt_offCtl (writeReg_dmaCtl_of_srst_kept h 1) trivial
  · trivial

theorem ctrlDisable_goes (h : r.fits i s) : (ctrlDisableMicro r s).Goes (SeqRun.fits i) := by
  unfold ctrlDisableMicro
  split
  · exact modRead_goes regAt_offCtl (encCtl_getLsbD_one _ _)
  · next hl =>
    simp only [SeqRun.fits, hl] at h
    exact wrThen_goes regAt_offCtl (writeReg_dmaCtl_of_srst_kept h 0) trivial
  · trivial

/-! ## CH_ACTIVATE, CH_DEACTIVATE, CH_IS_RUNNING (R163, R164, R165) -/

theorem chActivate_goes (h : r.fitsBlock i s) : (chActivateMicro r s).Goes (SeqRun.fitsBlock i) := by
  obtain ⟨hcb, h⟩ := h
  unfold chActivateMicro
  split
  · next hl =>
    simp only [SeqRun.fits, hl] at h
    exact modRead_goes (regAt_cb hcb .ctl) ⟨hcb, (encChctl_getLsbD_one _ _ _).trans h⟩
  · next hl =>
    simp only [SeqRun.fits, hl] at h
    have hbit : (ins r.t chEnBit chEnBit 1).getLsbD 1 = false := by
      rwa [ins_getLsbD (by decide) (by decide), if_neg (by decide)]
    exact wrThen_goes (regAt_cb hcb .ctl) (writeChReg_ctl_ok (ctlUnspecified_of_srst_bit_clear hbit)) trivial
  · trivial

/-- Step M2 that asks for the channel's disable and puts SRST back as it was read (R162, R164). -/
theorem wrThen_disable_goes {I : SeqRun → State → Prop} {k : State → Micro} (hcb : r.cb = BitVec.ofNat 32 (chanBase i))
    (ht : r.t.getLsbD 1 = (s.chan i).srst) (hk : ∀ u, (k u).Goes I) :
    (wrThen (r.cb.toNat + choCtl) (ins r.t chEnBit chEnBit 0) s k).Goes I := by
  have hsrst : (ins r.t chEnBit chEnBit 0).getLsbD 1 = (s.chan i).srst := by
    rwa [ins_getLsbD (by decide) (by decide), if_neg (by decide)]
  have hclear : (ins r.t chEnBit chEnBit 0).getLsbD 0 = false := by
    rw [ins_getLsbD (by decide) (by decide), if_pos (by decide)]
    simp
  exact wrThen_goes (regAt_cb hcb .ctl) (writeChReg_ctl_ok (ctlUnspecified_of_enable_clear hclear (.inr hsrst))) (hk _)

theorem chDeactivate_goes (h : r.fitsBlock i s) : (chDeactivateMicro r s).Goes (SeqRun.fitsBlock i) := by
  obtain ⟨hcb, h⟩ := h
  unfold chDeactivateMicro
  split
  · exact modRead_goes (regAt_cb hcb .ctl) ⟨hcb, encChctl_getLsbD_one _ _ _⟩
  · next hl =>
    simp only [SeqRun.fits, hl] at h
    exact wrThen_disable_goes hcb h fun _ => trivial
  · trivial

theorem chIsRunning_goes (h : r.fitsBlock i s) : (chIsRunningMicro r s).Goes (SeqRun.fitsBlock i) := by
  unfold chIsRunningMicro
  split
  · exact rdThen_goes (regAt_cb h.1 .ctl) trivial
  · trivial

/-! ## NEW_CHANNEL (R193, R161, R162) -/

/-- Step M2 on another bit of CH_CTL, on a channel that was not enabled when the word was read either. -/
theorem modGoto_ctl_goes {b : Nat} {x : Word} {next : Label} (hcb : r.cb = BitVec.ofNat 32 (chanBase i))
    (h : (s.chan i).en = false ∧ r.t.getLsbD 0 = false) (hb : 0 < b ∧ b ≤ 31)
    (hnext : ∀ u : State, (u.chan i).en = false → ({ r with step := next } : SeqRun).fits i u) :
    (modGoto (r.cb.toNat + choCtl) b b x r next s).Goes (SeqRun.fitsBlock i) := by
  obtain ⟨hen, ht⟩ := h
  have hclear : (ins r.t b b x).getLsbD 0 = false := by
    rwa [ins_getLsbD (Nat.le_refl b) hb.2, if_neg (by omega)]
  obtain ⟨u, hw, hu⟩ := writeReg_ctl_of_enable_clear hclear (ctlUnspecified_of_enable_clear hclear (.inl hen))
  exact wrThen_goes (regAt_cb hcb .ctl) hw ⟨hcb, hnext _ (hu.trans hen)⟩

/-- A plain write of another register of the block. -/
theorem wrGoto_block_goes {c : ChReg} {v : Word} {next : Label} (hcb : r.cb = BitVec.ofNat 32 (chanBase i))
    (hen : (s.chan i).en = false) (hc : c ≠ .ctl)
    (hnext : ∀ u : State, (u.chan i).en = false → ({ r with step := next } : SeqRun).fits i u) :
    (wrGoto (r.cb.toNat + c.off) v r next s).Goes (SeqRun.fitsBlock i) :=
  wrThen_goes_of_ne (regAt_cb hcb c) (by simp) (fun _ hj => hc (Reg.chan.inj hj).2) fun _ hu =>
    ⟨hcb, hnext _ ((hu i).trans hen)⟩

theorem construct_goes (h : r.fitsBlock i s) (dir : Bool) (size dev : Word) :
    (constructMicro dir size dev .N5 r s).Goes (SeqRun.fitsBlock i) := by
  obtain ⟨hcb, h⟩ := h
  have hread : (s.readVal (.chan i .ctl)).getLsbD 0 = (s.chan i).en := encChctl_getLsbD_zero _ _ _
  unfold constructMicro
  split
  case h_1 =>
    unfold constructAlloc
    split
    · trivial
    · split
      · exact ⟨hcb, trivial⟩
      · trivial
  case h_2 =>
    refine rdThen_goes (regAt_cb hcb .ctl) ⟨hcb, ?_⟩
    cases hen : (s.chan i).en with
    | true =>
      rw [hread, hen]
      trivial
    | false =>
      rw [hread, hen]
      exact hen
  case h_3 => exact modRead_goes (regAt_cb hcb .ctl) ⟨hcb, encChctl_getLsbD_one _ _ _⟩
  case h_4 hl =>
    simp only [SeqRun.fits, hl] at h
    exact wrThen_disable_goes hcb h fun _ => ⟨hcb, trivial⟩
  case h_5 hl =>
    refine rdThen_goes (regAt_cb hcb .ctl) ?_
    cases hen : (s.chan i).en with
    | true =>
      rw [hread, hen]
      exact ⟨hcb, by simp only [SeqRun.fits, hl]⟩
    | false =>
      rw [hread, hen]
      exact ⟨hcb, hen⟩
  case h_6 hl | h_8 hl | h_14 hl =>
    simp only [SeqRun.fits, hl] at h
    exact modRead_goes (regAt_cb hcb .ctl) ⟨hcb, h, hread.trans h⟩
  case h_7 hl | h_9 hl =>
    simp only [SeqRun.fits, hl] at h
    exact modGoto_ctl_goes hcb h (by decide) fun _ hu => hu
  case h_10 hl =>
    exact wrGoto_block_goes (c := .addrLo) hcb (by simpa only [SeqRun.fits, hl] using h) (by decide) fun _ hu => hu
  case h_11 hl =>
    exact wrGoto_block_goes (c := .addrUp) hcb (by simpa only [SeqRun.fits, hl] using h) (by decide) fun _ hu => hu
  case h_12 hl =>
    exact wrGoto_block_goes (c := .devAddr) hcb (by simpa only [SeqRun.fits, hl] using h) (by decide) fun _ hu => hu
  case h_13 hl =>
    exact wrGoto_block_goes (c := .xferSize) hcb (by simpa only [SeqRun.fits, hl] using h) (by decide) fun _ hu => hu
  case h_15 hl =>
    simp only [SeqRun.fits, hl] at h
    exact modGoto_ctl_goes hcb h (by decide) fun _ _ => trivial
  case h_16 => trivial

theorem newChannel_goes (h : r.fitsBlock i s) (slave : BitVec 8) (dir irq : Bool) (size dev : Word) :
    (newChannelMicro slave dir irq size dev i r s).Goes (SeqRun.fitsBlock i) := by
  unfold newChannelMicro
  split
  case h_1 =>
    refine rdThen_goes regAt_offBind ?_
    split
    · trivial
    · exact ⟨h.1, trivial⟩
  case h_2 => exact modRead_goes regAt_offCtl ⟨h.1, encCtl_getLsbD_one _ _⟩
  case h_3 hl =>
    obtain ⟨hcb, h⟩ := h
    simp only [SeqRun.fits, hl] at h
    exact wrThen_goes regAt_offCtl (writeReg_dmaCtl_of_srst_kept h 0) ⟨hcb, trivial⟩
  case h_4 => exact modRead_goes (regAt_selOff _) ⟨h.1, trivial⟩
  case h_5 =>
    exact wrThen_goes_of_ne (regAt_selOff _) (selReg_ne_ctl _).1 (selReg_ne_ctl _).2 fun _ _ => ⟨h.1, trivial⟩
  case h_6 => exact modRead_goes regAt_offBind ⟨h.1, trivial⟩
  case h_7 => exact wrThen_goes regAt_offBind (writeReg_dmaBind _ _) ⟨h.1, trivial⟩
  case h_8 => exact modRead_goes regAt_offMask ⟨h.1, trivial⟩
  case h_9 => exact wrThen_goes regAt_offMask (writeReg_dmaMask _ _) trivial
  case h_10 => exact construct_goes h dir size dev

end

/-! ## The commands that write neither register (R166, R167, R194, R195, R196, R221) -/

section
variable {r : SeqRun} {s : State}

theorem isComplete_goes (i : Fin 8) : (isCompleteMicro i r s).Goes fun _ _ => True := by
  unfold isCompleteMicro
  split
  · exact rdThen_goes regAt_offStat trivial
  · trivial

theorem clrComplete_goes (i : Fin 8) : (clrCompleteMicro i r s).Goes fun _ _ => True := by
  unfold clrCompleteMicro
  split
  · exact wrThen_goes regAt_offStat (writeReg_dmaStat _ _) trivial
  · trivial

theorem setMask_goes (i : Fin 8) (masked : Bool) : (setMaskMicro i masked r s).Goes fun _ _ => True := by
  unfold setMaskMicro
  split
  · exact modRead_goes regAt_offMask trivial
  · exact wrThen_goes regAt_offMask (writeReg_dmaMask _ _) trivial
  · trivial

theorem handleIrq_goes : (handleIrqMicro r s).Goes fun _ _ => True := by
  unfold handleIrqMicro
  split
  · exact modRead_goes regAt_offStat trivial
  · exact wrThen_goes regAt_offStat (writeReg_dmaStat _ _) trivial
  · trivial

theorem bufWr_goes (i : Fin 8) (off : Word) (data : List Byte) : (bufWrMicro i off data r s).Goes fun _ _ => True := by
  unfold bufWrMicro
  split
  · split
    · trivial
    · split
      · trivial
      · trivial
  · trivial

theorem bufRd_goes (i : Fin 8) (off : Word) (n : BitVec 16) : (bufRdMicro i off n r s).Goes fun _ _ => True := by
  unfold bufRdMicro
  split
  · split
    · trivial
    · split
      · trivial
      · trivial
  · trivial

end

/-! ## Every driver command -/

/-- A driver command under the launch premise passes its checks, and no micro-step of it is refused. -/
theorem exec_unrefused {s : State} {c : Instr} (hdriver : isDriver c = true)
    (hready : ∀ i, targetOf c = some i → (needsChannel c = true → (s.desc i).isSome = true) ∧
      ∀ idx, c = .chActivate idx → (s.chan i).srst = false) : Unrefused (exec c s) := by
  cases c with
  | fldRd | fldWr | fldMod => cases hdriver
  | ctrlReset => exact start_unrefused_of_fits (fun _ _ h => ctrlReset_goes h) trivial
  | ctrlEnable => exact start_unrefused_of_fits (fun _ _ h => ctrlEnable_goes h) trivial
  | ctrlDisable => exact start_unrefused_of_fits (fun _ _ h => ctrlDisable_goes h) trivial
  | handleIrq => exact start_unrefused_of_forall fun _ _ => handleIrq_goes
  | newChannel idx slave dir irq size dev tmo =>
    refine withIndex_unrefused fun i _ => ?_
    split
    · trivial
    · exact start_unrefused_of_fitsBlock (fun _ _ h => newChannel_goes h slave dir irq size dev) trivial
  | isComplete idx =>
    simp only [exec, execIsComplete]
    split
    · trivial
    · exact start_unrefused_of_forall fun _ _ => isComplete_goes _
  | clrComplete idx =>
    simp only [exec, execClrComplete]
    split
    · trivial
    · exact start_unrefused_of_forall fun _ _ => clrComplete_goes _
  | setMask idx masked =>
    exact withIndex_unrefused fun i _ => start_unrefused_of_forall fun _ _ => setMask_goes i masked
  | chActivate idx =>
    exact withHandle_unrefused (fun i hi => (hready i hi).1 rfl) fun i _ hi =>
      start_unrefused_of_fitsBlock (fun _ _ h => chActivate_goes h) ((hready i hi).2 idx rfl)
  | chDeactivate idx =>
    exact withHandle_unrefused (fun i hi => (hready i hi).1 rfl) fun i _ _ =>
      start_unrefused_of_fitsBlock (fun _ _ h => chDeactivate_goes h) trivial
  | chIsRunning idx =>
    exact withHandle_unrefused (fun i hi => (hready i hi).1 rfl) fun i _ _ =>
      start_unrefused_of_fitsBlock (fun _ _ h => chIsRunning_goes h) trivial
  | bufWr idx off data =>
    refine withHandle_unrefused (fun i hi => (hready i hi).1 rfl) fun i d _ => ?_
    split
    · split
      · trivial
      · exact start_unrefused_of_forall fun _ _ => bufWr_goes i off data
    · trivial
  | bufRd idx off n =>
    refine withHandle_unrefused (fun i hi => (hready i hi).1 rfl) fun i d _ => ?_
    split
    · split
      · trivial
      · exact start_unrefused_of_forall fun _ _ => bufRd_goes i off n
    · trivial

/-- Settles O29. -/
theorem driverCommandsNeverRefused : Obligations.DriverCommandsNeverRefused := by
  intro s c hdriver hready x hx
  have h := exec_unrefused hdriver hready
  rw [hx] at h
  exact h

end Sys2Proof.Machine
end
